-- ==== Sys2Proof/Word.lean ====
section
/-! DEFINITION. The two bit-vector types of the RSQR engine: the byte (a field element, a codeword, a byte of `BUF`)
and the 32-bit command word (R21, R26, R90). -/

namespace Sys2Proof

/-- One byte: an element of GF(256), a codeword or a byte of `BUF` (R21, R120). -/
abbrev Byte := BitVec 8

/-- One 32-bit word: a command word, or what the read port returns (R31, R90). -/
abbrev Word := BitVec 32

end Sys2Proof
end

