-- ==== Sys2Proof/Config.lean ====
section
/-! DEFINITION. The configuration record `Cfg` of rule R6: the parameters R6 calls "table", as data; the open parameter
`HAS_RSDEC` and the named alternative `MICRO_SCORE`; and R6's fixed sizes.  The defaults of the tables stand in
`Machine/Tables.lean`. -/

namespace Sys2Proof

/-- One version's rows of the block table (R184): `T`, the total number of codewords, and for the levels L, M, Q and H
the pair (`E`, correction codewords per block; `nb`, number of blocks). -/
structure BlockRow where
  total : Nat
  l : Nat × Nat
  m : Nat × Nat
  q : Nat × Nat
  h : Nat × Nat
  deriving DecidableEq, Repr

/-- One row of the Micro block table (R185): a version and a level code, and of that pair's one block the total number
`T` of codewords and the number `E` of correction codewords; the mark "4-bit last" and the symbol number of the pair. -/
structure MicroRow where
  version : Int
  level : Nat
  total : Nat
  ecLen : Nat
  fourBitLast : Bool
  symbol : Nat
  deriving DecidableEq, Repr

/-- A mask formula as data: a natural-number expression over the row and the column, with `div` and `mod` by constants
(R251).  Its mask inverts a data module where the expression is 0. -/
inductive MaskExpr where
  | row
  | col
  | add (a b : MaskExpr)
  | mul (a b : MaskExpr)
  | div (a : MaskExpr) (k : Nat)
  | mod (a : MaskExpr) (k : Nat)
  deriving DecidableEq, Repr

/-- The parameters of the configuration record that rule R6 calls "table": constants that no command writes (R52). -/
structure CfgTables where
  /-- `GF_MODULUS`: the field polynomial as a 9-bit number, bit `i` the coefficient of `t^i` (R120). -/
  gfModulus : BitVec 9
  /-- `BLOCKS` of full symbols: the entry at index `v - 1` is version `v` (R184). -/
  blocks : List BlockRow
  /-- `BLOCKS` of Micro symbols, one row for every pair; a pair without a row does not exist (R55, R185). -/
  microBlocks : List MicroRow
  /-- `ALIGN` of full symbols: the entry at index `v - 1` is version `v` (R226). -/
  align : List (List Nat)
  /-- `MASKF_FULL`: entry `k` is mask `k` of full symbols (R251). -/
  maskFull : List MaskExpr
  /-- `MASKF_MICRO`: entry `k` is mask `k` of Micro symbols (R252). -/
  maskMicro : List MaskExpr
  /-- `W1`, the weight of a run of five equal modules (R256). -/
  w1 : Nat
  /-- `W2`, the weight of a uniform 2 x 2 block (R257). -/
  w2 : Nat
  /-- `W3`, the weight of a finder-like pattern (R258). -/
  w3 : Nat
  /-- `W4`, the weight of one step of imbalance (R259). -/
  w4 : Nat
  /-- `FMT_GEN`: the generator of the (15,5) code (R266). -/
  fmtGen : Nat
  /-- `FMT_XOR_FULL` (R266). -/
  fmtXorFull : Nat
  /-- `FMT_XOR_MICRO` (R266). -/
  fmtXorMicro : Nat
  /-- `VER_GEN`: the generator of the (18,6) code (R269). -/
  verGen : Nat
  deriving DecidableEq, Repr

/-- The two readings of the Micro score (R261): D0's formula `doc`, the default, and the named alternative `iso`. -/
inductive MicroScore where
  | doc
  | iso
  deriving DecidableEq, Repr

/-- The configuration record `Cfg` of one engine (R6).  No command writes it and reset does not touch it (R52, R320). -/
structure Config extends CfgTables where
  /-- `HAS_RSDEC`: the Reed-Solomon decode extension is present (R200).  Open: no source gives a default. -/
  hasRsdec : Bool
  /-- `MICRO_SCORE` (R261). -/
  microScore : MicroScore
  deriving DecidableEq, Repr

/-- `BUF_SIZE`: bytes of buffer memory (R6, R26). -/
abbrev bufSize : Nat := 8192

/-- `DBASE`: where the data codeword sequence stands (R26). -/
abbrev dbase : Nat := 0x0000

/-- `CBASE`: where the final codeword sequence stands (R26). -/
abbrev cbase : Nat := 0x1000

/-- `NMAX`: the side of the module array, that of version 40 (R27). -/
abbrev nmax : Nat := 177

/-- `PCAP`: coefficients of one polynomial register (R23). -/
abbrev pcap : Nat := 32

end Sys2Proof
end

