-- ==== Sys2Proof/Syntax.lean ====
section
/-! DEFINITION. The 45 commands of the RSQR engine as syntax: one constructor per row of `spec/opcode_table.json`
(R2, R95), each operand with the width its field has there. -/

namespace Sys2Proof

/-- A scalar register specifier: any value 0 to 15 names `x[value]` (R92). -/
abbrev XReg := Fin 16

/-- A polynomial register specifier: 0 to 7 names `p[value]`; 8 to 15 is illegal and is refused by the decoder (R92). -/
abbrev PReg := Fin 8

/-- The four control and status registers that `CFG.SET` names, in index order (R31, R281). -/
inductive CfgReg where
  | version
  | ecl
  | maskreq
  | dcount
  deriving DecidableEq, Repr

/-- One command (R95).  Operands keep the order of the opcode table's fields. -/
inductive Instr where
  -- system (47_system.md)
  | nop
  | cfgSet (csr : CfgReg) (imm : BitVec 16)
  -- scalar field arithmetic (41_gf_arithmetic.md)
  | gfLi (rd : XReg) (imm : BitVec 8)
  | gfMv (rd ra : XReg)
  | gfInv (rd ra : XReg)
  | gfExp (rd ra : XReg)
  | gfLog (rd ra : XReg)
  | gfAdd (rd ra rb : XReg)
  | gfMul (rd ra rb : XReg)
  | gfDiv (rd ra rb : XReg)
  -- loads and stores (41_gf_arithmetic.md)
  | ldb (rd : XReg) (addr : BitVec 16)
  | stb (rs : XReg) (addr : BitVec 16)
  | ldbx (rd ra : XReg) (base : BitVec 16)
  | stbx (rs ra : XReg) (base : BitVec 16)
  -- polynomials (42_polynomial.md)
  | pClr (pd : PReg)
  | pMv (pd pa : PReg)
  | pLd (pd : PReg) (len : BitVec 6) (addr : BitVec 13)
  | pSt (ps : PReg) (addr : BitVec 13)
  | pGetc (rd : XReg) (pa : PReg) (index : BitVec 16)
  | pSetc (pd : PReg) (rs : XReg) (index : BitVec 16)
  | pAdd (pd pa pb : PReg)
  | pMul (pd pa pb : PReg)
  | pMod (pd pa pb : PReg)
  | pScale (pd pa : PReg) (rb : XReg)
  | pShl (pd pa : PReg) (k : BitVec 16)
  | pEval (rd : XReg) (pa : PReg) (rb : XReg)
  | pDeriv (pd pa : PReg)
  | pDeg (rd : XReg) (pa : PReg)
  -- Reed-Solomon encoding (43_rs_encode.md)
  | rsGen (n : BitVec 16)
  | rsEnc (len : BitVec 8) (addr : BitVec 13)
  | ecBuild
  -- Reed-Solomon decoding, present only when HAS_RSDEC (44_rs_decode.md)
  | rsSyn (len : BitVec 8) (addr : BitVec 13)
  | rsBm
  | rsOmega
  | rsChien (len : BitVec 8)
  | rsForney
  | rsFix (len : BitVec 8) (addr : BitVec 13)
  -- matrix building (45_matrix_build.md)
  | matAlloc
  | matStamp
  | matPlace
  | matRd (rd ra rb : XReg)
  -- masking (46_masking.md)
  | maskApply (k : BitVec 16)
  | maskScore
  | maskSelect
  | fmtWrite
  deriving DecidableEq, Repr

end Sys2Proof
end

