-- ==== Sys2Proof/WellFormed.lean ====
section
/-! DEFINITION. Which commands exist in a configuration.  The bounds of rule R92 and of the immediates are in the
operand types of `Instr`; what is left to check is rule R97: the six decode commands exist only when `HAS_RSDEC` is
true. -/

namespace Sys2Proof

/-- The six commands of the decode extension (R2, R200). -/
def Instr.isDecodeExt : Instr → Bool
  | .rsSyn _ _ | .rsBm | .rsOmega | .rsChien _ | .rsForney | .rsFix _ _ => true
  | .nop | .cfgSet _ _ | .gfLi _ _ | .gfMv _ _ | .gfInv _ _ | .gfExp _ _ | .gfLog _ _ | .gfAdd _ _ _ => false
  | .gfMul _ _ _ | .gfDiv _ _ _ | .ldb _ _ | .stb _ _ | .ldbx _ _ _ | .stbx _ _ _ => false
  | .pClr _ | .pMv _ _ | .pLd _ _ _ | .pSt _ _ | .pGetc _ _ _ | .pSetc _ _ _ | .pAdd _ _ _ | .pMul _ _ _ => false
  | .pMod _ _ _ | .pScale _ _ _ | .pShl _ _ _ | .pEval _ _ _ | .pDeriv _ _ | .pDeg _ _ => false
  | .rsGen _ | .rsEnc _ _ | .ecBuild | .matAlloc | .matStamp | .matPlace | .matRd _ _ _ => false
  | .maskApply _ | .maskScore | .maskSelect | .fmtWrite => false

/-- A command is well-formed in a configuration when the configuration has it (R97, R98). -/
def Instr.wellFormed (hasRsdec : Bool) (i : Instr) : Bool :=
  hasRsdec || !i.isDecodeExt

end Sys2Proof
end

