-- ==== Sys2Proof/Decode.lean ====
section
/-! DEFINITION. The command decoder (R90 to R98), total on every 32-bit word, which refuses a word that is no command
by a named reason; and after it the encoder, written from the same five formats of rule R91. -/

namespace Sys2Proof

/-- Why a word is no command (R96, R97).  Every one of them is the fault `ILLEGAL_CMD`. -/
inductive Illegal where
  /-- The opcode is not in the map of rule R95. -/
  | opcode
  /-- A must-be-zero bit of the format, or of an immediate narrower than its field, is set (R93, R94). -/
  | reservedBits
  /-- A specifier field that the command does not use is not 0 (R92). -/
  | unusedSpecifier
  /-- A polynomial specifier is 8 to 15 (R92). -/
  | polySpecifier
  /-- `CFG.SET` names a CSR index above 3 (R96). -/
  | csrIndex
  /-- A decode command in a configuration without `HAS_RSDEC` (R97). -/
  | extensionAbsent
  deriving DecidableEq, Repr

/-- `v[hi:lo]`, both ends included, as an unsigned number (R7). -/
def bits (w : Word) (hi lo : Nat) : Nat := w.toNat / 2 ^ lo % 2 ^ (hi + 1 - lo)

/-- The opcode `w[31:24]` (R90). -/
def opcodeOf (w : Word) : Nat := bits w 31 24

/-- The specifier field `d = w[23:20]` (R91). -/
def dField (w : Word) : Nat := bits w 23 20

/-- The specifier field `a = w[19:16]` (R91). -/
def aField (w : Word) : Nat := bits w 19 16

/-- The specifier field `b = w[15:12]` (R91). -/
def bField (w : Word) : Nat := bits w 15 12

/-- A scalar register specifier: every 4-bit value is one (R92). -/
def xreg (v : Nat) : XReg := Fin.ofNat 16 v

/-- A polynomial register specifier: 0 to 7, else the word is illegal (R92). -/
def preg (v : Nat) : Except Illegal PReg :=
  if v < 8 then .ok (Fin.ofNat 8 v) else .error .polySpecifier

/-- The CSR index of `CFG.SET` (R281). -/
def cfgReg (v : Nat) : Except Illegal CfgReg :=
  match v with
  | 0 => .ok .version
  | 1 => .ok .ecl
  | 2 => .ok .maskreq
  | 3 => .ok .dcount
  | _ => .error .csrIndex

/-- A field that must be 0, with the reason to give when it is not (R92, R93). -/
def mustBeZero (v : Nat) (why : Illegal) (rest : Except Illegal Instr) : Except Illegal Instr :=
  if v = 0 then rest else .error why

/-- Format N: `w[23:0] = 0` (R91). -/
def formatN (w : Word) (i : Instr) : Except Illegal Instr :=
  mustBeZero (bits w 23 0) .reservedBits (.ok i)

/-- Format R: `w[11:0] = 0` (R91). -/
def formatR (w : Word) (i : Except Illegal Instr) : Except Illegal Instr :=
  mustBeZero (bits w 11 0) .reservedBits i

/-- The 16-bit immediate of format I (R91, R94). -/
def imm16 (w : Word) : BitVec 16 := BitVec.ofNat 16 (bits w 15 0)

/-- The 13-bit address of formats B and V (R91). -/
def addr13 (w : Word) : BitVec 13 := BitVec.ofNat 13 (bits w 12 0)

/-- Format B: `w[15:13] = 0`, an 8-bit length and a 13-bit address (R91). -/
def formatB (w : Word) (i : BitVec 8 → BitVec 13 → Instr) : Except Illegal Instr :=
  mustBeZero (bits w 15 13) .reservedBits (.ok (i (BitVec.ofNat 8 (bits w 23 16)) (addr13 w)))

/-- Format V: `w[19] = 0`, a polynomial register, a 6-bit length and a 13-bit address (R91). -/
def formatV (w : Word) (i : PReg → BitVec 6 → BitVec 13 → Except Illegal Instr) : Except Illegal Instr :=
  mustBeZero (bits w 19 19) .reservedBits
    ((preg (dField w)).bind fun pd => i pd (BitVec.ofNat 6 (bits w 18 13)) (addr13 w))

/-- The decode commands exist only with `HAS_RSDEC` (R97). -/
def ifRsdec (hasRsdec : Bool) (i : Except Illegal Instr) : Except Illegal Instr :=
  if hasRsdec then i else .error .extensionAbsent

/-- The decoder: each 32-bit word is exactly one command of rule R95 or is refused (R98). -/
def decode (hasRsdec : Bool) (w : Word) : Except Illegal Instr :=
  let d := dField w
  let a := aField w
  let b := bField w
  match opcodeOf w with
  | 0x00 => formatN w .nop
  | 0x01 => mustBeZero a .unusedSpecifier ((cfgReg d).map fun c => .cfgSet c (imm16 w))
  | 0x10 => mustBeZero a .unusedSpecifier (mustBeZero (bits w 15 8) .reservedBits
      (.ok (.gfLi (xreg d) (BitVec.ofNat 8 (bits w 7 0)))))
  | 0x11 => formatR w (mustBeZero b .unusedSpecifier (.ok (.gfMv (xreg d) (xreg a))))
  | 0x12 => formatR w (.ok (.gfAdd (xreg d) (xreg a) (xreg b)))
  | 0x13 => formatR w (.ok (.gfMul (xreg d) (xreg a) (xreg b)))
  | 0x14 => formatR w (.ok (.gfDiv (xreg d) (xreg a) (xreg b)))
  | 0x15 => formatR w (mustBeZero b .unusedSpecifier (.ok (.gfInv (xreg d) (xreg a))))
  | 0x16 => formatR w (mustBeZero b .unusedSpecifier (.ok (.gfExp (xreg d) (xreg a))))
  | 0x17 => formatR w (mustBeZero b .unusedSpecifier (.ok (.gfLog (xreg d) (xreg a))))
  | 0x18 => mustBeZero a .unusedSpecifier (.ok (.ldb (xreg d) (imm16 w)))
  | 0x19 => mustBeZero a .unusedSpecifier (.ok (.stb (xreg d) (imm16 w)))
  | 0x1A => .ok (.ldbx (xreg d) (xreg a) (imm16 w))
  | 0x1B => .ok (.stbx (xreg d) (xreg a) (imm16 w))
  | 0x20 => formatR w (mustBeZero a .unusedSpecifier (mustBeZero b .unusedSpecifier
      ((preg d).map fun pd => .pClr pd)))
  | 0x21 => formatR w (mustBeZero b .unusedSpecifier
      ((preg d).bind fun pd => (preg a).map fun pa => .pMv pd pa))
  | 0x22 => formatV w fun pd len addr => .ok (.pLd pd len addr)
  | 0x23 => formatV w fun ps len addr => mustBeZero len.toNat .reservedBits (.ok (.pSt ps addr))
  | 0x24 => (preg a).map fun pa => .pGetc (xreg d) pa (imm16 w)
  | 0x25 => (preg d).map fun pd => .pSetc pd (xreg a) (imm16 w)
  | 0x26 => formatR w ((preg d).bind fun pd => (preg a).bind fun pa => (preg b).map fun pb => .pAdd pd pa pb)
  | 0x27 => formatR w ((preg d).bind fun pd => (preg a).map fun pa => .pScale pd pa (xreg b))
  | 0x28 => (preg d).bind fun pd => (preg a).map fun pa => .pShl pd pa (imm16 w)
  | 0x29 => formatR w ((preg d).bind fun pd => (preg a).bind fun pa => (preg b).map fun pb => .pMul pd pa pb)
  | 0x2A => formatR w ((preg d).bind fun pd => (preg a).bind fun pa => (preg b).map fun pb => .pMod pd pa pb)
  | 0x2B => formatR w ((preg a).map fun pa => .pEval (xreg d) pa (xreg b))
  | 0x2C => formatR w (mustBeZero b .unusedSpecifier
      ((preg d).bind fun pd => (preg a).map fun pa => .pDeriv pd pa))
  | 0x2D => formatR w (mustBeZero b .unusedSpecifier ((preg a).map fun pa => .pDeg (xreg d) pa))
  | 0x30 => mustBeZero d .unusedSpecifier (mustBeZero a .unusedSpecifier (.ok (.rsGen (imm16 w))))
  | 0x31 => formatB w .rsEnc
  | 0x32 => formatN w .ecBuild
  | 0x38 => ifRsdec hasRsdec (formatB w .rsSyn)
  | 0x39 => ifRsdec hasRsdec (formatN w .rsBm)
  | 0x3A => ifRsdec hasRsdec (formatN w .rsOmega)
  | 0x3B => ifRsdec hasRsdec (mustBeZero (bits w 15 0) .reservedBits
      (.ok (.rsChien (BitVec.ofNat 8 (bits w 23 16)))))
  | 0x3C => ifRsdec hasRsdec (formatN w .rsForney)
  | 0x3D => ifRsdec hasRsdec (formatB w .rsFix)
  | 0x40 => formatN w .matAlloc
  | 0x41 => formatN w .matStamp
  | 0x42 => formatN w .matPlace
  | 0x43 => formatR w (.ok (.matRd (xreg d) (xreg a) (xreg b)))
  | 0x48 => mustBeZero d .unusedSpecifier (mustBeZero a .unusedSpecifier (.ok (.maskApply (imm16 w))))
  | 0x49 => formatN w .maskScore
  | 0x4A => formatN w .maskSelect
  | 0x4B => formatN w .fmtWrite
  | _ => .error .opcode

/-- The instruction the decoder reads from a row's word, in a configuration that has every row
(`HAS_RSDEC` true; the whole word is handed over at once, R65 (e)). -/
def decodeTableWord (nbits w : Nat) : Option Instr :=
  let v := w % 2 ^ nbits
  if v < 2 ^ 32 then (decode true (BitVec.ofNat 32 v)).toOption else none

/-- A word of formats N, R and I: opcode, the specifiers `d` and `a`, and the low 16 bits (R91). -/
def wordI (op d a low : Nat) : Word := BitVec.ofNat 32 (op * 2 ^ 24 + d * 2 ^ 20 + a * 2 ^ 16 + low)

/-- A word of format R: the low 16 bits hold the specifier `b` and twelve zeros (R91). -/
def wordR (op d a b : Nat) : Word := wordI op d a (b * 2 ^ 12)

/-- A word of format B: opcode, `len8`, three zeros and `addr13` (R91). -/
def wordB (op : Nat) (len : BitVec 8) (addr : BitVec 13) : Word :=
  BitVec.ofNat 32 (op * 2 ^ 24 + len.toNat * 2 ^ 16 + addr.toNat)

/-- A word of format V: opcode, the specifier `d`, a zero, `len6` and `addr13` (R91). -/
def wordV (op d : Nat) (len : BitVec 6) (addr : BitVec 13) : Word :=
  BitVec.ofNat 32 (op * 2 ^ 24 + d * 2 ^ 20 + len.toNat * 2 ^ 13 + addr.toNat)

/-- The index a writable CSR has on `CFG.SET` (R31). -/
def CfgReg.index : CfgReg → Nat
  | .version => 0
  | .ecl => 1
  | .maskreq => 2
  | .dcount => 3

/-- The encoder: the word of a command (R91, R95). -/
def encode : Instr → Word
  | .nop => wordI 0x00 0 0 0
  | .cfgSet c v => wordI 0x01 c.index 0 v.toNat
  | .gfLi rd v => wordI 0x10 rd 0 v.toNat
  | .gfMv rd ra => wordR 0x11 rd ra 0
  | .gfAdd rd ra rb => wordR 0x12 rd ra rb
  | .gfMul rd ra rb => wordR 0x13 rd ra rb
  | .gfDiv rd ra rb => wordR 0x14 rd ra rb
  | .gfInv rd ra => wordR 0x15 rd ra 0
  | .gfExp rd ra => wordR 0x16 rd ra 0
  | .gfLog rd ra => wordR 0x17 rd ra 0
  | .ldb rd addr => wordI 0x18 rd 0 addr.toNat
  | .stb rs addr => wordI 0x19 rs 0 addr.toNat
  | .ldbx rd ra base => wordI 0x1A rd ra base.toNat
  | .stbx rs ra base => wordI 0x1B rs ra base.toNat
  | .pClr pd => wordR 0x20 pd 0 0
  | .pMv pd pa => wordR 0x21 pd pa 0
  | .pLd pd len addr => wordV 0x22 pd len addr
  | .pSt ps addr => wordV 0x23 ps 0 addr
  | .pGetc rd pa index => wordI 0x24 rd pa index.toNat
  | .pSetc pd rs index => wordI 0x25 pd rs index.toNat
  | .pAdd pd pa pb => wordR 0x26 pd pa pb
  | .pScale pd pa rb => wordR 0x27 pd pa rb
  | .pShl pd pa k => wordI 0x28 pd pa k.toNat
  | .pMul pd pa pb => wordR 0x29 pd pa pb
  | .pMod pd pa pb => wordR 0x2A pd pa pb
  | .pEval rd pa rb => wordR 0x2B rd pa rb
  | .pDeriv pd pa => wordR 0x2C pd pa 0
  | .pDeg rd pa => wordR 0x2D rd pa 0
  | .rsGen n => wordI 0x30 0 0 n.toNat
  | .rsEnc len addr => wordB 0x31 len addr
  | .ecBuild => wordI 0x32 0 0 0
  | .rsSyn len addr => wordB 0x38 len addr
  | .rsBm => wordI 0x39 0 0 0
  | .rsOmega => wordI 0x3A 0 0 0
  | .rsChien len => wordB 0x3B len 0
  | .rsForney => wordI 0x3C 0 0 0
  | .rsFix len addr => wordB 0x3D len addr
  | .matAlloc => wordI 0x40 0 0 0
  | .matStamp => wordI 0x41 0 0 0
  | .matPlace => wordI 0x42 0 0 0
  | .matRd rd ra rb => wordR 0x43 rd ra rb
  | .maskApply k => wordI 0x48 0 0 k.toNat
  | .maskScore => wordI 0x49 0 0 0
  | .maskSelect => wordI 0x4A 0 0 0
  | .fmtWrite => wordI 0x4B 0 0 0

end Sys2Proof
end

