-- ==== Sys2Proof/Machine/Field.lean ====
section
/-! DEFINITION. GF(256): the field operations of 41_gf_arithmetic.md rules R120 to R126, on bytes, with no table.  The
first argument `m` is the field modulus, `GF_MODULUS` of the configuration (R6, R120). -/

namespace Sys2Proof.Machine

/-- `a * alpha`: shift left as a 9-bit number and reduce by the modulus when bit 8 comes out (R122). -/
def xtime (m : BitVec 9) (a : Byte) : Byte :=
  let s : BitVec 9 := a.setWidth 9 <<< 1
  if 0x100 ≤ s.toNat then (s ^^^ m).setWidth 8 else s.setWidth 8

/-- The loop of rule R122 over `b`'s remaining `k` bits, lowest first: `t` is `a * alpha^i`, `r` the sum so far. -/
def gfMulLoop (m : BitVec 9) : Nat → Byte → Byte → Byte → Byte
  | 0, _, _, r => r
  | k + 1, b, t, r => gfMulLoop m k (b >>> 1) (xtime m t) (if b.getLsbD 0 then r ^^^ t else r)

/-- `gf_mul` (R122). -/
def gfMul (m : BitVec 9) (a b : Byte) : Byte := gfMulLoop m 8 b a 0

/-- `alpha^i`: the entry `EXP[i]` of the antilog table, for `i` in 0 to 254 (R123). -/
def alphaPow (m : BitVec 9) : Nat → Byte
  | 0 => 1
  | i + 1 => xtime m (alphaPow m i)

/-- `gf_exp`: the exponent is taken modulo 255 (R123). -/
def gfExp (m : BitVec 9) (e : Nat) : Byte := alphaPow m (e % 255)

/-- The search that defines `LOG`: the first index from `i` on, at most `fuel` of them, whose power of alpha is `a`;
`cur` is `alpha^i`. -/
def gfLogFrom (m : BitVec 9) : Nat → Nat → Byte → Byte → Nat
  | 0, i, _, _ => i
  | fuel + 1, i, cur, a => if cur = a then i else gfLogFrom m fuel (i + 1) (xtime m cur) a

/-- `gf_log` of a nonzero element: the unique `i` in 0 to 254 with `EXP[i] = a` (R124).  `gf_log(0)` does not exist;
no command asks for it (log entry 5). -/
def gfLog (m : BitVec 9) (a : Byte) : Nat := gfLogFrom m 255 0 1 a

/-- `gf_inv` of a nonzero element (R125).  `gf_inv(0)` does not exist; no command asks for it (log entry 5). -/
def gfInv (m : BitVec 9) (a : Byte) : Byte := gfExp m ((255 - gfLog m a) % 255)

/-- `gf_div` by a nonzero element (R126). -/
def gfDiv (m : BitVec 9) (a b : Byte) : Byte := gfMul m a (gfInv m b)

end Sys2Proof.Machine
end

