-- ==== Sys2Proof/Machine/Poly.lean ====
section
/-! DEFINITION. Polynomials over GF(256) as lists of bytes, entry `i` the coefficient of `x^i` (R12), and the functions
of 42_polynomial.md rules R150 to R157.  Each returns a list of exactly the length its rule gives.  `m` is
the field modulus (R120). -/

namespace Sys2Proof.Machine

/-- `a[i]`, read as 0 from the length on (42_polynomial.md section 1). -/
def coefAt (a : List Byte) (i : Nat) : Byte := a.getD i 0

/-- A list cut or zero-padded at the high end to exactly `n` entries. -/
def padTo (n : Nat) (a : List Byte) : List Byte := a.take n ++ List.replicate (n - a.length) 0

/-- The exclusive or of a list of bytes. -/
def xorAll (l : List Byte) : Byte := l.foldr (· ^^^ ·) 0

/-- `poly_add`: length the larger of the two (R150). -/
def polyAdd : List Byte → List Byte → List Byte
  | [], b => b
  | a, [] => a
  | x :: a, y :: b => (x ^^^ y) :: polyAdd a b

/-- `poly_scale`: length unchanged (R151). -/
def polyScale (m : BitVec 9) (a : List Byte) (s : Byte) : List Byte := a.map fun c => gfMul m c s

/-- `poly_shl`: multiplication by `x^k`; the empty list stays empty (R152). -/
def polyShl (a : List Byte) (k : Nat) : List Byte :=
  if a = [] then [] else List.replicate k 0 ++ a

/-- `poly_mul`: length `la + lb - 1`, entry `n` the sum over `i + j = n` of `a[i] * b[j]`; empty when either factor is
(R153). -/
def polyMul (m : BitVec 9) (a b : List Byte) : List Byte :=
  if a = [] ∨ b = [] then []
  else (List.range (a.length + b.length - 1)).map fun n =>
    xorAll ((List.range (n + 1)).map fun i => gfMul m (coefAt a i) (coefAt b (n - i)))

/-- `poly_deg`: the largest index with a nonzero coefficient; `none` is the rule's -1 (R157). -/
def polyDeg : List Byte → Option Nat
  | [] => none
  | x :: a =>
    match polyDeg a with
    | some d => some (d + 1)
    | none => if x = 0 then none else some 0

/-- `r` with `v` xored in from index `off` on; the length of `r` is kept. -/
def xorAt : Nat → List Byte → List Byte → List Byte
  | _, _, [] => []
  | 0, [], r => r
  | 0, y :: v, x :: r => (x ^^^ y) :: xorAt 0 v r
  | off + 1, v, x :: r => x :: xorAt off v r

/-- The loop of rule R154 over the top `k` coefficients, index `db + k - 1` first: where the leading coefficient is not
0, the divisor `b[0..db]` times `r[i] * inv` is subtracted at offset `i - db`. -/
def polyModLoop (m : BitVec 9) (b : List Byte) (db : Nat) (inv : Byte) : Nat → List Byte → List Byte
  | 0, r => r
  | k + 1, r =>
    let top := coefAt r (db + k)
    let r' := if top = 0 then r else xorAt k (polyScale m (b.take (db + 1)) (gfMul m top inv)) r
    polyModLoop m b db inv k r'

/-- `poly_mod` by a divisor of degree `db`: the remainder, of length exactly `db` (R154). -/
def polyModDeg (m : BitVec 9) (a b : List Byte) (db : Nat) : List Byte :=
  padTo db (polyModLoop m b db (gfInv m (coefAt b db)) (a.length - db) a)

/-- `poly_mod` (R154).  It needs a divisor with a nonzero coefficient; the commands check that first (log entry 5). -/
def polyMod (m : BitVec 9) (a b : List Byte) : List Byte := polyModDeg m a b ((polyDeg b).getD 0)

/-- `poly_eval` by Horner's rule from the highest coefficient (R155). -/
def polyEval (m : BitVec 9) (a : List Byte) (v : Byte) : Byte := a.foldr (fun c y => gfMul m y v ^^^ c) 0

/-- `poly_deriv`: length one less, entry `j` is `a[j+1]` for even `j` and 0 for odd `j` (R156). -/
def polyDeriv (a : List Byte) : List Byte :=
  (List.range (a.length - 1)).map fun j => if j % 2 = 0 then coefAt a (j + 1) else 0

end Sys2Proof.Machine
end

