-- ==== Sys2Proof/Machine/Tables.lean ====
section
/-! DEFINITION. The defaults of the tables of the configuration record (R6): the field modulus, the block-structure
table, the alignment coordinates, the mask formulas, the penalty weights and the format and version constants, each as
the rule it cites gives it; how a mask formula is evaluated; and the two constants that R6 does not make a parameter. -/

namespace Sys2Proof.Machine

/-- `BLOCKS` for full symbols, versions 1 to 10 (R184). -/
def blockRows1 : List BlockRow := [
  ⟨26, (7, 1), (10, 1), (13, 1), (17, 1)⟩,
  ⟨44, (10, 1), (16, 1), (22, 1), (28, 1)⟩,
  ⟨70, (15, 1), (26, 1), (18, 2), (22, 2)⟩,
  ⟨100, (20, 1), (18, 2), (26, 2), (16, 4)⟩,
  ⟨134, (26, 1), (24, 2), (18, 4), (22, 4)⟩,
  ⟨172, (18, 2), (16, 4), (24, 4), (28, 4)⟩,
  ⟨196, (20, 2), (18, 4), (18, 6), (26, 5)⟩,
  ⟨242, (24, 2), (22, 4), (22, 6), (26, 6)⟩,
  ⟨292, (30, 2), (22, 5), (20, 8), (24, 8)⟩,
  ⟨346, (18, 4), (26, 5), (24, 8), (28, 8)⟩]

/-- `BLOCKS` for full symbols, versions 11 to 20 (R184). -/
def blockRows11 : List BlockRow := [
  ⟨404, (20, 4), (30, 5), (28, 8), (24, 11)⟩,
  ⟨466, (24, 4), (22, 8), (26, 10), (28, 11)⟩,
  ⟨532, (26, 4), (22, 9), (24, 12), (22, 16)⟩,
  ⟨581, (30, 4), (24, 9), (20, 16), (24, 16)⟩,
  ⟨655, (22, 6), (24, 10), (30, 12), (24, 18)⟩,
  ⟨733, (24, 6), (28, 10), (24, 17), (30, 16)⟩,
  ⟨815, (28, 6), (28, 11), (28, 16), (28, 19)⟩,
  ⟨901, (30, 6), (26, 13), (28, 18), (28, 21)⟩,
  ⟨991, (28, 7), (26, 14), (26, 21), (26, 25)⟩,
  ⟨1085, (28, 8), (26, 16), (30, 20), (28, 25)⟩]

/-- `BLOCKS` for full symbols, versions 21 to 30 (R184). -/
def blockRows21 : List BlockRow := [
  ⟨1156, (28, 8), (26, 17), (28, 23), (30, 25)⟩,
  ⟨1258, (28, 9), (28, 17), (30, 23), (24, 34)⟩,
  ⟨1364, (30, 9), (28, 18), (30, 25), (30, 30)⟩,
  ⟨1474, (30, 10), (28, 20), (30, 27), (30, 32)⟩,
  ⟨1588, (26, 12), (28, 21), (30, 29), (30, 35)⟩,
  ⟨1706, (28, 12), (28, 23), (28, 34), (30, 37)⟩,
  ⟨1828, (30, 12), (28, 25), (30, 34), (30, 40)⟩,
  ⟨1921, (30, 13), (28, 26), (30, 35), (30, 42)⟩,
  ⟨2051, (30, 14), (28, 28), (30, 38), (30, 45)⟩,
  ⟨2185, (30, 15), (28, 29), (30, 40), (30, 48)⟩]

/-- `BLOCKS` for full symbols, versions 31 to 40 (R184). -/
def blockRows31 : List BlockRow := [
  ⟨2323, (30, 16), (28, 31), (30, 43), (30, 51)⟩,
  ⟨2465, (30, 17), (28, 33), (30, 45), (30, 54)⟩,
  ⟨2611, (30, 18), (28, 35), (30, 48), (30, 57)⟩,
  ⟨2761, (30, 19), (28, 37), (30, 51), (30, 60)⟩,
  ⟨2876, (30, 19), (28, 38), (30, 53), (30, 63)⟩,
  ⟨3034, (30, 20), (28, 40), (30, 56), (30, 66)⟩,
  ⟨3196, (30, 21), (28, 43), (30, 59), (30, 70)⟩,
  ⟨3362, (30, 22), (28, 45), (30, 62), (30, 74)⟩,
  ⟨3532, (30, 24), (28, 47), (30, 65), (30, 77)⟩,
  ⟨3706, (30, 25), (28, 49), (30, 68), (30, 81)⟩]

/-- `BLOCKS` for full symbols: the entry at index `v - 1` is version `v` (R184). -/
def blockRows : List BlockRow := blockRows1 ++ blockRows11 ++ blockRows21 ++ blockRows31

/-- `BLOCKS` for Micro symbols (R185). -/
def microRows : List MicroRow := [
  ⟨-3, 0, 5, 2, true, 0⟩,
  ⟨-2, 1, 10, 5, false, 1⟩,
  ⟨-2, 2, 10, 6, false, 2⟩,
  ⟨-1, 1, 17, 6, true, 3⟩,
  ⟨-1, 2, 17, 8, true, 4⟩,
  ⟨0, 1, 24, 8, false, 5⟩,
  ⟨0, 2, 24, 10, false, 6⟩,
  ⟨0, 3, 24, 14, false, 7⟩]

/-- The 2-bit level indicator of the format information, by level code (R265).  The last line stands for the codes 0
and 5 to 7, which no full symbol has.  DESIGN CHOICE: the bits are not configured (log entry 12). -/
def levelIndicator : Nat → Nat
  | 1 => 1
  | 2 => 0
  | 3 => 3
  | 4 => 2
  | _ => 0

/-- `ALIGN`, versions 1 to 20 (R226). -/
def alignRows1 : List (List Nat) := [
  [],
  [6, 18],
  [6, 22],
  [6, 26],
  [6, 30],
  [6, 34],
  [6, 22, 38],
  [6, 24, 42],
  [6, 26, 46],
  [6, 28, 50],
  [6, 30, 54],
  [6, 32, 58],
  [6, 34, 62],
  [6, 26, 46, 66],
  [6, 26, 48, 70],
  [6, 26, 50, 74],
  [6, 30, 54, 78],
  [6, 30, 56, 82],
  [6, 30, 58, 86],
  [6, 34, 62, 90]]

/-- `ALIGN`, versions 21 to 40 (R226). -/
def alignRows21 : List (List Nat) := [
  [6, 28, 50, 72, 94],
  [6, 26, 50, 74, 98],
  [6, 30, 54, 78, 102],
  [6, 28, 54, 80, 106],
  [6, 32, 58, 84, 110],
  [6, 30, 58, 86, 114],
  [6, 34, 62, 90, 118],
  [6, 26, 50, 74, 98, 122],
  [6, 30, 54, 78, 102, 126],
  [6, 26, 52, 78, 104, 130],
  [6, 30, 56, 82, 108, 134],
  [6, 34, 60, 86, 112, 138],
  [6, 30, 58, 86, 114, 142],
  [6, 34, 62, 90, 118, 146],
  [6, 30, 54, 78, 102, 126, 150],
  [6, 24, 50, 76, 102, 128, 154],
  [6, 28, 54, 80, 106, 132, 158],
  [6, 32, 58, 84, 110, 136, 162],
  [6, 26, 54, 82, 110, 138, 166],
  [6, 30, 58, 86, 114, 142, 170]]

/-- `ALIGN`: the entry at index `v - 1` is version `v`; none for version 1 (R226). -/
def alignRows : List (List Nat) := alignRows1 ++ alignRows21

/-- `MASKF_FULL`, the eight formulas in order (R251). -/
def maskFormulasFull : List MaskExpr := [
  .mod (.add .row .col) 2,
  .mod .row 2,
  .mod .col 3,
  .mod (.add .row .col) 3,
  .mod (.add (.div .row 2) (.div .col 3)) 2,
  .add (.mod (.mul .row .col) 2) (.mod (.mul .row .col) 3),
  .mod (.add (.mod (.mul .row .col) 2) (.mod (.mul .row .col) 3)) 2,
  .mod (.add (.mod (.add .row .col) 2) (.mod (.mul .row .col) 3)) 2]

/-- `MASKF_MICRO`, the four formulas in order (R252). -/
def maskFormulasMicro : List MaskExpr := [
  .mod .row 2,
  .mod (.add (.div .row 2) (.div .col 3)) 2,
  .mod (.add (.mod (.mul .row .col) 2) (.mod (.mul .row .col) 3)) 2,
  .mod (.add (.mod (.add .row .col) 2) (.mod (.mul .row .col) 3)) 2]

/-- The tables with the defaults of their rules (R6). -/
def standardTables : CfgTables where
  gfModulus := 0x11D
  blocks := blockRows
  microBlocks := microRows
  align := alignRows
  maskFull := maskFormulasFull
  maskMicro := maskFormulasMicro
  w1 := 3
  w2 := 3
  w3 := 40
  w4 := 10
  fmtGen := 0x537
  fmtXorFull := 0x5412
  fmtXorMicro := 0x4445
  verGen := 0x1F25

/-- The value of a mask formula's expression at row `r` and column `c`; `div` is floor division (R251). -/
def maskValue (r c : Nat) : MaskExpr → Nat
  | .row => r
  | .col => c
  | .add a b => maskValue r c a + maskValue r c b
  | .mul a b => maskValue r c a * maskValue r c b
  | .div a k => maskValue r c a / k
  | .mod a k => maskValue r c a % k

/-- Mask `k` of a list of formulas inverts the data module at (`r`, `c`) (R250, R251).  There is no mask above the
list. -/
def maskHolds (formulas : List MaskExpr) (k r c : Nat) : Bool :=
  match formulas[k]? with
  | some e => maskValue r c e == 0
  | none => false

/-- The constant the register `ID` reads, ASCII "RSQR" (R49). -/
def idWord : Word := 0x52535152

end Sys2Proof.Machine
end

