-- ==== Sys2Proof/Machine/State.lean ====
section
/-! DEFINITION. The state of the RSQR engine as plain data (10_state.md, 20_memory.md), its reset value (R54, R320),
the 11 fault codes of rule R290, and the ways a step of the MODEL could stop (none is used by a meaning). -/

namespace Sys2Proof.Machine

/-- The fault codes of rule R290: the engine's own exceptions.  Raising one is a NEXT state (R291), never a
`Machine.Fault`.  Their numbers are `FaultCode.code`. -/
inductive FaultCode where
  | illegalCmd
  | badPhase
  | versionErr
  | eclevelErr
  | maskErr
  | dataOverflow
  | dataShort
  | bufRange
  | gfDomain
  | polyRange
  | matRange
  deriving DecidableEq, Repr

/-- The lifecycle of the matrix (R36).  Codes 6 and 7 never occur, so the type has six values. -/
inductive Phase where
  | idle
  | allocated
  | stamped
  | placed
  | masked
  | final
  deriving DecidableEq, Repr

/-- The class of a module (R28).  Code 3 never occurs. -/
inductive ModClass where
  | data
  | func
  | rsvd
  deriving DecidableEq, Repr

/-- One cell of `MAT`: a class and a value, true for dark (R10, R27). -/
structure Module where
  cls : ModClass
  val : Bool
  deriving DecidableEq, Repr

/-- The reset value of every cell, `(DATA, 0)` (R27, R54). -/
abbrev Module.blank : Module := ⟨.data, false⟩

/-- The module matrix: a 177 x 177 array of cells (R27). -/
structure Mat where
  rows : Vector (Vector Module nmax) nmax
  deriving DecidableEq, Repr

/-- A polynomial register: 32 coefficient bytes, `coef[i]` that of `x^i`, and a length 0 to 32 (R23). -/
structure PolyReg where
  len : Fin (pcap + 1)
  coef : Vector Byte pcap
  deriving DecidableEq, Repr

/-- The empty polynomial, the reset value: `len = 0` and 32 zero coefficients (R25, R54). -/
abbrev PolyReg.empty : PolyReg := ⟨0, Vector.replicate pcap 0⟩

/-- `BUF` as a list of (address, byte) pairs.  An address that is not listed reads as 0x00, its reset contents
(R26, R54). -/
abbrev Memory := List Host.Cell

/-- The canonical form of `BUF`: addresses strictly rising and below 8192, and no listed byte is 0x00. -/
abbrev Memory.wf (m : Memory) : Prop :=
  m.Pairwise (fun c d => c.1 < d.1) ∧ ∀ c ∈ m, c.1 < bufSize ∧ c.2 ≠ 0

/-- The two flag bits of `csr.FLAGS` (R30). -/
structure Flags where
  synz : Bool
  unc : Bool
  deriving DecidableEq, Repr

/-- The five score registers `SCORE`, `N1` to `N4` (R40). -/
structure Scores where
  score : Word
  n1 : Word
  n2 : Word
  n3 : Word
  n4 : Word
  deriving DecidableEq, Repr

/-- One action of the host (R20, R70): it hands over a command word, uses a window or the read port, or asserts
reset.  A run is a sequence of these. -/
inductive HostAct where
  /-- Hand a command word to the engine (R29). -/
  | command (w : Word)
  /-- Write one byte through the `BUF` window (R62). -/
  | writeBuf (a : BitVec 13) (v : Byte)
  /-- Read one byte through the `BUF` window (R62). -/
  | readBuf (a : BitVec 13)
  /-- Read one cell through the `MAT` window (R63). -/
  | readMat (r c : Fin nmax)
  /-- Read the read port (R51). -/
  | readPort (index : BitVec 12)
  /-- Assert the reset input (R320). -/
  | reset
  deriving DecidableEq, Repr

/-- The whole state: the engine's (10_state.md), its configuration, and the model's own two fields for the host. -/
structure State where
  /-- The configuration record `Cfg`: constant, no step writes it (R6, R52). -/
  cfg : Config
  /-- Scalar registers `x[0]` to `x[15]` (R21). -/
  x : Vector Byte 16
  /-- Polynomial registers `p[0]` to `p[7]` (R23). -/
  p : Vector PolyReg 8
  /-- The buffer memory (R26). -/
  buf : Memory
  /-- The module matrix (R27). -/
  mat : Mat
  /-- `csr.VERSION`, two's complement (R32). -/
  version : BitVec 8
  /-- `csr.ECL` (R33). -/
  ecl : BitVec 3
  /-- `csr.MASKREQ` (R34). -/
  maskreq : BitVec 4
  /-- `csr.DCOUNT` (R35). -/
  dcount : BitVec 12
  /-- `csr.PHASE` (R36). -/
  phase : Phase
  /-- `csr.FAULT`, sticky: `none` is code 0 (R37). -/
  fault : Option FaultCode
  /-- `csr.FAULTCMD` (R38). -/
  faultcmd : Word
  /-- `csr.MASKSEL` (R39). -/
  masksel : BitVec 4
  /-- `csr.SCORE`, `csr.N1` to `csr.N4` (R40). -/
  scores : Scores
  /-- `csr.RSN` (R41). -/
  rsn : BitVec 5
  /-- `csr.FLAGS` (R30). -/
  flags : Flags
  /-- `csr.NERR` (R42). -/
  nerr : BitVec 5
  /-- `csr.NMOD` (R46). -/
  nmod : BitVec 16
  /-- `csr.CMDCNT` (R48). -/
  cmdcnt : Word
  /-- The MODEL's own field: the host's actions that are still to come, the next one first (R20, R70). -/
  host : List HostAct
  /-- The MODEL's own field: the word the host's last read returned (R51, R62, R63). -/
  hostData : Word
  deriving DecidableEq, Repr

/-- The state right after reset (R54, R320).  `SIZE`, `DLEN`, `CLEN`, `ID` and `CAP` are no storage (R43 to R45, R49,
R50).  DESIGN CHOICE: the configuration is the default tables of R6 with `HAS_RSDEC = true` and `MICRO_SCORE = doc` (log
entries 1, 2 and 11), no host action is pending and no read has been answered (log entries 3 and 4). -/
def State.reset : State where
  cfg := ⟨standardTables, true, .doc⟩
  x := Vector.replicate 16 0
  p := Vector.replicate 8 .empty
  buf := []
  mat := ⟨Vector.replicate nmax (Vector.replicate nmax .blank)⟩
  version := 0
  ecl := 0
  maskreq := 8
  dcount := 0
  phase := .idle
  fault := none
  faultcmd := 0
  masksel := 0xF
  scores := ⟨0, 0, 0, 0, 0⟩
  rsn := 0
  flags := ⟨false, false⟩
  nerr := 0
  nmod := 0
  cmdcnt := 0
  host := []
  hostData := 0

/-- The tables of the state's configuration (R6). -/
abbrev State.tables (s : State) : CfgTables := s.cfg.toCfgTables

/-- The ways a step of the model could stop the machine.  There is none: every exception of the engine is a fault
code of rule R291, which is a next state, and every address a command or the host can form either exists or raises
`BUF_RANGE` or `MAT_RANGE`.  So the type has no constructor (safe: it can hide nothing). -/
inductive Fault where
  deriving DecidableEq, Repr

/-- The ways the model could refuse to give a step a meaning. -/
inductive Refusal where
  /-- Raised by `exec` alone, for a command of the opcode table that has no meaning yet (safe).  No arm raises it. -/
  | notModelled (mnemonic : String)
  deriving DecidableEq, Repr

end Sys2Proof.Machine
end

