-- ==== Sys2Proof/Machine/Ops.lean ====
section
/-! DEFINITION. The named operations over the state that the meanings share: the fault codes and raising a fault
(R290, R291), completing a command (R48, R291), registers (R11), the byte memory `BUF` (R62, R67), and the module
matrix (R63, R64). -/

namespace Sys2Proof.Machine

/-! ## Faults and completion -/

/-- The number of a fault code in `csr.FAULT` (R290). -/
def FaultCode.code : FaultCode → Nat
  | .illegalCmd => 1
  | .badPhase => 2
  | .versionErr => 3
  | .eclevelErr => 4
  | .maskErr => 5
  | .dataOverflow => 6
  | .dataShort => 7
  | .bufRange => 8
  | .gfDomain => 9
  | .polyRange => 10
  | .matRange => 11

/-- The number of a phase in `csr.PHASE` (R36). -/
def Phase.code : Phase → Nat
  | .idle => 0
  | .allocated => 1
  | .stamped => 2
  | .placed => 3
  | .masked => 4
  | .final => 5

/-- The 2-bit code of a module class (R28). -/
def ModClass.code : ModClass → Nat
  | .data => 0
  | .func => 1
  | .rsvd => 2

/-- `raise F(code)` for the command word `w`: only `FAULT` and `FAULTCMD` change (R291).  This is the engine's whole
exception entry; there is no return from it but reset (R296). -/
def raiseFault (c : FaultCode) (w : Word) (s : State) : State :=
  { s with fault := some c, faultcmd := w }

/-- A command that completed with state `t` counts in `CMDCNT`, modulo 2^32 (R48, R291). -/
def countCommand (s t : State) : State := { t with cmdcnt := s.cmdcnt + 1 }

/-- How every command ends: it completes with all its writes and counts, or it raises one fault and has no other
effect (R11, R291).  The faulting word is the command's encoding: a legal command has only one word (R93). -/
def finish (i : Instr) (s : State) (r : Except FaultCode State) : Host.Outcome State Fault Refusal :=
  match r with
  | .ok t => .next (countCommand s t)
  | .error c => .next (raiseFault c (encode i) s)

/-! ## Registers -/

/-- `x[i]` (R11, R21). -/
def State.getX (s : State) (i : XReg) : Byte := s.x[i]

/-- `x[i] <- v`; no scalar register is hardwired (R11, R21). -/
def State.setX (s : State) (i : XReg) (v : Byte) : State := { s with x := s.x.set i v }

/-- The list a polynomial register holds, `coef[0 .. len-1]` (R11, R12). -/
def PolyReg.toList (q : PolyReg) : List Byte := q.coef.toList.take q.len

/-- The register that holds a list of at most 32 bytes: `len` its length, the coefficients beyond it 0 (R11). -/
def PolyReg.ofList (l : List Byte) : PolyReg where
  len := ⟨min l.length pcap, by omega⟩
  coef := ⟨((l ++ List.replicate pcap 0).take pcap).toArray, by simp⟩

/-- `p[k]` read as a list (R11). -/
def State.getP (s : State) (k : PReg) : List Byte := (s.p[k]).toList

/-- `p[k] <- L`: a list longer than 32 raises `POLY_RANGE` (R11). -/
def State.setP (s : State) (k : PReg) (l : List Byte) : Except FaultCode State :=
  if l.length ≤ pcap then .ok { s with p := s.p.set k (.ofList l) } else .error .polyRange

/-! ## The byte memory `BUF` -/

/-- `BUF[a]`: what is listed, else the reset value 0x00 (R26, R71). -/
def Memory.read : Memory → Nat → Byte
  | [], _ => 0
  | (k, v) :: m, a => if a < k then 0 else if a = k then v else Memory.read m a

/-- `BUF[a] <- v`, in canonical form: writing 0x00 leaves the address unlisted. -/
def Memory.write : Memory → Nat → Byte → Memory
  | [], a, v => if v = 0 then [] else [(a, v)]
  | (k, u) :: m, a, v =>
    if a < k then (if v = 0 then (k, u) :: m else (a, v) :: (k, u) :: m)
    else if a = k then (if v = 0 then m else (a, v) :: m)
    else (k, u) :: Memory.write m a v

/-- The bytes `BUF[a .. a+n-1]`, lowest address first (R11). -/
def Memory.readList (m : Memory) (a n : Nat) : List Byte :=
  (List.range n).map fun i => Memory.read m (a + i)

/-- `BUF[a .. ] <- L`, one byte after the other from the lowest address (R11, R65). -/
def Memory.writeList (m : Memory) (a : Nat) : List Byte → Memory
  | [] => m
  | v :: l => Memory.writeList (Memory.write m a v) (a + 1) l

/-- `MemRead(addr, n)`: raises `BUF_RANGE` when it would pass address 0x1FFF (R11, R68). -/
def State.memRead (s : State) (a n : Nat) : Except FaultCode (List Byte) :=
  if bufSize < a + n then .error .bufRange else .ok (Memory.readList s.buf a n)

/-- `MemWrite(addr, n, L)`, with `n` the length of `L` (R11, R68). -/
def State.memWrite (s : State) (a : Nat) (l : List Byte) : Except FaultCode State :=
  if bufSize < a + l.length then .error .bufRange else .ok { s with buf := Memory.writeList s.buf a l }

/-! ## The module matrix `MAT` -/

/-- `MAT[r][c]`.  Every command and the host's window name cells inside the 177 x 177 array (R63, R64); outside it
there is no cell, and what stands here is never asked for. -/
def Mat.get (m : Mat) (r c : Nat) : Module :=
  if h : r < nmax ∧ c < nmax then (m.rows[r]'h.1)[c]'h.2 else .blank

/-- `MAT[r][c] <- v` inside the array; there is no cell to write outside it (R64). -/
def Mat.set (m : Mat) (r c : Nat) (v : Module) : Mat :=
  if h : r < nmax ∧ c < nmax then ⟨m.rows.set r ((m.rows[r]'h.1).set c v h.2) h.1⟩ else m

/-- `MAT[r][c].val <- v`: the class stays (R231 (c)). -/
def Mat.setVal (m : Mat) (r c : Nat) (v : Bool) : Mat := m.set r c { m.get r c with val := v }

/-- `MAT[r][c] <- f r c MAT[r][c]` for every cell of the `N x N` corner; the others stay. -/
def Mat.mapCorner (m : Mat) (n : Nat) (f : Nat → Nat → Module → Module) : Mat :=
  ⟨m.rows.mapIdx fun r row => row.mapIdx fun c v => if r < n ∧ c < n then f r c v else v⟩

/-- The cells of the `N x N` corner, row by row. -/
def Mat.corner (m : Mat) (n : Nat) : List (List Module) :=
  (m.rows.toList.take n).map fun row => row.toList.take n

/-- The word a cell reads as, `cls*2 + val` (R63, R238). -/
def Module.code (v : Module) : Nat := v.cls.code * 2 + v.val.toNat

end Sys2Proof.Machine
end

