-- ==== Sys2Proof/Machine/Operands.lean ====
section
/-! DEFINITION. What the commands' operands and the symbol specification stand for: the two addressing modes (R139),
the version number and its functions (R8, R55, R56), the block structure of a pair (R183 to R186), and the phase check
(R293).  The argument `T` is the tables of the configuration (R6). -/

namespace Sys2Proof.Machine

/-! ## Addressing modes -/

/-- Absolute addressing: the effective address is the immediate (R139). -/
def eaAbs (addr : BitVec 16) : Nat := addr.toNat

/-- Base plus index: an unbounded sum, no wrap (R68, R139). -/
def eaIndex (s : State) (base : BitVec 16) (ra : XReg) : Nat := base.toNat + (s.getX ra).toNat

/-! ## The symbol specification -/

/-- `csr.VERSION` as a number in -128 to 127 (R8, R32). -/
def State.versionInt (s : State) : Int := s.version.toInt

/-- `is_micro` (R56). -/
def isMicro (v : Int) : Bool := v < 1

/-- `size(V)`, the side of the matrix (R56). -/
def symbolSize (v : Int) : Nat := if 1 ≤ v then (4 * v + 17).toNat else (17 + 2 * v).toNat

/-- `nmask(V)`, the number of masks (R56, R250). -/
def maskCount (v : Int) : Nat := if isMicro v then 4 else 8

/-- The block structure of a symbol: `T`, `E` and the data length of each block in block order (R183); whether the last
data codeword carries 4 bits only, and the symbol number of a Micro symbol (R185), which a full symbol has no use for. -/
structure BlockSpec where
  total : Nat
  ecLen : Nat
  lens : List Nat
  fourBitLast : Bool
  symbol : Nat
  deriving DecidableEq, Repr

/-- The split of `T` codewords over `nb` blocks with `E` correction codewords each: the short blocks come first
(R183). -/
def splitBlocks (total ecLen nb : Nat) : BlockSpec :=
  let k := total / nb - ecLen
  let long := total % nb
  ⟨total, ecLen, List.replicate (nb - long) k ++ List.replicate long (k + 1), false, 0⟩

/-- The level column of a row of the block table (R33, R184). -/
def levelColumn (r : BlockRow) (e : Nat) : Option (Nat × Nat) :=
  match e with
  | 1 => some r.l
  | 2 => some r.m
  | 3 => some r.q
  | 4 => some r.h
  | _ => none

/-- `BLOCKS(V, E)` of a full symbol, `none` where the table has no row (R183, R184). -/
def fullBlocks (T : CfgTables) (v : Int) (e : Nat) : Option BlockSpec :=
  match T.blocks[v.toNat - 1]? with
  | some row => (levelColumn row e).map fun en => splitBlocks row.total en.1 en.2
  | none => none

/-- `BLOCKS(V, E)` of a Micro symbol, which has one block, `none` where the table has no row (R185). -/
def microBlock (T : CfgTables) (v : Int) (e : Nat) : Option BlockSpec :=
  (T.microBlocks.find? fun r => r.version == v && r.level == e).map fun r =>
    ⟨r.total, r.ecLen, [r.total - r.ecLen], r.fourBitLast, r.symbol⟩

/-- `BLOCKS(V, E)`: the block structure of a pair, `none` where the table has no row (R183 to R185). -/
def blockSpec? (T : CfgTables) (v : Int) (e : Nat) : Option BlockSpec :=
  if 1 ≤ v then fullBlocks T v e else microBlock T v e

/-- `BLOCKS(V, E)` of a pair that exists; no command asks for another (R187, R237). -/
def blockSpec (T : CfgTables) (v : Int) (e : Nat) : BlockSpec := (blockSpec? T v e).getD ⟨0, 0, [], false, 0⟩

/-- `DLEN` of a block structure: the sum of the block data lengths (R44, R183). -/
def BlockSpec.dlen (b : BlockSpec) : Nat := b.lens.sum

/-- The level codes a version can have whatever the table: L, M, Q and H for full symbols, none for M1, and never H for a
Micro symbol (R55). -/
def levelPossible (v : Int) (e : Nat) : Bool :=
  if 1 ≤ v ∧ v ≤ 40 then 1 ≤ e ∧ e ≤ 4
  else if v = -3 then e = 0
  else if -2 ≤ v ∧ v ≤ 0 then 1 ≤ e ∧ e ≤ 3
  else false

/-- `valid_spec(V, E)`: the pair exists.  A pair that is not in the block table does not (R55, R185). -/
def validSpec (T : CfgTables) (v : Int) (e : Nat) : Bool := levelPossible v e && (blockSpec? T v e).isSome

/-- `spec_fault(V, E)`: the fault of a pair that does not exist (R55). -/
def specFault (T : CfgTables) (v : Int) (e : Nat) : Option FaultCode :=
  if validSpec T v e then none else if v < -3 ∨ 40 < v then some .versionErr else some .eclevelErr

/-- The pair (`VERSION`, `ECL`) of the state exists (R55). -/
def State.validSpec (s : State) : Bool := Machine.validSpec s.tables s.versionInt s.ecl.toNat

/-- `spec_fault` of the pair of the state (R55). -/
def State.specFault (s : State) : Option FaultCode := Machine.specFault s.tables s.versionInt s.ecl.toNat

/-- `N`, the side of the configured symbol (45_matrix_build.md). -/
def State.side (s : State) : Nat := symbolSize s.versionInt

/-- `csr.SIZE`, derived (R43). -/
def State.csrSize (s : State) : Nat := if s.validSpec then s.side else 0

/-- The block structure of the configured pair (R183). -/
def State.blockSpec (s : State) : BlockSpec := Machine.blockSpec s.tables s.versionInt s.ecl.toNat

/-- `csr.DLEN`, derived (R44).  DESIGN CHOICE: the field is 12 bits wide, and for a table with more than 4095 data
codewords the model has the whole number all the same (log entry 13). -/
def State.csrDlen (s : State) : Nat := if s.validSpec then s.blockSpec.dlen else 0

/-- `csr.CLEN`, derived (R45).  DESIGN CHOICE: the field is 12 bits wide, and for a table with more than 4095 codewords
the model has the whole number all the same (log entry 13). -/
def State.csrClen (s : State) : Nat := if s.validSpec then s.blockSpec.total else 0

/-! ## The phase check -/

/-- The first check of a command that is legal only in some phases: `BAD_PHASE` in the others (R292, R293). -/
def requirePhase (legal : Bool) (rest : Except FaultCode State) : Except FaultCode State :=
  if legal then rest else .error .badPhase

/-- A check that raises a fault when its condition holds, before anything is written (R11). -/
def faultIf (cond : Bool) (c : FaultCode) (rest : Except FaultCode State) : Except FaultCode State :=
  if cond then .error c else rest

end Sys2Proof.Machine
end

