-- ==== Sys2Proof/Machine/Flags.lean ====
section
/-! DEFINITION. The two flag bits of `csr.FLAGS` (R30): who sets and clears them. -/

namespace Sys2Proof.Machine

/-- `FLAGS` as a register word: bit 0 `SYNZ`, bit 1 `UNC`, the rest 0 (R30). -/
def Flags.code (f : Flags) : Nat := f.synz.toNat + 2 * f.unc.toNat

/-- `RS.SYN`: `SYNZ` tells whether every syndrome is zero, `UNC` is cleared (R30, R201). -/
def flagsAfterSyn (syndromes : List Byte) : Flags := ⟨syndromes.all (· == 0), false⟩

/-- `RS.BM`: `UNC` tells whether `2*L > n`, `SYNZ` stays (R30, R202). -/
def flagsAfterBm (f : Flags) (errors n : Nat) : Flags := { f with unc := decide (n < 2 * errors) }

/-- `RS.CHIEN`: `UNC` is set when the number of roots found is not `p[3].len - 1`, and never cleared (R30, R204). -/
def flagsAfterChien (f : Flags) (found lamLen : Nat) : Flags :=
  if found + 1 = lamLen then f else { f with unc := true }

/-- `RS.FORNEY`: `UNC` is set when some denominator is zero, and never cleared (R30, R205). -/
def flagsAfterForney (f : Flags) (zeroDenominator : Bool) : Flags :=
  if zeroDenominator then { f with unc := true } else f

end Sys2Proof.Machine
end

