-- ==== Sys2Proof/Machine/Matrix.lean ====
section
/-! DEFINITION. Building the matrix: allocation, function patterns and reserved areas, data placement, and `MAT.RD`
(45_matrix_build.md).  Coordinates are (row, column) from the top-left corner (R9).  The argument `T` is the tables of the
configuration (R6). -/

namespace Sys2Proof.Machine

/-- `MAT.ALLOC`: the `N x N` corner becomes `(DATA, 0)` (R220). -/
def execMatAlloc (s : State) : Host.Outcome State Fault Refusal :=
  finish .matAlloc s <| requirePhase (s.phase == .idle) <|
    match s.specFault with
    | some f => .error f
    | none => .ok { s with mat := s.mat.mapCorner s.side (fun _ _ _ => .blank), phase := .allocated }

/-! ## Function patterns and reserved areas -/

/-- One write of a cell: row, column and the new cell (R221). -/
abbrev CellWrite := Nat × Nat × Module

/-- `setf(r, c, v)` (R221). -/
def setf (r c : Nat) (v : Bool) : CellWrite := (r, c, ⟨.func, v⟩)

/-- `setr(r, c)` (R221). -/
def setr (r c : Nat) : CellWrite := (r, c, ⟨.rsvd, false⟩)

/-- The numbers from `lo` to `hi`, both included. -/
def intRange (lo hi : Int) : List Int := (List.range (hi + 1 - lo).toNat).map fun i => lo + i

/-- The finder pattern: a dark ring, a light ring and a dark 3 x 3 centre (R222). -/
def finderDark (dr dc : Int) : Bool :=
  dr = 0 ∨ dr = 6 ∨ dc = 0 ∨ dc = 6 ∨ (2 ≤ dr ∧ dr ≤ 4 ∧ 2 ≤ dc ∧ dc ≤ 4)

/-- One finder pattern with its separator, clipped to the matrix (R223). -/
def finderWrites (n : Nat) (origin : Nat × Nat) : List CellWrite :=
  (intRange (-1) 7).flatMap fun (dr : Int) => (intRange (-1) 7).filterMap fun (dc : Int) =>
    let r : Int := origin.1 + dr
    let c : Int := origin.2 + dc
    if 0 ≤ r ∧ r < n ∧ 0 ≤ c ∧ c < n then
      let inside : Bool := 0 ≤ dr ∧ dr ≤ 6 ∧ 0 ≤ dc ∧ dc ≤ 6
      some (setf r.toNat c.toNat (inside && finderDark dr dc))
    else none

/-- The top-left modules of the finder patterns: three corners, for Micro symbols one (R223). -/
def finderOrigins (micro : Bool) (n : Nat) : List (Nat × Nat) :=
  if micro then [(0, 0)] else [(0, 0), (0, n - 7), (n - 7, 0)]

/-- The timing patterns: row and column 6 between the separators, for Micro symbols row and column 0 (R224). -/
def timingWrites (micro : Bool) (n : Nat) : List CellWrite :=
  if micro then (List.range' 8 (n - 8)).flatMap fun i => [setf 0 i (i % 2 == 0), setf i 0 (i % 2 == 0)]
  else (List.range' 8 (n - 16)).flatMap fun i => [setf 6 i (i % 2 == 0), setf i 6 (i % 2 == 0)]

/-- One alignment pattern: dark border, light ring, dark centre (R225). -/
def alignmentWrites (a b : Nat) : List CellWrite :=
  (intRange (-2) 2).flatMap fun (dr : Int) => (intRange (-2) 2).map fun (dc : Int) =>
    setf ((a : Int) + dr).toNat ((b : Int) + dc).toNat (max dr.natAbs dc.natAbs ≠ 1)

/-- The alignment pattern centres: all pairs but the three that would fall on a finder pattern (R225). -/
def alignmentCentres (coords : List Nat) : List (Nat × Nat) :=
  let last := coords.getLastD 0
  coords.flatMap fun a => (coords.map fun b => (a, b)).filter fun ab =>
    ab ≠ (6, 6) ∧ ab ≠ (6, last) ∧ ab ≠ (last, 6)

/-- `ALIGN(version)`: the row and column coordinates of the alignment pattern centres (R226).  The Micro symbols have
none (R225). -/
def alignCoords (T : CfgTables) (v : Int) : List Nat := if 1 ≤ v then T.align.getD (v.toNat - 1) [] else []

/-- All alignment patterns of a version (R225, R226). -/
def allAlignmentWrites (T : CfgTables) (v : Int) : List CellWrite :=
  (alignmentCentres (alignCoords T v)).flatMap fun ab => alignmentWrites ab.1 ab.2

/-- The format-information area of full symbols (R228). -/
def formatAreaFull (n : Nat) : List CellWrite :=
  (((List.range 9).filter fun i => i ≠ 6).flatMap fun i => [setr 8 i, setr i 8]) ++
  (List.range 8).map (fun i => setr 8 (n - 1 - i)) ++
  (List.range 7).map (fun i => setr (n - 1 - i) 8)

/-- The format-information area of Micro symbols (R229). -/
def formatAreaMicro : List CellWrite :=
  (List.range' 1 8).flatMap fun i => [setr 8 i, setr i 8]

/-- The version-information areas, version 7 and up (R230). -/
def versionArea (v : Int) (n : Nat) : List CellWrite :=
  if 7 ≤ v then
    (List.range 6).flatMap fun a => (List.range' (n - 11) 3).flatMap fun b => [setr a b, setr b a]
  else []

/-- Every cell `MAT.STAMP` writes, in the order of rule R221. -/
def stampWrites (T : CfgTables) (v : Int) : List CellWrite :=
  let n := symbolSize v
  let micro := isMicro v
  (finderOrigins micro n).flatMap (finderWrites n) ++
  timingWrites micro n ++
  allAlignmentWrites T v ++
  (if micro then [] else [setf (n - 8) 8 true]) ++
  (if micro then formatAreaMicro else formatAreaFull n) ++
  versionArea v n

/-- Do a list of cell writes, one after the other: a later one replaces an earlier one (R221). -/
def applyWrites (m : Mat) (ws : List CellWrite) : Mat :=
  ws.foldl (fun m w => m.set w.1 w.2.1 w.2.2) m

/-- The number of cells of class `DATA` in the `N x N` corner (R46, R232). -/
def countData (m : Mat) (n : Nat) : Nat :=
  ((m.corner n).map fun row => row.countP fun v => v.cls == .data).sum

/-- `MAT.STAMP` (R232). -/
def execMatStamp (s : State) : Host.Outcome State Fault Refusal :=
  finish .matStamp s <| requirePhase (s.phase == .allocated) <|
    let m := applyWrites s.mat (stampWrites s.tables s.versionInt)
    .ok { s with mat := m, nmod := BitVec.ofNat 16 (countData m s.side), phase := .stamped }

/-! ## Data placement -/

/-- The first `w` bits of a codeword, bit 7 first (R65 (a), R234). -/
def codewordBits (cw : Byte) (w : Nat) : List Bool := (List.range w).map fun i => cw.getLsbD (7 - i)

/-- The bit sequence of a final codeword sequence: of the codeword with index `DLEN - 1` of a pair marked "4-bit last" only
bits 7 to 4 (R234). -/
def placementBits (short : Bool) (dlen : Nat) (cws : List Byte) : List Bool :=
  cws.zipIdx.flatMap fun ck => codewordBits ck.1 (if short && ck.2 + 1 == dlen then 4 else 8)

/-- The strips of the zig-zag, from the right: the right column of each and whether it is walked upward.  In full
symbols the strip that would contain column 6 is shifted one column left.  The first argument bounds the number of
strips (R235). -/
def zigzagStrips (full : Bool) : Nat → Nat → Bool → List (Nat × Bool)
  | 0, _, _ => []
  | fuel + 1, right, up =>
    if 1 ≤ right then
      let right' := if full && right == 6 then 5 else right
      (right', up) :: zigzagStrips full fuel (right' - 2) (!up)
    else []

/-- The cells of one strip in walking order, the right one of a row before the left one (R235). -/
def stripCells (n : Nat) (strip : Nat × Bool) : List (Nat × Nat) :=
  (List.range n).flatMap fun k =>
    let r := if strip.2 then n - 1 - k else k
    [(r, strip.1), (r, strip.1 - 1)]

/-- `ORDER`: the `DATA` cells in traversal order (R235). -/
def placementOrder (v : Int) (m : Mat) : List (Nat × Nat) :=
  let n := symbolSize v
  ((zigzagStrips (!isMicro v) n (n - 1) true).flatMap (stripCells n)).filter fun rc =>
    (m.get rc.1 rc.2).cls == .data

/-- Give the cells the bits in order; cells beyond the last bit get 0 (R236, R237). -/
def placeBits : List (Nat × Nat) → List Bool → Mat → Mat
  | [], _, m => m
  | rc :: order, [], m => placeBits order [] (m.setVal rc.1 rc.2 false)
  | rc :: order, b :: bits, m => placeBits order bits (m.setVal rc.1 rc.2 b)

/-- `MAT.PLACE`: it reads `CBUF` as it is (R237). -/
def execMatPlace (s : State) : Host.Outcome State Fault Refusal :=
  finish .matPlace s <| requirePhase (s.phase == .stamped) <|
    (s.memRead cbase s.csrClen).bind fun cws =>
    let bits := placementBits s.blockSpec.fourBitLast s.csrDlen cws
    .ok { s with mat := placeBits (placementOrder s.versionInt s.mat) bits s.mat, phase := .placed }

/-! ## Reading the matrix -/

/-- `MAT.RD rd, ra, rb`: row in `x[ra]`, column in `x[rb]`; `BAD_PHASE` before `MAT_RANGE` (R238). -/
def execMatRd (rd ra rb : XReg) (s : State) : Host.Outcome State Fault Refusal :=
  finish (.matRd rd ra rb) s <| requirePhase (1 ≤ s.phase.code) <|
    let r := (s.getX ra).toNat
    let c := (s.getX rb).toNat
    faultIf (s.side ≤ r ∨ s.side ≤ c) .matRange
      (.ok (s.setX rd (BitVec.ofNat 8 (s.mat.get r c).code)))

end Sys2Proof.Machine
end

