-- ==== Sys2Proof/Machine/Masking.lean ====
section
/-! DEFINITION. Masking, penalty scoring, mask selection, and the format and version information (46_masking.md).
The argument `T` is the tables of the configuration (R6). -/

namespace Sys2Proof.Machine

/-! ## Masks -/

/-- `maskf`: the formulas of the symbol's class (R250). -/
def maskFormula (T : CfgTables) (v : Int) (k r c : Nat) : Bool :=
  maskHolds (if isMicro v then T.maskMicro else T.maskFull) k r c

/-- Mask `k` applied: every data module where the formula holds is inverted (R250). -/
def applyMask (T : CfgTables) (v : Int) (k : Nat) (m : Mat) : Mat :=
  m.mapCorner (symbolSize v) fun r c cell =>
    if cell.cls = .data ∧ maskFormula T v k r c then { cell with val := !cell.val } else cell

/-- `MASK.APPLY k`: `PHASE` stays and `MASKSEL` is not written (R253). -/
def execMaskApply (k : BitVec 16) (s : State) : Host.Outcome State Fault Refusal :=
  finish (.maskApply k) s <| requirePhase (s.phase == .placed) <|
    faultIf (maskCount s.versionInt ≤ k.toNat) .maskErr <|
    .ok { s with mat := applyMask s.tables s.versionInt k.toNat s.mat }

/-! ## Scoring -/

/-- The module values `g[r][c]` of the corner, whatever the class (R255). -/
def valueGrid (m : Mat) (n : Nat) : List (List Bool) := (m.corner n).map fun row => row.map Module.val

/-- The columns of a grid of `n` columns. -/
def gridColumns (g : List (List Bool)) (n : Nat) : List (List Bool) :=
  (List.range n).map fun c => g.map fun row => row.getD c false

/-- The `2N` lines: the rows and the columns (R255). -/
def gridLines (g : List (List Bool)) (n : Nat) : List (List Bool) := g ++ gridColumns g n

/-- What a maximal run of `run` equal modules adds to `N1`, with weight `w1` (R256). -/
def runPoints (w1 run : Nat) : Nat := if 5 ≤ run then w1 + (run - 5) else 0

/-- The loop of rule R256 over the rest of a line, after a run of `run` modules of value `prev`. -/
def lineRuns (w1 : Nat) : Bool → Nat → List Bool → Nat
  | _, run, [] => runPoints w1 run
  | prev, run, b :: l => if b = prev then lineRuns w1 prev (run + 1) l else runPoints w1 run + lineRuns w1 b 1 l

/-- One line's share of `N1` (R256). -/
def lineN1 (w1 : Nat) : List Bool → Nat
  | [] => 0
  | b :: l => lineRuns w1 b 1 l

/-- The uniform 2 x 2 blocks between two adjacent rows (R257). -/
def rowPairBlocks : List Bool → List Bool → Nat
  | a :: a' :: r, b :: b' :: t =>
    (if a = a' ∧ a = b ∧ a = b' then 1 else 0) + rowPairBlocks (a' :: r) (b' :: t)
  | _, _ => 0

/-- The uniform 2 x 2 blocks of a grid (R257). -/
def gridBlocks : List (List Bool) → Nat
  | row :: row' :: g => rowPairBlocks row row' + gridBlocks (row' :: g)
  | _ => 0

/-- Dark, light, three dark, light, dark (R258). -/
def finderLine : List Bool := [true, false, true, true, true, false, true]

/-- A finder-like pattern starts at index `i` of the line, with the four modules before it or the four after it light;
modules outside the line count as light (R258). -/
def finderAt (s : List Bool) (i : Nat) : Bool :=
  (s.drop i).take 7 == finderLine &&
    (((s.take i).drop (i - 4)).all (fun b => !b) || ((s.drop (i + 7)).take 4).all (fun b => !b))

/-- One line's share of `N3`, as a number of patterns (R258). -/
def lineFinders (s : List Bool) : Nat := (List.range (s.length - 6)).countP (finderAt s)

/-- `N4` from the weight `w4`, the number of dark modules and the number of modules (R259). -/
def balancePoints (w4 dark total : Nat) : Nat :=
  w4 * (10 * (2 * (dark : Int) - total).natAbs / total)

/-- The four penalty terms of a full symbol's grid (R256 to R259).  DESIGN CHOICE: the weights are configured, the
definitions are not (log entry 12). -/
def fullTerms (T : CfgTables) (g : List (List Bool)) (n : Nat) : Nat × Nat × Nat × Nat :=
  let lines := gridLines g n
  ((lines.map (lineN1 T.w1)).sum,
   T.w2 * gridBlocks g,
   T.w3 * (lines.map lineFinders).sum,
   balancePoints T.w4 (g.map fun row => row.count true).sum (n * n))

/-- The dark modules of the rightmost column from row `lo` on (R261). -/
def rightDark (g : List (List Bool)) (n lo : Nat) : Nat := (g.drop lo).countP fun row => row.getD (n - 1) false

/-- The dark modules of the bottom row from column `lo` on (R261). -/
def bottomDark (g : List (List Bool)) (n lo : Nat) : Nat := ((g.getD (n - 1) []).drop lo).count true

/-- The Micro score under either reading (R261).  The alternative `iso` leaves the timing modules out of the two
counts of `SCORE`; `N1` and `N2` are the whole edges in both (log entry 6). -/
def microScores (rule : MicroScore) (g : List (List Bool)) (n : Nat) : Scores :=
  let n1 := rightDark g n 0
  let n2 := bottomDark g n 0
  let score :=
    match rule with
    | .doc => 16 * n1 + n2
    | .iso => 16 * min (rightDark g n 1) (bottomDark g n 1) + max (rightDark g n 1) (bottomDark g n 1)
  ⟨BitVec.ofNat 32 score, BitVec.ofNat 32 n1, BitVec.ofNat 32 n2, 0, 0⟩

/-- The score of a full symbol: the sum of the four terms (R260); with the default weights none can overflow 32 bits
(R47). -/
def fullScores (T : CfgTables) (g : List (List Bool)) (n : Nat) : Scores :=
  let (n1, n2, n3, n4) := fullTerms T g n
  ⟨BitVec.ofNat 32 (n1 + n2 + n3 + n4), BitVec.ofNat 32 n1, BitVec.ofNat 32 n2, BitVec.ofNat 32 n3,
    BitVec.ofNat 32 n4⟩

/-- The five score registers for a matrix as it stands (R255, R260, R261). -/
def scoresOf (cfg : Config) (v : Int) (m : Mat) : Scores :=
  let n := symbolSize v
  let g := valueGrid m n
  if isMicro v then microScores cfg.microScore g n else fullScores cfg.toCfgTables g n

/-- `MASK.SCORE`: legal in `PLACED`, `MASKED` and `FINAL` (R260). -/
def execMaskScore (s : State) : Host.Outcome State Fault Refusal :=
  finish .maskScore s <| requirePhase (3 ≤ s.phase.code) <|
    .ok { s with scores := scoresOf s.cfg s.versionInt s.mat }

/-! ## Selection -/

/-- The score of candidate `k`: of the matrix with mask `k` applied on top of what is there (R262). -/
def candidateScores (s : State) (k : Nat) : Scores :=
  scoresOf s.cfg s.versionInt (applyMask s.tables s.versionInt k s.mat)

/-- A strictly better score: lower for full symbols, higher for Micro symbols (R262). -/
def betterScore (v : Int) (new old : Scores) : Bool :=
  if isMicro v then old.score.toNat < new.score.toNat else new.score.toNat < old.score.toNat

/-- The search over the masks `k`, `k + 1`, ... against the best one so far: only a strictly better one replaces it, so
the lowest index among equals is kept (R262). -/
def searchFrom (s : State) : Nat → Nat → Nat × Scores → Nat × Scores
  | 0, _, best => best
  | fuel + 1, k, best =>
    let sc := candidateScores s k
    searchFrom s fuel (k + 1) (if betterScore s.versionInt sc best.2 then (k, sc) else best)

/-- The best mask and its score (R262). -/
def bestMask (s : State) : Nat × Scores :=
  searchFrom s (maskCount s.versionInt - 1) 1 (0, candidateScores s 0)

/-- The mask of `MASK.SELECT` applied for good (R262). -/
def applyChosen (k : Nat) (s : State) : State :=
  { s with mat := applyMask s.tables s.versionInt k s.mat, masksel := BitVec.ofNat 4 k, phase := .masked }

/-- `MASK.SELECT`: a forced mask is applied without scoring; `AUTO` searches (R262). -/
def execMaskSelect (s : State) : Host.Outcome State Fault Refusal :=
  finish .maskSelect s <| requirePhase (s.phase == .placed) <|
    if s.maskreq.toNat ≠ 8 then
      faultIf (maskCount s.versionInt ≤ s.maskreq.toNat) .maskErr (.ok (applyChosen s.maskreq.toNat s))
    else
      let best := bestMask s
      .ok { applyChosen best.1 s with scores := best.2 }

/-! ## Format and version information -/

/-- The cells of format bit `i` in a full symbol, first and second copy (R264). -/
def formatCellsFull (n i : Nat) : List (Nat × Nat) :=
  [if i ≤ 5 then (i, 8) else if i = 6 then (7, 8) else if i = 7 then (8, 8) else if i = 8 then (8, 7)
    else (8, 14 - i),
   if i ≤ 7 then (8, n - 1 - i) else (n - 15 + i, 8)]

/-- The cell of format bit `i` in a Micro symbol (R264). -/
def formatCellsMicro (i : Nat) : List (Nat × Nat) := [if i ≤ 7 then (i + 1, 8) else (8, 15 - i)]

/-- The cells of format bit `i` (R264). -/
def formatCells (v : Int) (i : Nat) : List (Nat × Nat) :=
  if isMicro v then formatCellsMicro i else formatCellsFull (symbolSize v) i

/-- The number of bits of `v`, without leading zeros (R266). -/
def bitLength (v : Nat) : Nat := if v = 0 then 0 else v.log2 + 1

/-- The loop of `bch_rem` over the bits from `glen - 1 + k - 1` down to `glen - 1` (R266). -/
def bchLoop (g glen : Nat) : Nat → Nat → Nat
  | 0, v => v
  | k + 1, v => bchLoop g glen k (if v.testBit (k + (glen - 1)) then v ^^^ (g <<< k) else v)

/-- `bch_rem(v, g, glen)`: the remainder of polynomials over GF(2) held as numbers (R266). -/
def bchRem (v g glen : Nat) : Nat := bchLoop g glen (bitLength v - (glen - 1)) v

/-- The 5 data bits of the format word: level and mask, for Micro symbols symbol number and mask (R265, R267, R270). -/
def formatData (T : CfgTables) (v : Int) (ecl mask : Nat) : Nat :=
  if isMicro v then (blockSpec T v ecl).symbol * 4 + mask else levelIndicator ecl * 8 + mask

/-- The format word of 5 data bits (R266). -/
def formatWord (T : CfgTables) (micro : Bool) (d : Nat) : Nat :=
  ((d <<< 10) ||| bchRem (d <<< 10) T.fmtGen 11) ^^^ (if micro then T.fmtXorMicro else T.fmtXorFull)

/-- The version word (R269). -/
def versionWord (T : CfgTables) (v : Nat) : Nat := (v <<< 12) ||| bchRem (v <<< 12) T.verGen 13

/-- The two cells of version bit `i` (R268). -/
def versionCells (n i : Nat) : List (Nat × Nat) :=
  [(i / 3, n - 11 + i % 3), (n - 11 + i % 3, i / 3)]

/-- Write a word's bits to their cells, bit 0 first; classes stay (R270). -/
def writeWord (word nbits : Nat) (cells : Nat → List (Nat × Nat)) (m : Mat) : Mat :=
  (List.range nbits).foldl (fun m i =>
    (cells i).foldl (fun m rc => m.setVal rc.1 rc.2 (word.testBit i)) m) m

/-- The matrix after the format information is written (R264, R270). -/
def writeFormat (T : CfgTables) (v : Int) (ecl mask : Nat) (m : Mat) : Mat :=
  writeWord (formatWord T (isMicro v) (formatData T v ecl mask)) 15 (formatCells v) m

/-- The matrix after the version information is written, for versions 7 and up (R268, R270). -/
def writeVersion (T : CfgTables) (v : Int) (m : Mat) : Mat :=
  if 7 ≤ v then writeWord (versionWord T v.toNat) 18 (versionCells (symbolSize v)) m else m

/-- `FMT.WRITE` (R270). -/
def execFmtWrite (s : State) : Host.Outcome State Fault Refusal :=
  finish .fmtWrite s <| requirePhase (s.phase == .masked) <|
    .ok { s with
      mat := writeVersion s.tables s.versionInt
        (writeFormat s.tables s.versionInt s.ecl.toNat s.masksel.toNat s.mat),
      phase := .final }

end Sys2Proof.Machine
end

