-- ==== Sys2Proof/Machine/Csr.lean ====
section
/-! DEFINITION. What the host sees: the read port with its register map, the two windows and the two outputs
(R31, R51, R62, R63, R303).  Reads have no side effect on the engine. -/

namespace Sys2Proof.Machine

/-- `CAP`: bit 0 tells whether `HAS_RSDEC`, the rest 0 (R50). -/
def State.cap (s : State) : Nat := s.cfg.hasRsdec.toNat

/-- `FAULT` as a register word: 0 while no command has faulted (R37). -/
def faultCodeOf (f : Option FaultCode) : Nat :=
  match f with
  | none => 0
  | some c => c.code

/-- The control and status register of an index 0x00 to 0x3F, its field in the low bits; the indices 0x17 to 0x3F read
as 0 (R31). -/
def State.csr (s : State) (index : Nat) : Word :=
  match index with
  | 0x00 => s.version.setWidth 32
  | 0x01 => s.ecl.setWidth 32
  | 0x02 => s.maskreq.setWidth 32
  | 0x03 => s.dcount.setWidth 32
  | 0x04 => BitVec.ofNat 32 s.phase.code
  | 0x05 => BitVec.ofNat 32 (faultCodeOf s.fault)
  | 0x06 => s.faultcmd
  | 0x07 => s.masksel.setWidth 32
  | 0x08 => s.scores.score
  | 0x09 => s.scores.n1
  | 0x0A => s.scores.n2
  | 0x0B => s.scores.n3
  | 0x0C => s.scores.n4
  | 0x0D => s.rsn.setWidth 32
  | 0x0E => BitVec.ofNat 32 s.flags.code
  | 0x0F => s.nerr.setWidth 32
  | 0x10 => BitVec.ofNat 32 s.csrSize
  | 0x11 => BitVec.ofNat 32 s.csrDlen
  | 0x12 => BitVec.ofNat 32 s.csrClen
  | 0x13 => s.nmod.setWidth 32
  | 0x14 => s.cmdcnt
  | 0x15 => idWord
  | 0x16 => BitVec.ofNat 32 s.cap
  | _ => 0

/-- The read port: a 12-bit index gives a 32-bit word, zero-extended (R51). -/
def State.readPort (s : State) (index : BitVec 12) : Word :=
  let i := index.toNat
  if i < 0x040 then s.csr i
  else if i < 0x050 then (s.getX (Fin.ofNat 16 (i - 0x040))).setWidth 32
  else if i < 0x058 then BitVec.ofNat 32 (s.p[Fin.ofNat 8 (i - 0x050)]).len
  else if i < 0x100 then 0
  else if i < 0x200 then
    (coefAt (s.p[Fin.ofNat 8 ((i - 0x100) / 32)]).coef.toList ((i - 0x100) % 32)).setWidth 32
  else 0

/-- The `BUF` window, read (R62). -/
def State.bufWindow (s : State) (a : BitVec 13) : Word := (Memory.read s.buf a.toNat).setWidth 32

/-- The `BUF` window, write (R62). -/
def State.writeBufWindow (s : State) (a : BitVec 13) (v : Byte) : State :=
  { s with buf := Memory.write s.buf a.toNat v }

/-- The `MAT` window: the 3-bit word `cls*2 + val` (R63). -/
def State.matWindow (s : State) (r c : Fin nmax) : Word := BitVec.ofNat 32 (s.mat.get r c).code

/-- The output `fault`: high exactly while `FAULT` is not 0 (R303). -/
def State.faultOut (s : State) : Bool := s.fault.isSome

/-- Reset: the whole engine takes its reset values; the configuration is not touched (R320), and what the host will do
next is not the engine's. -/
def State.afterReset (s : State) : State := { State.reset with cfg := s.cfg, host := s.host }

end Sys2Proof.Machine
end

