-- ==== Sys2Proof/Machine/GfScalar.lean ====
section
/-! DEFINITION. The scalar commands of GF(256) arithmetic (41_gf_arithmetic.md section 2).  Sources are read before the
destination is written, so the specifiers may be equal. -/

namespace Sys2Proof.Machine

/-- `GF.LI rd, byte` (R130). -/
def execGfLi (rd : XReg) (imm : BitVec 8) (s : State) : Host.Outcome State Fault Refusal :=
  finish (.gfLi rd imm) s (.ok (s.setX rd imm))

/-- `GF.MV rd, ra` (R131). -/
def execGfMv (rd ra : XReg) (s : State) : Host.Outcome State Fault Refusal :=
  finish (.gfMv rd ra) s (.ok (s.setX rd (s.getX ra)))

/-- `GF.ADD rd, ra, rb`: bitwise exclusive or (R121, R132). -/
def execGfAdd (rd ra rb : XReg) (s : State) : Host.Outcome State Fault Refusal :=
  finish (.gfAdd rd ra rb) s (.ok (s.setX rd (s.getX ra ^^^ s.getX rb)))

/-- `GF.MUL rd, ra, rb` (R133). -/
def execGfMul (rd ra rb : XReg) (s : State) : Host.Outcome State Fault Refusal :=
  finish (.gfMul rd ra rb) s (.ok (s.setX rd (gfMul s.cfg.gfModulus (s.getX ra) (s.getX rb))))

/-- `GF.DIV rd, ra, rb`: `GF_DOMAIN` when `x[rb] = 0` (R134). -/
def execGfDiv (rd ra rb : XReg) (s : State) : Host.Outcome State Fault Refusal :=
  finish (.gfDiv rd ra rb) s <|
    faultIf (s.getX rb = 0) .gfDomain (.ok (s.setX rd (gfDiv s.cfg.gfModulus (s.getX ra) (s.getX rb))))

/-- `GF.INV rd, ra`: `GF_DOMAIN` when `x[ra] = 0` (R135). -/
def execGfInv (rd ra : XReg) (s : State) : Host.Outcome State Fault Refusal :=
  finish (.gfInv rd ra) s <|
    faultIf (s.getX ra = 0) .gfDomain (.ok (s.setX rd (gfInv s.cfg.gfModulus (s.getX ra))))

/-- `GF.EXP rd, ra`: the exponent modulo 255 (R136). -/
def execGfExp (rd ra : XReg) (s : State) : Host.Outcome State Fault Refusal :=
  finish (.gfExp rd ra) s (.ok (s.setX rd (gfExp s.cfg.gfModulus (s.getX ra).toNat)))

/-- `GF.LOG rd, ra`: `GF_DOMAIN` when `x[ra] = 0` (R137). -/
def execGfLog (rd ra : XReg) (s : State) : Host.Outcome State Fault Refusal :=
  finish (.gfLog rd ra) s <|
    faultIf (s.getX ra = 0) .gfDomain (.ok (s.setX rd (BitVec.ofNat 8 (gfLog s.cfg.gfModulus (s.getX ra)))))

end Sys2Proof.Machine
end

