-- ==== Sys2Proof/Machine/LoadStore.lean ====
section
/-! DEFINITION. The byte loads and stores (41_gf_arithmetic.md section 3): one byte, absolute or base plus index. -/

namespace Sys2Proof.Machine

/-- One byte from `BUF[ea]` into `x[rd]`; `BUF_RANGE` above 0x1FFF (R139). -/
def loadByte (rd : XReg) (ea : Nat) (s : State) : Except FaultCode State :=
  faultIf (8191 < ea) .bufRange (.ok (s.setX rd (Memory.read s.buf ea)))

/-- One byte from `x[rs]` into `BUF[ea]`; `BUF_RANGE` above 0x1FFF, nothing written (R139). -/
def storeByte (rs : XReg) (ea : Nat) (s : State) : Except FaultCode State :=
  faultIf (8191 < ea) .bufRange (.ok { s with buf := Memory.write s.buf ea (s.getX rs) })

/-- `LDB rd, addr` (R140). -/
def execLdb (rd : XReg) (addr : BitVec 16) (s : State) : Host.Outcome State Fault Refusal :=
  finish (.ldb rd addr) s (loadByte rd (eaAbs addr) s)

/-- `STB rs, addr` (R141). -/
def execStb (rs : XReg) (addr : BitVec 16) (s : State) : Host.Outcome State Fault Refusal :=
  finish (.stb rs addr) s (storeByte rs (eaAbs addr) s)

/-- `LDBX rd, base, ra`: the index is read before `rd` is written (R142). -/
def execLdbx (rd ra : XReg) (base : BitVec 16) (s : State) : Host.Outcome State Fault Refusal :=
  finish (.ldbx rd ra base) s (loadByte rd (eaIndex s base ra) s)

/-- `STBX rs, base, ra` (R143). -/
def execStbx (rs ra : XReg) (base : BitVec 16) (s : State) : Host.Outcome State Fault Refusal :=
  finish (.stbx rs ra base) s (storeByte rs (eaIndex s base ra) s)

end Sys2Proof.Machine
end

