-- ==== Sys2Proof/Machine/Polynomial.lean ====
section
/-! DEFINITION. The polynomial commands (42_polynomial.md section 2).  All sources are read before the destination is
written; every write of a polynomial register is the assignment `p[k] <- L` (`State.setP`). -/

namespace Sys2Proof.Machine

/-- `P.CLR pd` (R160). -/
def execPClr (pd : PReg) (s : State) : Host.Outcome State Fault Refusal :=
  finish (.pClr pd) s (s.setP pd [])

/-- `P.MV pd, pa` (R161). -/
def execPMv (pd pa : PReg) (s : State) : Host.Outcome State Fault Refusal :=
  finish (.pMv pd pa) s (s.setP pd (s.getP pa))

/-- `P.LD pd, addr, len`: `POLY_RANGE` before `BUF_RANGE`; the highest power stands at the lowest address (R162). -/
def execPLd (pd : PReg) (len : BitVec 6) (addr : BitVec 13) (s : State) : Host.Outcome State Fault Refusal :=
  finish (.pLd pd len addr) s <|
    faultIf (pcap < len.toNat) .polyRange <|
    (s.memRead addr.toNat len.toNat).bind fun l => s.setP pd l.reverse

/-- `P.ST ps, addr`: the register's own `len` bytes, highest power at the lowest address (R163). -/
def execPSt (ps : PReg) (addr : BitVec 13) (s : State) : Host.Outcome State Fault Refusal :=
  finish (.pSt ps addr) s (s.memWrite addr.toNat (s.getP ps).reverse)

/-- `P.GETC rd, pa, index`: `POLY_RANGE` above 31 (R164). -/
def execPGetc (rd : XReg) (pa : PReg) (index : BitVec 16) (s : State) : Host.Outcome State Fault Refusal :=
  finish (.pGetc rd pa index) s <|
    faultIf (31 < index.toNat) .polyRange (.ok (s.setX rd (coefAt (s.p[pa]).coef.toList index.toNat)))

/-- `P.SETC pd, rs, index`: `POLY_RANGE` above 31; `len` grows to `index + 1` where it is smaller (R165). -/
def execPSetc (pd : PReg) (rs : XReg) (index : BitVec 16) (s : State) : Host.Outcome State Fault Refusal :=
  finish (.pSetc pd rs index) s <|
    faultIf (31 < index.toNat) .polyRange <|
    let l := (s.p[pd]).coef.toList.take (max (s.p[pd]).len (index.toNat + 1))
    s.setP pd (l.set index.toNat (s.getX rs))

/-- `P.ADD pd, pa, pb` (R166). -/
def execPAdd (pd pa pb : PReg) (s : State) : Host.Outcome State Fault Refusal :=
  finish (.pAdd pd pa pb) s (s.setP pd (polyAdd (s.getP pa) (s.getP pb)))

/-- `P.SCALE pd, pa, rb` (R167). -/
def execPScale (pd pa : PReg) (rb : XReg) (s : State) : Host.Outcome State Fault Refusal :=
  finish (.pScale pd pa rb) s (s.setP pd (polyScale s.cfg.gfModulus (s.getP pa) (s.getX rb)))

/-- `P.SHL pd, pa, k`: `POLY_RANGE` for `k` above 31 or a result longer than 32 (R168). -/
def execPShl (pd pa : PReg) (k : BitVec 16) (s : State) : Host.Outcome State Fault Refusal :=
  finish (.pShl pd pa k) s <|
    faultIf (31 < k.toNat) .polyRange (s.setP pd (polyShl (s.getP pa) k.toNat))

/-- `P.MUL pd, pa, pb`: `POLY_RANGE` for a result longer than 32 (R169). -/
def execPMul (pd pa pb : PReg) (s : State) : Host.Outcome State Fault Refusal :=
  finish (.pMul pd pa pb) s (s.setP pd (polyMul s.cfg.gfModulus (s.getP pa) (s.getP pb)))

/-- `P.MOD pd, pa, pb`: `GF_DOMAIN` for a divisor with no nonzero coefficient (R170). -/
def execPMod (pd pa pb : PReg) (s : State) : Host.Outcome State Fault Refusal :=
  finish (.pMod pd pa pb) s <|
    faultIf (polyDeg (s.getP pb)).isNone .gfDomain (s.setP pd (polyMod s.cfg.gfModulus (s.getP pa) (s.getP pb)))

/-- `P.EVAL rd, pa, rb` (R171). -/
def execPEval (rd : XReg) (pa : PReg) (rb : XReg) (s : State) : Host.Outcome State Fault Refusal :=
  finish (.pEval rd pa rb) s (.ok (s.setX rd (polyEval s.cfg.gfModulus (s.getP pa) (s.getX rb))))

/-- `P.DERIV pd, pa` (R172). -/
def execPDeriv (pd pa : PReg) (s : State) : Host.Outcome State Fault Refusal :=
  finish (.pDeriv pd pa) s (s.setP pd (polyDeriv (s.getP pa)))

/-- What `P.DEG` writes: the degree, or 0xFF for the zero polynomial (R173). -/
def degreeByte (l : List Byte) : Byte :=
  match polyDeg l with
  | some d => BitVec.ofNat 8 d
  | none => 0xFF

/-- `P.DEG rd, pa` (R173). -/
def execPDeg (rd : XReg) (pa : PReg) (s : State) : Host.Outcome State Fault Refusal :=
  finish (.pDeg rd pa) s (.ok (s.setX rd (degreeByte (s.getP pa))))

end Sys2Proof.Machine
end

