-- ==== Sys2Proof/Machine/RsDecode.lean ====
section
/-! DEFINITION. The Reed-Solomon decode extension, present when `HAS_RSDEC` is true (44_rs_decode.md).  The
argument `m` of its functions is the field modulus of the configuration (R6, R120). -/

namespace Sys2Proof.Machine

/-- The first check of every command of this file: without `HAS_RSDEC` its word is illegal (R97, R200). -/
def requireRsdec (s : State) (rest : Except FaultCode State) : Except FaultCode State :=
  faultIf (!s.cfg.hasRsdec) .illegalCmd rest

/-- The syndromes `R(alpha^j)` for `j` in 0 to `n - 1` of a block in sequence order (R201, R207). -/
def syndromes (m : BitVec 9) (n : Nat) (block : List Byte) : List Byte :=
  (List.range n).map fun j => polyEval m block.reverse (gfExp m j)

/-- `RS.SYN addr, len` (R201). -/
def execRsSyn (len : BitVec 8) (addr : BitVec 13) (s : State) : Host.Outcome State Fault Refusal :=
  finish (.rsSyn len addr) s <| requireRsdec s <|
    faultIf (s.rsn.toNat < 1) .polyRange <|
    (s.memRead addr.toNat len.toNat).bind fun block =>
    let syn := syndromes s.cfg.gfModulus s.rsn.toNat block
    (s.setP 2 syn).map fun t => { t with flags := flagsAfterSyn syn, nerr := 0 }

/-- The working variables of Berlekamp-Massey: `C`, `B`, `L`, `m` and `b` (R202). -/
structure BmVars where
  c : List Byte
  b : List Byte
  l : Nat
  m : Nat
  d : Byte
  deriving DecidableEq, Repr

/-- The discrepancy `d` of round `r` (R202). -/
def bmDiscrepancy (m : BitVec 9) (syn : List Byte) (v : BmVars) (r : Nat) : Byte :=
  coefAt syn r ^^^ xorAll ((List.range v.l).map fun i => gfMul m (coefAt v.c (i + 1)) (coefAt syn (r - (i + 1))))

/-- `C + B * x^m * (d / b)` (R202).  `b` is never 0 here (log entry 5). -/
def bmUpdate (m : BitVec 9) (v : BmVars) (d : Byte) : List Byte :=
  polyAdd v.c (polyScale m (polyShl v.b v.m) (gfDiv m d v.d))

/-- One round of Berlekamp-Massey (R202). -/
def bmRound (m : BitVec 9) (syn : List Byte) (v : BmVars) (r : Nat) : BmVars :=
  let d := bmDiscrepancy m syn v r
  if d = 0 then { v with m := v.m + 1 }
  else if 2 * v.l ≤ r then ⟨bmUpdate m v d, v.c, r + 1 - v.l, 1, d⟩
  else { v with c := bmUpdate m v d, m := v.m + 1 }

/-- The state of Berlekamp-Massey after `n` rounds (R202). -/
def berlekampMassey (m : BitVec 9) (syn : List Byte) (n : Nat) : BmVars :=
  (List.range n).foldl (bmRound m syn) ⟨[1], [1], 0, 1, 1⟩

/-- `p[2]` holds exactly `RSN` syndromes and `RSN` is not 0 (R202, R203). -/
def syndromesReady (s : State) : Bool :=
  1 ≤ s.rsn.toNat ∧ ((s.p[(2 : PReg)]).len : Nat) = s.rsn.toNat

/-- `RS.BM` (R202). -/
def execRsBm (s : State) : Host.Outcome State Fault Refusal :=
  finish .rsBm s <| requireRsdec s <|
    faultIf (!syndromesReady s) .polyRange <|
    let v := berlekampMassey s.cfg.gfModulus (s.getP 2) s.rsn.toNat
    (s.setP 3 (padTo (v.l + 1) v.c)).map fun t =>
      { t with nerr := BitVec.ofNat 5 v.l, flags := flagsAfterBm s.flags v.l s.rsn.toNat }

/-- `RS.OMEGA`: `S * Lambda mod x^n` (R203). -/
def execRsOmega (s : State) : Host.Outcome State Fault Refusal :=
  finish .rsOmega s <| requireRsdec s <|
    faultIf (!syndromesReady s) .polyRange <|
    s.setP 4 (padTo s.rsn.toNat (polyMul s.cfg.gfModulus (s.getP 2) (s.getP 3)))

/-- `alpha^(-i)`: the inverse of the locator number of position `i` (R204, R205). -/
def locatorInv (m : BitVec 9) (i : Nat) : Byte := gfExp m ((255 - i) % 255)

/-- The positions below `len`, ascending, at which the locator polynomial has a root (R204). -/
def chienSearch (m : BitVec 9) (lam : List Byte) (len : Nat) : List Nat :=
  (List.range len).filter fun i => polyEval m lam (locatorInv m i) == 0

/-- `RS.CHIEN len`: `POLY_RANGE` for an empty locator or more than 32 positions (R204). -/
def execRsChien (len : BitVec 8) (s : State) : Host.Outcome State Fault Refusal :=
  finish (.rsChien len) s <| requireRsdec s <|
    faultIf ((s.getP 3).length = 0) .polyRange <|
    let loc := chienSearch s.cfg.gfModulus (s.getP 3) len.toNat
    (s.setP 5 (loc.map (BitVec.ofNat 8))).map fun t =>
      { t with flags := flagsAfterChien s.flags loc.length (s.getP 3).length }

/-- The denominator of Forney's formula at position `i` (R205). -/
def forneyDen (m : BitVec 9) (lam : List Byte) (i : Nat) : Byte := polyEval m (polyDeriv lam) (locatorInv m i)

/-- The error value at position `i`; 0 where the denominator is 0 (R205). -/
def forneyValue (m : BitVec 9) (lam omega : List Byte) (i : Nat) : Byte :=
  let den := forneyDen m lam i
  if den = 0 then 0 else gfMul m (gfExp m i) (gfDiv m (polyEval m omega (locatorInv m i)) den)

/-- `RS.FORNEY` (R205). -/
def execRsForney (s : State) : Host.Outcome State Fault Refusal :=
  finish .rsForney s <| requireRsdec s <|
    let loc := (s.getP 5).map BitVec.toNat
    (s.setP 6 (loc.map (forneyValue s.cfg.gfModulus (s.getP 3) (s.getP 4)))).map fun t =>
      { t with flags := flagsAfterForney s.flags (loc.any fun i => forneyDen s.cfg.gfModulus (s.getP 3) i == 0) }

/-- The bytes of `RS.FIX`: position `i` of the block at `addr` of length `len` is the byte at `addr + len - 1 - i`, and
each is read, xored and written in order (R206, R207). -/
def fixBytes (m : Memory) (addr len : Nat) : List (Byte × Byte) → Memory
  | [] => m
  | (pos, mag) :: rest =>
    let a := addr + len - 1 - pos.toNat
    fixBytes (Memory.write m a (Memory.read m a ^^^ mag)) addr len rest

/-- `RS.FIX addr, len`: both `POLY_RANGE` checks before `BUF_RANGE` (R206). -/
def execRsFix (len : BitVec 8) (addr : BitVec 13) (s : State) : Host.Outcome State Fault Refusal :=
  finish (.rsFix len addr) s <| requireRsdec s <|
    faultIf ((s.getP 5).length ≠ (s.getP 6).length) .polyRange <|
    faultIf ((s.getP 5).any fun pos => len.toNat ≤ pos.toNat) .polyRange <|
    faultIf (bufSize < addr.toNat + len.toNat) .bufRange <|
    .ok { s with buf := fixBytes s.buf addr.toNat len.toNat ((s.getP 5).zip (s.getP 6)) }

end Sys2Proof.Machine
end

