-- ==== Sys2Proof/Machine/RsEncode.lean ====
section
/-! DEFINITION. Reed-Solomon encoding: `RS.GEN`, `RS.ENC` and the macro command `EC.BUILD` (43_rs_encode.md).  The
argument `m` is the field modulus of the configuration (R6, R120). -/

namespace Sys2Proof.Machine

/-- `g_n`: the product of `x + alpha^i` for `i` in 0 to `n - 1` (R180, R181). -/
def rsGenerator (m : BitVec 9) (n : Nat) : List Byte :=
  (List.range n).foldl (fun g i => polyMul m g [gfExp m i, 1]) [1]

/-- `RS.GEN n`: `POLY_RANGE` outside 1 to 30 (R181). -/
def execRsGen (n : BitVec 16) (s : State) : Host.Outcome State Fault Refusal :=
  finish (.rsGen n) s <|
    if 1 ≤ n.toNat ∧ n.toNat ≤ 30 then
      (s.setP 0 (rsGenerator s.cfg.gfModulus n.toNat)).map fun t => { t with rsn := n.setWidth 5 }
    else .error .polyRange

/-- One step of the encoder's shift register: the data byte `v` enters, the remainder is multiplied by `x` and `f` times
the generator's low `n` coefficients is added (R182). -/
def rsEncStep (m : BitVec 9) (g : List Byte) (n : Nat) (rem : List Byte) (v : Byte) : List Byte :=
  let f := v ^^^ coefAt rem (n - 1)
  let shifted := 0 :: rem.take (n - 1)
  (List.range n).map fun i => coefAt shifted i ^^^ gfMul m f (coefAt g i)

/-- The remainder register after the bytes of a block, from `n` zeros (R182). -/
def rsEncode (m : BitVec 9) (g : List Byte) (n : Nat) (block : List Byte) : List Byte :=
  block.foldl (rsEncStep m g n) (List.replicate n 0)

/-- `p[0]` is a monic polynomial of length `RSN + 1` and `RSN` is not 0 (R182). -/
def generatorReady (s : State) : Bool :=
  1 ≤ s.rsn.toNat ∧ ((s.p[(0 : PReg)]).len : Nat) = s.rsn.toNat + 1 ∧ coefAt (s.getP 0) s.rsn.toNat = 1

/-- `RS.ENC addr, len`: the block's correction codewords into `p[1]`; `BUF` is not written (R182). -/
def execRsEnc (len : BitVec 8) (addr : BitVec 13) (s : State) : Host.Outcome State Fault Refusal :=
  finish (.rsEnc len addr) s <|
    faultIf (!generatorReady s) .polyRange <|
    (s.memRead addr.toNat len.toNat).bind fun block => s.setP 1 (rsEncode s.cfg.gfModulus (s.getP 0) s.rsn.toNat block)

/-- The data sequence, with the low nibble of the last codeword taken as zero where that carries 4 bits only (R186). -/
def maskLastCodeword (short : Bool) (data : List Byte) : List Byte :=
  if short then data.modify (data.length - 1) (· &&& 0xF0) else data

/-- Split a sequence into consecutive blocks of the given lengths (R187). -/
def splitByLens : List Nat → List Byte → List (List Byte)
  | [], _ => []
  | k :: lens, l => l.take k :: splitByLens lens (l.drop k)

/-- Round `i` takes entry `i` of every list that has one, in order (R188). -/
def interleaveRounds (rounds : Nat) (blocks : List (List Byte)) : List Byte :=
  (List.range rounds).flatMap fun i => blocks.filterMap fun b => b[i]?

/-- The final codeword sequence: the data rounds, then the correction rounds (R188). -/
def interleave (ecLen : Nat) (blocks ecs : List (List Byte)) : List Byte :=
  interleaveRounds (blocks.foldl (fun n b => max n b.length) 0) blocks ++ interleaveRounds ecLen ecs

/-- The remainder of one block of `EC.BUILD`, coefficient of `x^0` first (R187). -/
def blockRemainder (m : BitVec 9) (ecLen : Nat) (block : List Byte) : List Byte :=
  polyMod m (polyShl block.reverse ecLen) (rsGenerator m ecLen)

/-- The blocks of a data sequence under a block structure (R186, R187). -/
def ecBlocks (b : BlockSpec) (data : List Byte) : List (List Byte) :=
  splitByLens b.lens (maskLastCodeword b.fourBitLast data)

/-- The final codeword sequence of a data sequence (R187, R188). -/
def finalSequence (m : BitVec 9) (b : BlockSpec) (data : List Byte) : List Byte :=
  let blocks := ecBlocks b data
  interleave b.ecLen blocks (blocks.map fun blk => (blockRemainder m b.ecLen blk).reverse)

/-- The remainder `EC.BUILD` leaves in `p[1]`: that of the last block (R187). -/
def lastRemainder (m : BitVec 9) (b : BlockSpec) (data : List Byte) : List Byte :=
  blockRemainder m b.ecLen ((ecBlocks b data).getLastD [])

/-- The effect of `EC.BUILD` once its checks have passed (R187).  DESIGN CHOICE: a table's correction count of 31,
above the range of `RSN`, goes into `RSN` all the same; a larger one has raised `POLY_RANGE` (log entry 13). -/
def ecBuildEffect (b : BlockSpec) (s : State) : Except FaultCode State :=
  (s.memRead dbase b.dlen).bind fun data =>
  (s.memWrite cbase (finalSequence s.cfg.gfModulus b data)).bind fun t =>
  (t.setP 0 (rsGenerator s.cfg.gfModulus b.ecLen)).bind fun t =>
  (t.setP 1 (lastRemainder s.cfg.gfModulus b data)).map fun t => { t with rsn := BitVec.ofNat 5 b.ecLen }

/-- `EC.BUILD`: `VERSION_ERR`, `ECLEVEL_ERR`, `DATA_OVERFLOW`, `DATA_SHORT`, in that order (R187, R292). -/
def execEcBuild (s : State) : Host.Outcome State Fault Refusal :=
  finish .ecBuild s <|
    match s.specFault with
    | some f => .error f
    | none =>
      let b := s.blockSpec
      faultIf (b.dlen < s.dcount.toNat) .dataOverflow <|
      faultIf (s.dcount.toNat < b.dlen) .dataShort <|
      ecBuildEffect b s

end Sys2Proof.Machine
end

