-- ==== Sys2Proof/Machine/System.lean ====
section
/-! DEFINITION. The system commands `NOP` and `CFG.SET` (47_system.md). -/

namespace Sys2Proof.Machine

/-- `NOP`: nothing but the count of completed commands (R280). -/
def execNop (s : State) : Host.Outcome State Fault Refusal :=
  finish .nop s (.ok s)

/-- `CFG.SET VERSION`: the high byte of the immediate must be 0 and the low byte, read as two's complement, must be
-3 to 40 (R281). -/
def setVersion (imm : BitVec 16) (s : State) : Except FaultCode State :=
  let v : BitVec 8 := imm.setWidth 8
  faultIf (0x00FF < imm.toNat) .versionErr <|
  faultIf (v.toInt < -3 ∨ 40 < v.toInt) .versionErr <|
  .ok { s with version := v }

/-- `CFG.SET ECL`: 0 to 4 (R281). -/
def setEcl (imm : BitVec 16) (s : State) : Except FaultCode State :=
  faultIf (4 < imm.toNat) .eclevelErr (.ok { s with ecl := imm.setWidth 3 })

/-- `CFG.SET MASKREQ`: 0 to 7 forced, 8 `AUTO` (R281). -/
def setMaskreq (imm : BitVec 16) (s : State) : Except FaultCode State :=
  faultIf (8 < imm.toNat) .maskErr (.ok { s with maskreq := imm.setWidth 4 })

/-- `CFG.SET DCOUNT`: 0 to 4095 (R281). -/
def setDcount (imm : BitVec 16) (s : State) : Except FaultCode State :=
  faultIf (4095 < imm.toNat) .dataOverflow (.ok { s with dcount := imm.setWidth 12 })

/-- The register `CFG.SET` writes, with its own range check (R281). -/
def setCfgReg (c : CfgReg) (imm : BitVec 16) (s : State) : Except FaultCode State :=
  match c with
  | .version => setVersion imm s
  | .ecl => setEcl imm s
  | .maskreq => setMaskreq imm s
  | .dcount => setDcount imm s

/-- `CFG.SET csr, value`: legal in `IDLE` only (R281). -/
def execCfgSet (c : CfgReg) (imm : BitVec 16) (s : State) : Host.Outcome State Fault Refusal :=
  finish (.cfgSet c imm) s (requirePhase (s.phase == .idle) (setCfgReg c imm s))

end Sys2Proof.Machine
end

