-- ==== Sys2Proof/Machine/Dispatch.lean ====
section
/-! DEFINITION. The dispatch of the 45 commands to their meanings: `exec` of rule R291. -/

namespace Sys2Proof.Machine

def exec (i : Instr) (s : State) : Host.Outcome State Fault Refusal :=
  match i with
  | .nop => Sys2Proof.Machine.execNop s
  | .cfgSet csr imm => Sys2Proof.Machine.execCfgSet csr imm s
  | .gfLi rd imm => Sys2Proof.Machine.execGfLi rd imm s
  | .gfMv rd ra => Sys2Proof.Machine.execGfMv rd ra s
  | .gfInv rd ra => Sys2Proof.Machine.execGfInv rd ra s
  | .gfExp rd ra => Sys2Proof.Machine.execGfExp rd ra s
  | .gfLog rd ra => Sys2Proof.Machine.execGfLog rd ra s
  | .gfAdd rd ra rb => Sys2Proof.Machine.execGfAdd rd ra rb s
  | .gfMul rd ra rb => Sys2Proof.Machine.execGfMul rd ra rb s
  | .gfDiv rd ra rb => Sys2Proof.Machine.execGfDiv rd ra rb s
  | .ldb rd addr => Sys2Proof.Machine.execLdb rd addr s
  | .stb rs addr => Sys2Proof.Machine.execStb rs addr s
  | .ldbx rd ra base => Sys2Proof.Machine.execLdbx rd ra base s
  | .stbx rs ra base => Sys2Proof.Machine.execStbx rs ra base s
  | .pClr pd => Sys2Proof.Machine.execPClr pd s
  | .pMv pd pa => Sys2Proof.Machine.execPMv pd pa s
  | .pLd pd len addr => Sys2Proof.Machine.execPLd pd len addr s
  | .pSt ps addr => Sys2Proof.Machine.execPSt ps addr s
  | .pGetc rd pa index => Sys2Proof.Machine.execPGetc rd pa index s
  | .pSetc pd rs index => Sys2Proof.Machine.execPSetc pd rs index s
  | .pAdd pd pa pb => Sys2Proof.Machine.execPAdd pd pa pb s
  | .pMul pd pa pb => Sys2Proof.Machine.execPMul pd pa pb s
  | .pMod pd pa pb => Sys2Proof.Machine.execPMod pd pa pb s
  | .pScale pd pa rb => Sys2Proof.Machine.execPScale pd pa rb s
  | .pShl pd pa k => Sys2Proof.Machine.execPShl pd pa k s
  | .pEval rd pa rb => Sys2Proof.Machine.execPEval rd pa rb s
  | .pDeriv pd pa => Sys2Proof.Machine.execPDeriv pd pa s
  | .pDeg rd pa => Sys2Proof.Machine.execPDeg rd pa s
  | .rsGen n => Sys2Proof.Machine.execRsGen n s
  | .rsEnc len addr => Sys2Proof.Machine.execRsEnc len addr s
  | .ecBuild => Sys2Proof.Machine.execEcBuild s
  | .rsSyn len addr => Sys2Proof.Machine.execRsSyn len addr s
  | .rsBm => Sys2Proof.Machine.execRsBm s
  | .rsOmega => Sys2Proof.Machine.execRsOmega s
  | .rsChien len => Sys2Proof.Machine.execRsChien len s
  | .rsForney => Sys2Proof.Machine.execRsForney s
  | .rsFix len addr => Sys2Proof.Machine.execRsFix len addr s
  | .matAlloc => Sys2Proof.Machine.execMatAlloc s
  | .matStamp => Sys2Proof.Machine.execMatStamp s
  | .matPlace => Sys2Proof.Machine.execMatPlace s
  | .matRd rd ra rb => Sys2Proof.Machine.execMatRd rd ra rb s
  | .maskApply k => Sys2Proof.Machine.execMaskApply k s
  | .maskScore => Sys2Proof.Machine.execMaskScore s
  | .maskSelect => Sys2Proof.Machine.execMaskSelect s
  | .fmtWrite => Sys2Proof.Machine.execFmtWrite s

end Sys2Proof.Machine
end

