-- ==== Sys2Proof/Machine/Command.lean ====
section
/-! DEFINITION. One action of the host on the engine: a command word (the step relation of rule R291), a window or read
port access, or reset (R20, R70, R320). -/

namespace Sys2Proof.Machine

/-- `step(s, w)` of rule R291: a halted engine ignores the word; an illegal word raises `ILLEGAL_CMD`; a command runs. -/
def issueCommand (w : Word) (s : State) : Host.Outcome State Fault Refusal :=
  if s.fault.isSome then .next s
  else
    match decode s.cfg.hasRsdec w with
    | .ok i => exec i s
    | .error _ => .next (raiseFault .illegalCmd w s)

/-- One host action.  A read leaves its answer in `hostData` and changes nothing else (R51, R62, R63). -/
def hostAction (a : HostAct) (s : State) : Host.Outcome State Fault Refusal :=
  match a with
  | .command w => issueCommand w s
  | .writeBuf a v => .next (s.writeBufWindow a v)
  | .readBuf a => .next { s with hostData := s.bufWindow a }
  | .readMat r c => .next { s with hostData := s.matWindow r c }
  | .readPort i => .next { s with hostData := s.readPort i }
  | .reset => .next s.afterReset

/-- The next host action, taken from the pending ones; with none pending the engine is idle and holds its state
(R70, R306). -/
def hostStep (s : State) : Host.Outcome State Fault Refusal :=
  match s.host with
  | [] => .next s
  | a :: rest => hostAction a { s with host := rest }

/-- A command word put before the pending host actions (R29). -/
def State.handOver (s : State) (w : Word) : State := { s with host := .command w :: s.host }

end Sys2Proof.Machine
end

