-- ==== Sys2Proof/Machine/Step.lean ====
section
/-! DEFINITION. One step of the machine: the next action of the host (R20, R70, R291). -/

namespace Sys2Proof.Machine

/-- One step: one host action, a command being one atomic action (R20, R70). -/
def step (s : State) : Host.Outcome State Fault Refusal := hostStep s

/-- The state in which the host hands over the word `w` next: the engine has no program counter and no instruction
memory, so this is where a command comes from (R29). -/
def State.withFetchWord (s : State) (nbits w : Nat) : State :=
  s.handOver (BitVec.ofNat 32 (w % 2 ^ nbits))

end Sys2Proof.Machine
end

