-- ==== Sys2Proof/Safety.lean ====
section
/-! DEFINITION. The vocabulary the statements are written in: the pieces of state an instruction can change and what it
leaves alone (frames), completing and faulting (R291), when a run may be used (R331), the values of reset (R54), the
invariants of the engine, and the opcode table of rule R95 as `match` and `mask` words. -/

namespace Sys2Proof.Machine

/-! ## Pieces of state and frames -/

/-- One piece of the state: a register, one byte of `BUF`, one cell of `MAT`, one control and status register or one
flag bit, or one of the model's own fields. -/
inductive Piece where
  | x (i : XReg)
  | p (k : PReg)
  | byte (a : Nat)
  | cell (r c : Nat)
  | version
  | ecl
  | maskreq
  | dcount
  | phase
  | fault
  | faultcmd
  | masksel
  | score
  | n1
  | n2
  | n3
  | n4
  | rsn
  | synz
  | unc
  | nerr
  | nmod
  | cmdcnt
  | cfg
  | host
  | hostData
  deriving DecidableEq, Repr

/-- Two states agree on one piece.  A byte is compared through the model's read of one byte, a polynomial register
with all its 32 coefficients. -/
def Same (s t : State) : Piece → Prop
  | .x i => t.getX i = s.getX i
  | .p k => t.p[k] = s.p[k]
  | .byte a => Memory.read t.buf a = Memory.read s.buf a
  | .cell r c => t.mat.get r c = s.mat.get r c
  | .version => t.version = s.version
  | .ecl => t.ecl = s.ecl
  | .maskreq => t.maskreq = s.maskreq
  | .dcount => t.dcount = s.dcount
  | .phase => t.phase = s.phase
  | .fault => t.fault = s.fault
  | .faultcmd => t.faultcmd = s.faultcmd
  | .masksel => t.masksel = s.masksel
  | .score => t.scores.score = s.scores.score
  | .n1 => t.scores.n1 = s.scores.n1
  | .n2 => t.scores.n2 = s.scores.n2
  | .n3 => t.scores.n3 = s.scores.n3
  | .n4 => t.scores.n4 = s.scores.n4
  | .rsn => t.rsn = s.rsn
  | .synz => t.flags.synz = s.flags.synz
  | .unc => t.flags.unc = s.flags.unc
  | .nerr => t.nerr = s.nerr
  | .nmod => t.nmod = s.nmod
  | .cmdcnt => t.cmdcnt = s.cmdcnt
  | .cfg => t.cfg = s.cfg
  | .host => t.host = s.host
  | .hostData => t.hostData = s.hostData

/-- Every piece outside `written` is unchanged from `s` to `t`. -/
def Frame (written : Piece → Prop) (s t : State) : Prop := ∀ q, ¬ written q → Same s t q

/-- The pieces of a list. -/
def only (l : List Piece) (q : Piece) : Prop := q ∈ l

/-- The bytes `BUF[lo .. lo+n-1]`. -/
def bytesFrom (lo n : Nat) (q : Piece) : Prop := ∃ a, q = .byte a ∧ lo ≤ a ∧ a < lo + n

/-- The cells of the `N x N` corner that `chosen` picks. -/
def cornerCells (s : State) (chosen : Nat → Nat → Prop) (q : Piece) : Prop :=
  ∃ r c, q = .cell r c ∧ r < s.side ∧ c < s.side ∧ chosen r c

/-- The data cells of the `N x N` corner. -/
def dataCells (s : State) : Piece → Prop := cornerCells s fun r c => (s.mat.get r c).cls = .data

/-- The pieces of two sets. -/
def either (a b : Piece → Prop) (q : Piece) : Prop := a q ∨ b q

/-- The command completes: it answers a next state that meets `post`, it is counted once (R48), and nothing outside
`written` and the count has changed; `FAULT` is among what has not (R291). -/
def Completes (i : Instr) (s : State) (written : Piece → Prop) (post : State → Prop) : Prop :=
  ∃ t, exec i s = .next t ∧ post t ∧ t.cmdcnt = s.cmdcnt + 1 ∧ Frame (either written (only [.cmdcnt])) s t

/-- The command raises the fault `c`: the next state differs in `FAULT` and `FAULTCMD` alone (R291). -/
def Faults (i : Instr) (s : State) (c : FaultCode) : Prop :=
  exec i s = .next { s with fault := some c, faultcmd := encode i }

/-- `p[k]` holds the list `l`: its length is the register's `len`, and the coefficients beyond it are 0 (R11). -/
def Holds (t : State) (k : PReg) (l : List Byte) : Prop :=
  t.getP k = l ∧ ∀ j : Fin pcap, l.length ≤ j → (t.p[k]).coef[j] = 0

/-! ## Safe runs -/

/-- The matrix may be taken as the finished symbol (R63, R331 (b)). -/
def State.finished (s : State) : Prop := s.phase = .final ∧ s.fault = none

/-- The host may use results: no command has faulted (R331 (c)). -/
def State.usable (s : State) : Prop := s.fault = none

/-- The next host action is not the reset input. -/
def State.noReset (s : State) : Prop := s.host.head? ≠ some .reset

/-- The phases in which a command is legal and the phase it leaves when it completes (R293); `none` for the commands
that are legal in every phase. -/
def phaseRule : Instr → Option (List Phase × Option Phase)
  | .cfgSet _ _ => some ([.idle], some .idle)
  | .matAlloc => some ([.idle], some .allocated)
  | .matStamp => some ([.allocated], some .stamped)
  | .matPlace => some ([.stamped], some .placed)
  | .maskApply _ => some ([.placed], some .placed)
  | .maskSelect => some ([.placed], some .masked)
  | .fmtWrite => some ([.masked], some .final)
  | .maskScore => some ([.placed, .masked, .final], none)
  | .matRd _ _ _ => some ([.allocated, .stamped, .placed, .masked, .final], none)
  | _ => none

/-! ## The values of reset -/

/-- The whole table of rule R54. -/
def ResetValues (t : State) : Prop :=
  (∀ i, t.getX i = 0) ∧
  (∀ k : PReg, ((t.p[k]).len : Nat) = 0 ∧ ∀ j : Fin pcap, (t.p[k]).coef[j] = 0) ∧
  (∀ a, a < bufSize → Memory.read t.buf a = 0) ∧
  (∀ r c, r < nmax → c < nmax → t.mat.get r c = ⟨.data, false⟩) ∧
  t.version = 0 ∧ t.ecl = 0 ∧ t.dcount = 0 ∧ t.maskreq = 8 ∧ t.phase = .idle ∧ t.fault = none ∧ t.faultcmd = 0 ∧
  t.masksel = 0xF ∧ t.scores.score = 0 ∧ t.scores.n1 = 0 ∧ t.scores.n2 = 0 ∧ t.scores.n3 = 0 ∧ t.scores.n4 = 0 ∧
  t.rsn = 0 ∧ t.flags.synz = false ∧ t.flags.unc = false ∧ t.nerr = 0 ∧ t.nmod = 0 ∧ t.cmdcnt = 0 ∧
  t.csrSize = 0 ∧ t.csrDlen = 0 ∧ t.csrClen = 0 ∧
  t.csr 0x15 = 0x52535152 ∧ t.csr 0x16 = if t.cfg.hasRsdec then 1 else 0

/-! ## What tables must give -/

/-- Tables that describe an engine whose sequences fit the registers and regions that the spec gives them (R23, R26,
R41), whose codewords add up (R190 (a)), whose pairs have data, and whose alignment patterns lie inside the symbol (R226).
A total of 4096 codewords fills the region of `CBUF` and passes the 12 bits of `CLEN` (log entry 13).  The default tables
are such (`InvariantsAtReset`); no step changes the tables. -/
structure TablesFit (T : CfgTables) : Prop where
  /-- Of every pair that exists. -/
  blocks : ∀ (v : Int) (e : Nat), Machine.validSpec T v e = true →
    (blockSpec T v e).lens.sum + (blockSpec T v e).lens.length * (blockSpec T v e).ecLen = (blockSpec T v e).total ∧
    1 ≤ (blockSpec T v e).lens.sum ∧ (blockSpec T v e).ecLen ≤ 30 ∧ (blockSpec T v e).total ≤ 4096
  /-- Of every version that has alignment patterns. -/
  align : ∀ v : Int, 1 ≤ v → v ≤ 40 → ∀ c ∈ alignCoords T v, 2 ≤ c ∧ c + 2 < symbolSize v

/-! ## Positions and lines -/

/-- Where the walk over the `N x N` corner comes to a cell, said without walking: the strip, counted from the right with
column 6 of a full symbol left out; in it the row, from the bottom in even strips and from the top in odd ones; in the
row the right cell first (R235). -/
def walkPosition (v : Int) (rc : Nat × Nat) : Nat :=
  let n := symbolSize v
  let d := if 1 ≤ v ∧ rc.2 < 6 then n - 2 - rc.2 else n - 1 - rc.2
  d / 2 * (2 * n) + (if d / 2 % 2 = 0 then n - 1 - rc.1 else rc.1) * 2 + d % 2

/-- The values of row `r` of the `N x N` corner, from the left (R255). -/
def matRow (m : Mat) (n r : Nat) : List Bool := (List.range n).map fun c => (m.get r c).val

/-- The values of column `c` of the `N x N` corner, from the top (R255). -/
def matColumn (m : Mat) (n c : Nat) : List Bool := (List.range n).map fun r => (m.get r c).val

/-! ## Invariants -/

/-- `VERSION` holds one of the values of rule R32. -/
def State.versionLegal (s : State) : Prop := -3 ≤ s.versionInt ∧ s.versionInt ≤ 40

/-- The invariant of the registers and of `BUF`, which every step keeps. -/
structure State.Inv (s : State) : Prop where
  /-- `BUF` is in canonical form (R26). -/
  buf : Memory.wf s.buf
  /-- The coefficients beyond the length are 0 (R25). -/
  padding : ∀ (k : PReg) (j : Fin pcap), ((s.p[k]).len : Nat) ≤ j → (s.p[k]).coef[j] = 0
  /-- R32. -/
  version : s.versionLegal
  /-- R33. -/
  ecl : s.ecl.toNat ≤ 4
  /-- R34. -/
  maskreq : s.maskreq.toNat ≤ 8
  /-- R41. -/
  rsn : s.rsn.toNat ≤ 30
  /-- `NERR` is a number of errors of some block of at most 30 correction codewords (R42, R202). -/
  nerr : s.nerr.toNat ≤ 30
  /-- Without the decode extension `FLAGS` and `NERR` stay 0 (R200). -/
  noRsdec : s.cfg.hasRsdec = false → s.flags = ⟨false, false⟩ ∧ s.nerr = 0
  /-- A matrix exists only for a pair that exists (R220). -/
  spec : s.phase ≠ .idle → s.validSpec = true
  /-- `MASKSEL` is 0xF until `MASK.SELECT` has run, and then names a mask of the symbol's class (R39). -/
  masksel : if 4 ≤ s.phase.code then s.masksel.toNat < maskCount s.versionInt else s.masksel = 0xF
  /-- `FAULTCMD` is 0 until a command has faulted (R38). -/
  faultcmd : s.fault = none → s.faultcmd = 0
  /-- The tables of the configuration fit the engine (R6). -/
  tables : TablesFit s.tables

/-- The matrix right after `MAT.STAMP`, by the tables and the version (R221). -/
def stampedMat (T : CfgTables) (v : Int) : Mat := applyWrites State.reset.mat (stampWrites T v)

/-- The invariant of `MAT`, which every step keeps. -/
structure State.MatInv (s : State) : Prop where
  /-- Before `MAT.STAMP` every cell is `(DATA, 0)` (R27, R220). -/
  blank : s.phase.code < 2 → ∀ r c, s.mat.get r c = ⟨.data, false⟩
  /-- From `MAT.STAMP` on the classes are the stamped ones (R231 (c)). -/
  classes : 2 ≤ s.phase.code → ∀ r c, (s.mat.get r c).cls = ((stampedMat s.tables s.versionInt).get r c).cls
  /-- From `MAT.STAMP` on every function module is the stamped one (R231 (c)). -/
  functions : 2 ≤ s.phase.code → ∀ r c, (s.mat.get r c).cls = .func →
    s.mat.get r c = (stampedMat s.tables s.versionInt).get r c
  /-- A reserved module is light until `FMT.WRITE` (R221). -/
  reserved : s.phase.code < 5 → ∀ r c, (s.mat.get r c).cls = .rsvd → (s.mat.get r c).val = false
  /-- Cells outside the `N x N` corner keep their reset value (R63). -/
  outside : ∀ r c, s.side ≤ r ∨ s.side ≤ c → s.mat.get r c = ⟨.data, false⟩

/-! ## The opcode table -/

/-- One row of `spec/opcode_table.json`: a word is that command exactly when its bits under `mask` are `pattern`;
`rsdec` marks the rows that need `HAS_RSDEC` (R95, R97). -/
structure OpcodeRow where
  pattern : Word
  mask : Word
  rsdec : Bool
  deriving DecidableEq, Repr

/-- The word is that row's command (R95). -/
def OpcodeRow.matches (r : OpcodeRow) (w : Word) : Prop := w &&& r.mask = r.pattern

/-- The opcode table, scalar, load, store and system rows (R95). -/
def opcodeRowsScalar : List OpcodeRow := [
  ⟨0x00000000, 0xFFFFFFFF, false⟩, ⟨0x01000000, 0xFFCF0000, false⟩, ⟨0x10000000, 0xFF0FFF00, false⟩,
  ⟨0x11000000, 0xFF00FFFF, false⟩, ⟨0x15000000, 0xFF00FFFF, false⟩, ⟨0x16000000, 0xFF00FFFF, false⟩,
  ⟨0x17000000, 0xFF00FFFF, false⟩, ⟨0x12000000, 0xFF000FFF, false⟩, ⟨0x13000000, 0xFF000FFF, false⟩,
  ⟨0x14000000, 0xFF000FFF, false⟩, ⟨0x18000000, 0xFF0F0000, false⟩, ⟨0x19000000, 0xFF0F0000, false⟩,
  ⟨0x1A000000, 0xFF000000, false⟩, ⟨0x1B000000, 0xFF000000, false⟩]

/-- The opcode table, polynomial rows (R95). -/
def opcodeRowsPoly : List OpcodeRow := [
  ⟨0x20000000, 0xFF8FFFFF, false⟩, ⟨0x21000000, 0xFF88FFFF, false⟩, ⟨0x22000000, 0xFF880000, false⟩,
  ⟨0x23000000, 0xFF8FE000, false⟩, ⟨0x24000000, 0xFF080000, false⟩, ⟨0x25000000, 0xFF800000, false⟩,
  ⟨0x26000000, 0xFF888FFF, false⟩, ⟨0x29000000, 0xFF888FFF, false⟩, ⟨0x2A000000, 0xFF888FFF, false⟩,
  ⟨0x27000000, 0xFF880FFF, false⟩, ⟨0x28000000, 0xFF880000, false⟩, ⟨0x2B000000, 0xFF080FFF, false⟩,
  ⟨0x2C000000, 0xFF88FFFF, false⟩, ⟨0x2D000000, 0xFF08FFFF, false⟩]

/-- The opcode table, Reed-Solomon rows (R95). -/
def opcodeRowsRs : List OpcodeRow := [
  ⟨0x30000000, 0xFFFF0000, false⟩, ⟨0x31000000, 0xFF00E000, false⟩, ⟨0x32000000, 0xFFFFFFFF, false⟩,
  ⟨0x38000000, 0xFF00E000, true⟩, ⟨0x39000000, 0xFFFFFFFF, true⟩, ⟨0x3A000000, 0xFFFFFFFF, true⟩,
  ⟨0x3B000000, 0xFF00FFFF, true⟩, ⟨0x3C000000, 0xFFFFFFFF, true⟩, ⟨0x3D000000, 0xFF00E000, true⟩]

/-- The opcode table, matrix and masking rows (R95). -/
def opcodeRowsMat : List OpcodeRow := [
  ⟨0x40000000, 0xFFFFFFFF, false⟩, ⟨0x41000000, 0xFFFFFFFF, false⟩, ⟨0x42000000, 0xFFFFFFFF, false⟩,
  ⟨0x43000000, 0xFF000FFF, false⟩, ⟨0x48000000, 0xFFFF0000, false⟩, ⟨0x49000000, 0xFFFFFFFF, false⟩,
  ⟨0x4A000000, 0xFFFFFFFF, false⟩, ⟨0x4B000000, 0xFFFFFFFF, false⟩]

/-- The 45 rows of the opcode table (R95). -/
def opcodeRows : List OpcodeRow := opcodeRowsScalar ++ opcodeRowsPoly ++ opcodeRowsRs ++ opcodeRowsMat

end Sys2Proof.Machine
end

