-- ==== Sys2Proof/Certificates/Slice0/Obligations.lean ====
section
/-! DEFINITION. The statements for the provers, from the numbered rules of `spec/`.  Commands are executed on every
state, halted ones too (`exec` is rule R291's `exec(s, w)`; that a halted engine executes nothing is `StepRelation`). -/

open Sys2Proof Sys2Proof.Machine

/-! ## Encoding (30_encoding.md) -/

/-- Every well-formed command is what its word decodes to: no bit of an operand is dropped (R91, R95, R98). -/
def Obligations.EncodeThenDecode : Prop :=
  ∀ (b : Bool) (i : Instr), i.wellFormed b = true → decode b (encode i) = .ok i

/-- A legal word is the word of the command it decodes to, so no two words are one command (R93), and the command is
one the configuration has (R97). -/
def Obligations.LegalWordsAreUnique : Prop :=
  ∀ (b : Bool) (w : Word) (i : Instr), decode b w = .ok i → encode i = w ∧ i.wellFormed b = true

/-- The decoder accepts exactly the words of the opcode table's `match` and `mask` columns, rows of the extension only
with `HAS_RSDEC`, and no word is in two rows (R95, R97, R98). -/
def Obligations.OpcodeTableDecides : Prop :=
  (∀ (b : Bool) (w : Word),
    (∃ i, decode b w = .ok i) ↔ ∃ r ∈ opcodeRows, r.matches w ∧ (r.rsdec = true → b = true)) ∧
  opcodeRows.Pairwise fun r r' => ∀ w, r.matches w → ¬ r'.matches w

/-- Words written out from the spec's own examples, one or more of every family, decode to the commands they stand
for. -/
def Obligations.ExampleWords : Prop :=
  decode true 0x00000000 = .ok .nop ∧
  decode true 0x010000FE = .ok (.cfgSet .version 0xFE) ∧
  decode true 0x01300010 = .ok (.cfgSet .dcount 16) ∧
  decode true 0x10100053 = .ok (.gfLi 1 0x53) ∧
  decode true 0x12312000 = .ok (.gfAdd 3 1 2) ∧
  decode true 0x1A120100 = .ok (.ldbx 1 2 0x0100) ∧
  decode true 0x22706100 = .ok (.pLd 7 3 0x100) ∧
  decode true 0x23100010 = .ok (.pSt 1 0x010) ∧
  decode true 0x25730002 = .ok (.pSetc 7 3 2) ∧
  decode true 0x31021FFE = .ok (.rsEnc 2 0x1FFE) ∧
  decode true 0x381A0200 = .ok (.rsSyn 26 0x200) ∧
  decode true 0x3B1A0000 = .ok (.rsChien 26) ∧
  decode true 0x43312000 = .ok (.matRd 3 1 2) ∧
  decode true 0x48000003 = .ok (.maskApply 3) ∧
  decode true 0x4B000000 = .ok .fmtWrite

/-- Without `HAS_RSDEC` the opcodes 0x38 to 0x3D are illegal, whatever their operand bits: the decoder refuses the word,
a step with it raises `ILLEGAL_CMD`, and so would the six commands themselves (R97). -/
def Obligations.DecodeOpcodesNeedRsdec : Prop :=
  (∀ w : Word, 0x38 ≤ opcodeOf w → opcodeOf w ≤ 0x3D →
    (∃ e, decode false w = .error e) ∧
    ∀ s : State, s.cfg.hasRsdec = false → s.fault = none →
      issueCommand w s = .next { s with fault := some .illegalCmd, faultcmd := w }) ∧
  (∀ (s : State) (len : BitVec 8) (addr : BitVec 13), s.cfg.hasRsdec = false →
    Faults (.rsSyn len addr) s .illegalCmd ∧ Faults .rsBm s .illegalCmd ∧ Faults .rsOmega s .illegalCmd ∧
    Faults (.rsChien len) s .illegalCmd ∧ Faults .rsForney s .illegalCmd ∧ Faults (.rsFix len addr) s .illegalCmd)

/-! ## The step (60_exceptions.md, 20_memory.md) -/

/-- A command word at the head of the host's actions that decodes to `i` runs `i`, after the word is taken from the
pending actions; with no action pending the engine holds its state (R306). -/
def Obligations.StepRunsDecodedCommand : Prop :=
  (∀ (s : State) (w : Word) (rest : List HostAct) (i : Instr),
    s.host = .command w :: rest → s.fault = none → decode s.cfg.hasRsdec w = .ok i →
      step s = exec i { s with host := rest }) ∧
  ∀ s : State, s.host = [] → step s = .next s

/-- The step relation of rule R291: a halted engine ignores every command; an illegal word faults with `ILLEGAL_CMD`; a
legal one completes and is counted, or raises one fault that changes `FAULT` and `FAULTCMD` alone, with the word that
was handed over.  No action but reset ends the halt or changes `FAULT`, `FAULTCMD`, `CMDCNT`, `PHASE` or `MAT` of a halted
engine; reset ends it; the windows and the read port keep working; and the output `fault` is high exactly while the
engine is halted. -/
def Obligations.StepRelation : Prop :=
  (∀ (s : State) (w : Word) (rest : List HostAct), s.host = .command w :: rest →
    (s.fault ≠ none → step s = .next { s with host := rest }) ∧
    (s.fault = none → ∀ e, decode s.cfg.hasRsdec w = .error e →
      step s = .next { s with host := rest, fault := some .illegalCmd, faultcmd := w }) ∧
    (s.fault = none →
      (∃ t, step s = .next t ∧ t.fault = none ∧ t.faultcmd = s.faultcmd ∧ t.cmdcnt = s.cmdcnt + 1) ∨
      (∃ c, step s = .next { s with host := rest, fault := some c, faultcmd := w }))) ∧
  (∀ s t : State, s.fault ≠ none → s.noReset → step s = .next t →
    t.fault = s.fault ∧ t.faultcmd = s.faultcmd ∧ t.cmdcnt = s.cmdcnt ∧ t.phase = s.phase ∧ t.mat = s.mat) ∧
  (∀ (s : State) (rest : List HostAct), s.fault ≠ none →
    (s.host = .reset :: rest → ∃ t, step s = .next t ∧ t.fault = none) ∧
    (∀ a v, s.host = .writeBuf a v :: rest →
      step s = .next { s with host := rest, buf := Memory.write s.buf a.toNat v }) ∧
    (∀ a, s.host = .readBuf a :: rest → step s = .next { s with host := rest, hostData := s.bufWindow a }) ∧
    (∀ r c, s.host = .readMat r c :: rest → step s = .next { s with host := rest, hostData := s.matWindow r c }) ∧
    (∀ i, s.host = .readPort i :: rest → step s = .next { s with host := rest, hostData := s.readPort i })) ∧
  ∀ s : State, s.faultOut = true ↔ s.fault ≠ none

/-- The state after reset has the values of the table of rule R54; and the reset input, at any time and on a halted
engine too, puts every piece of the engine's state to its reset value and does not touch the configuration (R320). -/
def Obligations.Reset : Prop :=
  ResetValues State.reset ∧
  ∀ (s : State) (rest : List HostAct), s.host = .reset :: rest →
    ∃ t, step s = .next t ∧ ResetValues t ∧ t.cfg = s.cfg

/-- The read port returns the table of rule R51 and has no side effect. -/
def Obligations.ReadPort : Prop :=
  (∀ (s : State) (i : BitVec 12) (rest : List HostAct), s.host = .readPort i :: rest →
    step s = .next { s with host := rest, hostData := s.readPort i }) ∧
  ∀ s : State,
    (∀ i : BitVec 12, i.toNat < 0x040 → s.readPort i = s.csr i.toNat) ∧
    (∀ (i : BitVec 12) (r : XReg), i.toNat = 0x040 + r → s.readPort i = (s.getX r).setWidth 32) ∧
    (∀ (i : BitVec 12) (k : PReg), i.toNat = 0x050 + k → (s.readPort i).toNat = (s.p[k]).len) ∧
    (∀ i : BitVec 12, 0x058 ≤ i.toNat → i.toNat < 0x100 → s.readPort i = 0) ∧
    (∀ (i : BitVec 12) (k : PReg) (j : Fin pcap), i.toNat = 0x100 + 32 * k + j →
      s.readPort i = ((s.p[k]).coef[j]).setWidth 32) ∧
    (∀ i : BitVec 12, 0x200 ≤ i.toNat → s.readPort i = 0)

/-- The control and status registers stand at the indices of rule R31, each zero-extended; the derived ones read 0 for
a pair that does not exist (R43 to R45), and 0x17 to 0x3F read 0.  The tables must fit, which `InvariantKept` keeps.
For a total of 4096 codewords, which they may have, that the 12-bit fields `CLEN` and `DLEN` read the whole number is the
model's choice (log entry 13). -/
def Obligations.RegisterMap : Prop :=
  ∀ s : State,
    (s.csr 0x00).toNat = s.version.toNat ∧ (s.csr 0x01).toNat = s.ecl.toNat ∧
    (s.csr 0x02).toNat = s.maskreq.toNat ∧ (s.csr 0x03).toNat = s.dcount.toNat ∧
    (s.csr 0x04).toNat = s.phase.code ∧ (s.csr 0x05 = 0 ↔ s.fault = none) ∧
    (∀ c, s.fault = some c → (s.csr 0x05).toNat = c.code) ∧
    s.csr 0x06 = s.faultcmd ∧ (s.csr 0x07).toNat = s.masksel.toNat ∧ s.csr 0x08 = s.scores.score ∧
    s.csr 0x09 = s.scores.n1 ∧ s.csr 0x0A = s.scores.n2 ∧ s.csr 0x0B = s.scores.n3 ∧ s.csr 0x0C = s.scores.n4 ∧
    (s.csr 0x0D).toNat = s.rsn.toNat ∧
    (s.csr 0x0E).toNat = (if s.flags.synz then 1 else 0) + (if s.flags.unc then 2 else 0) ∧
    (s.csr 0x0F).toNat = s.nerr.toNat ∧
    (s.validSpec = true → s.versionLegal → (s.csr 0x10).toNat = symbolSize s.versionInt) ∧
    (s.validSpec = true → TablesFit s.tables →
      (s.csr 0x11).toNat = s.blockSpec.lens.sum ∧ (s.csr 0x12).toNat = s.blockSpec.total) ∧
    (s.validSpec = false → s.csr 0x10 = 0 ∧ s.csr 0x11 = 0 ∧ s.csr 0x12 = 0) ∧
    (s.csr 0x13).toNat = s.nmod.toNat ∧ s.csr 0x14 = s.cmdcnt ∧ s.csr 0x15 = 0x52535152 ∧
    s.csr 0x16 = (if s.cfg.hasRsdec then 1 else 0) ∧ ∀ i, 0x17 ≤ i → i ≤ 0x3F → s.csr i = 0

/-- The windows: a host write of `BUF` stores its byte and changes nothing else, a host read of `BUF` answers the byte, a
host read of `MAT` answers `cls*2 + val`, and a read changes nothing (R62, R63, R71).  `BUF` must be in canonical form,
which `InvariantKept` keeps. -/
def Obligations.HostWindows : Prop :=
  (∀ (s : State) (a : BitVec 13) (v : Byte) (rest : List HostAct), Memory.wf s.buf → s.host = .writeBuf a v :: rest →
    ∃ t, step s = .next t ∧ Memory.read t.buf a.toNat = v ∧ t.host = rest ∧
      Frame (only [.byte a.toNat, .host]) s t) ∧
  (∀ (s : State) (a : BitVec 13) (rest : List HostAct), s.host = .readBuf a :: rest →
    step s = .next { s with host := rest, hostData := (Memory.read s.buf a.toNat).setWidth 32 }) ∧
  (∀ (s : State) (r c : Fin nmax) (rest : List HostAct), s.host = .readMat r c :: rest →
    ∃ t, step s = .next t ∧ Frame (only [.host, .hostData]) s t ∧ t.host = rest ∧
      t.hostData.toNat = (s.mat.get r c).cls.code * 2 + (if (s.mat.get r c).val then 1 else 0))

/-- `CMDCNT`, at index 0x14, counts the commands that complete, modulo 2^32, and no command reads it (R48). -/
def Obligations.CommandCount : Prop :=
  State.reset.cmdcnt = 0 ∧ (∀ s : State, s.csr 0x14 = s.cmdcnt) ∧
  (∀ s t : State, s.fault = none → (∃ w rest, s.host = .command w :: rest) → step s = .next t →
    t.cmdcnt = if t.fault = none then s.cmdcnt + 1 else s.cmdcnt) ∧
  (∀ s t : State, s.fault ≠ none ∨ (¬ ∃ w rest, s.host = .command w :: rest) → s.noReset → step s = .next t →
    t.cmdcnt = s.cmdcnt) ∧
  (∀ (i : Instr) (s : State) (n : Word), ∃ t m,
    exec i s = .next t ∧ exec i { s with cmdcnt := n } = .next { t with cmdcnt := m })

/-- `PHASE` only moves forward, one step at a time, except by reset (R36). -/
def Obligations.PhaseMovesForward : Prop :=
  ∀ s t : State, s.noReset → step s = .next t →
    t.phase.code = s.phase.code ∨ t.phase.code = s.phase.code + 1

/-- The table of rule R293: outside its phases a listed command raises `BAD_PHASE`; inside them it raises no
`BAD_PHASE`, and when it completes `PHASE` is as the table says; a command that is not listed runs the same in every
phase and leaves it. -/
def Obligations.PhaseTable : Prop :=
  (∀ (i : Instr) (s : State) (legal : List Phase) (after : Option Phase), phaseRule i = some (legal, after) →
    (s.phase ∉ legal → Faults i s .badPhase) ∧
    (s.phase ∈ legal → ¬ Faults i s .badPhase ∧
      ∀ t, exec i s = .next t → t.cmdcnt = s.cmdcnt + 1 → t.phase = after.getD s.phase)) ∧
  (∀ (i : Instr) (s t : State) (q : Phase), phaseRule i = none → exec i s = .next t →
    t.phase = s.phase ∧ exec i { s with phase := q } = .next { t with phase := q })

/-- No command's result depends on a flag: with other flags in the state before, a command leaves the same state but for
its flags (R30). -/
def Obligations.FlagsNeverSteer : Prop :=
  ∀ (i : Instr) (s t : State) (f : Flags), exec i s = .next t →
    ∃ g, exec i { s with flags := f } = .next { t with flags := g }

/-- The matrix and mask commands but `MAT.RD` run the same, and leave it, whatever the scalar and polynomial registers,
`RSN`, `NERR`, `DCOUNT` and the flags hold; all of them but `MAT.PLACE` whatever `BUF` holds; and all of them but `MASK.SCORE`
and `MASK.SELECT` whatever the score registers hold (R76, R239, R272). -/
def Obligations.MatrixCommandsIgnoreTheRest : Prop :=
  ∀ (i : Instr), i ∈ [Instr.matAlloc, .matStamp, .matPlace, .maskScore, .maskSelect, .fmtWrite] ∨
      (∃ k, i = .maskApply k) →
    ∀ (s t : State) (x : Vector Byte 16) (p : Vector PolyReg 8) (rsn nerr : BitVec 5) (dc : BitVec 12) (f : Flags)
      (m : Memory) (sc : Scores), exec i s = .next t →
      exec i { s with x := x, p := p, rsn := rsn, nerr := nerr, dcount := dc, flags := f } =
        .next { t with x := x, p := p, rsn := rsn, nerr := nerr, dcount := dc, flags := f } ∧
      (i ≠ .matPlace → exec i { s with buf := m } = .next { t with buf := m }) ∧
      (i ≠ .maskScore → i ≠ .maskSelect → exec i { s with scores := sc } = .next { t with scores := sc })

/-! ## Invariants -/

/-- Both invariants hold after reset. -/
def Obligations.InvariantsAtReset : Prop := State.reset.Inv ∧ State.reset.MatInv

/-- Every step, from any state, keeps the register and `BUF` invariant. -/
def Obligations.InvariantKept : Prop :=
  ∀ s t : State, s.Inv → step s = .next t → t.Inv

/-- Every step, from any state with both invariants, keeps the matrix invariant. -/
def Obligations.MatrixInvariantKept : Prop :=
  ∀ s t : State, s.Inv → s.MatInv → step s = .next t → t.MatInv

/-- Immutability (R332): after `MAT.STAMP` no step but reset changes a class or a function module; `MAT.PLACE` and the
mask commands change values of data modules only, `FMT.WRITE` those of reserved modules only, `MASK.SCORE` none; in `FINAL`
no step but reset changes `MAT` at all; and no step, reset neither, changes the configuration and with it the tables. -/
def Obligations.Immutability : Prop :=
  (∀ s t : State, s.Inv → s.MatInv → s.noReset → step s = .next t →
    (2 ≤ s.phase.code → ∀ r c, (t.mat.get r c).cls = (s.mat.get r c).cls ∧
      ((s.mat.get r c).cls = .func → t.mat.get r c = s.mat.get r c)) ∧
    (s.phase = .final → t.mat = s.mat ∧ t.phase = .final)) ∧
  (∀ (i : Instr) (s t : State), s.Inv → s.MatInv → exec i s = .next t →
    (i = .matPlace ∨ (∃ k, i = .maskApply k) ∨ i = .maskSelect → ∀ r c, (t.mat.get r c).cls = (s.mat.get r c).cls ∧
      ((s.mat.get r c).cls ≠ .data → t.mat.get r c = s.mat.get r c)) ∧
    (i = .fmtWrite → ∀ r c, (t.mat.get r c).cls = (s.mat.get r c).cls ∧
      ((s.mat.get r c).cls ≠ .rsvd → t.mat.get r c = s.mat.get r c)) ∧
    (i = .maskScore → t.mat = s.mat)) ∧
  (∀ s t : State, step s = .next t → t.cfg = s.cfg)

/-! ## Scalar commands (41_gf_arithmetic.md, 47_system.md) -/

/-- `NOP`: in every phase it completes and changes nothing but the count; its word is 0x00000000; a word of its opcode
with another bit set, and the word of all ones, raise `ILLEGAL_CMD` (R280). -/
def Obligations.NopChangesOnlyTheCount : Prop :=
  (∀ s : State, Completes .nop s (only []) fun _ => True) ∧
  (∀ b, decode b 0x00000000 = .ok .nop) ∧
  ∀ (s : State) (w : Word), s.fault = none → (opcodeOf w = 0x00 ∧ w ≠ 0) ∨ w = 0xFFFFFFFF →
    issueCommand w s = .next { s with fault := some .illegalCmd, faultcmd := w }

/-- `CFG.SET` in `IDLE`: a value in the register's range is written, and nothing else; the others raise that register's
fault; outside `IDLE` it raises `BAD_PHASE` (R281). -/
def Obligations.CfgSet : Prop :=
  ∀ (s : State) (v : BitVec 16),
    (s.phase = .idle →
      (v.toNat ≤ 0x00FF → -3 ≤ (v.setWidth 8).toInt → (v.setWidth 8).toInt ≤ 40 →
        Completes (.cfgSet .version v) s (only [.version]) fun t => t.versionInt = (v.setWidth 8).toInt) ∧
      (0x00FF < v.toNat ∨ (v.setWidth 8).toInt < -3 ∨ 40 < (v.setWidth 8).toInt →
        Faults (.cfgSet .version v) s .versionErr) ∧
      (v.toNat ≤ 4 → Completes (.cfgSet .ecl v) s (only [.ecl]) fun t => t.ecl.toNat = v.toNat) ∧
      (4 < v.toNat → Faults (.cfgSet .ecl v) s .eclevelErr) ∧
      (v.toNat ≤ 8 → Completes (.cfgSet .maskreq v) s (only [.maskreq]) fun t => t.maskreq.toNat = v.toNat) ∧
      (8 < v.toNat → Faults (.cfgSet .maskreq v) s .maskErr) ∧
      (v.toNat ≤ 4095 → Completes (.cfgSet .dcount v) s (only [.dcount]) fun t => t.dcount.toNat = v.toNat) ∧
      (4095 < v.toNat → Faults (.cfgSet .dcount v) s .dataOverflow)) ∧
    (s.phase ≠ .idle → ∀ c, Faults (.cfgSet c v) s .badPhase)

/-- `GF.LI`, `GF.MV`, `GF.ADD`, `GF.MUL` and `GF.EXP` complete in every state, any registers equal or not, and write `rd`
alone (R130 to R133, R136). -/
def Obligations.ScalarResults : Prop :=
  ∀ (s : State) (rd ra rb : XReg) (v : Byte),
    Completes (.gfLi rd v) s (only [.x rd]) (fun t => t.getX rd = v) ∧
    Completes (.gfMv rd ra) s (only [.x rd]) (fun t => t.getX rd = s.getX ra) ∧
    Completes (.gfAdd rd ra rb) s (only [.x rd]) (fun t => t.getX rd = s.getX ra ^^^ s.getX rb) ∧
    Completes (.gfMul rd ra rb) s (only [.x rd]) (fun t => t.getX rd = gfMul s.cfg.gfModulus (s.getX ra) (s.getX rb)) ∧
    Completes (.gfExp rd ra) s (only [.x rd]) (fun t => t.getX rd = alphaPow s.cfg.gfModulus ((s.getX ra).toNat % 255))

/-- `GF.DIV`, `GF.INV` and `GF.LOG` of what is not zero complete, and with the modulus of rule R120 they leave the quotient,
the inverse and the logarithm, said by what they are and not by how they are found; of zero they raise `GF_DOMAIN`,
whatever the dividend (R134, R135, R137). -/
def Obligations.ScalarDomain : Prop :=
  ∀ (s : State) (rd ra rb : XReg),
    (s.getX rb ≠ 0 →
      Completes (.gfDiv rd ra rb) s (only [.x rd])
        (fun t => t.getX rd = gfDiv s.cfg.gfModulus (s.getX ra) (s.getX rb) ∧
          (s.cfg.gfModulus = 0x11D → gfMul 0x11D (t.getX rd) (s.getX rb) = s.getX ra))) ∧
    (s.getX rb = 0 → Faults (.gfDiv rd ra rb) s .gfDomain) ∧
    (s.getX ra ≠ 0 →
      Completes (.gfInv rd ra) s (only [.x rd])
        (fun t => t.getX rd = gfInv s.cfg.gfModulus (s.getX ra) ∧
          (s.cfg.gfModulus = 0x11D → gfMul 0x11D (s.getX ra) (t.getX rd) = 1)) ∧
      Completes (.gfLog rd ra) s (only [.x rd])
        (fun t => (t.getX rd).toNat = gfLog s.cfg.gfModulus (s.getX ra) ∧
          (s.cfg.gfModulus = 0x11D →
            (t.getX rd).toNat < 255 ∧ alphaPow 0x11D (t.getX rd).toNat = s.getX ra))) ∧
    (s.getX ra = 0 → Faults (.gfInv rd ra) s .gfDomain ∧ Faults (.gfLog rd ra) s .gfDomain)

/-- The field laws of rule R146, for the modulus of rule R120: addition is an abelian group of exponent 2; the nonzero
elements are a cyclic group of order 255 generated by 0x02; distributivity; the exponent and the logarithm; no zero
divisors. -/
def Obligations.FieldLaws : Prop :=
  (∀ a b c : Byte, (a ^^^ b) ^^^ c = a ^^^ (b ^^^ c) ∧ a ^^^ b = b ^^^ a ∧ a ^^^ 0 = a ∧ a ^^^ a = 0) ∧
  (∀ a b c : Byte, gfMul 0x11D (gfMul 0x11D a b) c = gfMul 0x11D a (gfMul 0x11D b c) ∧
    gfMul 0x11D a b = gfMul 0x11D b a ∧ gfMul 0x11D a 1 = a) ∧
  (∀ a : Byte, a ≠ 0 → gfInv 0x11D a ≠ 0 ∧ gfMul 0x11D a (gfInv 0x11D a) = 1) ∧
  (gfExp 0x11D 1 = 0x02 ∧ (∀ a : Byte, a ≠ 0 → ∃ i < 255, gfExp 0x11D i = a) ∧ ∀ e, gfExp 0x11D e = 1 ↔ 255 ∣ e) ∧
  (∀ a b c : Byte, gfMul 0x11D a (b ^^^ c) = gfMul 0x11D a b ^^^ gfMul 0x11D a c) ∧
  (∀ i j : Nat, gfExp 0x11D (i + j) = gfMul 0x11D (gfExp 0x11D i) (gfExp 0x11D j)) ∧
  (∀ a : Byte, a ≠ 0 → gfExp 0x11D (gfLog 0x11D a) = a) ∧ (∀ e : Nat, gfLog 0x11D (gfExp 0x11D e) = e % 255) ∧
  (∀ a b : Byte, gfMul 0x11D a b = 0 ↔ a = 0 ∨ b = 0)

/-- `LDB` and `LDBX`: the byte at the effective address into `rd`, the index register read before; `BUF_RANGE` above
0x1FFF, with no wrap (R139, R140, R142). -/
def Obligations.ByteLoads : Prop :=
  ∀ (s : State) (rd ra : XReg) (a : BitVec 16),
    (a.toNat ≤ 8191 →
      Completes (.ldb rd a) s (only [.x rd]) (fun t => t.getX rd = Memory.read s.buf a.toNat)) ∧
    (8191 < a.toNat → Faults (.ldb rd a) s .bufRange) ∧
    (a.toNat + (s.getX ra).toNat ≤ 8191 →
      Completes (.ldbx rd ra a) s (only [.x rd])
        (fun t => t.getX rd = Memory.read s.buf (a.toNat + (s.getX ra).toNat))) ∧
    (8191 < a.toNat + (s.getX ra).toNat → Faults (.ldbx rd ra a) s .bufRange)

/-- `STB` and `STBX`: the register's byte at the effective address and no other byte; `BUF_RANGE` above 0x1FFF, with
nothing written (R139, R141, R143).  `BUF` must be in canonical form, which `InvariantKept` keeps. -/
def Obligations.ByteStores : Prop :=
  ∀ (s : State) (rs ra : XReg) (a : BitVec 16), Memory.wf s.buf →
    (eaAbs a ≤ 8191 →
      Completes (.stb rs a) s (only [.byte (eaAbs a)]) (fun t => Memory.read t.buf (eaAbs a) = s.getX rs)) ∧
    (8191 < eaAbs a → Faults (.stb rs a) s .bufRange) ∧
    (eaIndex s a ra ≤ 8191 →
      Completes (.stbx rs ra a) s (only [.byte (eaIndex s a ra)])
        (fun t => Memory.read t.buf (eaIndex s a ra) = s.getX rs)) ∧
    (8191 < eaIndex s a ra → Faults (.stbx rs ra a) s .bufRange) ∧
    eaAbs a = a.toNat ∧ eaIndex s a ra = a.toNat + (s.getX ra).toNat

/-! ## Polynomial commands (42_polynomial.md) -/

/-- The polynomial functions, for any modulus, coefficient by coefficient, with the lengths they return: sum, scaling,
shift, product, value, derivative and degree (R150 to R153, R155 to R157). -/
def Obligations.PolynomialFunctions : Prop :=
  ∀ (m : BitVec 9) (a b : List Byte) (v : Byte) (k n : Nat),
    ((polyAdd a b).length = max a.length b.length ∧ coefAt (polyAdd a b) n = coefAt a n ^^^ coefAt b n) ∧
    ((polyScale m a v).length = a.length ∧ coefAt (polyScale m a v) n = gfMul m (coefAt a n) v) ∧
    (polyShl [] k = [] ∧ (a ≠ [] → (polyShl a k).length = a.length + k) ∧
      (a ≠ [] → coefAt (polyShl a k) n = if n < k then 0 else coefAt a (n - k))) ∧
    (polyMul m [] b = [] ∧ polyMul m a [] = [] ∧
      (a ≠ [] → b ≠ [] → (polyMul m a b).length = a.length + b.length - 1 ∧
        coefAt (polyMul m a b) n = xorAll ((List.range (n + 1)).map fun i => gfMul m (coefAt a i) (coefAt b (n - i))))) ∧
    (polyEval m [] v = 0 ∧ (∀ c, polyEval m (c :: a) v = gfMul m (polyEval m a v) v ^^^ c) ∧ polyEval m a 0 = coefAt a 0) ∧
    ((polyDeriv a).length = a.length - 1 ∧
      coefAt (polyDeriv a) n = if n % 2 = 0 then coefAt a (n + 1) else 0) ∧
    (polyDeg a = none ↔ ∀ i, coefAt a i = 0) ∧
    (polyDeg a = some n ↔ coefAt a n ≠ 0 ∧ ∀ i, n < i → coefAt a i = 0)

/-- `poly_mod` (R154), for the modulus of rule R120: by a divisor of degree `d`, monic or not, the result has length
exactly `d`, it is a remainder, and it is the only one of that length. -/
def Obligations.PolyModIsRemainder : Prop :=
  ∀ (a b : List Byte) (d : Nat), polyDeg b = some d →
    (polyMod 0x11D a b).length = d ∧
    (∃ q, ∀ n, coefAt a n = coefAt (polyMul 0x11D q b) n ^^^ coefAt (polyMod 0x11D a b) n) ∧
    ∀ r : List Byte, r.length = d → (∃ q, ∀ n, coefAt a n = coefAt (polyMul 0x11D q b) n ^^^ coefAt r n) →
      r = polyMod 0x11D a b

/-- The evaluation laws of rule R176, for the modulus of rule R120: of a sum, of a product, of a shift, and of a remainder
at a root of the divisor. -/
def Obligations.PolyEvalLaws : Prop :=
  (∀ (a b : List Byte) (v : Byte), polyEval 0x11D (polyAdd a b) v = polyEval 0x11D a v ^^^ polyEval 0x11D b v) ∧
  (∀ (a b : List Byte) (v : Byte),
    polyEval 0x11D (polyMul 0x11D a b) v = gfMul 0x11D (polyEval 0x11D a v) (polyEval 0x11D b v)) ∧
  (∀ (a : List Byte) (k : Nat) (v : Byte),
    polyEval 0x11D (polyShl a k) v = (fun y => gfMul 0x11D y v)^[k] (polyEval 0x11D a v)) ∧
  (∀ (a b : List Byte) (d : Nat) (v : Byte), polyDeg b = some d → polyEval 0x11D b v = 0 →
    polyEval 0x11D a v = polyEval 0x11D (polyMod 0x11D a b) v)

/-- `P.CLR`, `P.MV`, `P.ADD`, `P.SCALE`, `P.DERIV`, `P.EVAL` and `P.DEG` complete in every state, any registers equal or
not, and write the destination alone (R160, R161, R166, R167, R171 to R173). -/
def Obligations.PolynomialResults : Prop :=
  ∀ (s : State) (pd pa pb : PReg) (rd rb : XReg),
    Completes (.pClr pd) s (only [.p pd]) (fun t => Holds t pd []) ∧
    Completes (.pMv pd pa) s (only [.p pd]) (fun t => Holds t pd (s.getP pa)) ∧
    Completes (.pAdd pd pa pb) s (only [.p pd]) (fun t => Holds t pd (polyAdd (s.getP pa) (s.getP pb))) ∧
    Completes (.pScale pd pa rb) s (only [.p pd])
      (fun t => Holds t pd (polyScale s.cfg.gfModulus (s.getP pa) (s.getX rb))) ∧
    Completes (.pDeriv pd pa) s (only [.p pd]) (fun t => Holds t pd (polyDeriv (s.getP pa))) ∧
    Completes (.pEval rd pa rb) s (only [.x rd])
      (fun t => t.getX rd = polyEval s.cfg.gfModulus (s.getP pa) (s.getX rb)) ∧
    Completes (.pDeg rd pa) s (only [.x rd])
      (fun t => (∀ d, polyDeg (s.getP pa) = some d → (t.getX rd).toNat = d) ∧
        (polyDeg (s.getP pa) = none → t.getX rd = 0xFF))

/-- `P.SHL`, `P.MUL` and `P.MOD` complete when the result fits 32 coefficients and the divisor is not zero, and raise
`POLY_RANGE` or `GF_DOMAIN` otherwise (R168 to R170). -/
def Obligations.PolynomialRange : Prop :=
  ∀ (s : State) (pd pa pb : PReg) (k : BitVec 16),
    (k.toNat ≤ 31 → (s.getP pa = [] ∨ (s.getP pa).length + k.toNat ≤ 32) →
      Completes (.pShl pd pa k) s (only [.p pd]) (fun t => Holds t pd (polyShl (s.getP pa) k.toNat))) ∧
    (31 < k.toNat ∨ (s.getP pa ≠ [] ∧ 32 < (s.getP pa).length + k.toNat) → Faults (.pShl pd pa k) s .polyRange) ∧
    (s.getP pa = [] ∨ s.getP pb = [] ∨ (s.getP pa).length + (s.getP pb).length - 1 ≤ 32 →
      Completes (.pMul pd pa pb) s (only [.p pd])
        (fun t => Holds t pd (polyMul s.cfg.gfModulus (s.getP pa) (s.getP pb)))) ∧
    (s.getP pa ≠ [] → s.getP pb ≠ [] → 32 < (s.getP pa).length + (s.getP pb).length - 1 →
      Faults (.pMul pd pa pb) s .polyRange) ∧
    (polyDeg (s.getP pb) ≠ none →
      Completes (.pMod pd pa pb) s (only [.p pd])
        (fun t => Holds t pd (polyMod s.cfg.gfModulus (s.getP pa) (s.getP pb)))) ∧
    (polyDeg (s.getP pb) = none → Faults (.pMod pd pa pb) s .gfDomain)

/-- `P.LD` and `P.ST` move a polynomial with its highest power at the lowest address, and stop with `POLY_RANGE` before
`BUF_RANGE` (R162, R163).  `P.ST` writes the register's own `len` bytes and no other byte.  `BUF` must be in canonical
form, which `InvariantKept` keeps. -/
def Obligations.PolynomialTransfers : Prop :=
  ∀ (s : State) (pd : PReg) (len : BitVec 6) (addr : BitVec 13), Memory.wf s.buf →
    (len.toNat ≤ 32 → addr.toNat + len.toNat ≤ 8192 →
      Completes (.pLd pd len addr) s (only [.p pd])
        (fun t => Holds t pd
          ((List.range len.toNat).map fun i => Memory.read s.buf (addr.toNat + len.toNat - 1 - i)))) ∧
    (32 < len.toNat → Faults (.pLd pd len addr) s .polyRange) ∧
    (len.toNat ≤ 32 → 8192 < addr.toNat + len.toNat → Faults (.pLd pd len addr) s .bufRange) ∧
    (addr.toNat + (s.getP pd).length ≤ 8192 →
      Completes (.pSt pd addr) s (bytesFrom addr.toNat (s.getP pd).length)
        (fun t => ∀ k < (s.getP pd).length,
          Memory.read t.buf (addr.toNat + k) = coefAt (s.getP pd) ((s.getP pd).length - 1 - k))) ∧
    (8192 < addr.toNat + (s.getP pd).length → Faults (.pSt pd addr) s .bufRange)

/-- `P.GETC` and `P.SETC`: one coefficient, with `len` growing to the index written and never shrinking; `POLY_RANGE` for
an index above 31 (R164, R165).  The register written must have zeros beyond its length, which `InvariantKept`
keeps. -/
def Obligations.PolynomialCoefficients : Prop :=
  ∀ (s : State) (pd pa : PReg) (rd rs : XReg) (index : BitVec 16),
    (∀ j : Fin pcap, index.toNat = j →
      Completes (.pGetc rd pa index) s (only [.x rd]) (fun t => t.getX rd = (s.p[pa]).coef[j])) ∧
    (31 < index.toNat → Faults (.pGetc rd pa index) s .polyRange ∧ Faults (.pSetc pd rs index) s .polyRange) ∧
    (∀ j : Fin pcap, index.toNat = j → (∀ i : Fin pcap, ((s.p[pd]).len : Nat) ≤ i → (s.p[pd]).coef[i] = 0) →
      Completes (.pSetc pd rs index) s (only [.p pd])
        (fun t => ((t.p[pd]).len : Nat) = max ((s.p[pd]).len : Nat) (j + 1) ∧ (t.p[pd]).coef[j] = s.getX rs ∧
          ∀ i : Fin pcap, i ≠ j → (t.p[pd]).coef[i] = (s.p[pd]).coef[i]))

/-! ## Reed-Solomon encoding (43_rs_encode.md) -/

/-- `RS.GEN n` builds `g_n` into `p[0]` and records `n`, or raises `POLY_RANGE` outside 1 to 30; `g_n` is monic of degree
`n`, the product of the `x + alpha^i`, and with the modulus of rule R120 vanishes at `alpha^0` to `alpha^(n-1)` (R180,
R181). -/
def Obligations.Generator : Prop :=
  (∀ (s : State) (n : BitVec 16),
    (1 ≤ n.toNat → n.toNat ≤ 30 →
      Completes (.rsGen n) s (only [.p 0, .rsn])
        (fun t => Holds t 0 (rsGenerator s.cfg.gfModulus n.toNat) ∧ t.rsn.toNat = n.toNat)) ∧
    (n.toNat < 1 ∨ 30 < n.toNat → Faults (.rsGen n) s .polyRange)) ∧
  (∀ m, rsGenerator m 0 = [1]) ∧
  (∀ m n, rsGenerator m (n + 1) = polyMul m (rsGenerator m n) [gfExp m n, 1]) ∧
  (∀ m n, (rsGenerator m n).length = n + 1 ∧ coefAt (rsGenerator m n) n = 1) ∧
  (∀ n j, j < n → polyEval 0x11D (rsGenerator 0x11D n) (gfExp 0x11D j) = 0)

/-- `RS.ENC`: with `RSN` and a monic polynomial of length `RSN + 1` in `p[0]` the block's remainder goes to `p[1]` and no
byte of `BUF` changes; `POLY_RANGE` before `BUF_RANGE` otherwise (R182). -/
def Obligations.RsEnc : Prop :=
  ∀ (s : State) (len : BitVec 8) (addr : BitVec 13),
    (1 ≤ s.rsn.toNat → (s.getP 0).length = s.rsn.toNat + 1 → coefAt (s.getP 0) s.rsn.toNat = 1 →
      (addr.toNat + len.toNat ≤ 8192 →
        Completes (.rsEnc len addr) s (only [.p 1])
          (fun t => Holds t 1
            (rsEncode s.cfg.gfModulus (s.getP 0) s.rsn.toNat
              ((List.range len.toNat).map fun k => Memory.read s.buf (addr.toNat + k))))) ∧
      (8192 < addr.toNat + len.toNat → Faults (.rsEnc len addr) s .bufRange)) ∧
    (s.rsn.toNat < 1 ∨ (s.getP 0).length ≠ s.rsn.toNat + 1 ∨ coefAt (s.getP 0) s.rsn.toNat ≠ 1 →
      Faults (.rsEnc len addr) s .polyRange)

/-- The encoder's shift register computes the remainder of the block times `x^n` by the polynomial, for the modulus of rule
R120 (R182). -/
def Obligations.RsEncodeIsRemainder : Prop :=
  ∀ (g : List Byte) (n : Nat) (block : List Byte), 1 ≤ n → g.length = n + 1 → coefAt g n = 1 →
    rsEncode 0x11D g n block = polyMod 0x11D (polyShl block.reverse n) g

/-- A block followed by the correction codewords that `EC.BUILD` computes for it has every syndrome 0, for the modulus of
rule R120 (R180, R190 (b)). -/
def Obligations.EncodedBlocksAreCodewords : Prop :=
  ∀ (n : Nat) (block : List Byte), ∀ y ∈ syndromes 0x11D n (block ++ (blockRemainder 0x11D n block).reverse), y = 0

/-- Which pairs exist with the default tables, as rule R55 lists them; with any tables no pair exists that the block table
lacks; and the fault of a pair that does not exist is `VERSION_ERR` for a version outside -3 to 40 and `ECLEVEL_ERR`
otherwise. -/
def Obligations.ValidPairs : Prop :=
  (∀ (v : Int) (e : Nat), validSpec standardTables v e = true ↔
    (1 ≤ v ∧ v ≤ 40 ∧ (e = 1 ∨ e = 2 ∨ e = 3 ∨ e = 4)) ∨ (v = -3 ∧ e = 0) ∨ (v = -2 ∧ (e = 1 ∨ e = 2)) ∨
      (v = -1 ∧ (e = 1 ∨ e = 2)) ∨ (v = 0 ∧ (e = 1 ∨ e = 2 ∨ e = 3))) ∧
  ∀ (T : CfgTables) (v : Int) (e : Nat),
    (blockSpec? T v e = none → validSpec T v e = false) ∧
    (validSpec T v e = true → specFault T v e = none) ∧
    (validSpec T v e = false →
      specFault T v e = some (if v < -3 ∨ 40 < v then FaultCode.versionErr else .eclevelErr))

/-- The default block table: for every pair that exists the data and correction codewords add up to the total, a block
fits the 8-bit length and the code, the two sequences fit their regions of `BUF`, the pairs marked "4-bit last" are those of
M1 and M3, and the symbol numbers of the Micro pairs are 0 to 7 in order (R183 to R185, R190 (a) and (d), R26, R267). -/
def Obligations.BlockTable : Prop :=
  ∀ (v : Int) (e : Nat) (b : BlockSpec), validSpec standardTables v e = true → b = blockSpec standardTables v e →
    b.lens.sum + b.lens.length * b.ecLen = b.total ∧
    1 ≤ b.ecLen ∧ b.ecLen ≤ 30 ∧ 1 ≤ b.lens.length ∧ (∀ k ∈ b.lens, 1 ≤ k ∧ k + b.ecLen ≤ 153) ∧
    b.lens.sum ≤ 2956 ∧ b.total ≤ 3706 ∧
    (b.fourBitLast = true ↔ v = -3 ∨ v = -1) ∧
    (v < 1 → b.symbol = if v = -3 then 0 else if v = -2 then e else if v = -1 then e + 2 else e + 4)

/-- Interleaving loses and repeats no codeword, and with one block it is the data followed by its correction codewords
(R188, R190 (c)). -/
def Obligations.Interleaving : Prop :=
  (∀ (n : Nat) (blocks ecs : List (List Byte)), (∀ ec ∈ ecs, ec.length = n) →
    (interleave n blocks ecs).Perm (blocks.flatten ++ ecs.flatten)) ∧
  (∀ blk ec : List Byte, interleave ec.length [blk] [ec] = blk ++ ec)

/-- `EC.BUILD` with a pair that exists and `DCOUNT = DLEN` writes the final codeword sequence to `CBUF`, leaves the
generator, the last block's remainder and the correction count, and changes nothing else; otherwise it raises
`VERSION_ERR`, `ECLEVEL_ERR`, `DATA_OVERFLOW` or `DATA_SHORT` (R187).  `BUF` must be in canonical form and the tables must
fit, which `InvariantKept` keeps. -/
def Obligations.EcBuild : Prop :=
  ∀ s : State, Memory.wf s.buf → TablesFit s.tables →
    (s.validSpec = true → s.dcount.toNat = s.blockSpec.lens.sum →
      Completes .ecBuild s
        (either (bytesFrom 0x1000 s.blockSpec.total) (only [.p 0, .p 1, .rsn]))
        (fun t =>
          ((List.range s.blockSpec.total).map fun k => Memory.read t.buf (0x1000 + k)) =
            finalSequence s.cfg.gfModulus s.blockSpec
              ((List.range s.blockSpec.lens.sum).map fun k => Memory.read s.buf k) ∧
          Holds t 0 (rsGenerator s.cfg.gfModulus s.blockSpec.ecLen) ∧
          Holds t 1 (lastRemainder s.cfg.gfModulus s.blockSpec
            ((List.range s.blockSpec.lens.sum).map fun k => Memory.read s.buf k)) ∧
          t.rsn.toNat = s.blockSpec.ecLen)) ∧
    (s.validSpec = true → s.blockSpec.lens.sum < s.dcount.toNat →
      Faults .ecBuild s .dataOverflow) ∧
    (s.validSpec = true → s.dcount.toNat < s.blockSpec.lens.sum →
      Faults .ecBuild s .dataShort) ∧
    (s.validSpec = false → s.versionLegal → Faults .ecBuild s .eclevelErr) ∧
    (¬ s.versionLegal → Faults .ecBuild s .versionErr)

/-! ## Reed-Solomon decoding (44_rs_decode.md) -/

/-- `RS.SYN`: the syndromes of the block, `SYNZ` telling whether all are 0, `UNC` and `NERR` cleared; `POLY_RANGE` before
`BUF_RANGE` otherwise (R201). -/
def Obligations.RsSyn : Prop :=
  ∀ (s : State) (len : BitVec 8) (addr : BitVec 13), s.cfg.hasRsdec = true →
    (1 ≤ s.rsn.toNat → addr.toNat + len.toNat ≤ 8192 →
      Completes (.rsSyn len addr) s (only [.p 2, .synz, .unc, .nerr])
        (fun t => Holds t 2 ((List.range s.rsn.toNat).map fun j =>
            polyEval s.cfg.gfModulus ((List.range len.toNat).map fun k => Memory.read s.buf (addr.toNat + k)).reverse
              (gfExp s.cfg.gfModulus j)) ∧
          (t.flags.synz = true ↔ ∀ y ∈ t.getP 2, y = 0) ∧ t.flags.unc = false ∧ t.nerr = 0)) ∧
    (s.rsn.toNat < 1 → Faults (.rsSyn len addr) s .polyRange) ∧
    (1 ≤ s.rsn.toNat → 8192 < addr.toNat + len.toNat → Faults (.rsSyn len addr) s .bufRange)

/-- `RS.BM` completes whenever `p[2]` holds `RSN` syndromes: the locator has `L + 1` coefficients, the first of them 1,
with `L` at most `RSN`, and cutting the algorithm's polynomial to them loses nothing; with the modulus of rule R120 it
generates the syndromes, every discrepancy from index `L` on being 0; `NERR` is `L` and `UNC` tells whether `2*L > RSN`;
all-zero syndromes give the locator `[1]`.  Otherwise it raises `POLY_RANGE` (R202). -/
def Obligations.RsBm : Prop :=
  ∀ s : State, s.cfg.hasRsdec = true →
    (1 ≤ s.rsn.toNat → (s.getP 2).length = s.rsn.toNat →
      Completes .rsBm s (only [.p 3, .nerr, .unc])
        (fun t =>
          Holds t 3 (padTo ((berlekampMassey s.cfg.gfModulus (s.getP 2) s.rsn.toNat).l + 1)
            (berlekampMassey s.cfg.gfModulus (s.getP 2) s.rsn.toNat).c) ∧
          t.nerr.toNat = (berlekampMassey s.cfg.gfModulus (s.getP 2) s.rsn.toNat).l ∧ t.nerr.toNat ≤ s.rsn.toNat ∧
          (t.getP 3).length = t.nerr.toNat + 1 ∧ coefAt (t.getP 3) 0 = 1 ∧
          (∀ i, t.nerr.toNat < i →
            coefAt (berlekampMassey s.cfg.gfModulus (s.getP 2) s.rsn.toNat).c i = 0) ∧
          (s.cfg.gfModulus = 0x11D → ∀ r, t.nerr.toNat ≤ r → r < s.rsn.toNat →
            xorAll ((List.range (t.nerr.toNat + 1)).map fun i =>
              gfMul 0x11D (coefAt (t.getP 3) i) (coefAt (s.getP 2) (r - i))) = 0) ∧
          (t.flags.unc = true ↔ s.rsn.toNat < 2 * t.nerr.toNat) ∧
          ((∀ y ∈ s.getP 2, y = 0) → t.getP 3 = [1] ∧ t.nerr = 0))) ∧
    (s.rsn.toNat < 1 ∨ (s.getP 2).length ≠ s.rsn.toNat → Faults .rsBm s .polyRange)

/-- `RS.OMEGA`, `RS.CHIEN` and `RS.FORNEY`: the low `RSN` coefficients of the product of syndromes and locator; the
positions at which the locator has a root, in rising order; and Forney's error values, 0 where the denominator is 0.
`RS.CHIEN` and `RS.FORNEY` can set `UNC` and never clear it.  `POLY_RANGE` for a register of the wrong length and for more
than 32 positions (R203 to R205). -/
def Obligations.RsLocate : Prop :=
  ∀ (s : State) (len : BitVec 8), s.cfg.hasRsdec = true →
    (1 ≤ s.rsn.toNat → (s.getP 2).length = s.rsn.toNat →
      Completes .rsOmega s (only [.p 4])
        (fun t => Holds t 4 ((List.range s.rsn.toNat).map fun n =>
          coefAt (polyMul s.cfg.gfModulus (s.getP 2) (s.getP 3)) n))) ∧
    (s.rsn.toNat < 1 ∨ (s.getP 2).length ≠ s.rsn.toNat → Faults .rsOmega s .polyRange) ∧
    (s.getP 3 ≠ [] → (chienSearch s.cfg.gfModulus (s.getP 3) len.toNat).length ≤ 32 →
      Completes (.rsChien len) s (only [.p 5, .unc])
        (fun t => Holds t 5 ((chienSearch s.cfg.gfModulus (s.getP 3) len.toNat).map (BitVec.ofNat 8)) ∧
          (t.flags.unc = true ↔
            s.flags.unc = true ∨ (chienSearch s.cfg.gfModulus (s.getP 3) len.toNat).length + 1 ≠ (s.getP 3).length))) ∧
    (s.getP 3 = [] ∨ 32 < (chienSearch s.cfg.gfModulus (s.getP 3) len.toNat).length → Faults (.rsChien len) s .polyRange) ∧
    (chienSearch s.cfg.gfModulus (s.getP 3) len.toNat).Pairwise (· < ·) ∧
    (∀ i, i ∈ chienSearch s.cfg.gfModulus (s.getP 3) len.toNat ↔
      i < len.toNat ∧ polyEval s.cfg.gfModulus (s.getP 3) (gfExp s.cfg.gfModulus ((255 - i) % 255)) = 0) ∧
    Completes .rsForney s (only [.p 6, .unc])
      (fun t => ∀ den : Byte → Byte,
        (∀ i, den i = polyEval s.cfg.gfModulus (polyDeriv (s.getP 3))
          (gfExp s.cfg.gfModulus ((255 - i.toNat) % 255))) →
        Holds t 6 ((s.getP 5).map fun i =>
          if den i = 0 then 0
          else gfMul s.cfg.gfModulus (gfExp s.cfg.gfModulus i.toNat)
            (gfDiv s.cfg.gfModulus
              (polyEval s.cfg.gfModulus (s.getP 4) (gfExp s.cfg.gfModulus ((255 - i.toNat) % 255))) (den i))) ∧
        (t.flags.unc = true ↔ s.flags.unc = true ∨ ∃ i ∈ s.getP 5, den i = 0))

/-- `RS.FIX` xors every error value into the byte of its position, a position that stands twice twice, and changes no
other byte; both `POLY_RANGE` checks come before `BUF_RANGE` (R206, R207).  `BUF` must be in canonical form, which
`InvariantKept` keeps. -/
def Obligations.RsFix : Prop :=
  ∀ (s : State) (len : BitVec 8) (addr : BitVec 13), s.cfg.hasRsdec = true → Memory.wf s.buf →
    ((s.getP 5).length = (s.getP 6).length → (∀ pos ∈ s.getP 5, pos.toNat < len.toNat) →
      (addr.toNat + len.toNat ≤ 8192 →
        Completes (.rsFix len addr) s
          (fun q => ∃ pos ∈ s.getP 5, q = .byte (addr.toNat + len.toNat - 1 - pos.toNat))
          (fun t => ∀ a, Memory.read t.buf a = Memory.read s.buf a ^^^
            xorAll (((s.getP 5).zip (s.getP 6)).filterMap fun pm =>
              if addr.toNat + len.toNat - 1 - pm.1.toNat = a then some pm.2 else none))) ∧
      (8192 < addr.toNat + len.toNat → Faults (.rsFix len addr) s .bufRange)) ∧
    ((s.getP 5).length ≠ (s.getP 6).length ∨ (∃ pos ∈ s.getP 5, len.toNat ≤ pos.toNat) →
      Faults (.rsFix len addr) s .polyRange)

/-! ## The matrix (45_matrix_build.md) -/

/-- `MAT.ALLOC` in `IDLE` for a pair that exists makes the corner `(DATA, 0)` and advances `PHASE`; it raises `BAD_PHASE`,
`VERSION_ERR` or `ECLEVEL_ERR` otherwise, in that order (R220). -/
def Obligations.MatAlloc : Prop :=
  ∀ s : State,
    (s.phase = .idle → s.validSpec = true →
      Completes .matAlloc s (either (cornerCells s fun _ _ => True) (only [.phase]))
        (fun t => t.phase = .allocated ∧
          ∀ r c, r < s.side → c < s.side → t.mat.get r c = ⟨.data, false⟩)) ∧
    (s.phase = .idle → ¬ s.versionLegal → Faults .matAlloc s .versionErr) ∧
    (s.phase = .idle → s.versionLegal → s.validSpec = false → Faults .matAlloc s .eclevelErr) ∧
    (s.phase ≠ .idle → Faults .matAlloc s .badPhase)

/-- `MAT.STAMP` in `ALLOCATED`, for every version there is: it writes inside the corner alone, counts the data cells in
`NMOD` and advances `PHASE` (R221, R231 (a), R232).  `VERSION` is in its range and the tables fit by `InvariantKept`. -/
def Obligations.MatStamp : Prop :=
  ∀ s : State, s.versionLegal → TablesFit s.tables →
    (s.phase = .allocated →
      Completes .matStamp s (either (cornerCells s fun _ _ => True) (only [.nmod, .phase]))
        (fun t => t.phase = .stamped ∧ t.mat = applyWrites s.mat (stampWrites s.tables s.versionInt) ∧
          t.nmod.toNat = ((List.range s.side).map fun r =>
            (List.range s.side).countP fun c => decide ((t.mat.get r c).cls = .data)).sum)) ∧
    (s.phase ≠ .allocated → Faults .matStamp s .badPhase)

/-- What `MAT.STAMP` leaves on an empty matrix with the default tables, for every version there is: the finder patterns with
their light separators, the timing patterns, the alignment patterns, the dark module, and the reserved modules of the
format and version areas (R222 to R231). -/
def Obligations.StampedPatterns : Prop :=
  ∀ (v : Int) (st : Mat), -3 ≤ v → v ≤ 40 → st = stampedMat standardTables v →
    (∀ r c, r < 8 → c < 8 →
      st.get r c = ⟨.func, decide (r < 7 ∧ c < 7) && finderDark r c⟩ ∧
      (1 ≤ v →
        st.get r (symbolSize v - 1 - c) = ⟨.func, decide (r < 7 ∧ c < 7) && finderDark r c⟩ ∧
        st.get (symbolSize v - 1 - r) c = ⟨.func, decide (r < 7 ∧ c < 7) && finderDark r c⟩)) ∧
    (1 ≤ v → (∀ i, 8 ≤ i → i ≤ symbolSize v - 9 →
        st.get 6 i = ⟨.func, i % 2 == 0⟩ ∧ st.get i 6 = ⟨.func, i % 2 == 0⟩) ∧
      st.get (symbolSize v - 8) 8 = ⟨.func, true⟩) ∧
    (v < 1 → ∀ i, 8 ≤ i → i < symbolSize v →
        st.get 0 i = ⟨.func, i % 2 == 0⟩ ∧ st.get i 0 = ⟨.func, i % 2 == 0⟩) ∧
    (∀ ab ∈ alignmentCentres (alignCoords standardTables v), ∀ dr dc : Nat, dr < 5 → dc < 5 →
      st.get (ab.1 + dr - 2) (ab.2 + dc - 2) =
        ⟨.func, decide (max ((dr : Int) - 2).natAbs ((dc : Int) - 2).natAbs ≠ 1)⟩) ∧
    (∀ i < 15, ∀ rc ∈ formatCells v i, st.get rc.1 rc.2 = ⟨.rsvd, false⟩) ∧
    (7 ≤ v → ∀ i < 18, ∀ rc ∈ versionCells (symbolSize v) i, st.get rc.1 rc.2 = ⟨.rsvd, false⟩)

/-- `MAT.PLACE` in `STAMPED`, for every version there is: the `j`-th cell of the traversal gets bit `j` of the sequence in
`CBUF`, or 0 beyond its end; that is, bit `7 - i` of codeword `k` goes to cell `8*k + i`, but of codeword `DLEN - 1` of a
pair marked "4-bit last" only the bits 7 to 4 are placed, and the codewords after it follow 4 cells earlier; no class and no
other cell changes (R234, R236, R237).  `VERSION` is in its range and the tables fit by `InvariantKept`.  For a total of
4096 codewords, which they may have, that the bits placed follow the whole number, past the 12 bits of `CLEN`, is the model's
choice (log entry 13). -/
def Obligations.MatPlace : Prop :=
  ∀ s : State, s.versionLegal → TablesFit s.tables →
    (s.phase = .stamped →
      Completes .matPlace s
        (either (fun q => ∃ rc ∈ placementOrder s.versionInt s.mat, q = .cell rc.1 rc.2) (only [.phase]))
        (fun t => t.phase = .placed ∧
          (∀ r c, (t.mat.get r c).cls = (s.mat.get r c).cls) ∧
          (∀ j rc, (placementOrder s.versionInt s.mat)[j]? = some rc →
            (t.mat.get rc.1 rc.2).val =
              (placementBits s.blockSpec.fourBitLast s.csrDlen
                ((List.range s.csrClen).map fun k => Memory.read s.buf (0x1000 + k))).getD j false) ∧
          (∀ k i rc, k < s.csrClen →
            i < (if s.blockSpec.fourBitLast = true ∧ k + 1 = s.csrDlen then 4 else 8) →
            (placementOrder s.versionInt s.mat)[8 * k -
              (if s.blockSpec.fourBitLast = true ∧ s.csrDlen ≤ k then 4 else 0) + i]? = some rc →
            (t.mat.get rc.1 rc.2).val = (Memory.read s.buf (0x1000 + k)).getLsbD (7 - i)) ∧
          (∀ j rc, 8 * s.csrClen - (if s.blockSpec.fourBitLast = true then 4 else 0) ≤ j →
            (placementOrder s.versionInt s.mat)[j]? = some rc → (t.mat.get rc.1 rc.2).val = false))) ∧
    (s.phase ≠ .stamped → Faults .matPlace s .badPhase)

/-- The traversal visits every data cell of the corner exactly once, but for the timing column, column 6 of a full and
column 0 of a Micro symbol, and in the order of the zig-zag: by strips of two columns from the right, the first upward and
then downward and upward in turn, in a row the right cell first (R231 (d), R235). -/
def Obligations.PlacementOrder : Prop :=
  ∀ (v : Int) (m : Mat), -3 ≤ v → v ≤ 40 →
    (placementOrder v m).Nodup ∧
    (∀ r c, (r, c) ∈ placementOrder v m ↔
      r < symbolSize v ∧ c < symbolSize v ∧ (m.get r c).cls = .data ∧ c ≠ (if 1 ≤ v then 6 else 0)) ∧
    (placementOrder v m).Pairwise fun a b => walkPosition v a < walkPosition v b

/-- `MAT.RD`: the word `cls*2 + val` of a cell inside the symbol; `BAD_PHASE` in `IDLE`, then `MAT_RANGE` (R238). -/
def Obligations.MatRd : Prop :=
  ∀ (s : State) (rd ra rb : XReg),
    (s.phase ≠ .idle → (s.getX ra).toNat < s.side → (s.getX rb).toNat < s.side →
      Completes (.matRd rd ra rb) s (only [.x rd])
        (fun t => (t.getX rd).toNat = (s.mat.get (s.getX ra).toNat (s.getX rb).toNat).cls.code * 2 +
          (if (s.mat.get (s.getX ra).toNat (s.getX rb).toNat).val then 1 else 0))) ∧
    (s.phase ≠ .idle → s.side ≤ (s.getX ra).toNat ∨ s.side ≤ (s.getX rb).toNat →
      Faults (.matRd rd ra rb) s .matRange) ∧
    (s.phase = .idle → Faults (.matRd rd ra rb) s .badPhase)

/-! ## Masking (46_masking.md) -/

/-- `MASK.APPLY` in `PLACED` inverts the data modules where the formula holds and nothing else, and a second one restores
the matrix; `BAD_PHASE`, then `MASK_ERR` (R250 to R253).  `VERSION` is in its range by `InvariantKept`. -/
def Obligations.MaskApply : Prop :=
  ∀ (s : State) (k : BitVec 16), s.versionLegal →
    (s.phase = .placed → k.toNat < maskCount s.versionInt →
      Completes (.maskApply k) s (dataCells s)
        (fun t => (∀ r c, r < s.side → c < s.side → (s.mat.get r c).cls = .data →
            t.mat.get r c = ⟨.data, (s.mat.get r c).val ^^ maskFormula s.tables s.versionInt k.toNat r c⟩) ∧
          ∃ u, exec (.maskApply k) t = .next u ∧ u.mat = s.mat)) ∧
    (s.phase = .placed → maskCount s.versionInt ≤ k.toNat → Faults (.maskApply k) s .maskErr) ∧
    (s.phase ≠ .placed → Faults (.maskApply k) s .badPhase)

/-- The eight default mask formulas of full symbols (R251); the Micro masks are the full masks 1, 4, 6 and 7 (R252); and
every full mask repeats after 12 rows and after 6 columns. -/
def Obligations.MaskFormulas : Prop :=
  (∀ (v : Int) (r c : Nat), 1 ≤ v →
    (maskFormula standardTables v 0 r c = true ↔ (r + c) % 2 = 0) ∧
    (maskFormula standardTables v 1 r c = true ↔ r % 2 = 0) ∧
    (maskFormula standardTables v 2 r c = true ↔ c % 3 = 0) ∧
    (maskFormula standardTables v 3 r c = true ↔ (r + c) % 3 = 0) ∧
    (maskFormula standardTables v 4 r c = true ↔ (r / 2 + c / 3) % 2 = 0) ∧
    (maskFormula standardTables v 5 r c = true ↔ r * c % 2 + r * c % 3 = 0) ∧
    (maskFormula standardTables v 6 r c = true ↔ (r * c % 2 + r * c % 3) % 2 = 0) ∧
    (maskFormula standardTables v 7 r c = true ↔ ((r + c) % 2 + r * c % 3) % 2 = 0)) ∧
  (∀ (u v : Int) (r c : Nat), u < 1 → 1 ≤ v →
    maskFormula standardTables u 0 r c = maskFormula standardTables v 1 r c ∧
    maskFormula standardTables u 1 r c = maskFormula standardTables v 4 r c ∧
    maskFormula standardTables u 2 r c = maskFormula standardTables v 6 r c ∧
    maskFormula standardTables u 3 r c = maskFormula standardTables v 7 r c) ∧
  (∀ (v : Int) (k r c : Nat), 1 ≤ v →
    maskFormula standardTables v k (r + 12) c = maskFormula standardTables v k r c ∧
    maskFormula standardTables v k r (c + 6) = maskFormula standardTables v k r c)

/-- `MASK.SCORE` in `PLACED`, `MASKED` and `FINAL` writes the five score registers alone: for a full symbol the four terms
and their sum, modulo 2^32 and with the default weights exactly; for a Micro symbol by D0's formula `16*N1 + N2`, or under
the alternative `iso` by the counts that leave the timing modules out, `16*min(s1, s2) + max(s1, s2)` (R260, R261).  That `N1`
and `N2` are whole edges under `iso` too rests on log entry 6; that the registers hold the terms and their sum modulo 2^32
for other weights is the model's choice (log entry 11), and no rule's. -/
def Obligations.MaskScore : Prop :=
  ∀ s : State, s.versionLegal →
    (s.phase = .placed ∨ s.phase = .masked ∨ s.phase = .final →
      Completes .maskScore s (only [.score, .n1, .n2, .n3, .n4])
        (fun t =>
          (1 ≤ s.versionInt →
            t.scores.n1 = BitVec.ofNat 32 (fullTerms s.tables (valueGrid s.mat s.side) s.side).1 ∧
            t.scores.n2 = BitVec.ofNat 32 (fullTerms s.tables (valueGrid s.mat s.side) s.side).2.1 ∧
            t.scores.n3 = BitVec.ofNat 32 (fullTerms s.tables (valueGrid s.mat s.side) s.side).2.2.1 ∧
            t.scores.n4 = BitVec.ofNat 32 (fullTerms s.tables (valueGrid s.mat s.side) s.side).2.2.2 ∧
            t.scores.score = t.scores.n1 + t.scores.n2 + t.scores.n3 + t.scores.n4 ∧
            (s.cfg.w1 = 3 → s.cfg.w2 = 3 → s.cfg.w3 = 40 → s.cfg.w4 = 10 →
              (t.scores.n1.toNat, t.scores.n2.toNat, t.scores.n3.toNat, t.scores.n4.toNat) =
                fullTerms s.tables (valueGrid s.mat s.side) s.side ∧
              t.scores.score.toNat =
                t.scores.n1.toNat + t.scores.n2.toNat + t.scores.n3.toNat + t.scores.n4.toNat)) ∧
          (s.versionInt < 1 →
            t.scores.n1.toNat = (List.range s.side).countP (fun r => (s.mat.get r (s.side - 1)).val) ∧
            t.scores.n2.toNat = (List.range s.side).countP (fun c => (s.mat.get (s.side - 1) c).val) ∧
            t.scores.n3 = 0 ∧ t.scores.n4 = 0 ∧
            (s.cfg.microScore = .doc → t.scores.score.toNat = 16 * t.scores.n1.toNat + t.scores.n2.toNat) ∧
            (s.cfg.microScore = .iso → ∀ s1 s2 : Nat,
              s1 = (List.range' 1 (s.side - 1)).countP (fun r => (s.mat.get r (s.side - 1)).val) →
              s2 = (List.range' 1 (s.side - 1)).countP (fun c => (s.mat.get (s.side - 1) c).val) →
              t.scores.score.toNat = 16 * min s1 s2 + max s1 s2)))) ∧
    (s.phase = .idle ∨ s.phase = .allocated ∨ s.phase = .stamped → Faults .maskScore s .badPhase)

/-- The four penalty terms of a full symbol, for any weights, said over the cells of the matrix.  `N1` is the sum over the
`2N` rows and columns of the points of their maximal runs, a run of `k` equal modules having `W1 + (k - 5)` from 5 on;
`N2` is `W2` for every uniform 2 x 2 block; `N3` is `W3` for every start, in a row or a column, of the finder ratio with four
light modules before or after it, or the edge; `N4` is `W4` for every step of imbalance; and the default weights are 3, 3, 40
and 10 (R255 to R259). -/
def Obligations.PenaltyTerms : Prop :=
  (∀ (T : CfgTables) (m : Mat) (n : Nat), n ≤ nmax →
    (fullTerms T (valueGrid m n) n).1 =
      ((List.range n).map fun i => lineN1 T.w1 (matRow m n i) + lineN1 T.w1 (matColumn m n i)).sum ∧
    (fullTerms T (valueGrid m n) n).2.1 =
      T.w2 * ((List.range (n - 1)).map fun r => (List.range (n - 1)).countP fun c =>
        decide ((m.get r c).val = (m.get r (c + 1)).val ∧ (m.get r c).val = (m.get (r + 1) c).val ∧
          (m.get r c).val = (m.get (r + 1) (c + 1)).val)).sum ∧
    (fullTerms T (valueGrid m n) n).2.2.1 =
      T.w3 * ((List.range n).map fun i => (List.range (n - 6)).countP (finderAt (matRow m n i)) +
        (List.range (n - 6)).countP (finderAt (matColumn m n i))).sum ∧
    (fullTerms T (valueGrid m n) n).2.2.2 =
      T.w4 * (10 * (2 * ((((List.range n).map fun r => (List.range n).countP fun c => (m.get r c).val).sum : Nat) : Int) -
        (n * n : Nat)).natAbs / (n * n))) ∧
  (∀ w, lineN1 w [] = 0) ∧
  (∀ (w : Nat) (b : Bool) (k : Nat) (l : List Bool), 1 ≤ k → l.head? ≠ some b →
    lineN1 w (List.replicate k b ++ l) = (if 5 ≤ k then w + (k - 5) else 0) + lineN1 w l) ∧
  (∀ (l : List Bool) (i : Nat), i + 7 ≤ l.length →
    (finderAt l i = true ↔
      (∀ j < 7, l.getD (i + j) false = [true, false, true, true, true, false, true].getD j false) ∧
      ((∀ j, i ≤ j + 4 → j < i → l.getD j false = false) ∨
        (∀ j, i + 7 ≤ j → j < i + 11 → l.getD j false = false)))) ∧
  standardTables.w1 = 3 ∧ standardTables.w2 = 3 ∧ standardTables.w3 = 40 ∧ standardTables.w4 = 10

/-- With the default weights no score can overflow its register, by the bounds of rule R47 on the unbounded numbers, and
the Micro score's register holds that score. -/
def Obligations.ScoreBounds : Prop :=
  ∀ (v : Int) (m : Mat) (cfg : Config), -3 ≤ v → v ≤ 40 →
    (1 ≤ v →
      (fullTerms standardTables (valueGrid m (symbolSize v)) (symbolSize v)).1 ≤ 61950 ∧
      (fullTerms standardTables (valueGrid m (symbolSize v)) (symbolSize v)).2.1 ≤ 92928 ∧
      (fullTerms standardTables (valueGrid m (symbolSize v)) (symbolSize v)).2.2.1 ≤ 2421360 ∧
      (fullTerms standardTables (valueGrid m (symbolSize v)) (symbolSize v)).2.2.2 ≤ 100) ∧
    (v < 1 → cfg.microScore = .doc →
      16 * rightDark (valueGrid m (symbolSize v)) (symbolSize v) 0 +
        bottomDark (valueGrid m (symbolSize v)) (symbolSize v) 0 ≤ 289 ∧
      (scoresOf cfg v m).score.toNat =
        16 * rightDark (valueGrid m (symbolSize v)) (symbolSize v) 0 +
          bottomDark (valueGrid m (symbolSize v)) (symbolSize v) 0)

/-- `MASK.SELECT` in `PLACED` (R262).  A forced mask of the class is applied without scoring, one outside it raises
`MASK_ERR`.  `AUTO` applies a mask that no other beats and that beats every one of a lower index, with lower scores better
for full and higher for Micro symbols, and records its score.  `VERSION` is in its range by `InvariantKept`.  For weights
with which a score passes 32 bits, that `AUTO` compares what the registers hold, modulo 2^32, is the model's choice (log
entry 11), and no rule's. -/
def Obligations.MaskSelect : Prop :=
  ∀ s : State, s.versionLegal →
    (s.phase = .placed → s.maskreq.toNat ≠ 8 → s.maskreq.toNat < maskCount s.versionInt →
      Completes .maskSelect s (either (dataCells s) (only [.masksel, .phase]))
        (fun t => t.phase = .masked ∧ t.masksel = s.maskreq ∧
          ∀ r c, r < s.side → c < s.side → (s.mat.get r c).cls = .data →
            t.mat.get r c = ⟨.data, (s.mat.get r c).val ^^ maskFormula s.tables s.versionInt s.maskreq.toNat r c⟩)) ∧
    (s.phase = .placed → s.maskreq.toNat ≠ 8 → maskCount s.versionInt ≤ s.maskreq.toNat →
      Faults .maskSelect s .maskErr) ∧
    (s.phase = .placed → s.maskreq.toNat = 8 →
      ∃ k < maskCount s.versionInt,
        Completes .maskSelect s (either (dataCells s) (only [.masksel, .phase, .score, .n1, .n2, .n3, .n4]))
          (fun t => t.phase = .masked ∧ t.masksel.toNat = k ∧
            t.scores = scoresOf s.cfg s.versionInt t.mat ∧
            ∀ r c, r < s.side → c < s.side → (s.mat.get r c).cls = .data →
              t.mat.get r c = ⟨.data, (s.mat.get r c).val ^^ maskFormula s.tables s.versionInt k r c⟩) ∧
        (∀ j < maskCount s.versionInt,
          (1 ≤ s.versionInt →
            (candidateScores s k).score.toNat ≤ (candidateScores s j).score.toNat ∧
            (j < k → (candidateScores s k).score.toNat < (candidateScores s j).score.toNat)) ∧
          (s.versionInt < 1 →
            (candidateScores s j).score.toNat ≤ (candidateScores s k).score.toNat ∧
            (j < k → (candidateScores s j).score.toNat < (candidateScores s k).score.toNat)))) ∧
    (s.phase ≠ .placed → Faults .maskSelect s .badPhase)

/-- `FMT.WRITE` in `MASKED` gives every format bit to its cells, and from version 7 on every version bit, changes no class
and no other cell, and ends the matrix (R264, R268, R270).  `VERSION` is in its range by `InvariantKept`. -/
def Obligations.FmtWrite : Prop :=
  ∀ s : State, s.versionLegal →
    (s.phase = .masked →
      Completes .fmtWrite s
        (either (fun q => (∃ i < 15, ∃ rc ∈ formatCells s.versionInt i, q = .cell rc.1 rc.2) ∨
            (7 ≤ s.versionInt ∧ ∃ i < 18, ∃ rc ∈ versionCells s.side i, q = .cell rc.1 rc.2))
          (only [.phase]))
        (fun t => t.phase = .final ∧
          (∀ r c, (t.mat.get r c).cls = (s.mat.get r c).cls) ∧
          (∀ i < 15, ∀ rc ∈ formatCells s.versionInt i, (t.mat.get rc.1 rc.2).val =
            (formatWord s.tables (isMicro s.versionInt)
              (formatData s.tables s.versionInt s.ecl.toNat s.masksel.toNat)).testBit i) ∧
          (7 ≤ s.versionInt → ∀ i < 18, ∀ rc ∈ versionCells s.side i,
            (t.mat.get rc.1 rc.2).val = (versionWord s.tables s.versionInt.toNat).testBit i))) ∧
    (s.phase ≠ .masked → Faults .fmtWrite s .badPhase)

/-- With the default constants the format words without their final mask and the version words are code words: the data
bits stand above the remainder, the generator divides the word, and two different words differ in at least 7 and 8 bits
(R266, R269). -/
def Obligations.CodeWords : Prop :=
  ∀ full micro version : Nat → Nat,
    (∀ d, full d = formatWord standardTables false d ∧ micro d = formatWord standardTables true d ∧
      version d = versionWord standardTables d) →
    (∀ d < 32, (full d ^^^ 0x5412) / 1024 = d ∧ bchRem (full d ^^^ 0x5412) 0x537 11 = 0 ∧
      micro d = full d ^^^ 0x5412 ^^^ 0x4445) ∧
    (∀ v < 64, version v / 4096 = v ∧ bchRem (version v) 0x1F25 13 = 0) ∧
    (∀ d < 32, ∀ e < 32, d ≠ e →
      7 ≤ (List.range 15).countP fun i => (full d).testBit i != (full e).testBit i) ∧
    (∀ d < 64, ∀ e < 64, d ≠ e →
      8 ≤ (List.range 18).countP fun i => (version d).testBit i != (version e).testBit i)
end

