-- ==== Sys2Proof/Laws/Encoding.lean ====
section
/-! SUPPORT. The fields of a word that the encoder makes, one equation for each format and field. -/

namespace Sys2Proof

theorem bits_ofNat (n hi lo : Nat) (h : n < 2 ^ 32) : bits (BitVec.ofNat 32 n) hi lo = n / 2 ^ lo % 2 ^ (hi + 1 - lo) := by
  rw [bits, BitVec.toNat_ofNat, Nat.mod_eq_of_lt h]

/-- The size of a word of formats N, R and I before it is cut to 32 bits. -/
theorem wordI_lt {op d a low : Nat} (ho : op < 256) (hd : d < 16) (ha : a < 16) (hl : low < 65536) :
    op * 2 ^ 24 + d * 2 ^ 20 + a * 2 ^ 16 + low < 2 ^ 32 := by omega

theorem bits_wordI {op d a low : Nat} (ho : op < 256) (hd : d < 16) (ha : a < 16) (hl : low < 65536) (hi lo : Nat) :
    bits (wordI op d a low) hi lo =
      (op * 2 ^ 24 + d * 2 ^ 20 + a * 2 ^ 16 + low) / 2 ^ lo % 2 ^ (hi + 1 - lo) :=
  bits_ofNat _ _ _ (wordI_lt ho hd ha hl)

theorem opcodeOf_wordI {op d a low : Nat} (ho : op < 256) (hd : d < 16) (ha : a < 16) (hl : low < 65536) :
    opcodeOf (wordI op d a low) = op := by
  rw [opcodeOf, bits_wordI ho hd ha hl]; omega

theorem dField_wordI {op d a low : Nat} (ho : op < 256) (hd : d < 16) (ha : a < 16) (hl : low < 65536) :
    dField (wordI op d a low) = d := by
  rw [dField, bits_wordI ho hd ha hl]; omega

theorem aField_wordI {op d a low : Nat} (ho : op < 256) (hd : d < 16) (ha : a < 16) (hl : low < 65536) :
    aField (wordI op d a low) = a := by
  rw [aField, bits_wordI ho hd ha hl]; omega

theorem bField_wordI {op d a low : Nat} (ho : op < 256) (hd : d < 16) (ha : a < 16) (hl : low < 65536) :
    bField (wordI op d a low) = low / 4096 := by
  rw [bField, bits_wordI ho hd ha hl]; omega

theorem low_wordI {op d a low : Nat} (ho : op < 256) (hd : d < 16) (ha : a < 16) (hl : low < 65536) :
    bits (wordI op d a low) 15 0 = low := by
  rw [bits_wordI ho hd ha hl]; omega

theorem opcodeOf_wordR {op d a b : Nat} (ho : op < 256) (hd : d < 16) (ha : a < 16) (hb : b < 16) :
    opcodeOf (wordR op d a b) = op := opcodeOf_wordI ho hd ha (by omega)

theorem dField_wordR {op d a b : Nat} (ho : op < 256) (hd : d < 16) (ha : a < 16) (hb : b < 16) :
    dField (wordR op d a b) = d := dField_wordI ho hd ha (by omega)

theorem aField_wordR {op d a b : Nat} (ho : op < 256) (hd : d < 16) (ha : a < 16) (hb : b < 16) :
    aField (wordR op d a b) = a := aField_wordI ho hd ha (by omega)

theorem bField_wordR {op d a b : Nat} (ho : op < 256) (hd : d < 16) (ha : a < 16) (hb : b < 16) :
    bField (wordR op d a b) = b := by
  rw [wordR, bField_wordI ho hd ha (by omega)]; omega

theorem low_wordR {op d a b : Nat} (ho : op < 256) (hd : d < 16) (ha : a < 16) (hb : b < 16) :
    bits (wordR op d a b) 11 0 = 0 := by
  rw [wordR, bits_wordI ho hd ha (by omega)]; omega

theorem opcodeOf_wordB {op : Nat} (len : BitVec 8) (addr : BitVec 13) (ho : op < 256) :
    opcodeOf (wordB op len addr) = op := by
  have h1 := len.isLt
  have h2 := addr.isLt
  rw [opcodeOf, wordB, bits_ofNat _ _ _ (by omega)]; omega

theorem lenField_wordB {op : Nat} (len : BitVec 8) (addr : BitVec 13) (ho : op < 256) :
    bits (wordB op len addr) 23 16 = len.toNat := by
  have h1 := len.isLt
  have h2 := addr.isLt
  rw [wordB, bits_ofNat _ _ _ (by omega)]; omega

theorem addrField_wordB {op : Nat} (len : BitVec 8) (addr : BitVec 13) (ho : op < 256) :
    bits (wordB op len addr) 12 0 = addr.toNat := by
  have h1 := len.isLt
  have h2 := addr.isLt
  rw [wordB, bits_ofNat _ _ _ (by omega)]; omega

theorem opcodeOf_wordV {op d : Nat} (len : BitVec 6) (addr : BitVec 13) (ho : op < 256) (hd : d < 16) :
    opcodeOf (wordV op d len addr) = op := by
  have h1 := len.isLt
  have h2 := addr.isLt
  rw [opcodeOf, wordV, bits_ofNat _ _ _ (by omega)]; omega

theorem dField_wordV {op d : Nat} (len : BitVec 6) (addr : BitVec 13) (ho : op < 256) (hd : d < 16) :
    dField (wordV op d len addr) = d := by
  have h1 := len.isLt
  have h2 := addr.isLt
  rw [dField, wordV, bits_ofNat _ _ _ (by omega)]; omega

theorem lenField_wordV {op d : Nat} (len : BitVec 6) (addr : BitVec 13) (ho : op < 256) (hd : d < 16) :
    bits (wordV op d len addr) 18 13 = len.toNat := by
  have h1 := len.isLt
  have h2 := addr.isLt
  rw [wordV, bits_ofNat _ _ _ (by omega)]; omega

theorem addrField_wordV {op d : Nat} (len : BitVec 6) (addr : BitVec 13) (ho : op < 256) (hd : d < 16) :
    bits (wordV op d len addr) 12 0 = addr.toNat := by
  have h1 := len.isLt
  have h2 := addr.isLt
  rw [wordV, bits_ofNat _ _ _ (by omega)]; omega

theorem CfgReg.index_lt (c : CfgReg) : c.index < 4 := by cases c <;> decide

@[simp] theorem cfgReg_index (c : CfgReg) : cfgReg c.index = .ok c := by cases c <;> rfl

@[simp] theorem xreg_val (r : XReg) : xreg r = r := by
  simp [xreg]

@[simp] theorem preg_val (k : PReg) : preg k = .ok k := by
  have := k.isLt
  simp only [preg, this, if_true]
  simp

end Sys2Proof
end

