-- ==== Sys2Proof/Laws/Matrix.lean ====
section
/-! SUPPORT. The laws of the module matrix: what a cell reads after a write, after a list of writes, and after a map over
the corner; and the grid of values that the scores are computed on. -/

namespace Sys2Proof.Machine

/-- A cell outside the array reads as `(DATA, 0)`. -/
theorem Mat.get_outside (m : Mat) {r c : Nat} (h : ¬ (r < nmax ∧ c < nmax)) : m.get r c = .blank := by
  simp [Mat.get, h]

/-- Every cell of the matrix after reset is `(DATA, 0)`. -/
theorem Mat.get_reset (r c : Nat) : State.reset.mat.get r c = ⟨.data, false⟩ := by
  unfold Mat.get State.reset
  split
  · simp
  · rfl

/-- A cell after one cell was written. -/
theorem Mat.get_set (m : Mat) (r c r' c' : Nat) (v : Module) :
    (m.set r c v).get r' c' = if r' = r ∧ c' = c ∧ r < nmax ∧ c < nmax then v else m.get r' c' := by
  unfold Mat.set
  split
  · next h =>
    obtain ⟨hr, hc⟩ := h
    unfold Mat.get
    by_cases h' : r' < nmax ∧ c' < nmax
    · obtain ⟨hr', hc'⟩ := h'
      simp only [hr, hc, hr', hc', and_self, dif_pos, and_true]
      by_cases e : r = r'
      · subst e
        by_cases e' : c = c'
        · subst e'; simp
        · have : ¬ (c' = c) := fun h => e' h.symm
          simp [e', this]
      · have : ¬ (r' = r) := fun h => e h.symm
        simp [e, this]
    · rw [dif_neg h', dif_neg h', if_neg]
      rintro ⟨rfl, rfl, h1, h2⟩
      exact h' ⟨h1, h2⟩
  · next h =>
    rw [if_neg]
    rintro ⟨-, -, h1, h2⟩
    exact h ⟨h1, h2⟩

/-- A cell after the value of one cell was written. -/
theorem Mat.get_setVal (m : Mat) (r c r' c' : Nat) (v : Bool) :
    (m.setVal r c v).get r' c' =
      if r' = r ∧ c' = c ∧ r < nmax ∧ c < nmax then { m.get r c with val := v } else m.get r' c' :=
  Mat.get_set ..

/-- Writing a value changes no class. -/
@[simp] theorem Mat.cls_setVal (m : Mat) (r c r' c' : Nat) (v : Bool) :
    ((m.setVal r c v).get r' c').cls = (m.get r' c').cls := by
  rw [Mat.get_setVal]
  split
  · next h => rw [h.1, h.2.1]
  · rfl

/-- A cell after a map over the `n x n` corner. -/
theorem Mat.get_mapCorner (m : Mat) (n : Nat) (f : Nat → Nat → Module → Module) (r c : Nat) :
    (m.mapCorner n f).get r c =
      if r < n ∧ c < n ∧ r < nmax ∧ c < nmax then f r c (m.get r c) else m.get r c := by
  unfold Mat.mapCorner Mat.get
  by_cases h : r < nmax ∧ c < nmax
  · obtain ⟨hr, hc⟩ := h
    simp [hr, hc]
  · rw [dif_neg h, dif_neg h, if_neg]
    rintro ⟨-, -, h1, h2⟩
    exact h ⟨h1, h2⟩

/-- Two matrices with the same cells are the same. -/
theorem Mat.ext_of_get {m m' : Mat} (h : ∀ r c, r < nmax → c < nmax → m.get r c = m'.get r c) : m = m' := by
  obtain ⟨a⟩ := m
  obtain ⟨b⟩ := m'
  congr 1
  refine Vector.ext fun r hr => Vector.ext fun c hc => ?_
  have := h r c hr hc
  simpa [Mat.get, hr, hc] using this

/-- A list of writes with one more at its end (R221). -/
theorem applyWrites_append (m : Mat) (ws : List CellWrite) (w : CellWrite) :
    applyWrites m (ws ++ [w]) = (applyWrites m ws).set w.1 w.2.1 w.2.2 := by
  simp [applyWrites]

/-- A cell that no write names keeps its value (R221). -/
theorem get_applyWrites_other (ws : List CellWrite) (m : Mat) {r c : Nat} (h : ∀ w ∈ ws, ¬ (w.1 = r ∧ w.2.1 = c)) :
    (applyWrites m ws).get r c = m.get r c := by
  induction ws generalizing m with
  | nil => rfl
  | cons w ws ih =>
    have h1 := h w (List.mem_cons_self)
    rw [show applyWrites m (w :: ws) = applyWrites (m.set w.1 w.2.1 w.2.2) ws from rfl,
      ih _ fun x hx => h x (List.mem_cons_of_mem _ hx), Mat.get_set, if_neg]
    rintro ⟨e1, e2, -, -⟩
    exact h1 ⟨e1.symm, e2.symm⟩

/-- A cell after a list of writes: what the last write to it wrote, if any did (R221). -/
theorem get_applyWrites (ws : List CellWrite) (m : Mat) {r c : Nat} (hr : r < nmax) (hc : c < nmax) :
    (applyWrites m ws).get r c =
      ((ws.reverse.find? fun w => decide (w.1 = r ∧ w.2.1 = c)).map fun w => w.2.2).getD (m.get r c) := by
  induction ws using List.reverseRecOn with
  | nil => rfl
  | append_singleton ws w ih =>
    rw [applyWrites_append, Mat.get_set, List.reverse_append, List.reverse_singleton, List.singleton_append,
      List.find?_cons, ih]
    by_cases h : w.1 = r ∧ w.2.1 = c
    · obtain ⟨rfl, rfl⟩ := h
      simp [hr, hc]
    · rw [if_neg fun e => h ⟨e.1.symm, e.2.1.symm⟩]
      simp [h]

/-- A mask changes no class (R250). -/
@[simp] theorem cls_applyMask (T : CfgTables) (v : Int) (k : Nat) (m : Mat) (r c : Nat) :
    ((applyMask T v k m).get r c).cls = (m.get r c).cls := by
  unfold applyMask
  rw [Mat.get_mapCorner]
  split
  · split <;> rfl
  · rfl

/-- Placing bits changes no class (R237). -/
@[simp] theorem cls_placeBits (order : List (Nat × Nat)) (bits : List Bool) (m : Mat) (r c : Nat) :
    ((placeBits order bits m).get r c).cls = (m.get r c).cls := by
  induction order generalizing bits m with
  | nil => cases bits <;> rfl
  | cons rc order ih => cases bits <;> simp [placeBits, ih]

/-- A word written to its cells changes no class (R270). -/
@[simp] theorem cls_writeWord (word nbits : Nat) (cells : Nat → List (Nat × Nat)) (m : Mat) (r c : Nat) :
    ((writeWord word nbits cells m).get r c).cls = (m.get r c).cls := by
  have inner : ∀ (b : Bool) (l : List (Nat × Nat)) (m : Mat),
      ((l.foldl (fun m rc => m.setVal rc.1 rc.2 b) m).get r c).cls = (m.get r c).cls := by
    intro b l
    induction l with
    | nil => exact fun _ => rfl
    | cons rc l ih => exact fun m => by simp [ih]
  unfold writeWord
  induction List.range nbits generalizing m with
  | nil => rfl
  | cons i l ih => rw [List.foldl_cons, ih, inner]

/-- The grid of values has a row for every row of the corner. -/
theorem length_valueGrid (m : Mat) {n : Nat} (h : n ≤ nmax) : (valueGrid m n).length = n := by
  simp [valueGrid, Mat.corner, h]

/-- Every row of the grid has `n` values. -/
theorem length_row_valueGrid (m : Mat) {n : Nat} (h : n ≤ nmax) {row : List Bool} (hr : row ∈ valueGrid m n) :
    row.length = n := by
  simp only [valueGrid, Mat.corner, List.map_map, List.mem_map] at hr
  obtain ⟨v, -, rfl⟩ := hr
  simp [h]

/-- Entry `(r, c)` of the grid is the value of the cell (R255). -/
theorem getElem_valueGrid (m : Mat) {n r c : Nat} (h : n ≤ nmax) (hr : r < n) (hc : c < n) :
    ((valueGrid m n).getD r []).getD c false = (m.get r c).val := by
  have hr' : r < nmax := Nat.lt_of_lt_of_le hr h
  have hc' : c < nmax := Nat.lt_of_lt_of_le hc h
  simp [valueGrid, Mat.corner, Mat.get, hr, hc, hr', hc']

end Sys2Proof.Machine
end

