-- ==== Sys2Proof/Laws/Memory.lean ====
section
/-! SUPPORT. The laws of the byte memory `BUF`: read after write, and that every operation keeps the canonical form. -/

namespace Sys2Proof.Machine

/-! ## The canonical form -/

/-- The empty memory is in canonical form. -/
theorem Memory.wf_nil : Memory.wf [] := by simp [Memory.wf]

/-- The memory after reset is in canonical form. -/
theorem Memory.wf_reset : Memory.wf State.reset.buf := Memory.wf_nil

/-- The tail of a memory in canonical form. -/
theorem Memory.wf_tail {c : Host.Cell} {m : Memory} (h : Memory.wf (c :: m)) : Memory.wf m :=
  ⟨(List.pairwise_cons.1 h.1).2, fun d hd => h.2 d (List.mem_cons_of_mem _ hd)⟩

/-- Every address after the first is above it. -/
theorem Memory.wf_head {c d : Host.Cell} {m : Memory} (h : Memory.wf (c :: m)) (hd : d ∈ m) : c.1 < d.1 :=
  (List.pairwise_cons.1 h.1).1 d hd

/-- An address below every listed one reads 0. -/
theorem Memory.read_below {m : Memory} {a : Nat} (h : ∀ c ∈ m, a < c.1) : Memory.read m a = 0 := by
  cases m with
  | nil => rfl
  | cons c m => simp [Memory.read, h c (List.mem_cons_self)]

/-- A listed address of a memory after a write was listed before or is the one written. -/
theorem Memory.mem_write {m : Memory} {a : Nat} {v : Byte} {c : Host.Cell} (hc : c ∈ Memory.write m a v) :
    c ∈ m ∨ (c = (a, v) ∧ v ≠ 0) := by
  induction m with
  | nil =>
    unfold Memory.write at hc
    split at hc
    · simp at hc
    · next h => exact .inr ⟨by simpa using hc, h⟩
  | cons d m ih =>
    obtain ⟨k, u⟩ := d
    unfold Memory.write at hc
    split at hc
    · split at hc
      · exact .inl hc
      · next h => rcases List.mem_cons.1 hc with rfl | hc
                  · exact .inr ⟨rfl, h⟩
                  · exact .inl hc
    · split at hc
      · split at hc
        · exact .inl (List.mem_cons_of_mem _ hc)
        · next h => rcases List.mem_cons.1 hc with rfl | hc
                    · exact .inr ⟨rfl, h⟩
                    · exact .inl (List.mem_cons_of_mem _ hc)
      · rcases List.mem_cons.1 hc with rfl | hc
        · exact .inl (List.mem_cons_self)
        · rcases ih hc with h | h
          · exact .inl (List.mem_cons_of_mem _ h)
          · exact .inr h

/-- A write keeps the canonical form. -/
theorem Memory.wf_write {m : Memory} (h : Memory.wf m) {a : Nat} (ha : a < bufSize) (v : Byte) :
    Memory.wf (Memory.write m a v) := by
  refine ⟨?_, fun c hc => ?_⟩
  · induction m with
    | nil => unfold Memory.write; split <;> simp
    | cons d m ih =>
      obtain ⟨k, u⟩ := d
      have hm := Memory.wf_tail h
      have hk : ∀ d ∈ m, k < d.1 := fun d hd => Memory.wf_head h hd
      unfold Memory.write
      split
      · next hlt =>
        split
        · exact h.1
        · refine List.pairwise_cons.2 ⟨fun d hd => ?_, h.1⟩
          rcases List.mem_cons.1 hd with rfl | hd
          · exact hlt
          · exact Nat.lt_trans hlt (hk d hd)
      · split
        · next heq =>
          split
          · exact hm.1
          · exact List.pairwise_cons.2 ⟨fun d hd => by have := hk d hd; simp only; omega, hm.1⟩
        · refine List.pairwise_cons.2 ⟨fun d hd => ?_, ih hm⟩
          rcases Memory.mem_write hd with hd | ⟨rfl, -⟩
          · exact hk d hd
          · simp only; omega
  · rcases Memory.mem_write hc with hc | ⟨rfl, hv⟩
    · exact h.2 c hc
    · exact ⟨ha, hv⟩

/-- Reading the address just written gives the byte written. -/
theorem Memory.read_write_same {m : Memory} (h : Memory.wf m) (a : Nat) (v : Byte) :
    Memory.read (Memory.write m a v) a = v := by
  induction m with
  | nil => unfold Memory.write; split <;> simp_all [Memory.read]
  | cons d m ih =>
    obtain ⟨k, u⟩ := d
    have hk : ∀ d ∈ m, k < d.1 := fun d hd => Memory.wf_head h hd
    unfold Memory.write
    split
    · next hlt => split <;> simp_all [Memory.read]
    · split
      · next heq =>
        split
        · next hv => rw [hv]; exact Memory.read_below fun d hd => by have := hk d hd; omega
        · simp [Memory.read]
      · next h1 h2 => simp [Memory.read, h1, h2, ih (Memory.wf_tail h)]

/-- A write leaves every other address alone. -/
theorem Memory.read_write_other {m : Memory} (h : Memory.wf m) {a b : Nat} (hb : b ≠ a) (v : Byte) :
    Memory.read (Memory.write m a v) b = Memory.read m b := by
  induction m with
  | nil =>
    unfold Memory.write; split
    · rfl
    · simp [Memory.read, hb]
  | cons d m ih =>
    obtain ⟨k, u⟩ := d
    have hk : ∀ d ∈ m, k < d.1 := fun d hd => Memory.wf_head h hd
    unfold Memory.write
    split
    · next hlt =>
      split
      · rfl
      · by_cases hba : b < a
        · simp [Memory.read, hba, Nat.lt_trans hba hlt]
        · simp [Memory.read, hba, hb]
    · split
      · next heq =>
        subst heq
        split
        · by_cases hba : b < a
          · rw [Memory.read_below fun d hd => Nat.lt_trans hba (hk d hd)]; simp [Memory.read, hba]
          · simp [Memory.read, hba, hb]
        · simp [Memory.read, hb]
      · simp only [Memory.read]
        split
        · rfl
        · split
          · rfl
          · exact ih (Memory.wf_tail h)

/-- Read after write, in one equation. -/
theorem Memory.read_write {m : Memory} (h : Memory.wf m) (a b : Nat) (v : Byte) :
    Memory.read (Memory.write m a v) b = if b = a then v else Memory.read m b := by
  split
  · next e => rw [e, Memory.read_write_same h]
  · next e => exact Memory.read_write_other h e v

/-! ## Several bytes -/

/-- Writing a list of bytes inside `BUF` keeps the canonical form. -/
theorem Memory.wf_writeList (l : List Byte) {m : Memory} (h : Memory.wf m) {a : Nat} (ha : a + l.length ≤ bufSize) :
    Memory.wf (Memory.writeList m a l) := by
  induction l generalizing m a with
  | nil => exact h
  | cons v l ih =>
    simp only [List.length_cons] at ha
    exact ih (Memory.wf_write h (by omega) v) (by omega)

/-- Reading after a list of bytes was written: its own byte inside, the old one outside. -/
theorem Memory.read_writeList (l : List Byte) {m : Memory} (h : Memory.wf m) {a : Nat} (ha : a + l.length ≤ bufSize)
    (b : Nat) :
    Memory.read (Memory.writeList m a l) b = if h : a ≤ b ∧ b < a + l.length then l[b - a]'(by omega)
      else Memory.read m b := by
  induction l generalizing m a with
  | nil =>
    rw [dif_neg (by simp)]
    rfl
  | cons v l ih =>
    simp only [List.length_cons] at ha
    rw [show Memory.writeList m a (v :: l) = Memory.writeList (Memory.write m a v) (a + 1) l from rfl,
      ih (Memory.wf_write h (by omega) v) (by omega), Memory.read_write h]
    by_cases hb : b = a
    · subst hb
      rw [dif_neg (by omega), dif_pos ⟨Nat.le_refl _, by simp⟩]
      simp
    · by_cases hin : a + 1 ≤ b ∧ b < a + 1 + l.length
      · rw [dif_pos hin, dif_pos ⟨by omega, by simp only [List.length_cons]; omega⟩]
        have he : b - a = (b - (a + 1)) + 1 := by omega
        simp [he]
      · rw [dif_neg hin, dif_neg (by simp only [List.length_cons]; omega), if_neg hb]

@[simp] theorem Memory.length_readList (m : Memory) (a n : Nat) : (Memory.readList m a n).length = n := by
  simp [Memory.readList]

theorem Memory.getElem_readList (m : Memory) (a n i : Nat) (h : i < (Memory.readList m a n).length) :
    (Memory.readList m a n)[i] = Memory.read m (a + i) := by
  simp [Memory.readList]

/-- Correcting bytes inside `BUF` keeps the canonical form (R206). -/
theorem Memory.wf_fixBytes (l : List (Byte × Byte)) {m : Memory} (h : Memory.wf m) {addr len : Nat}
    (hlen : addr + len ≤ bufSize) (hpos : ∀ pm ∈ l, pm.1.toNat < len) : Memory.wf (fixBytes m addr len l) := by
  induction l generalizing m with
  | nil => exact h
  | cons pm l ih =>
    have := hpos pm (List.mem_cons_self)
    exact ih (Memory.wf_write h (by omega) _) fun q hq => hpos q (List.mem_cons_of_mem _ hq)

/-! ## Equal memories are equal data -/

/-- In canonical form a listed address reads what is listed. -/
theorem Memory.read_of_mem {m : Memory} (h : Memory.wf m) {c : Host.Cell} (hc : c ∈ m) : Memory.read m c.1 = c.2 := by
  induction m with
  | nil => simp at hc
  | cons d m ih =>
    rcases List.mem_cons.1 hc with rfl | hc
    · simp [Memory.read]
    · have := Memory.wf_head h hc
      simp [Memory.read, Nat.not_lt.2 (Nat.le_of_lt this), Nat.ne_of_gt this, ih (Memory.wf_tail h) hc]

/-- Two memories in canonical form that read the same everywhere are the same list. -/
theorem Memory.ext_of_read {m m' : Memory} (h : Memory.wf m) (h' : Memory.wf m')
    (he : ∀ a, Memory.read m a = Memory.read m' a) : m = m' := by
  induction m generalizing m' with
  | nil =>
    cases m' with
    | nil => rfl
    | cons d m' =>
      have := he d.1
      rw [Memory.read_of_mem h' (List.mem_cons_self)] at this
      exact absurd this.symm (h'.2 d (List.mem_cons_self)).2
  | cons c m ih =>
    cases m' with
    | nil =>
      have := he c.1
      rw [Memory.read_of_mem h (List.mem_cons_self)] at this
      exact absurd this (h.2 c (List.mem_cons_self)).2
    | cons d m' =>
      have hc0 := (h.2 c (List.mem_cons_self)).2
      have hd0 := (h'.2 d (List.mem_cons_self)).2
      have hcd : c.1 = d.1 := by
        rcases Nat.lt_trichotomy c.1 d.1 with hlt | heq | hgt
        · have := he c.1
          rw [Memory.read_of_mem h (List.mem_cons_self)] at this
          simp [Memory.read, hlt] at this
          exact absurd this hc0
        · exact heq
        · have := he d.1
          rw [Memory.read_of_mem h' (List.mem_cons_self)] at this
          simp [Memory.read, hgt] at this
          exact absurd this.symm hd0
      have hv : c.2 = d.2 := by
        have := he c.1
        rw [Memory.read_of_mem h (List.mem_cons_self), hcd, Memory.read_of_mem h' (List.mem_cons_self)] at this
        exact this
      have hcd' : c = d := Prod.ext hcd hv
      subst hcd'
      refine congrArg (c :: ·) (ih (Memory.wf_tail h) (Memory.wf_tail h') fun a => ?_)
      by_cases ha : a ≤ c.1
      · rw [Memory.read_below fun d hd => by have := Memory.wf_head h hd; omega,
          Memory.read_below fun d hd => by have := Memory.wf_head h' hd; omega]
      · have := he a
        have h1 : ¬ a < c.1 := by omega
        have h2 : ¬ a = c.1 := by omega
        simpa [Memory.read, h1, h2] using this

end Sys2Proof.Machine
end

