-- ==== Sys2Proof/Laws/State.lean ====
section
/-! SUPPORT. One equation for every field of `State` under every named update of the state, so that a proof never unfolds
a record update. -/

namespace Sys2Proof.Machine

/-! ## Writing a scalar register -/

@[simp] theorem State.setX_cfg (s : State) (i : XReg) (v : Byte) : (s.setX i v).cfg = s.cfg := rfl
@[simp] theorem State.setX_x (s : State) (i : XReg) (v : Byte) : (s.setX i v).x = s.x.set i v := rfl
@[simp] theorem State.setX_p (s : State) (i : XReg) (v : Byte) : (s.setX i v).p = s.p := rfl
@[simp] theorem State.setX_buf (s : State) (i : XReg) (v : Byte) : (s.setX i v).buf = s.buf := rfl
@[simp] theorem State.setX_mat (s : State) (i : XReg) (v : Byte) : (s.setX i v).mat = s.mat := rfl
@[simp] theorem State.setX_version (s : State) (i : XReg) (v : Byte) : (s.setX i v).version = s.version := rfl
@[simp] theorem State.setX_ecl (s : State) (i : XReg) (v : Byte) : (s.setX i v).ecl = s.ecl := rfl
@[simp] theorem State.setX_maskreq (s : State) (i : XReg) (v : Byte) : (s.setX i v).maskreq = s.maskreq := rfl
@[simp] theorem State.setX_dcount (s : State) (i : XReg) (v : Byte) : (s.setX i v).dcount = s.dcount := rfl
@[simp] theorem State.setX_phase (s : State) (i : XReg) (v : Byte) : (s.setX i v).phase = s.phase := rfl
@[simp] theorem State.setX_fault (s : State) (i : XReg) (v : Byte) : (s.setX i v).fault = s.fault := rfl
@[simp] theorem State.setX_faultcmd (s : State) (i : XReg) (v : Byte) : (s.setX i v).faultcmd = s.faultcmd := rfl
@[simp] theorem State.setX_masksel (s : State) (i : XReg) (v : Byte) : (s.setX i v).masksel = s.masksel := rfl
@[simp] theorem State.setX_scores (s : State) (i : XReg) (v : Byte) : (s.setX i v).scores = s.scores := rfl
@[simp] theorem State.setX_rsn (s : State) (i : XReg) (v : Byte) : (s.setX i v).rsn = s.rsn := rfl
@[simp] theorem State.setX_flags (s : State) (i : XReg) (v : Byte) : (s.setX i v).flags = s.flags := rfl
@[simp] theorem State.setX_nerr (s : State) (i : XReg) (v : Byte) : (s.setX i v).nerr = s.nerr := rfl
@[simp] theorem State.setX_nmod (s : State) (i : XReg) (v : Byte) : (s.setX i v).nmod = s.nmod := rfl
@[simp] theorem State.setX_cmdcnt (s : State) (i : XReg) (v : Byte) : (s.setX i v).cmdcnt = s.cmdcnt := rfl
@[simp] theorem State.setX_host (s : State) (i : XReg) (v : Byte) : (s.setX i v).host = s.host := rfl
@[simp] theorem State.setX_hostData (s : State) (i : XReg) (v : Byte) : (s.setX i v).hostData = s.hostData := rfl

/-! ## Raising a fault -/

@[simp] theorem State.raiseFault_cfg (s : State) (c : FaultCode) (w : Word) : (raiseFault c w s).cfg = s.cfg := rfl
@[simp] theorem State.raiseFault_x (s : State) (c : FaultCode) (w : Word) : (raiseFault c w s).x = s.x := rfl
@[simp] theorem State.raiseFault_p (s : State) (c : FaultCode) (w : Word) : (raiseFault c w s).p = s.p := rfl
@[simp] theorem State.raiseFault_buf (s : State) (c : FaultCode) (w : Word) : (raiseFault c w s).buf = s.buf := rfl
@[simp] theorem State.raiseFault_mat (s : State) (c : FaultCode) (w : Word) : (raiseFault c w s).mat = s.mat := rfl
@[simp] theorem State.raiseFault_version (s : State) (c : FaultCode) (w : Word) : (raiseFault c w s).version = s.version := rfl
@[simp] theorem State.raiseFault_ecl (s : State) (c : FaultCode) (w : Word) : (raiseFault c w s).ecl = s.ecl := rfl
@[simp] theorem State.raiseFault_maskreq (s : State) (c : FaultCode) (w : Word) : (raiseFault c w s).maskreq = s.maskreq := rfl
@[simp] theorem State.raiseFault_dcount (s : State) (c : FaultCode) (w : Word) : (raiseFault c w s).dcount = s.dcount := rfl
@[simp] theorem State.raiseFault_phase (s : State) (c : FaultCode) (w : Word) : (raiseFault c w s).phase = s.phase := rfl
@[simp] theorem State.raiseFault_fault (s : State) (c : FaultCode) (w : Word) : (raiseFault c w s).fault = some c := rfl
@[simp] theorem State.raiseFault_faultcmd (s : State) (c : FaultCode) (w : Word) : (raiseFault c w s).faultcmd = w := rfl
@[simp] theorem State.raiseFault_masksel (s : State) (c : FaultCode) (w : Word) : (raiseFault c w s).masksel = s.masksel := rfl
@[simp] theorem State.raiseFault_scores (s : State) (c : FaultCode) (w : Word) : (raiseFault c w s).scores = s.scores := rfl
@[simp] theorem State.raiseFault_rsn (s : State) (c : FaultCode) (w : Word) : (raiseFault c w s).rsn = s.rsn := rfl
@[simp] theorem State.raiseFault_flags (s : State) (c : FaultCode) (w : Word) : (raiseFault c w s).flags = s.flags := rfl
@[simp] theorem State.raiseFault_nerr (s : State) (c : FaultCode) (w : Word) : (raiseFault c w s).nerr = s.nerr := rfl
@[simp] theorem State.raiseFault_nmod (s : State) (c : FaultCode) (w : Word) : (raiseFault c w s).nmod = s.nmod := rfl
@[simp] theorem State.raiseFault_cmdcnt (s : State) (c : FaultCode) (w : Word) : (raiseFault c w s).cmdcnt = s.cmdcnt := rfl
@[simp] theorem State.raiseFault_host (s : State) (c : FaultCode) (w : Word) : (raiseFault c w s).host = s.host := rfl
@[simp] theorem State.raiseFault_hostData (s : State) (c : FaultCode) (w : Word) : (raiseFault c w s).hostData = s.hostData := rfl

/-! ## The mask of `MASK.SELECT` -/

@[simp] theorem State.applyChosen_cfg (s : State) (k : Nat) : (applyChosen k s).cfg = s.cfg := rfl
@[simp] theorem State.applyChosen_x (s : State) (k : Nat) : (applyChosen k s).x = s.x := rfl
@[simp] theorem State.applyChosen_p (s : State) (k : Nat) : (applyChosen k s).p = s.p := rfl
@[simp] theorem State.applyChosen_buf (s : State) (k : Nat) : (applyChosen k s).buf = s.buf := rfl
@[simp] theorem State.applyChosen_mat (s : State) (k : Nat) : (applyChosen k s).mat = applyMask s.tables s.versionInt k s.mat := rfl
@[simp] theorem State.applyChosen_version (s : State) (k : Nat) : (applyChosen k s).version = s.version := rfl
@[simp] theorem State.applyChosen_ecl (s : State) (k : Nat) : (applyChosen k s).ecl = s.ecl := rfl
@[simp] theorem State.applyChosen_maskreq (s : State) (k : Nat) : (applyChosen k s).maskreq = s.maskreq := rfl
@[simp] theorem State.applyChosen_dcount (s : State) (k : Nat) : (applyChosen k s).dcount = s.dcount := rfl
@[simp] theorem State.applyChosen_phase (s : State) (k : Nat) : (applyChosen k s).phase = .masked := rfl
@[simp] theorem State.applyChosen_fault (s : State) (k : Nat) : (applyChosen k s).fault = s.fault := rfl
@[simp] theorem State.applyChosen_faultcmd (s : State) (k : Nat) : (applyChosen k s).faultcmd = s.faultcmd := rfl
@[simp] theorem State.applyChosen_masksel (s : State) (k : Nat) : (applyChosen k s).masksel = BitVec.ofNat 4 k := rfl
@[simp] theorem State.applyChosen_scores (s : State) (k : Nat) : (applyChosen k s).scores = s.scores := rfl
@[simp] theorem State.applyChosen_rsn (s : State) (k : Nat) : (applyChosen k s).rsn = s.rsn := rfl
@[simp] theorem State.applyChosen_flags (s : State) (k : Nat) : (applyChosen k s).flags = s.flags := rfl
@[simp] theorem State.applyChosen_nerr (s : State) (k : Nat) : (applyChosen k s).nerr = s.nerr := rfl
@[simp] theorem State.applyChosen_nmod (s : State) (k : Nat) : (applyChosen k s).nmod = s.nmod := rfl
@[simp] theorem State.applyChosen_cmdcnt (s : State) (k : Nat) : (applyChosen k s).cmdcnt = s.cmdcnt := rfl
@[simp] theorem State.applyChosen_host (s : State) (k : Nat) : (applyChosen k s).host = s.host := rfl
@[simp] theorem State.applyChosen_hostData (s : State) (k : Nat) : (applyChosen k s).hostData = s.hostData := rfl

/-! ## A host write of `BUF` -/

@[simp] theorem State.writeBufWindow_cfg (s : State) (a : BitVec 13) (v : Byte) : (s.writeBufWindow a v).cfg = s.cfg := rfl
@[simp] theorem State.writeBufWindow_x (s : State) (a : BitVec 13) (v : Byte) : (s.writeBufWindow a v).x = s.x := rfl
@[simp] theorem State.writeBufWindow_p (s : State) (a : BitVec 13) (v : Byte) : (s.writeBufWindow a v).p = s.p := rfl
@[simp] theorem State.writeBufWindow_buf (s : State) (a : BitVec 13) (v : Byte) : (s.writeBufWindow a v).buf = Memory.write s.buf a.toNat v := rfl
@[simp] theorem State.writeBufWindow_mat (s : State) (a : BitVec 13) (v : Byte) : (s.writeBufWindow a v).mat = s.mat := rfl
@[simp] theorem State.writeBufWindow_version (s : State) (a : BitVec 13) (v : Byte) : (s.writeBufWindow a v).version = s.version := rfl
@[simp] theorem State.writeBufWindow_ecl (s : State) (a : BitVec 13) (v : Byte) : (s.writeBufWindow a v).ecl = s.ecl := rfl
@[simp] theorem State.writeBufWindow_maskreq (s : State) (a : BitVec 13) (v : Byte) : (s.writeBufWindow a v).maskreq = s.maskreq := rfl
@[simp] theorem State.writeBufWindow_dcount (s : State) (a : BitVec 13) (v : Byte) : (s.writeBufWindow a v).dcount = s.dcount := rfl
@[simp] theorem State.writeBufWindow_phase (s : State) (a : BitVec 13) (v : Byte) : (s.writeBufWindow a v).phase = s.phase := rfl
@[simp] theorem State.writeBufWindow_fault (s : State) (a : BitVec 13) (v : Byte) : (s.writeBufWindow a v).fault = s.fault := rfl
@[simp] theorem State.writeBufWindow_faultcmd (s : State) (a : BitVec 13) (v : Byte) : (s.writeBufWindow a v).faultcmd = s.faultcmd := rfl
@[simp] theorem State.writeBufWindow_masksel (s : State) (a : BitVec 13) (v : Byte) : (s.writeBufWindow a v).masksel = s.masksel := rfl
@[simp] theorem State.writeBufWindow_scores (s : State) (a : BitVec 13) (v : Byte) : (s.writeBufWindow a v).scores = s.scores := rfl
@[simp] theorem State.writeBufWindow_rsn (s : State) (a : BitVec 13) (v : Byte) : (s.writeBufWindow a v).rsn = s.rsn := rfl
@[simp] theorem State.writeBufWindow_flags (s : State) (a : BitVec 13) (v : Byte) : (s.writeBufWindow a v).flags = s.flags := rfl
@[simp] theorem State.writeBufWindow_nerr (s : State) (a : BitVec 13) (v : Byte) : (s.writeBufWindow a v).nerr = s.nerr := rfl
@[simp] theorem State.writeBufWindow_nmod (s : State) (a : BitVec 13) (v : Byte) : (s.writeBufWindow a v).nmod = s.nmod := rfl
@[simp] theorem State.writeBufWindow_cmdcnt (s : State) (a : BitVec 13) (v : Byte) : (s.writeBufWindow a v).cmdcnt = s.cmdcnt := rfl
@[simp] theorem State.writeBufWindow_host (s : State) (a : BitVec 13) (v : Byte) : (s.writeBufWindow a v).host = s.host := rfl
@[simp] theorem State.writeBufWindow_hostData (s : State) (a : BitVec 13) (v : Byte) : (s.writeBufWindow a v).hostData = s.hostData := rfl

/-! ## Handing over a command -/

@[simp] theorem State.handOver_cfg (s : State) (w : Word) : (s.handOver w).cfg = s.cfg := rfl
@[simp] theorem State.handOver_x (s : State) (w : Word) : (s.handOver w).x = s.x := rfl
@[simp] theorem State.handOver_p (s : State) (w : Word) : (s.handOver w).p = s.p := rfl
@[simp] theorem State.handOver_buf (s : State) (w : Word) : (s.handOver w).buf = s.buf := rfl
@[simp] theorem State.handOver_mat (s : State) (w : Word) : (s.handOver w).mat = s.mat := rfl
@[simp] theorem State.handOver_version (s : State) (w : Word) : (s.handOver w).version = s.version := rfl
@[simp] theorem State.handOver_ecl (s : State) (w : Word) : (s.handOver w).ecl = s.ecl := rfl
@[simp] theorem State.handOver_maskreq (s : State) (w : Word) : (s.handOver w).maskreq = s.maskreq := rfl
@[simp] theorem State.handOver_dcount (s : State) (w : Word) : (s.handOver w).dcount = s.dcount := rfl
@[simp] theorem State.handOver_phase (s : State) (w : Word) : (s.handOver w).phase = s.phase := rfl
@[simp] theorem State.handOver_fault (s : State) (w : Word) : (s.handOver w).fault = s.fault := rfl
@[simp] theorem State.handOver_faultcmd (s : State) (w : Word) : (s.handOver w).faultcmd = s.faultcmd := rfl
@[simp] theorem State.handOver_masksel (s : State) (w : Word) : (s.handOver w).masksel = s.masksel := rfl
@[simp] theorem State.handOver_scores (s : State) (w : Word) : (s.handOver w).scores = s.scores := rfl
@[simp] theorem State.handOver_rsn (s : State) (w : Word) : (s.handOver w).rsn = s.rsn := rfl
@[simp] theorem State.handOver_flags (s : State) (w : Word) : (s.handOver w).flags = s.flags := rfl
@[simp] theorem State.handOver_nerr (s : State) (w : Word) : (s.handOver w).nerr = s.nerr := rfl
@[simp] theorem State.handOver_nmod (s : State) (w : Word) : (s.handOver w).nmod = s.nmod := rfl
@[simp] theorem State.handOver_cmdcnt (s : State) (w : Word) : (s.handOver w).cmdcnt = s.cmdcnt := rfl
@[simp] theorem State.handOver_host (s : State) (w : Word) : (s.handOver w).host = .command w :: s.host := rfl
@[simp] theorem State.handOver_hostData (s : State) (w : Word) : (s.handOver w).hostData = s.hostData := rfl

/-! ## The reset input -/

@[simp] theorem State.afterReset_cfg (s : State) : (s.afterReset).cfg = s.cfg := rfl
@[simp] theorem State.afterReset_x (s : State) : (s.afterReset).x = State.reset.x := rfl
@[simp] theorem State.afterReset_p (s : State) : (s.afterReset).p = State.reset.p := rfl
@[simp] theorem State.afterReset_buf (s : State) : (s.afterReset).buf = State.reset.buf := rfl
@[simp] theorem State.afterReset_mat (s : State) : (s.afterReset).mat = State.reset.mat := rfl
@[simp] theorem State.afterReset_version (s : State) : (s.afterReset).version = State.reset.version := rfl
@[simp] theorem State.afterReset_ecl (s : State) : (s.afterReset).ecl = State.reset.ecl := rfl
@[simp] theorem State.afterReset_maskreq (s : State) : (s.afterReset).maskreq = State.reset.maskreq := rfl
@[simp] theorem State.afterReset_dcount (s : State) : (s.afterReset).dcount = State.reset.dcount := rfl
@[simp] theorem State.afterReset_phase (s : State) : (s.afterReset).phase = State.reset.phase := rfl
@[simp] theorem State.afterReset_fault (s : State) : (s.afterReset).fault = State.reset.fault := rfl
@[simp] theorem State.afterReset_faultcmd (s : State) : (s.afterReset).faultcmd = State.reset.faultcmd := rfl
@[simp] theorem State.afterReset_masksel (s : State) : (s.afterReset).masksel = State.reset.masksel := rfl
@[simp] theorem State.afterReset_scores (s : State) : (s.afterReset).scores = State.reset.scores := rfl
@[simp] theorem State.afterReset_rsn (s : State) : (s.afterReset).rsn = State.reset.rsn := rfl
@[simp] theorem State.afterReset_flags (s : State) : (s.afterReset).flags = State.reset.flags := rfl
@[simp] theorem State.afterReset_nerr (s : State) : (s.afterReset).nerr = State.reset.nerr := rfl
@[simp] theorem State.afterReset_nmod (s : State) : (s.afterReset).nmod = State.reset.nmod := rfl
@[simp] theorem State.afterReset_cmdcnt (s : State) : (s.afterReset).cmdcnt = State.reset.cmdcnt := rfl
@[simp] theorem State.afterReset_host (s : State) : (s.afterReset).host = s.host := rfl
@[simp] theorem State.afterReset_hostData (s : State) : (s.afterReset).hostData = State.reset.hostData := rfl

/-! ## Counting a command -/

@[simp] theorem State.countCommand_cfg (s t : State) : (countCommand s t).cfg = t.cfg := rfl
@[simp] theorem State.countCommand_x (s t : State) : (countCommand s t).x = t.x := rfl
@[simp] theorem State.countCommand_p (s t : State) : (countCommand s t).p = t.p := rfl
@[simp] theorem State.countCommand_buf (s t : State) : (countCommand s t).buf = t.buf := rfl
@[simp] theorem State.countCommand_mat (s t : State) : (countCommand s t).mat = t.mat := rfl
@[simp] theorem State.countCommand_version (s t : State) : (countCommand s t).version = t.version := rfl
@[simp] theorem State.countCommand_ecl (s t : State) : (countCommand s t).ecl = t.ecl := rfl
@[simp] theorem State.countCommand_maskreq (s t : State) : (countCommand s t).maskreq = t.maskreq := rfl
@[simp] theorem State.countCommand_dcount (s t : State) : (countCommand s t).dcount = t.dcount := rfl
@[simp] theorem State.countCommand_phase (s t : State) : (countCommand s t).phase = t.phase := rfl
@[simp] theorem State.countCommand_fault (s t : State) : (countCommand s t).fault = t.fault := rfl
@[simp] theorem State.countCommand_faultcmd (s t : State) : (countCommand s t).faultcmd = t.faultcmd := rfl
@[simp] theorem State.countCommand_masksel (s t : State) : (countCommand s t).masksel = t.masksel := rfl
@[simp] theorem State.countCommand_scores (s t : State) : (countCommand s t).scores = t.scores := rfl
@[simp] theorem State.countCommand_rsn (s t : State) : (countCommand s t).rsn = t.rsn := rfl
@[simp] theorem State.countCommand_flags (s t : State) : (countCommand s t).flags = t.flags := rfl
@[simp] theorem State.countCommand_nerr (s t : State) : (countCommand s t).nerr = t.nerr := rfl
@[simp] theorem State.countCommand_nmod (s t : State) : (countCommand s t).nmod = t.nmod := rfl
@[simp] theorem State.countCommand_cmdcnt (s t : State) : (countCommand s t).cmdcnt = s.cmdcnt + 1 := rfl
@[simp] theorem State.countCommand_host (s t : State) : (countCommand s t).host = t.host := rfl
@[simp] theorem State.countCommand_hostData (s t : State) : (countCommand s t).hostData = t.hostData := rfl

/-! ## What is derived follows the registers it is derived from -/

@[simp] theorem State.setX_versionInt (s : State) (i : XReg) (v : Byte) : (s.setX i v).versionInt = s.versionInt := rfl
@[simp] theorem State.setX_side (s : State) (i : XReg) (v : Byte) : (s.setX i v).side = s.side := rfl
@[simp] theorem State.setX_validSpec (s : State) (i : XReg) (v : Byte) : (s.setX i v).validSpec = s.validSpec := rfl
@[simp] theorem State.setX_blockSpec (s : State) (i : XReg) (v : Byte) : (s.setX i v).blockSpec = s.blockSpec := rfl
@[simp] theorem State.setX_specFault (s : State) (i : XReg) (v : Byte) : (s.setX i v).specFault = s.specFault := rfl
@[simp] theorem State.setX_csrSize (s : State) (i : XReg) (v : Byte) : (s.setX i v).csrSize = s.csrSize := rfl
@[simp] theorem State.setX_csrDlen (s : State) (i : XReg) (v : Byte) : (s.setX i v).csrDlen = s.csrDlen := rfl
@[simp] theorem State.setX_csrClen (s : State) (i : XReg) (v : Byte) : (s.setX i v).csrClen = s.csrClen := rfl
@[simp] theorem State.raiseFault_versionInt (s : State) (c : FaultCode) (w : Word) : (raiseFault c w s).versionInt = s.versionInt := rfl
@[simp] theorem State.raiseFault_side (s : State) (c : FaultCode) (w : Word) : (raiseFault c w s).side = s.side := rfl
@[simp] theorem State.raiseFault_validSpec (s : State) (c : FaultCode) (w : Word) : (raiseFault c w s).validSpec = s.validSpec := rfl
@[simp] theorem State.raiseFault_blockSpec (s : State) (c : FaultCode) (w : Word) : (raiseFault c w s).blockSpec = s.blockSpec := rfl
@[simp] theorem State.raiseFault_specFault (s : State) (c : FaultCode) (w : Word) : (raiseFault c w s).specFault = s.specFault := rfl
@[simp] theorem State.raiseFault_csrSize (s : State) (c : FaultCode) (w : Word) : (raiseFault c w s).csrSize = s.csrSize := rfl
@[simp] theorem State.raiseFault_csrDlen (s : State) (c : FaultCode) (w : Word) : (raiseFault c w s).csrDlen = s.csrDlen := rfl
@[simp] theorem State.raiseFault_csrClen (s : State) (c : FaultCode) (w : Word) : (raiseFault c w s).csrClen = s.csrClen := rfl
@[simp] theorem State.writeBufWindow_versionInt (s : State) (a : BitVec 13) (v : Byte) : (s.writeBufWindow a v).versionInt = s.versionInt := rfl
@[simp] theorem State.writeBufWindow_side (s : State) (a : BitVec 13) (v : Byte) : (s.writeBufWindow a v).side = s.side := rfl
@[simp] theorem State.writeBufWindow_validSpec (s : State) (a : BitVec 13) (v : Byte) : (s.writeBufWindow a v).validSpec = s.validSpec := rfl
@[simp] theorem State.writeBufWindow_blockSpec (s : State) (a : BitVec 13) (v : Byte) : (s.writeBufWindow a v).blockSpec = s.blockSpec := rfl
@[simp] theorem State.writeBufWindow_specFault (s : State) (a : BitVec 13) (v : Byte) : (s.writeBufWindow a v).specFault = s.specFault := rfl
@[simp] theorem State.writeBufWindow_csrSize (s : State) (a : BitVec 13) (v : Byte) : (s.writeBufWindow a v).csrSize = s.csrSize := rfl
@[simp] theorem State.writeBufWindow_csrDlen (s : State) (a : BitVec 13) (v : Byte) : (s.writeBufWindow a v).csrDlen = s.csrDlen := rfl
@[simp] theorem State.writeBufWindow_csrClen (s : State) (a : BitVec 13) (v : Byte) : (s.writeBufWindow a v).csrClen = s.csrClen := rfl
@[simp] theorem State.applyChosen_versionInt (s : State) (k : Nat) : (applyChosen k s).versionInt = s.versionInt := rfl
@[simp] theorem State.applyChosen_side (s : State) (k : Nat) : (applyChosen k s).side = s.side := rfl
@[simp] theorem State.applyChosen_validSpec (s : State) (k : Nat) : (applyChosen k s).validSpec = s.validSpec := rfl
@[simp] theorem State.applyChosen_blockSpec (s : State) (k : Nat) : (applyChosen k s).blockSpec = s.blockSpec := rfl
@[simp] theorem State.applyChosen_specFault (s : State) (k : Nat) : (applyChosen k s).specFault = s.specFault := rfl
@[simp] theorem State.applyChosen_csrSize (s : State) (k : Nat) : (applyChosen k s).csrSize = s.csrSize := rfl
@[simp] theorem State.applyChosen_csrDlen (s : State) (k : Nat) : (applyChosen k s).csrDlen = s.csrDlen := rfl
@[simp] theorem State.applyChosen_csrClen (s : State) (k : Nat) : (applyChosen k s).csrClen = s.csrClen := rfl
@[simp] theorem State.countCommand_versionInt (s t : State) : (countCommand s t).versionInt = t.versionInt := rfl
@[simp] theorem State.countCommand_side (s t : State) : (countCommand s t).side = t.side := rfl
@[simp] theorem State.countCommand_validSpec (s t : State) : (countCommand s t).validSpec = t.validSpec := rfl
@[simp] theorem State.countCommand_blockSpec (s t : State) : (countCommand s t).blockSpec = t.blockSpec := rfl
@[simp] theorem State.countCommand_specFault (s t : State) : (countCommand s t).specFault = t.specFault := rfl
@[simp] theorem State.countCommand_csrSize (s t : State) : (countCommand s t).csrSize = t.csrSize := rfl
@[simp] theorem State.countCommand_csrDlen (s t : State) : (countCommand s t).csrDlen = t.csrDlen := rfl
@[simp] theorem State.countCommand_csrClen (s t : State) : (countCommand s t).csrClen = t.csrClen := rfl

/-! ## Scalar registers read back -/

@[simp] theorem State.getX_setX_same (s : State) (i : XReg) (v : Byte) : (s.setX i v).getX i = v := by
  simp [State.getX, State.setX]

theorem State.getX_setX_other (s : State) {i j : XReg} (v : Byte) (h : j ≠ i) : (s.setX i v).getX j = s.getX j := by
  have hij : (i : Nat) ≠ j := fun e => h (Fin.ext e.symm)
  simp [State.getX, State.setX, hij]

@[simp] theorem State.getX_countCommand (s t : State) (j : XReg) : (countCommand s t).getX j = t.getX j := rfl
@[simp] theorem State.getX_raiseFault (s : State) (c : FaultCode) (w : Word) (j : XReg) :
    (raiseFault c w s).getX j = s.getX j := rfl
@[simp] theorem State.getP_countCommand (s t : State) (k : PReg) : (countCommand s t).getP k = t.getP k := rfl
@[simp] theorem State.getP_raiseFault (s : State) (c : FaultCode) (w : Word) (k : PReg) :
    (raiseFault c w s).getP k = s.getP k := rfl
@[simp] theorem State.getP_setX (s : State) (i : XReg) (v : Byte) (k : PReg) : (s.setX i v).getP k = s.getP k := rfl

end Sys2Proof.Machine
end

