-- ==== Sys2Proof/Laws/Ops.lean ====
section
/-! SUPPORT. What each shared operation of a meaning can do, said once: how a command ends, its checks, the assignment
of a polynomial register and the range-checked accesses to `BUF`. -/

namespace Sys2Proof.Machine

/-! ## How a command ends -/

@[simp] theorem finish_ok (i : Instr) (s t : State) : finish i s (.ok t) = .next (countCommand s t) := rfl

@[simp] theorem finish_error (i : Instr) (s : State) (c : FaultCode) :
    finish i s (.error c) = .next (raiseFault c (encode i) s) := rfl

/-- A command always answers a next state: it completes and is counted, or it raises one fault. -/
theorem finish_next {i : Instr} {s t : State} {r : Except FaultCode State} (h : finish i s r = .next t) :
    (∃ u, r = .ok u ∧ t = countCommand s u) ∨ (∃ c, r = .error c ∧ t = raiseFault c (encode i) s) := by
  cases r with
  | ok u => exact .inl ⟨u, rfl, by simpa using h.symm⟩
  | error c => exact .inr ⟨c, rfl, by simpa using h.symm⟩

/-- `finish` answers neither a fault nor a refusal of the model. -/
theorem finish_answers (i : Instr) (s : State) (r : Except FaultCode State) : ∃ t, finish i s r = .next t := by
  cases r <;> exact ⟨_, rfl⟩

/-- Every command answers a next state, whatever the state (R291: a fault is one too). -/
theorem exec_answers (i : Instr) (s : State) : ∃ t, exec i s = .next t := by
  cases i <;> (dsimp only [exec]; apply finish_answers)

/-! ## Checks -/

@[simp] theorem faultIf_true (c : FaultCode) (r : Except FaultCode State) : faultIf true c r = .error c := rfl
@[simp] theorem faultIf_false (c : FaultCode) (r : Except FaultCode State) : faultIf false c r = r := rfl

/-- A check passes exactly when its condition fails. -/
theorem faultIf_ok {b : Bool} {c : FaultCode} {r : Except FaultCode State} {t : State} :
    faultIf b c r = .ok t ↔ b = false ∧ r = .ok t := by
  cases b <;> simp

theorem requirePhase_ok {b : Bool} {r : Except FaultCode State} {t : State} :
    requirePhase b r = .ok t ↔ b = true ∧ r = .ok t := by
  cases b <;> simp [requirePhase]

@[simp] theorem requirePhase_true (r : Except FaultCode State) : requirePhase true r = r := rfl
@[simp] theorem requirePhase_false (r : Except FaultCode State) : requirePhase false r = .error .badPhase := rfl

theorem requireRsdec_ok {s : State} {r : Except FaultCode State} {t : State} :
    requireRsdec s r = .ok t ↔ s.cfg.hasRsdec = true ∧ r = .ok t := by
  cases h : s.cfg.hasRsdec <;> simp [requireRsdec, h]

/-! ## The pair of the symbol specification -/

/-- A pair exists exactly when its version can have the level and the block table has it (R55). -/
theorem validSpec_iff {T : CfgTables} {v : Int} {e : Nat} :
    validSpec T v e = true ↔ levelPossible v e = true ∧ ∃ b, blockSpec? T v e = some b := by
  rw [validSpec, Bool.and_eq_true, Option.isSome_iff_exists]

/-- Of a pair that exists the version is -3 to 40 (R55). -/
theorem version_of_levelPossible {v : Int} {e : Nat} (h : levelPossible v e = true) : -3 ≤ v ∧ v ≤ 40 := by
  unfold levelPossible at h
  split at h
  · omega
  · split at h
    · omega
    · split at h
      · omega
      · exact absurd h Bool.false_ne_true

/-! ## Polynomial registers -/

@[simp] theorem PolyReg.length_toList (q : PolyReg) : q.toList.length = q.len := by
  have := q.len.isLt
  simp only [PolyReg.toList, List.length_take, Vector.length_toList]
  omega

/-- A polynomial register never holds more than 32 coefficients. -/
theorem State.length_getP_le (s : State) (k : PReg) : (s.getP k).length ≤ pcap := by
  have := (s.p[k]).len.isLt
  simp only [State.getP, PolyReg.length_toList]
  omega

theorem PolyReg.len_ofList {l : List Byte} (h : l.length ≤ pcap) : ((PolyReg.ofList l).len : Nat) = l.length := by
  simp [PolyReg.ofList, h]

/-- Coefficient `i` of the register that holds `l` is entry `i` of `l`, and 0 from its length on. -/
theorem PolyReg.coef_ofList (l : List Byte) (i : Fin pcap) :
    (PolyReg.ofList l).coef[i] = coefAt l i := by
  have hi := i.isLt
  by_cases hl : (i : Nat) < l.length
  · simp [PolyReg.ofList, coefAt, List.getElem_append_left, hl]
  · simp [PolyReg.ofList, coefAt, List.getElem_append_right, Nat.not_lt.1 hl, hl]

@[simp] theorem PolyReg.toList_ofList {l : List Byte} (h : l.length ≤ pcap) : (PolyReg.ofList l).toList = l := by
  refine List.ext_getElem (by simp [PolyReg.len_ofList h]) fun i h1 h2 => ?_
  have hi : i < pcap := Nat.lt_of_lt_of_le h2 h
  have := PolyReg.coef_ofList l ⟨i, hi⟩
  simp only [PolyReg.toList, List.getElem_take, Vector.getElem_toList]
  simpa [coefAt, h2] using this

theorem State.setP_ok (s : State) (k : PReg) {l : List Byte} (h : l.length ≤ pcap) :
    s.setP k l = .ok { s with p := s.p.set k (.ofList l) } := by simp [State.setP, h]

theorem State.setP_error (s : State) (k : PReg) {l : List Byte} (h : pcap < l.length) :
    s.setP k l = .error .polyRange := by simp [State.setP, Nat.not_le.2 h]

/-- All that the assignment of a polynomial register can do. -/
theorem State.setP_eq_ok {s t : State} {k : PReg} {l : List Byte} :
    s.setP k l = .ok t ↔ l.length ≤ pcap ∧ t = { s with p := s.p.set k (.ofList l) } := by
  unfold State.setP
  split
  · next h => simp [h, eq_comm]
  · next h => simp [h]

/-- The register just assigned holds the list. -/
theorem State.getP_set_same (s : State) (k : PReg) {l : List Byte} (h : l.length ≤ pcap) :
    State.getP { s with p := s.p.set k (.ofList l) } k = l := by
  simp [State.getP, h]

/-- Every other polynomial register keeps its value. -/
theorem State.p_set_other (s : State) {k j : PReg} (q : PolyReg) (h : j ≠ k) : (s.p.set k q)[j] = s.p[j] := by
  have hk : (k : Nat) ≠ j := fun e => h (Fin.ext e.symm)
  simp [hk]

/-! ## Range-checked accesses to `BUF` -/

theorem State.memRead_ok (s : State) {a n : Nat} (h : a + n ≤ bufSize) :
    s.memRead a n = .ok (Memory.readList s.buf a n) := by simp [State.memRead, Nat.not_lt.2 h]

theorem State.memRead_error (s : State) {a n : Nat} (h : bufSize < a + n) : s.memRead a n = .error .bufRange := by
  simp [State.memRead, h]

theorem State.memWrite_ok (s : State) {a : Nat} {l : List Byte} (h : a + l.length ≤ bufSize) :
    s.memWrite a l = .ok { s with buf := Memory.writeList s.buf a l } := by simp [State.memWrite, Nat.not_lt.2 h]

theorem State.memWrite_error (s : State) {a : Nat} {l : List Byte} (h : bufSize < a + l.length) :
    s.memWrite a l = .error .bufRange := by simp [State.memWrite, h]

/-- All that a byte load can do (R139). -/
theorem loadByte_ok {rd : XReg} {ea : Nat} {s t : State} :
    loadByte rd ea s = .ok t ↔ ea ≤ 8191 ∧ t = s.setX rd (Memory.read s.buf ea) := by
  unfold loadByte
  rw [faultIf_ok]
  simp [eq_comm]

/-- All that a byte store can do (R139). -/
theorem storeByte_ok {rs : XReg} {ea : Nat} {s t : State} :
    storeByte rs ea s = .ok t ↔ ea ≤ 8191 ∧ t = { s with buf := Memory.write s.buf ea (s.getX rs) } := by
  unfold storeByte
  rw [faultIf_ok]
  simp [eq_comm]

end Sys2Proof.Machine
end

