-- ==== Sys2Proof/Laws/PerInstr.lean ====
section
/-! SUPPORT. The statements about every command as syntax, one lemma for each constructor of `Instr`: the opcode of an
encoded command is the one of rule R95. -/

namespace Sys2Proof

/-- The opcode of a command, the column "op" of rule R95. -/
def Instr.opcode : Instr → Nat
  | .nop => 0x00
  | .cfgSet _ _ => 0x01
  | .gfLi _ _ => 0x10
  | .gfMv _ _ => 0x11
  | .gfAdd _ _ _ => 0x12
  | .gfMul _ _ _ => 0x13
  | .gfDiv _ _ _ => 0x14
  | .gfInv _ _ => 0x15
  | .gfExp _ _ => 0x16
  | .gfLog _ _ => 0x17
  | .ldb _ _ => 0x18
  | .stb _ _ => 0x19
  | .ldbx _ _ _ => 0x1A
  | .stbx _ _ _ => 0x1B
  | .pClr _ => 0x20
  | .pMv _ _ => 0x21
  | .pLd _ _ _ => 0x22
  | .pSt _ _ => 0x23
  | .pGetc _ _ _ => 0x24
  | .pSetc _ _ _ => 0x25
  | .pAdd _ _ _ => 0x26
  | .pScale _ _ _ => 0x27
  | .pShl _ _ _ => 0x28
  | .pMul _ _ _ => 0x29
  | .pMod _ _ _ => 0x2A
  | .pEval _ _ _ => 0x2B
  | .pDeriv _ _ => 0x2C
  | .pDeg _ _ => 0x2D
  | .rsGen _ => 0x30
  | .rsEnc _ _ => 0x31
  | .ecBuild => 0x32
  | .rsSyn _ _ => 0x38
  | .rsBm => 0x39
  | .rsOmega => 0x3A
  | .rsChien _ => 0x3B
  | .rsForney => 0x3C
  | .rsFix _ _ => 0x3D
  | .matAlloc => 0x40
  | .matStamp => 0x41
  | .matPlace => 0x42
  | .matRd _ _ _ => 0x43
  | .maskApply _ => 0x48
  | .maskScore => 0x49
  | .maskSelect => 0x4A
  | .fmtWrite => 0x4B

namespace Laws.EncodedOpcode

/-- The word of a command has the command's opcode in bits 31 to 24 (R90, R95). -/
def Statement (i : Instr) : Prop := opcodeOf (encode i) = i.opcode

theorem nop : Statement .nop := by
  exact opcodeOf_wordI (by decide) (by omega) (by omega) (by omega)

theorem cfgSet (csr : CfgReg) (imm : BitVec 16) : Statement (.cfgSet csr imm) := by
  have h0 := csr.index_lt
  have h1 := imm.isLt
  exact opcodeOf_wordI (by decide) (by omega) (by omega) (by omega)

theorem gfLi (rd : XReg) (imm : BitVec 8) : Statement (.gfLi rd imm) := by
  have h0 := rd.isLt
  have h1 := imm.isLt
  exact opcodeOf_wordI (by decide) (by omega) (by omega) (by omega)

theorem gfMv (rd ra : XReg) : Statement (.gfMv rd ra) := by
  have h0 := rd.isLt
  have h1 := ra.isLt
  exact opcodeOf_wordR (by decide) (by omega) (by omega) (by omega)

theorem gfAdd (rd ra rb : XReg) : Statement (.gfAdd rd ra rb) := by
  have h0 := rd.isLt
  have h1 := ra.isLt
  have h2 := rb.isLt
  exact opcodeOf_wordR (by decide) (by omega) (by omega) (by omega)

theorem gfMul (rd ra rb : XReg) : Statement (.gfMul rd ra rb) := by
  have h0 := rd.isLt
  have h1 := ra.isLt
  have h2 := rb.isLt
  exact opcodeOf_wordR (by decide) (by omega) (by omega) (by omega)

theorem gfDiv (rd ra rb : XReg) : Statement (.gfDiv rd ra rb) := by
  have h0 := rd.isLt
  have h1 := ra.isLt
  have h2 := rb.isLt
  exact opcodeOf_wordR (by decide) (by omega) (by omega) (by omega)

theorem gfInv (rd ra : XReg) : Statement (.gfInv rd ra) := by
  have h0 := rd.isLt
  have h1 := ra.isLt
  exact opcodeOf_wordR (by decide) (by omega) (by omega) (by omega)

theorem gfExp (rd ra : XReg) : Statement (.gfExp rd ra) := by
  have h0 := rd.isLt
  have h1 := ra.isLt
  exact opcodeOf_wordR (by decide) (by omega) (by omega) (by omega)

theorem gfLog (rd ra : XReg) : Statement (.gfLog rd ra) := by
  have h0 := rd.isLt
  have h1 := ra.isLt
  exact opcodeOf_wordR (by decide) (by omega) (by omega) (by omega)

theorem ldb (rd : XReg) (addr : BitVec 16) : Statement (.ldb rd addr) := by
  have h0 := rd.isLt
  have h1 := addr.isLt
  exact opcodeOf_wordI (by decide) (by omega) (by omega) (by omega)

theorem stb (rs : XReg) (addr : BitVec 16) : Statement (.stb rs addr) := by
  have h0 := rs.isLt
  have h1 := addr.isLt
  exact opcodeOf_wordI (by decide) (by omega) (by omega) (by omega)

theorem ldbx (rd ra : XReg) (base : BitVec 16) : Statement (.ldbx rd ra base) := by
  have h0 := rd.isLt
  have h1 := ra.isLt
  have h2 := base.isLt
  exact opcodeOf_wordI (by decide) (by omega) (by omega) (by omega)

theorem stbx (rs ra : XReg) (base : BitVec 16) : Statement (.stbx rs ra base) := by
  have h0 := rs.isLt
  have h1 := ra.isLt
  have h2 := base.isLt
  exact opcodeOf_wordI (by decide) (by omega) (by omega) (by omega)

theorem pClr (pd : PReg) : Statement (.pClr pd) := by
  have h0 := pd.isLt
  exact opcodeOf_wordR (by decide) (by omega) (by omega) (by omega)

theorem pMv (pd pa : PReg) : Statement (.pMv pd pa) := by
  have h0 := pd.isLt
  have h1 := pa.isLt
  exact opcodeOf_wordR (by decide) (by omega) (by omega) (by omega)

theorem pLd (pd : PReg) (len : BitVec 6) (addr : BitVec 13) : Statement (.pLd pd len addr) := by
  have h0 := pd.isLt
  exact opcodeOf_wordV len addr (by decide) (by omega)

theorem pSt (ps : PReg) (addr : BitVec 13) : Statement (.pSt ps addr) := by
  have h0 := ps.isLt
  exact opcodeOf_wordV 0 addr (by decide) (by omega)

theorem pGetc (rd : XReg) (pa : PReg) (index : BitVec 16) : Statement (.pGetc rd pa index) := by
  have h0 := rd.isLt
  have h1 := pa.isLt
  have h2 := index.isLt
  exact opcodeOf_wordI (by decide) (by omega) (by omega) (by omega)

theorem pSetc (pd : PReg) (rs : XReg) (index : BitVec 16) : Statement (.pSetc pd rs index) := by
  have h0 := pd.isLt
  have h1 := rs.isLt
  have h2 := index.isLt
  exact opcodeOf_wordI (by decide) (by omega) (by omega) (by omega)

theorem pAdd (pd pa pb : PReg) : Statement (.pAdd pd pa pb) := by
  have h0 := pd.isLt
  have h1 := pa.isLt
  have h2 := pb.isLt
  exact opcodeOf_wordR (by decide) (by omega) (by omega) (by omega)

theorem pScale (pd pa : PReg) (rb : XReg) : Statement (.pScale pd pa rb) := by
  have h0 := pd.isLt
  have h1 := pa.isLt
  have h2 := rb.isLt
  exact opcodeOf_wordR (by decide) (by omega) (by omega) (by omega)

theorem pShl (pd pa : PReg) (k : BitVec 16) : Statement (.pShl pd pa k) := by
  have h0 := pd.isLt
  have h1 := pa.isLt
  have h2 := k.isLt
  exact opcodeOf_wordI (by decide) (by omega) (by omega) (by omega)

theorem pMul (pd pa pb : PReg) : Statement (.pMul pd pa pb) := by
  have h0 := pd.isLt
  have h1 := pa.isLt
  have h2 := pb.isLt
  exact opcodeOf_wordR (by decide) (by omega) (by omega) (by omega)

theorem pMod (pd pa pb : PReg) : Statement (.pMod pd pa pb) := by
  have h0 := pd.isLt
  have h1 := pa.isLt
  have h2 := pb.isLt
  exact opcodeOf_wordR (by decide) (by omega) (by omega) (by omega)

theorem pEval (rd : XReg) (pa : PReg) (rb : XReg) : Statement (.pEval rd pa rb) := by
  have h0 := rd.isLt
  have h1 := pa.isLt
  have h2 := rb.isLt
  exact opcodeOf_wordR (by decide) (by omega) (by omega) (by omega)

theorem pDeriv (pd pa : PReg) : Statement (.pDeriv pd pa) := by
  have h0 := pd.isLt
  have h1 := pa.isLt
  exact opcodeOf_wordR (by decide) (by omega) (by omega) (by omega)

theorem pDeg (rd : XReg) (pa : PReg) : Statement (.pDeg rd pa) := by
  have h0 := rd.isLt
  have h1 := pa.isLt
  exact opcodeOf_wordR (by decide) (by omega) (by omega) (by omega)

theorem rsGen (n : BitVec 16) : Statement (.rsGen n) := by
  have h0 := n.isLt
  exact opcodeOf_wordI (by decide) (by omega) (by omega) (by omega)

theorem rsEnc (len : BitVec 8) (addr : BitVec 13) : Statement (.rsEnc len addr) :=
  opcodeOf_wordB len addr (by decide)

theorem ecBuild : Statement .ecBuild := by
  exact opcodeOf_wordI (by decide) (by omega) (by omega) (by omega)

theorem rsSyn (len : BitVec 8) (addr : BitVec 13) : Statement (.rsSyn len addr) :=
  opcodeOf_wordB len addr (by decide)

theorem rsBm : Statement .rsBm := by
  exact opcodeOf_wordI (by decide) (by omega) (by omega) (by omega)

theorem rsOmega : Statement .rsOmega := by
  exact opcodeOf_wordI (by decide) (by omega) (by omega) (by omega)

theorem rsChien (len : BitVec 8) : Statement (.rsChien len) :=
  opcodeOf_wordB len 0 (by decide)

theorem rsForney : Statement .rsForney := by
  exact opcodeOf_wordI (by decide) (by omega) (by omega) (by omega)

theorem rsFix (len : BitVec 8) (addr : BitVec 13) : Statement (.rsFix len addr) :=
  opcodeOf_wordB len addr (by decide)

theorem matAlloc : Statement .matAlloc := by
  exact opcodeOf_wordI (by decide) (by omega) (by omega) (by omega)

theorem matStamp : Statement .matStamp := by
  exact opcodeOf_wordI (by decide) (by omega) (by omega) (by omega)

theorem matPlace : Statement .matPlace := by
  exact opcodeOf_wordI (by decide) (by omega) (by omega) (by omega)

theorem matRd (rd ra rb : XReg) : Statement (.matRd rd ra rb) := by
  have h0 := rd.isLt
  have h1 := ra.isLt
  have h2 := rb.isLt
  exact opcodeOf_wordR (by decide) (by omega) (by omega) (by omega)

theorem maskApply (k : BitVec 16) : Statement (.maskApply k) := by
  have h0 := k.isLt
  exact opcodeOf_wordI (by decide) (by omega) (by omega) (by omega)

theorem maskScore : Statement .maskScore := by
  exact opcodeOf_wordI (by decide) (by omega) (by omega) (by omega)

theorem maskSelect : Statement .maskSelect := by
  exact opcodeOf_wordI (by decide) (by omega) (by omega) (by omega)

theorem fmtWrite : Statement .fmtWrite := by
  exact opcodeOf_wordI (by decide) (by omega) (by omega) (by omega)

end Laws.EncodedOpcode

end Sys2Proof
end

