-- ==== Sys2Proof/Laws/Tables.lean ====
section
/-! SUPPORT. The default tables fit the engine. -/

namespace Sys2Proof.Machine

/-- The pairs that exist: 160 of full symbols and 8 of Micro symbols (R55). -/
theorem validSpec_cases {v : Int} {e : Nat} (h : validSpec standardTables v e = true) :
    (∃ i : Fin 40, ∃ j : Fin 4, v = (i : Nat) + 1 ∧ e = j + 1) ∨
    (v, e) ∈ [((-3 : Int), 0), (-2, 1), (-2, 2), (-1, 1), (-1, 2), (0, 1), (0, 2), (0, 3)] := by
  obtain ⟨hl, hb⟩ := Bool.and_eq_true_iff.1 h
  unfold levelPossible at hl
  split at hl
  · rw [decide_eq_true_iff] at hl
    exact .inl ⟨⟨v.toNat - 1, by omega⟩, ⟨e - 1, by omega⟩, by simp only []; omega, by simp only []; omega⟩
  · right
    have key : ∀ i : Fin 4, ∀ e : Fin 4, (blockSpec? standardTables (-(i : Nat) : Int) e).isSome = true →
        ((-(i : Nat) : Int), (e : Nat)) ∈
          [((-3 : Int), 0), (-2, 1), (-2, 2), (-1, 1), (-1, 2), (0, 1), (0, 2), (0, 3)] := by decide
    split at hl
    · next hv =>
      obtain rfl := of_decide_eq_true hl
      subst hv
      exact key 3 0 hb
    · split at hl
      · next hv =>
        rw [decide_eq_true_iff] at hl
        obtain ⟨n, rfl⟩ : ∃ n : Nat, v = -(n : Int) := ⟨v.natAbs, by omega⟩
        exact key ⟨n, by omega⟩ ⟨e, by omega⟩ hb
      · exact absurd hl Bool.false_ne_true

/-- The default block table adds up and fits the registers and regions it is used with (R184, R185). -/
theorem standardTables_blocks (v : Int) (e : Nat) (h : validSpec standardTables v e = true) :
    (blockSpec standardTables v e).lens.sum +
        (blockSpec standardTables v e).lens.length * (blockSpec standardTables v e).ecLen =
      (blockSpec standardTables v e).total ∧
    1 ≤ (blockSpec standardTables v e).lens.sum ∧ (blockSpec standardTables v e).ecLen ≤ 30 ∧
    (blockSpec standardTables v e).total ≤ 4096 := by
  rcases validSpec_cases h with ⟨i, j, rfl, rfl⟩ | h
  · revert i j
    decide +kernel
  · have key : ∀ ve ∈ [((-3 : Int), 0), (-2, 1), (-2, 2), (-1, 1), (-1, 2), (0, 1), (0, 2), (0, 3)],
        (blockSpec standardTables ve.1 ve.2).lens.sum +
            (blockSpec standardTables ve.1 ve.2).lens.length * (blockSpec standardTables ve.1 ve.2).ecLen =
          (blockSpec standardTables ve.1 ve.2).total ∧
        1 ≤ (blockSpec standardTables ve.1 ve.2).lens.sum ∧ (blockSpec standardTables ve.1 ve.2).ecLen ≤ 30 ∧
        (blockSpec standardTables ve.1 ve.2).total ≤ 4096 := by decide +kernel
    exact key _ h

/-- The default tables fit the engine: codewords add up and alignment patterns lie inside their symbols. -/
theorem standardTables_fit : TablesFit standardTables := by
  refine ⟨standardTables_blocks, fun v h1 h2 => ?_⟩
  have key : ∀ i : Fin 40, ∀ c ∈ alignCoords standardTables ((i : Nat) + 1),
      2 ≤ c ∧ c + 2 < symbolSize ((i : Nat) + 1) := by decide +kernel
  have := key ⟨v.toNat - 1, by omega⟩
  rwa [show (((v.toNat - 1 : Nat) : Int) + 1) = v by omega] at this

end Sys2Proof.Machine
end

