-- ==== Sys2Proof/Tests/Slice0.lean ====
section
/-! SUPPORT. The model's own tests: the well-formedness smoke, one written-out word for every command, one or two steps
for every command with the results the spec's test vectors give (`95_test_vectors.md`, `96_test_vectors_2.md`), and a
witness for the hypotheses of every statement. -/

namespace Sys2Proof.Tests

open Sys2Proof.Machine

/-! ## Well-formedness: the one check, with an ill-formed term -/

theorem test_wellFormed_refuses_decode_extension :
    Instr.wellFormed false (.rsSyn 26 0x200) = false ∧ Instr.wellFormed false .rsBm = false ∧
    Instr.wellFormed false .rsOmega = false ∧ Instr.wellFormed false (.rsChien 26) = false ∧
    Instr.wellFormed false .rsForney = false ∧ Instr.wellFormed false (.rsFix 26 0x200) = false ∧
    Instr.wellFormed true .rsBm = true ∧ Instr.wellFormed false .ecBuild = true := by decide

/-! ## Words written out from rules R91 and R95, every command once -/

/-- opcode 0x00 N; 0x01 I with `d` the register, `imm16` the value; 0x18 to 0x1B I. -/
theorem test_decode_system_and_memory :
    decode true 0b00000000000000000000000000000000 = .ok .nop ∧
    decode true 0b00000001001000000000000000001000 = .ok (.cfgSet .maskreq 8) ∧
    decode true 0b00011000010000000001000000000000 = .ok (.ldb 4 0x1000) ∧
    decode true 0b00011001111100000001111111111111 = .ok (.stb 15 0x1FFF) ∧
    decode true 0b00011010000100100000000100000000 = .ok (.ldbx 1 2 0x0100) ∧
    decode true 0b00011011000100100001111111111111 = .ok (.stbx 1 2 0x1FFF) := by decide

/-- opcode 0x10 I with an 8-bit immediate; 0x11 to 0x17 R. -/
theorem test_decode_scalar :
    decode true 0b00010000000100000000000001010011 = .ok (.gfLi 1 0x53) ∧
    decode true 0b00010001001000010000000000000000 = .ok (.gfMv 2 1) ∧
    decode true 0b00010010001100010010000000000000 = .ok (.gfAdd 3 1 2) ∧
    decode true 0b00010011010100010010000000000000 = .ok (.gfMul 5 1 2) ∧
    decode true 0b00010100111100000001000000000000 = .ok (.gfDiv 15 0 1) ∧
    decode true 0b00010101001000000000000000000000 = .ok (.gfInv 2 0) ∧
    decode true 0b00010110001100010000000000000000 = .ok (.gfExp 3 1) ∧
    decode true 0b00010111010000110000000000000000 = .ok (.gfLog 4 3) := by decide

/-- opcodes 0x20 to 0x2D: R, V for 0x22 and 0x23, I for 0x24, 0x25 and 0x28. -/
theorem test_decode_polynomial :
    decode true 0b00100000011100000000000000000000 = .ok (.pClr 7) ∧
    decode true 0b00100001011100010000000000000000 = .ok (.pMv 7 1) ∧
    decode true 0b00100010011100000110000100000000 = .ok (.pLd 7 3 0x100) ∧
    decode true 0b00100011000100000000000000010000 = .ok (.pSt 1 0x010) ∧
    decode true 0b00100100000100000000000000000001 = .ok (.pGetc 1 0 1) ∧
    decode true 0b00100101011100110000000000000010 = .ok (.pSetc 7 3 2) ∧
    decode true 0b00100110000100100011000000000000 = .ok (.pAdd 1 2 3) ∧
    decode true 0b00100111000100101111000000000000 = .ok (.pScale 1 2 15) ∧
    decode true 0b00101000010101010000000000000010 = .ok (.pShl 5 5 2) ∧
    decode true 0b00101001010000100011000000000000 = .ok (.pMul 4 2 3) ∧
    decode true 0b00101010011001010100000000000000 = .ok (.pMod 6 5 4) ∧
    decode true 0b00101011011101010001000000000000 = .ok (.pEval 7 5 1) ∧
    decode true 0b00101100000100100000000000000000 = .ok (.pDeriv 1 2) ∧
    decode true 0b00101101011001110000000000000000 = .ok (.pDeg 6 7) := by decide

/-- opcodes 0x30 to 0x32 and 0x38 to 0x3D: I, B and N. -/
theorem test_decode_reed_solomon :
    decode true 0b00110000000000000000000000001010 = .ok (.rsGen 10) ∧
    decode true 0b00110001000000100001111111111110 = .ok (.rsEnc 2 0x1FFE) ∧
    decode true 0b00110010000000000000000000000000 = .ok .ecBuild ∧
    decode true 0b00111000000110100000001000000000 = .ok (.rsSyn 26 0x200) ∧
    decode true 0b00111001000000000000000000000000 = .ok .rsBm ∧
    decode true 0b00111010000000000000000000000000 = .ok .rsOmega ∧
    decode true 0b00111011000110100000000000000000 = .ok (.rsChien 26) ∧
    decode true 0b00111100000000000000000000000000 = .ok .rsForney ∧
    decode true 0b00111101000110100000001000000000 = .ok (.rsFix 26 0x200) := by decide

/-- opcodes 0x40 to 0x43 and 0x48 to 0x4B: N, R for 0x43, I for 0x48. -/
theorem test_decode_matrix_and_mask :
    decode true 0b01000000000000000000000000000000 = .ok .matAlloc ∧
    decode true 0b01000001000000000000000000000000 = .ok .matStamp ∧
    decode true 0b01000010000000000000000000000000 = .ok .matPlace ∧
    decode true 0b01000011001100010010000000000000 = .ok (.matRd 3 1 2) ∧
    decode true 0b01001000000000000000000000000011 = .ok (.maskApply 3) ∧
    decode true 0b01001001000000000000000000000000 = .ok .maskScore ∧
    decode true 0b01001010000000000000000000000000 = .ok .maskSelect ∧
    decode true 0b01001011000000000000000000000000 = .ok .fmtWrite := by decide

/-- Words that rule R96 calls illegal, one for every reason, and the decode commands without `HAS_RSDEC`. -/
theorem test_decode_refuses :
    decode true 0x02000000 = .error .opcode ∧ decode true 0xFFFFFFFF = .error .opcode ∧
    decode true 0x00000001 = .error .reservedBits ∧ decode true 0x43312001 = .error .reservedBits ∧
    decode true 0x10100100 = .error .reservedBits ∧ decode true 0x381A2200 = .error .reservedBits ∧
    decode true 0x3B1A0001 = .error .reservedBits ∧ decode true 0x23102010 = .error .reservedBits ∧
    decode true 0x22780100 = .error .reservedBits ∧
    decode true 0x01010001 = .error .unusedSpecifier ∧ decode true 0x30100002 = .error .unusedSpecifier ∧
    decode true 0x20800000 = .error .polySpecifier ∧ decode true 0x01400000 = .error .csrIndex ∧
    decode false 0x39000000 = .error .extensionAbsent := by decide

/-! ## Helpers for the steps -/

/-- The state after one step that is handed the word `w`. -/
def after (w : Nat) (s : State) : State :=
  match step (s.withFetchWord 32 w) with
  | .next t => t
  | .fault _ => s
  | .refused _ => s

/-- A state with bytes put into `BUF` from an address on. -/
def put (a : Nat) (l : List Byte) (s : State) : State := { s with buf := Memory.writeList s.buf a l }

/-- A state with a list in a polynomial register. -/
def setp (k : PReg) (l : List Byte) (s : State) : State := { s with p := s.p.set k (.ofList l) }

/-- `FAULT` is `c` and the word `w` is in `FAULTCMD`. -/
def faulted (c : FaultCode) (w : Word) (s : State) : Bool := s.fault == some c && s.faultcmd == w

/-- The command completed, with no fault, as the first one counted. -/
def done (s : State) : Bool := s.fault.isNone && s.cmdcnt == 1

/-- A register `x1`, `x2` pair. -/
def xs (a b : Byte) : State := (State.reset.setX 1 a).setX 2 b

/-! ## Steps -/


/-- A list of `n` bytes 0x01. -/
def ones (n : Nat) : List Byte := List.replicate n 1

/-! ### 96_test_vectors_2.md section 2.8: the system commands and the fault mechanism -/

/-- Rows 17, 24, 18, 19 and 20. -/
theorem test_nop :
    (after 0x00000000 State.reset).cmdcnt = 1 ∧
    (after 0x00000000 { State.reset with cmdcnt := 0xFFFFFFFF }).cmdcnt = 0 ∧
    faulted .illegalCmd 0x00000001 (after 0x00000001 State.reset) = true ∧
    faulted .illegalCmd 0xFFFFFFFF (after 0xFFFFFFFF State.reset) = true ∧
    (after 0x02000000 State.reset).cmdcnt = 0 := by decide

/-- Rows 1 and 3 to 5: the edges of `VERSION`. -/
theorem test_cfgSet_version :
    (after 0x010000FD State.reset).version = 0xFD ∧ (after 0x010000FD State.reset).csrSize = 11 ∧
    (after 0x01000028 State.reset).version = 0x28 ∧
    faulted .versionErr 0x01000029 (after 0x01000029 State.reset) = true ∧
    faulted .versionErr 0x010000FC (after 0x010000FC State.reset) = true ∧
    faulted .versionErr 0x0100FFFD (after 0x0100FFFD State.reset) = true := by decide

/-- Rows 2, 7, 8, 10, 11 and 16: the edges of the other three registers, and the phase. -/
theorem test_cfgSet_others :
    (after 0x01100004 State.reset).ecl = 4 ∧ (after 0x01200007 State.reset).maskreq = 7 ∧
    (after 0x01300FFF State.reset).dcount = 4095 ∧
    faulted .eclevelErr 0x01100005 (after 0x01100005 State.reset) = true ∧
    faulted .maskErr 0x01200009 (after 0x01200009 State.reset) = true ∧
    faulted .dataOverflow 0x01301000 (after 0x01301000 State.reset) = true ∧
    faulted .badPhase 0x01200003 (after 0x01200003 { State.reset with phase := .allocated }) = true := by decide

/-- Rows 22 and 23: the first fault stands, and nothing runs after it. -/
theorem test_halted_ignores :
    let s := after 0x15200000 State.reset
    faulted .gfDomain 0x15200000 (after 0x10300007 s) = true ∧ (after 0x10300007 s).getX 3 = 0 ∧
    (after 0x00000000 s).cmdcnt = 0 := by decide

/-- Row 21: without `HAS_RSDEC`. -/
theorem test_rsBm_absent :
    faulted .illegalCmd 0x39000000
      (after 0x39000000 { State.reset with cfg := ⟨standardTables, false, .doc⟩ }) = true := by decide

/-! ### 95_test_vectors.md section 2.1: scalar commands -/

/-- Rows 2 and 3. -/
theorem test_gfLi_gfMv :
    (after 0x10F000FF State.reset).getX 15 = 0xFF ∧ (after 0x11210000 (xs 0x53 0)).getX 2 = 0x53 := by decide

/-- Rows 4 and 5. -/
theorem test_gfAdd :
    (after 0x12312000 (xs 0x53 0xCA)).getX 3 = 0x99 ∧ (after 0x12111000 (xs 0x53 0)).getX 1 = 0 := by decide

/-- Rows 6 to 9 and 11. -/
theorem test_gfMul :
    (after 0x13312000 (xs 0x53 0xCA)).getX 3 = 0x8F ∧ (after 0x13312000 (xs 0x02 0x80)).getX 3 = 0x1D ∧
    (after 0x13312000 (xs 0xFF 0xFF)).getX 3 = 0xE2 ∧ (after 0x13312000 (xs 0 0xFF)).getX 3 = 0 ∧
    (after 0x13112000 (xs 0x8E 0x02)).getX 1 = 1 := by decide

/-- Rows 12 to 16. -/
theorem test_gfDiv :
    (after 0x14312000 (xs 0x01 0x02)).getX 3 = 0x8E ∧ (after 0x14312000 (xs 0x8F 0xCA)).getX 3 = 0x53 ∧
    (after 0x14312000 (xs 0 7)).getX 3 = 0 ∧
    faulted .gfDomain 0x14312000 (after 0x14312000 (xs 7 0)) = true ∧
    faulted .gfDomain 0x14312000 (after 0x14312000 (xs 0 0)) = true := by decide +kernel

/-- Rows 17, 19 and 20. -/
theorem test_gfInv :
    (after 0x15210000 (xs 0x53 0)).getX 2 = 0x8C ∧ (after 0x15210000 (xs 0xFF 0)).getX 2 = 0xFD ∧
    faulted .gfDomain 0x15210000 (after 0x15210000 (xs 0 0xAA)) = true ∧
    (after 0x15210000 (xs 0 0xAA)).getX 2 = 0xAA := by decide +kernel

/-- Rows 21 to 24. -/
theorem test_gfExp :
    (after 0x16210000 (xs 0 0)).getX 2 = 1 ∧ (after 0x16210000 (xs 8 0)).getX 2 = 0x1D ∧
    (after 0x16210000 (xs 0xFE 0)).getX 2 = 0x8E ∧ (after 0x16210000 (xs 0xFF 0)).getX 2 = 1 := by decide +kernel

/-- Rows 25 to 29. -/
theorem test_gfLog :
    (after 0x17210000 (xs 1 9)).getX 2 = 0 ∧ (after 0x17210000 (xs 0x1D 0)).getX 2 = 8 ∧
    (after 0x17210000 (xs 0x8E 0)).getX 2 = 0xFE ∧ (after 0x17210000 (xs 0xFF 0)).getX 2 = 0xAF ∧
    faulted .gfDomain 0x17210000 (after 0x17210000 (xs 0 0xAA)) = true := by decide +kernel

/-! ### Section 2.2: loads and stores -/

/-- Rows 1, 2, 6, 7 and 9. -/
theorem test_ldb_ldbx :
    (after 0x18401FFF (put 0x1FFF [0x7E] State.reset)).getX 4 = 0x7E ∧
    faulted .bufRange 0x18402000 (after 0x18402000 State.reset) = true ∧
    (after 0x1A120100 (put 0x103 [0x99] (xs 0 3))).getX 1 = 0x99 ∧
    (after 0x1A110100 (put 0x103 [0x99] (xs 3 0))).getX 1 = 0x99 ∧
    faulted .bufRange 0x1A121F01 (after 0x1A121F01 (xs 0x11 0xFF)) = true := by decide

/-- Rows 4, 5, 12, 10 and 11. -/
theorem test_stb_stbx :
    (after 0x19400000 (State.reset.setX 4 0x7E)).buf = [(0, 0x7E)] ∧
    faulted .bufRange 0x19402000 (after 0x19402000 (State.reset.setX 4 0x7E)) = true ∧
    (after 0x1B120FF0 (xs 0x11 0x10)).buf = [(0x1000, 0x11)] ∧
    faulted .bufRange 0x1B121FFF (after 0x1B121FFF (xs 0x11 0xFF)) = true ∧
    faulted .bufRange 0x1B12FFFF (after 0x1B12FFFF (xs 0x11 0xFF)) = true := by decide

/-! ### Section 2.3: polynomial commands -/

/-- Rows 1 and 2. -/
theorem test_pClr_pMv :
    (after 0x20700000 (setp 7 [1, 2, 3] State.reset)).p[7] = .empty ∧
    (after 0x21710000 (setp 1 [0x55, 0, 0] State.reset)).getP 7 = [0x55, 0, 0] := by decide

/-- Rows 3 to 7. -/
theorem test_pLd :
    (after 0x22706100 (put 0x100 [1, 3, 2] State.reset)).getP 7 = [2, 3, 1] ∧
    (after 0x22701FFF (setp 7 [9, 9] State.reset)).getP 7 = [] ∧
    faulted .bufRange 0x22705FFF (after 0x22705FFF State.reset) = true ∧
    faulted .polyRange 0x22742000 (after 0x22742000 State.reset) = true ∧
    ((after 0x22740000 State.reset).p[7].len : Nat) = 32 := by decide

/-- Rows 8 to 10. -/
theorem test_pSt :
    (after 0x23100010 (setp 1 [0x55, 0x2C, 0x87] State.reset)).buf = [(0x10, 0x87), (0x11, 0x2C), (0x12, 0x55)] ∧
    faulted .bufRange 0x23101FFE (after 0x23101FFE (setp 1 [0x55, 0x2C, 0x87] State.reset)) = true ∧
    done (after 0x23101FFF State.reset) = true := by decide

/-- Rows 11, 12 and 14. -/
theorem test_pGetc :
    (after 0x24100001 (setp 0 [2, 3, 1] State.reset)).getX 1 = 3 ∧
    (after 0x24100005 (setp 0 [2, 3, 1] (xs 0xAA 0))).getX 1 = 0 ∧
    faulted .polyRange 0x24100020 (after 0x24100020 (setp 0 [2, 3, 1] State.reset)) = true := by decide

/-- Rows 15, 16, 18 and 19. -/
theorem test_pSetc :
    (after 0x25730002 (State.reset.setX 3 0x1D)).getP 7 = [0, 0, 0x1D] ∧
    (after 0x25730002 (setp 7 [1, 2, 3] State.reset)).getP 7 = [1, 2, 0] ∧
    (after 0x2573001F (State.reset.setX 3 7)).getP 7 = List.replicate 31 0 ++ [7] ∧
    faulted .polyRange 0x25730020 (after 0x25730020 (State.reset.setX 3 7)) = true := by decide

/-- Rows 20 and 21. -/
theorem test_pAdd :
    (after 0x26712000 (setp 1 [1, 2, 3] (setp 2 [1, 2] State.reset))).getP 7 = [0, 0, 3] ∧
    (after 0x26111000 (setp 1 [1, 2, 3] State.reset)).getP 1 = [0, 0, 0] := by decide

/-- Row 23. -/
theorem test_pScale :
    (after 0x27712000 (setp 1 [0x80, 0x53, 0xFF] (xs 0 0xCA))).getP 7 = [0xFD, 0x8F, 0x1B] := by decide

/-- Rows 25, 27, 28 and 29. -/
theorem test_pShl :
    (after 0x28710002 (setp 1 [5, 7] State.reset)).getP 7 = [0, 0, 5, 7] ∧
    (after 0x2871001E (setp 1 [5, 7] State.reset)).getP 7 = List.replicate 30 0 ++ [5, 7] ∧
    faulted .polyRange 0x2871001F (after 0x2871001F (setp 1 [5, 7] State.reset)) = true ∧
    faulted .polyRange 0x28710020 (after 0x28710020 State.reset) = true := by decide

/-- Rows 31, 33 and 34. -/
theorem test_pMul :
    (after 0x29012000 (setp 1 [2, 3, 1] (setp 2 [4, 1] State.reset))).getP 0 = [8, 0x0E, 7, 1] ∧
    ((after 0x29712000 (setp 1 (ones 17) (setp 2 (ones 16) State.reset))).p[7].len : Nat) = 32 ∧
    faulted .polyRange 0x29712000 (after 0x29712000 (setp 1 (ones 17) (setp 2 (ones 17) State.reset))) = true := by
  decide

/-- Rows 35, 37, 39, 40 and 41. -/
theorem test_pMod :
    (after 0x2A712000 (setp 1 [0, 0, 0, 1] (setp 2 [2, 3, 1] State.reset))).getP 7 = [6, 7] ∧
    (after 0x2A712000 (setp 1 [5] (setp 2 [2, 3, 1] State.reset))).getP 7 = [5, 0] ∧
    (after 0x2A712000 (setp 1 [0x12, 0x34, 0x56, 0x78] (setp 2 [0, 0x1D, 0] State.reset))).getP 7 = [0x12] ∧
    (after 0x2A712000 (setp 1 [0x12, 0x34, 0x56, 0x78] (setp 2 [3, 0, 2] State.reset))).getP 7 = [0x6F, 0x70] ∧
    faulted .gfDomain 0x2A712000 (after 0x2A712000 (setp 1 [1, 2, 3] (setp 2 [0, 0] State.reset))) = true := by
  decide +kernel

/-- Rows 45, 47 and 48. -/
theorem test_pEval :
    (after 0x2B102000 (setp 0 [2, 3, 1] (xs 0 3))).getX 1 = 2 ∧
    (after 0x2B102000 (xs 0xAA 0x53)).getX 1 = 0 ∧
    (after 0x2B202000 (setp 0 [0x12, 0x34, 0x56, 0x78] (xs 0 0x53))).getX 2 = 0xB0 := by decide

/-- Rows 49, 50, 54, 55 and 56. -/
theorem test_pDeriv_pDeg :
    (after 0x2C710000 (setp 1 [1, 2, 3, 4, 5] State.reset)).getP 7 = [2, 0, 4, 0] ∧
    (after 0x2C710000 (setp 1 [9] State.reset)).getP 7 = [] ∧
    (after 0x2D110000 (setp 1 [0, 0, 3, 0, 0] State.reset)).getX 1 = 2 ∧
    (after 0x2D110000 (setp 1 [7] State.reset)).getX 1 = 0 ∧
    (after 0x2D110000 (setp 1 [0, 0] State.reset)).getX 1 = 0xFF := by decide

/-! ### Section 2.4: Reed-Solomon encoding -/

/-- `RS.GEN` rows 1, 2, 4 and 6. -/
theorem test_rsGen :
    faulted .polyRange 0x30000000 (after 0x30000000 State.reset) = true ∧
    (after 0x30000001 State.reset).getP 0 = [1, 1] ∧
    (after 0x3000000A State.reset).getP 0 =
      [0xC1, 0x9D, 0x71, 0x5F, 0x5E, 0xC7, 0x6F, 0x9F, 0xC2, 0xD8, 0x01] ∧
    (after 0x3000000A State.reset).rsn = 10 ∧
    faulted .polyRange 0x3000001F (after 0x3000001F State.reset) = true := by decide +kernel

/-- `RS.ENC` rows 1, 2, 9, 10, 11 and 12. -/
theorem test_rsEnc :
    let s : State := put 0 [1, 2, 3] { setp 0 [2, 3, 1] State.reset with rsn := 2 }
    (after 0x31030000 s).getP 1 = [4, 4] ∧ (after 0x31010000 s).getP 1 = [2, 3] ∧
    (after 0x31030000 (setp 0 [7, 0, 1] s)).getP 1 = [0x1C, 0x0E] ∧
    faulted .polyRange 0x31030000 (after 0x31030000 State.reset) = true ∧
    faulted .polyRange 0x31030000 (after 0x31030000 (setp 0 [2, 3, 2] s)) = true ∧
    faulted .bufRange 0x31021FFF (after 0x31021FFF s) = true := by decide

/-- `EC.BUILD` row 4: the low nibble of the 4-bit codeword is not encoded. -/
theorem test_ecBuild :
    let s : State := put 0 [0xA3, 0xDA, 0xDF] { State.reset with version := 0xFD, dcount := 3 }
    Memory.readList (after 0x32000000 s).buf 0x1000 6 = [0xA3, 0xDA, 0xD0, 0x6E, 0xC7, 0] ∧
    (after 0x32000000 s).getP 1 = [0xC7, 0x6E] ∧ (after 0x32000000 s).rsn = 2 := by decide

/-- `EC.BUILD` rows 7, 8 and 10, and section 2.8 row 15. -/
theorem test_ecBuild_faults :
    let s : State := { State.reset with version := 1, ecl := 2 }
    faulted .dataShort 0x32000000 (after 0x32000000 { s with dcount := 15 }) = true ∧
    faulted .dataOverflow 0x32000000 (after 0x32000000 { s with dcount := 17 }) = true ∧
    faulted .eclevelErr 0x32000000 (after 0x32000000 { s with version := 0xFE, ecl := 4, dcount := 99 }) = true := by
  decide

/-! ### Section 2.5: Reed-Solomon decoding -/

/-- The block of section 2.5 at 0x200 with the errors of row 4, and `RSN = 10`. -/
def received : State :=
  { put 0x200 [0x10, 0x20, 0x0C, 0xA9, 0x61, 0x80, 0xEC, 0x11, 0xEC, 0x11, 0xEC, 0x11, 0xEC, 0x11, 0xEC, 0x11, 0xA5,
      0x24, 0xD4, 0xC1, 0xEC, 0x36, 0xC7, 0x87, 0x2C, 0x55] State.reset with rsn := 10 }

/-- The syndromes of row 4. -/
def syndromes4 : List Byte := [0xFE, 0xAD, 0x22, 0x7E, 0xA9, 0x63, 0x74, 0x15, 0xB3, 0x06]

/-- The evaluator of row 4. -/
def omega4 : List Byte := [0xFE, 0x7C, 0, 0, 0, 0, 0, 0, 0, 0]

/-- Vector row 4; fault rows 1, 2 and 3. -/
theorem test_rsSyn :
    (after 0x381A0200 received).getP 2 = syndromes4 ∧ (after 0x381A0200 received).flags = ⟨false, false⟩ ∧
    (after 0x38000200 received).flags = ⟨true, false⟩ ∧
    faulted .polyRange 0x381A0200 (after 0x381A0200 State.reset) = true ∧
    faulted .bufRange 0x381A1FF0 (after 0x381A1FF0 received) = true := by decide +kernel

/-- Vector row 4; fault rows 4, 6 and 7. -/
theorem test_rsBm :
    (after 0x39000000 (setp 2 syndromes4 received)).getP 3 = [1, 0xCA, 0x0C] ∧
    (after 0x39000000 (setp 2 syndromes4 received)).nerr = 2 ∧
    faulted .polyRange 0x39000000 (after 0x39000000 received) = true ∧
    (after 0x39000000 (setp 2 (List.replicate 10 0) received)).getP 3 = [1] ∧
    (after 0x39000000 (setp 2 (List.replicate 9 0 ++ [1]) received)).flags = ⟨false, true⟩ := by decide +kernel

/-- Vector row 4; fault row 5. -/
theorem test_rsOmega :
    (after 0x3A000000 (setp 2 syndromes4 (setp 3 [1, 0xCA, 0x0C] received))).getP 4 = omega4 ∧
    faulted .polyRange 0x3A000000 (after 0x3A000000 received) = true := by decide

/-- Vector row 4; fault rows 8 and 9. -/
theorem test_rsChien :
    (after 0x3B1A0000 (setp 3 [1, 0xCA, 0x0C] received)).getP 5 = [5, 22] ∧
    (after 0x3B1A0000 (setp 3 [1, 0xCA, 0x0C] received)).flags = ⟨false, false⟩ ∧
    (after 0x3B0A0000 (setp 3 [1, 0xCA, 0x0C] received)).getP 5 = [5] ∧
    (after 0x3B0A0000 (setp 3 [1, 0xCA, 0x0C] received)).flags = ⟨false, true⟩ ∧
    faulted .polyRange 0x3B1A0000 (after 0x3B1A0000 received) = true := by decide +kernel

/-- Vector row 4; fault rows 10 and 11. -/
theorem test_rsForney :
    (after 0x3C000000 (setp 3 [1, 0xCA, 0x0C] (setp 4 omega4 (setp 5 [5, 22] received)))).getP 6 = [1, 0xFF] ∧
    (after 0x3C000000 (setp 3 [1, 0, 0x0C] (setp 4 [0xFE] (setp 5 [5] received)))).getP 6 = [0] ∧
    (after 0x3C000000 (setp 3 [1, 0, 0x0C] (setp 4 [0xFE] (setp 5 [5] received)))).flags = ⟨false, true⟩ ∧
    done (after 0x3C000000 State.reset) = true := by decide +kernel

/-- Vector row 4; fault rows 12, 13 and 14. -/
theorem test_rsFix :
    let s := setp 5 [5, 22] (setp 6 [1, 0xFF] received)
    Memory.read (after 0x3D1A0200 s).buf 0x203 = 0x56 ∧ Memory.read (after 0x3D1A0200 s).buf 0x214 = 0xED ∧
    faulted .polyRange 0x3D1A0200 (after 0x3D1A0200 (setp 6 [] s)) = true ∧
    faulted .polyRange 0x3D160200 (after 0x3D160200 s) = true ∧
    faulted .bufRange 0x3D1A1FF0 (after 0x3D1A1FF0 s) = true := by decide

/-! ### Sections 2.6 and 2.7: the matrix and masking -/

/-- A Micro symbol M1 in a phase, with a matrix. -/
def m1 (ph : Phase) (m : Mat) : State := { State.reset with version := 0xFD, phase := ph, mat := m }

/-- Section 2.6 rows 1 to 4. -/
theorem test_matAlloc :
    (after 0x40000000 { State.reset with version := 1, ecl := 2 }).phase = .allocated ∧
    (after 0x40000000 (m1 .idle ⟨Vector.replicate nmax (Vector.replicate nmax ⟨.func, true⟩)⟩)).mat.get 10 10 =
      ⟨.data, false⟩ ∧
    faulted .eclevelErr 0x40000000 (after 0x40000000 State.reset) = true ∧
    faulted .badPhase 0x40000000 (after 0x40000000 (m1 .allocated State.reset.mat)) = true := by decide +kernel

/-- The counts of M1 of section 2.6, and row 5. -/
theorem test_matStamp :
    (after 0x41000000 (m1 .allocated State.reset.mat)).nmod = 36 ∧
    (after 0x41000000 (m1 .allocated State.reset.mat)).phase = .stamped ∧
    faulted .badPhase 0x41000000 (after 0x41000000 (m1 .idle State.reset.mat)) = true := by decide

/-- The first three rows and rows 8 and 9 of the class picture of M2. -/
theorem test_stamp_picture :
    ([0, 1, 2, 8, 9].map fun r => (List.range 13).map fun c => ((stampedMat standardTables (-2)).get r c).code) =
      [[3, 3, 3, 3, 3, 3, 3, 2, 3, 2, 3, 2, 3],
       [3, 2, 2, 2, 2, 2, 3, 2, 4, 0, 0, 0, 0],
       [3, 2, 3, 3, 3, 2, 3, 2, 4, 0, 0, 0, 0],
       [3, 4, 4, 4, 4, 4, 4, 4, 4, 0, 0, 0, 0],
       [2, 0, 0, 0, 0, 0, 0, 0, 0, 0, 0, 0, 0]] := by decide

/-- The bits of M1 with `CBUF = A3 DA D0 6E C7`, and row 6.  The traversal of M1 starts at the bottom right and goes
upward, the right cell of a row first (R235). -/
theorem test_matPlace :
    let s := put 0x1000 [0xA3, 0xDA, 0xD0, 0x6E, 0xC7] (m1 .stamped (stampedMat standardTables (-3)))
    ((placementOrder (-3) (stampedMat standardTables (-3))).map fun rc =>
        ((after 0x42000000 s).mat.get rc.1 rc.2).val.toNat) =
      [1, 0, 1, 0, 0, 0, 1, 1, 1, 1, 0, 1, 1, 0, 1, 0, 1, 1, 0, 1, 0, 1, 1, 0, 1, 1, 1, 0, 1, 1, 0, 0, 0, 1, 1, 1] ∧
    (placementOrder (-3) (stampedMat standardTables (-3))).take 4 = [(10, 10), (10, 9), (9, 10), (9, 9)] ∧
    (after 0x42000000 s).phase = .placed ∧
    faulted .badPhase 0x42000000 (after 0x42000000 (m1 .allocated State.reset.mat)) = true := by decide

/-- The last strip of M2 in the traversal table. -/
theorem test_placementOrder :
    (placementOrder (-2) (stampedMat standardTables (-2))).length = 80 ∧
    (placementOrder (-2) (stampedMat standardTables (-2))).drop 72 =
      [(9, 2), (9, 1), (10, 2), (10, 1), (11, 2), (11, 1), (12, 2), (12, 1)] := by decide

/-- Rows 10 to 15: a cell of every kind, and the two faults. -/
theorem test_matRd :
    let s := (State.reset.setX 1 0x0D).setX 2 8
    (after 0x43312000 { s with version := 1, phase := .stamped, mat := s.mat.set 13 8 ⟨.func, true⟩ }).getX 3 = 3 ∧
    (after 0x43312000 { s with version := 1, phase := .stamped, mat := s.mat.set 13 8 ⟨.rsvd, false⟩ }).getX 3 = 4 ∧
    (after 0x43312000 { s with version := 1, phase := .allocated }).getX 3 = 0 ∧
    faulted .matRange 0x43312000 (after 0x43312000 { xs 0x15 0 with version := 1, phase := .allocated }) = true ∧
    faulted .badPhase 0x43312000 (after 0x43312000 { xs 0x15 0 with version := 1 }) = true := by decide

/-- State B of section 2.7: M2 after `MAT.PLACE`, from its row words. -/
def stateB : State :=
  let rows := [0x1FD5, 0x104C, 0x1743, 0x1741, 0x174D, 0x1040, 0x1FC1, 0x0002, 0x1000, 0x0124, 0x1F70, 0x0108, 0x1146]
  { State.reset with
    version := 0xFE, ecl := 1, phase := .placed,
    mat := (List.range 13).foldl (fun m r => (List.range 13).foldl (fun m c =>
      m.setVal r c ((rows.getD r 0).testBit (12 - c))) m) (stampedMat standardTables (-2)) }

/-- State B read back as pixels of one row. -/
def rowBits (s : State) (r : Nat) : List Nat := (List.range 13).map fun c => (s.mat.get r c).val.toNat

/-- `MASK.APPLY` rows 7, 8 and 11, and the tile of Micro mask 3 on the last row: the data cells of row 12 where full
mask 7 holds (`X-X-X-`) are inverted. -/
theorem test_maskApply :
    rowBits stateB 12 = [1, 0, 0, 0, 1, 0, 1, 0, 0, 0, 1, 1, 0] ∧
    rowBits (after 0x48000003 stateB) 12 = [1, 0, 1, 0, 0, 0, 0, 0, 1, 0, 0, 1, 1] ∧
    faulted .maskErr 0x48000004 (after 0x48000004 stateB) = true ∧
    faulted .badPhase 0x48000009 (after 0x48000009 State.reset) = true := by decide +kernel

/-- `MASK.SCORE` rows 12 and 17. -/
theorem test_maskScore :
    (after 0x49000000 stateB).scores = ⟨85, 5, 5, 0, 0⟩ ∧
    (after 0x49000000 { stateB with cfg := ⟨standardTables, true, .iso⟩ }).scores.score = 68 ∧
    faulted .badPhase 0x49000000 (after 0x49000000 (m1 .stamped State.reset.mat)) = true := by decide +kernel

/-- The penalty lines 1, 2, 5, 6, 8 and 11 of section 2.7. -/
theorem test_penalty_lines :
    let line (n : Nat) : List Bool := (List.range 21).map fun i => n.testBit (20 - i)
    lineN1 3 (line 0b111110000010101010101) = 6 ∧ lineN1 3 (line 0b111111111111111111111) = 19 ∧
    lineN1 3 (line 0b101010101010101011111) = 3 ∧
    lineFinders (line 0b101110100001010101010) = 1 ∧ lineFinders (line 0b101110100010101010101) = 1 ∧
    lineFinders (line 0b110111010001010101010) = 0 ∧ lineFinders (line 0b000010111010111010000) = 2 := by
  decide

/-- `MASK.SELECT` rows 5 to 7 and 9. -/
theorem test_maskSelect :
    (after 0x4A000000 stateB).masksel = 1 ∧ (after 0x4A000000 stateB).scores = ⟨153, 9, 9, 0, 0⟩ ∧
    (after 0x4A000000 { stateB with maskreq := 3 }).masksel = 3 ∧
    (after 0x4A000000 { stateB with maskreq := 3 }).phase = .masked ∧
    faulted .maskErr 0x4A000000 (after 0x4A000000 { stateB with maskreq := 4 }) = true ∧
    faulted .badPhase 0x4A000000 (after 0x4A000000 (m1 .stamped State.reset.mat)) = true := by decide +kernel

/-- The format and version words of section 2.7. -/
theorem test_format_words :
    formatWord standardTables false 7 = 0x4AA0 ∧ formatWord standardTables false 21 = 0x0255 ∧
    formatWord standardTables true 5 = 0x5099 ∧ formatWord standardTables true 0 = 0x4445 ∧
    versionWord standardTables 7 = 0x07C94 ∧ versionWord standardTables 40 = 0x28C69 ∧
    formatData standardTables 1 2 7 = 7 ∧ formatData standardTables 1 4 5 = 21 ∧
    formatData standardTables (-2) 1 1 = 5 := by decide

/-- M2-L with `MASKSEL = 1`, cell by cell (section 2.7), and `FMT.WRITE` row 2. -/
theorem test_fmtWrite :
    let t := after 0x4B000000 { stateB with phase := .masked, masksel := 1 }
    (List.range' 1 8).map (fun r => (t.mat.get r 8).val.toNat) = [1, 0, 0, 1, 1, 0, 0, 1] ∧
    (List.range' 1 7).map (fun c => (t.mat.get 8 c).val.toNat) = [1, 0, 1, 0, 0, 0, 0] ∧
    t.mat.get 8 1 = ⟨.rsvd, true⟩ ∧ t.phase = .final ∧
    faulted .badPhase 0x4B000000 (after 0x4B000000 stateB) = true := by decide +kernel

/-- Other tables are used where they stand in the configuration: the product of the worked example of FIPS 197 section 4.2
with the modulus 0x11B, and a format word without its final mask. -/
theorem test_tables_are_data :
    (after 0x13312000 { xs 0x57 0x83 with cfg := ⟨{ standardTables with gfModulus := 0x11B }, true, .doc⟩ }).getX 3 =
      0xC1 ∧
    formatWord { standardTables with fmtXorFull := 0 } false 7 = 0x4AA0 ^^^ 0x5412 := by decide

/-- The first eight cells of version 1 that rule R235 lists come first in the walk, and the first cell of the strip after
the timing column of full symbols. -/
theorem test_walkPosition :
    ([(20, 20), (20, 19), (19, 20), (19, 19), (18, 20), (18, 19), (17, 20), (17, 19)].map (walkPosition 1)) =
      [0, 1, 2, 3, 4, 5, 6, 7] ∧
    walkPosition 1 (0, 5) = 7 * 42 ∧ walkPosition 1 (20, 7) = 6 * 42 + 1 := by decide

/-- The windows and the read port. -/
theorem test_host :
    let act (a : HostAct) (s : State) : State :=
      match step { s with host := [a] } with
      | .next t => t
      | .fault _ => s
      | .refused _ => s
    (act (.writeBuf 0x1FFF 0x42) State.reset).buf = [(0x1FFF, 0x42)] ∧
    (act (.readBuf 3) (put 3 [7] State.reset)).hostData = 7 ∧
    (act (.readMat 13 8) { State.reset with mat := State.reset.mat.set 13 8 ⟨.func, true⟩ }).hostData = 3 ∧
    (act (.readPort 0x041) (xs 0x99 0)).hostData = 0x99 ∧
    (act (.readPort 0x015) State.reset).hostData = 0x52535152 ∧
    (act .reset { xs 1 2 with fault := some .badPhase }).fault = none ∧
    (act .reset (xs 1 2)).getX 1 = 0 := by decide


/-! ## Witnesses: states and operands that meet the hypotheses of every statement, clause by clause -/

/-- A state whose next host action is a command. -/
def handed (w : Word) (s : State) : State := s.handOver w

/-- A halted engine. -/
def halted : State := { State.reset with fault := some .gfDomain, faultcmd := 0x15200000 }

/-- An engine without the decode extension. -/
def noDec : State := { State.reset with cfg := ⟨standardTables, false, .doc⟩ }

/-- A version 1 symbol of level M in a phase. -/
def full (ph : Phase) : State := { State.reset with version := 1, ecl := 2, phase := ph }

/-- The tables of the states below fit (`RegisterMap`, `EcBuild`, `MatStamp`, `MatPlace`). -/
theorem witness_tables : TablesFit State.reset.tables ∧ State.reset.cfg.gfModulus = 0x11D ∧
    State.reset.cfg.w1 = 3 ∧ State.reset.cfg.w2 = 3 ∧ State.reset.cfg.w3 = 40 ∧ State.reset.cfg.w4 = 10 :=
  ⟨standardTables_fit, rfl, rfl, rfl, rfl, rfl⟩

theorem witness_EncodeThenDecode :
    Instr.wellFormed false (.pLd 7 63 8191) = true ∧ Instr.wellFormed false (.rsEnc 255 8191) = true ∧
    Instr.wellFormed true (.rsChien 255) = true := by decide

theorem witness_LegalWordsAreUnique :
    decode false 0x2277FFFF = .ok (.pLd 7 63 8191) ∧ decode false 0x1AFFFFFF = .ok (.ldbx 15 15 0xFFFF) := by decide

theorem witness_DecodeOpcodesNeedRsdec :
    opcodeOf 0x38000000 = 0x38 ∧ opcodeOf 0x3DFFFFFF = 0x3D ∧ noDec.cfg.hasRsdec = false ∧ noDec.fault = none := by
  decide

theorem witness_StepRunsDecodedCommand :
    (handed 0x13312000 State.reset).host = .command 0x13312000 :: [] ∧ State.reset.fault = none ∧
    decode State.reset.cfg.hasRsdec 0x13312000 = .ok (.gfMul 3 1 2) ∧ State.reset.host = [] := by decide

theorem witness_StepRelation :
    (handed 0x00000000 halted).host = .command 0x00000000 :: [] ∧ halted.fault ≠ none ∧ halted.noReset ∧
    decode State.reset.cfg.hasRsdec 0x02000000 = .error .opcode ∧
    step halted = .next halted ∧
    ({ halted with host := [.writeBuf 8191 1] } : State).host = .writeBuf 8191 1 :: [] ∧
    ({ halted with host := [.reset] } : State).host = .reset :: [] ∧
    ({ halted with host := [.readMat 176 176] } : State).host = .readMat 176 176 :: [] := by
  refine ⟨by decide, by decide, by unfold State.noReset; decide, by decide, rfl, rfl, rfl, rfl⟩

theorem witness_Reset : ({ halted with host := [.reset] } : State).host = .reset :: [] := rfl

theorem witness_ReadPort :
    ({ State.reset with host := [.readPort 0x1FF] } : State).host = .readPort 0x1FF :: [] ∧
    (0x03F#12).toNat < 0x040 ∧ (0x04F#12).toNat = 0x040 + ((15 : XReg) : Nat) ∧
    (0x057#12).toNat = 0x050 + ((7 : PReg) : Nat) ∧ 0x058 ≤ (0x058#12).toNat ∧ (0x0FF#12).toNat < 0x100 ∧
    (0x1FF#12).toNat = 0x100 + 32 * ((7 : PReg) : Nat) + ((31 : Fin pcap) : Nat) ∧ 0x200 ≤ (0x200#12).toNat := by
  decide

theorem witness_RegisterMap :
    (full .idle).validSpec = true ∧ (full .idle).versionLegal ∧ State.reset.validSpec = false ∧
    halted.fault = some .gfDomain := by
  refine ⟨by decide, by unfold State.versionLegal; decide, by decide, rfl⟩

theorem witness_HostWindows :
    Memory.wf (put 0x1FFF [7] State.reset).buf ∧
    ({ State.reset with host := [.writeBuf 0x1FFF 0] } : State).host = .writeBuf 0x1FFF 0 :: [] ∧
    ({ State.reset with host := [.readBuf 0] } : State).host = .readBuf 0 :: [] ∧
    ({ State.reset with host := [.readMat 176 176] } : State).host = .readMat 176 176 :: [] := by decide

theorem witness_CommandCount :
    (∃ w rest, (handed 0 State.reset).host = .command w :: rest) ∧ State.reset.fault = none ∧
    step (handed 0 State.reset) = .next { State.reset with cmdcnt := 1 } ∧
    (¬ ∃ w rest, State.reset.host = .command w :: rest) ∧ State.reset.noReset ∧ step State.reset = .next State.reset := by
  refine ⟨⟨_, _, rfl⟩, rfl, rfl, by simp [State.reset], by unfold State.noReset; decide, rfl⟩

theorem witness_PhaseMovesForward : State.reset.noReset ∧ step State.reset = .next State.reset :=
  ⟨by unfold State.noReset; decide, rfl⟩

theorem witness_PhaseTable :
    phaseRule .matStamp = some ([.allocated], some .stamped) ∧ (full .allocated).phase ∈ [Phase.allocated] ∧
    (full .stamped).phase ∉ [Phase.allocated] ∧
    (∃ t, exec .maskScore (full .final) = .next t ∧ t.cmdcnt = (full .final).cmdcnt + 1) ∧
    phaseRule .nop = none ∧ exec .nop State.reset = .next { State.reset with cmdcnt := 1 } :=
  ⟨rfl, by decide, by decide, ⟨_, rfl, rfl⟩, rfl, rfl⟩

theorem witness_FlagsNeverSteer : exec .nop State.reset = .next { State.reset with cmdcnt := 1 } := rfl

theorem witness_MatrixCommandsIgnoreTheRest :
    (∃ t, exec .matAlloc (full .idle) = .next t) ∧ ∃ t, exec (.maskApply 3) (full .placed) = .next t :=
  ⟨⟨_, rfl⟩, ⟨_, rfl⟩⟩

/-- The cells `MAT.STAMP` writes in an M1 symbol are inside its corner. -/
theorem stampWrites_m1_inside : ∀ w ∈ stampWrites standardTables (-3), w.1 < 11 ∧ w.2.1 < 11 := by decide

/-- Outside its corner the stamped M1 matrix is blank. -/
theorem stampedMat_m1_outside {r c : Nat} (h : 11 ≤ r ∨ 11 ≤ c) :
    (stampedMat standardTables (-3)).get r c = ⟨.data, false⟩ := by
  rw [stampedMat, get_applyWrites_other _ _ fun w hw hrc => ?_, Mat.get_reset]
  have := stampWrites_m1_inside w hw
  omega

/-- The reserved modules of the stamped M1 matrix are light. -/
theorem stampedMat_m1_reserved {r c : Nat} (h : ((stampedMat standardTables (-3)).get r c).cls = .rsvd) :
    ((stampedMat standardTables (-3)).get r c).val = false := by
  by_cases hrc : r < 11 ∧ c < 11
  · have key : ∀ r' : Fin 11, ∀ c' : Fin 11,
        ((stampedMat standardTables (-3)).get r' c').cls = .rsvd →
        ((stampedMat standardTables (-3)).get r' c').val = false := by decide
    exact key ⟨r, hrc.1⟩ ⟨c, hrc.2⟩ h
  · rw [stampedMat_m1_outside (by omega)]

/-- An M1 symbol whose matrix is the stamped one, in a phase from `STAMPED` on: both invariants hold. -/
theorem m1_invariants (ph : Phase) (msel : BitVec 4) (h2 : 2 ≤ ph.code)
    (hm : if 4 ≤ ph.code then msel.toNat < 4 else msel = 0xF) :
    ({ m1 ph (stampedMat standardTables (-3)) with masksel := msel } : State).Inv ∧
    ({ m1 ph (stampedMat standardTables (-3)) with masksel := msel } : State).MatInv := by
  have hv : ({ m1 ph (stampedMat standardTables (-3)) with masksel := msel } : State).versionInt = -3 :=
    show (0xFD#8).toInt = -3 by decide
  have hs : ({ m1 ph (stampedMat standardTables (-3)) with masksel := msel } : State).side = 11 := by
    unfold State.side
    rw [hv]
    decide
  constructor
  · constructor
    · exact Memory.wf_reset
    · intro k j _
      simp [m1, State.reset]
    · unfold State.versionLegal
      rw [hv]
      decide
    · exact show (0#3).toNat ≤ 4 by decide
    · exact show (8#4).toNat ≤ 8 by decide
    · exact show (0#5).toNat ≤ 30 by decide
    · exact show (0#5).toNat ≤ 30 by decide
    · exact fun _ => ⟨rfl, rfl⟩
    · intro _
      unfold State.validSpec
      rw [hv]
      exact show validSpec standardTables (-3) (0#3).toNat = true by decide
    · rw [hv]
      exact hm
    · exact fun _ => rfl
    · exact standardTables_fit
  · constructor
    · intro h
      exact absurd h (Nat.not_lt.2 h2)
    · intro _ r c
      rw [hv]
      rfl
    · intro _ r c _
      rw [hv]
      rfl
    · exact fun _ r c => stampedMat_m1_reserved
    · intro r c h
      rw [hs] at h
      exact stampedMat_m1_outside h

/-- For `InvariantKept`, `MatrixInvariantKept` and `Immutability`: states right after `MAT.STAMP` and in `FINAL`, and a
step from each. -/
theorem witness_InvariantKept :
    ∃ s t : State, s.Inv ∧ s.MatInv ∧ s.noReset ∧ s.phase = .stamped ∧ step s = .next t :=
  ⟨_, _, (m1_invariants .stamped 0xF (by decide) rfl).1, (m1_invariants .stamped 0xF (by decide) rfl).2,
    by unfold State.noReset; decide, rfl, rfl⟩

theorem witness_Immutability :
    ∃ s t : State, s.Inv ∧ s.MatInv ∧ s.noReset ∧ s.phase = .final ∧ step s = .next t :=
  ⟨_, _, (m1_invariants .final 3 (by decide) (by decide)).1, (m1_invariants .final 3 (by decide) (by decide)).2,
    by unfold State.noReset; decide, rfl, rfl⟩

/-- A command of each kind that `Immutability` names, from a state with both invariants. -/
theorem witness_Immutability_commands :
    (∃ s t : State, s.Inv ∧ s.MatInv ∧ exec .matPlace s = .next t) ∧
    (∃ s t : State, s.Inv ∧ s.MatInv ∧ exec (.maskApply 3) s = .next t) ∧
    (∃ s t : State, s.Inv ∧ s.MatInv ∧ exec .fmtWrite s = .next t) := by
  have h1 := m1_invariants .stamped 0xF (by decide) rfl
  have h2 := m1_invariants .placed 0xF (by decide) rfl
  have h3 := m1_invariants .masked 3 (by decide) (by decide)
  exact ⟨⟨_, _, h1.1, h1.2, (exec_answers ..).choose_spec⟩, ⟨_, _, h2.1, h2.2, (exec_answers ..).choose_spec⟩,
    ⟨_, _, h3.1, h3.2, (exec_answers ..).choose_spec⟩⟩

theorem witness_NopChangesOnlyTheCount : opcodeOf 0x00000001 = 0x00 ∧ (0x00000001 : Word) ≠ 0 ∧ State.reset.fault = none := by decide

theorem witness_CfgSet :
    State.reset.phase = .idle ∧ (full .allocated).phase ≠ .idle ∧
    (0x00FD#16).toNat ≤ 0x00FF ∧ -3 ≤ ((0x00FD#16).setWidth 8).toInt ∧ ((0x0028#16).setWidth 8).toInt ≤ 40 ∧
    0x00FF < (0x0100#16).toNat ∧ ((0x00FC#16).setWidth 8).toInt < -3 ∧ 40 < ((0x0029#16).setWidth 8).toInt ∧
    (4#16).toNat ≤ 4 ∧ 4 < (5#16).toNat ∧ (8#16).toNat ≤ 8 ∧ 8 < (9#16).toNat ∧
    (4095#16).toNat ≤ 4095 ∧ 4095 < (4096#16).toNat := by decide

theorem witness_ScalarDomain :
    (xs 1 0).getX 1 ≠ 0 ∧ (xs 1 0).getX 2 = 0 ∧ (xs 1 0).cfg.gfModulus = 0x11D := by decide

theorem witness_ByteLoads :
    (8191#16).toNat ≤ 8191 ∧ 8191 < (8192#16).toNat ∧ (0x1F00#16).toNat + ((xs 0 0xFF).getX 2).toNat ≤ 8191 ∧
    8191 < (0x1F01#16).toNat + ((xs 0 0xFF).getX 2).toNat := by decide

theorem witness_ByteStores :
    Memory.wf (put 5 [1] State.reset).buf ∧ eaAbs 8191 ≤ 8191 ∧ 8191 < eaAbs 8192 ∧
    eaIndex (xs 0 0xFF) 0x1F00 2 ≤ 8191 ∧ 8191 < eaIndex (xs 0 0xFF) 0x1F01 2 := by decide

theorem witness_polynomial_functions :
    polyDeg [7, 1] = some 1 ∧ polyEval 0x11D [7, 1] 7 = 0 ∧ polyDeg [0, 0] = none ∧ ([7, 1] : List Byte) ≠ [] ∧
    (∃ q, ∀ n, coefAt [7, 1] n = coefAt (polyMul 0x11D q [7, 1]) n ^^^ coefAt [0] n) := by
  refine ⟨by decide, by decide, by decide, by decide, [1], fun n => ?_⟩
  match n with
  | 0 => decide
  | 1 => decide
  | n + 2 =>
    have h : polyMul 0x11D [1] [7, 1] = [7, 1] := by decide
    rw [h]
    simp [coefAt]

theorem witness_PolynomialRange :
    (31#16).toNat ≤ 31 ∧ 31 < (32#16).toNat ∧ (setp 1 [9] State.reset).getP 1 ≠ [] ∧
    ((setp 1 [9] State.reset).getP 1).length + (31#16).toNat ≤ 32 ∧
    32 < ((setp 1 [9, 9] State.reset).getP 1).length + (31#16).toNat ∧
    ((setp 1 (ones 17) State.reset).getP 1).length + 16 - 1 ≤ 32 ∧
    32 < ((setp 1 (ones 17) State.reset).getP 1).length + ((setp 1 (ones 17) State.reset).getP 1).length - 1 ∧
    polyDeg ((setp 1 [9] State.reset).getP 1) ≠ none ∧ polyDeg (State.reset.getP 1) = none := by decide

theorem witness_PolynomialTransfers :
    Memory.wf (put 0 [1, 2] State.reset).buf ∧ (32#6).toNat ≤ 32 ∧ (8160#13).toNat + (32#6).toNat ≤ 8192 ∧
    32 < (33#6).toNat ∧ 8192 < (8161#13).toNat + (32#6).toNat ∧
    (8190#13).toNat + ((setp 1 [1, 2] State.reset).getP 1).length ≤ 8192 ∧
    8192 < (8191#13).toNat + ((setp 1 [1, 2] State.reset).getP 1).length := by decide

theorem witness_PolynomialCoefficients :
    (31#16).toNat = ((31 : Fin pcap) : Nat) ∧ 31 < (32#16).toNat ∧
    ∀ i : Fin pcap, (((setp 1 [9, 9] State.reset).p[1]).len : Nat) ≤ i → ((setp 1 [9, 9] State.reset).p[1]).coef[i] = 0 := by
  decide

theorem witness_Generator :
    1 ≤ (1#16).toNat ∧ (30#16).toNat ≤ 30 ∧ (0#16).toNat < 1 ∧ 30 < (31#16).toNat := by decide

/-- An engine with `g_2` in `p[0]` and `RSN = 2`. -/
def generated : State := { setp 0 [2, 3, 1] State.reset with rsn := 2 }

theorem witness_RsEnc :
    1 ≤ generated.rsn.toNat ∧ (generated.getP 0).length = generated.rsn.toNat + 1 ∧
    coefAt (generated.getP 0) generated.rsn.toNat = 1 ∧ (8189#13).toNat + (3#8).toNat ≤ 8192 ∧
    8192 < (8190#13).toNat + (3#8).toNat ∧ State.reset.rsn.toNat < 1 ∧
    ((setp 0 [1] generated).getP 0).length ≠ generated.rsn.toNat + 1 ∧
    coefAt ((setp 0 [2, 3, 2] generated).getP 0) generated.rsn.toNat ≠ 1 := by decide

theorem witness_RsEncodeIsRemainder : ([2, 3, 1] : List Byte).length = 2 + 1 ∧ coefAt [2, 3, 1] 2 = 1 := by decide

theorem witness_BlockTable :
    validSpec standardTables (-3) 0 = true ∧ validSpec standardTables 0 3 = true ∧
    validSpec standardTables 40 4 = true ∧ validSpec standardTables (-3) 1 = false ∧
    validSpec standardTables 1 0 = false := by decide

theorem witness_ValidPairs :
    blockSpec? standardTables 0 4 = none ∧ validSpec standardTables (-1) 2 = true ∧
    validSpec standardTables (-1) 3 = false ∧ validSpec standardTables 41 1 = false := by decide

/-- The columns of the Micro block table are data: M4 with level Q marked "4-bit last" and numbered 3, and no other pair. -/
theorem test_micro_rows_are_data :
    let T : CfgTables := { standardTables with microBlocks := [⟨0, 3, 24, 14, true, 3⟩] }
    validSpec T 0 3 = true ∧ validSpec T 0 2 = false ∧ (blockSpec T 0 3).fourBitLast = true ∧
    formatData T 0 3 2 = 14 := by decide

theorem witness_Interleaving : ∀ ec ∈ [[(1 : Byte), 2], [3, 4]], ec.length = 2 := by decide

theorem witness_EcBuild :
    Memory.wf State.reset.buf ∧ (full .final).validSpec = true ∧
    ({ full .idle with dcount := 16 } : State).dcount.toNat = (blockSpec standardTables 1 2).lens.sum ∧
    (blockSpec standardTables 1 2).lens.sum < ({ full .idle with dcount := 17 } : State).dcount.toNat ∧
    ({ full .idle with dcount := 15 } : State).dcount.toNat < (blockSpec standardTables 1 2).lens.sum ∧
    State.reset.validSpec = false ∧ State.reset.versionLegal ∧
    ¬ ({ State.reset with version := 0xFC } : State).versionLegal := by
  refine ⟨by decide, by decide, by decide, by decide, by decide, by decide, ?_, ?_⟩ <;>
    (unfold State.versionLegal; decide)

/-- For `RsSyn`, `RsBm` and `RsLocate`: registers of the right and of the wrong length, at both ends of the address
range. -/
theorem witness_rs_decode :
    generated.cfg.hasRsdec = true ∧ 1 ≤ generated.rsn.toNat ∧ State.reset.rsn.toNat < 1 ∧
    (8190#13).toNat + (2#8).toNat ≤ 8192 ∧ 8192 < (8191#13).toNat + (2#8).toNat ∧
    ((setp 2 [0, 0] generated).getP 2).length = generated.rsn.toNat ∧
    (∀ y ∈ (setp 2 [0, 0] generated).getP 2, y = 0) ∧ (generated.getP 2).length ≠ generated.rsn.toNat ∧
    (setp 3 [1, 1] generated).getP 3 ≠ [] ∧ (chienSearch 0x11D ((setp 3 [1, 1] generated).getP 3) 1).length ≤ 32 ∧
    generated.getP 3 = [] ∧ 32 < (chienSearch 0x11D ((setp 3 [0] generated).getP 3) 33).length := by decide +kernel

/-- For the clauses of `RsBm` on the syndromes of row 4: the indices of the recurrence, at both ends, with the sums that
rule R202 makes 0, and an index above the locator's. -/
theorem witness_RsBm :
    let t := after 0x39000000 (setp 2 syndromes4 received)
    t.nerr.toNat = 2 ∧ t.nerr.toNat ≤ 2 ∧ 9 < received.rsn.toNat ∧ t.nerr.toNat < 3 ∧
    (∀ r ∈ [2, 9], xorAll ((List.range 3).map fun i =>
      gfMul 0x11D (coefAt (t.getP 3) i) (coefAt syndromes4 (r - i))) = 0) ∧
    ∃ y ∈ (setp 2 syndromes4 received).getP 2, y ≠ 0 := by decide +kernel

theorem witness_RsFix :
    Memory.wf received.buf ∧ received.cfg.hasRsdec = true ∧
    ((setp 5 [1] (setp 6 [9] received)).getP 5).length = ((setp 5 [1] (setp 6 [9] received)).getP 6).length ∧
    (∀ pos ∈ (setp 5 [1] received).getP 5, pos.toNat < (2#8).toNat) ∧ (8190#13).toNat + (2#8).toNat ≤ 8192 ∧
    8192 < (8191#13).toNat + (2#8).toNat ∧
    ((setp 5 [1] received).getP 5).length ≠ ((setp 5 [1] received).getP 6).length ∧
    ∃ pos ∈ (setp 5 [2] received).getP 5, (2#8).toNat ≤ pos.toNat := by decide

/-- For `MatAlloc`, `MatStamp` and `MatPlace`. -/
theorem witness_matrix :
    (full .idle).phase = .idle ∧ (full .idle).validSpec = true ∧ State.reset.validSpec = false ∧
    (full .placed).phase ≠ .idle ∧ (full .stamped).phase = .stamped ∧ (full .idle).phase ≠ .stamped ∧
    (full .idle).versionLegal ∧ ({ State.reset with version := 0x28 } : State).versionLegal ∧
    ({ State.reset with version := 0xFD } : State).versionLegal ∧
    ¬ ({ State.reset with version := 0x29 } : State).versionLegal := by
  refine ⟨rfl, by decide, by decide, by decide, rfl, by decide, ?_, ?_, ?_, ?_⟩ <;> (unfold State.versionLegal; decide)

theorem witness_StampedPatterns :
    (38, 38) ∈ alignmentCentres (alignCoords standardTables 7) ∧ (8, 0) ∈ formatCells 7 14 ∧
    (5, 36) ∈ versionCells (symbolSize 7) 17 ∧ 8 ≤ symbolSize 1 - 9 := by decide

/-- For the clauses of `MatPlace`: in M1 the 4-bit codeword, the codeword after it, and a cell beyond the last bit. -/
theorem witness_MatPlace :
    (m1 .stamped State.reset.mat).csrDlen = 3 ∧ (m1 .stamped State.reset.mat).csrClen = 5 ∧
    (placementOrder (-3) State.reset.mat)[8 * 2 - 0 + 3]?.isSome = true ∧
    (placementOrder (-3) State.reset.mat)[8 * 4 - 4 + 7]?.isSome = true ∧
    (placementOrder (-3) State.reset.mat)[8 * 5 - 4]?.isSome = true := by decide

theorem witness_PlacementOrder : (10, 10) ∈ placementOrder (-3) (stampedMat standardTables (-3)) := by decide

theorem witness_MatRd :
    (full .final).phase ≠ .idle ∧ ((xs 20 21).getX 1).toNat < (full .final).side ∧
    (full .final).side ≤ ((xs 20 21).getX 2).toNat ∧ State.reset.phase = .idle := by decide

/-- For `MaskApply`, `MaskScore`, `MaskSelect` and `FmtWrite`, on both classes of symbol. -/
theorem witness_masking :
    (full .placed).phase = .placed ∧ (7#16).toNat < maskCount (full .placed).versionInt ∧
    maskCount (full .placed).versionInt ≤ (8#16).toNat ∧
    (3#16).toNat < maskCount stateB.versionInt ∧ maskCount stateB.versionInt ≤ (4#16).toNat ∧
    (full .final).phase = .final ∧ (full .stamped).phase = .stamped ∧ (full .masked).phase = .masked ∧
    (full .placed).maskreq.toNat = 8 ∧ ({ full .placed with maskreq := 7 } : State).maskreq.toNat ≠ 8 ∧
    ({ full .placed with maskreq := 7 } : State).maskreq.toNat < maskCount (full .placed).versionInt ∧
    maskCount stateB.versionInt ≤ ({ stateB with maskreq := 4 } : State).maskreq.toNat ∧
    (full .placed).versionLegal ∧ stateB.versionLegal := by
  refine ⟨rfl, by decide, by decide, by decide, by decide, rfl, rfl, rfl, by decide, by decide, by decide, by decide, ?_, ?_⟩ <;>
    (unfold State.versionLegal; decide)

/-- For the clause of `MaskScore` about the alternative reading. -/
theorem witness_MaskScore_iso :
    ({ stateB with cfg := ⟨standardTables, true, .iso⟩ } : State).cfg.microScore = .iso ∧ stateB.versionInt < 1 ∧
    stateB.cfg.microScore = .doc := ⟨rfl, by decide, rfl⟩

theorem witness_PenaltyTerms : ([false] : List Bool).head? ≠ some true ∧ 14 + 7 ≤ 21 ∧ symbolSize 40 ≤ nmax := by decide

/-- The values that `BlockTable`, `StampedPatterns`, `RsLocate` and `CodeWords` give a name to. -/
theorem witness_named_values :
    (∃ b, b = blockSpec standardTables 40 4) ∧ (∃ st, st = stampedMat standardTables 40) ∧
    (∃ den : Byte → Byte, ∀ i, den i = polyEval 0x11D (polyDeriv [1, 0xCA, 0x0C])
      (gfExp 0x11D ((255 - i.toNat) % 255))) ∧
    ∃ full micro version : Nat → Nat, ∀ d, full d = formatWord standardTables false d ∧
      micro d = formatWord standardTables true d ∧ version d = versionWord standardTables d :=
  ⟨⟨_, rfl⟩, ⟨_, rfl⟩, ⟨_, fun _ => rfl⟩, _, _, _, fun _ => ⟨rfl, rfl, rfl⟩⟩

theorem witness_CodeWords : (31 : Nat) < 32 ∧ (30 : Nat) < 32 ∧ (31 : Nat) ≠ 30 ∧ (63 : Nat) < 64 := by decide

end Sys2Proof.Tests
end

section
/-! The statements about the state: reset, the read port, the count of commands, the pairs that exist and the bounds on the
scores (10_state.md, R47, R48, R51, R54, R55). -/

namespace Sys2Proof.Machine

/-! ## Reset -/

/-- The registers that are derived from the pair (`VERSION`, `ECL`) read 0 for a pair that does not exist (R43 to R45). -/
theorem State.derived_zero {s : State} (h : s.validSpec = false) :
    s.csrSize = 0 ∧ s.csrDlen = 0 ∧ s.csrClen = 0 := by
  simp [State.csrSize, State.csrDlen, State.csrClen, h]

/-- `VERSION = 0` and `ECL = 0` are no pair, whatever the tables: version 0 is M4, which has the levels L to Q (R55). -/
theorem State.validSpec_afterReset (s : State) : s.afterReset.validSpec = false := by
  have hlevel : levelPossible 0 0 = false := by decide
  have hpair : s.afterReset.validSpec = Machine.validSpec s.tables 0 0 := rfl
  rw [hpair, Machine.validSpec, hlevel, Bool.false_and]

theorem State.csr_cap (s : State) : s.csr 0x16 = if s.cfg.hasRsdec then 1 else 0 := by
  cases h : s.cfg.hasRsdec <;> simp [State.csr, State.cap, h]

/-- The reset input gives every piece of the engine its reset value, whatever the configuration (R54, R320). -/
theorem resetValues_afterReset (s : State) : ResetValues s.afterReset := by
  obtain ⟨hsize, hdlen, hclen⟩ := State.derived_zero s.validSpec_afterReset
  have hx : ∀ i, s.afterReset.getX i = 0 := fun i => by simp [State.getX, State.reset]
  have hp : ∀ k : PReg, s.afterReset.p[k] = .empty := fun k => by simp [State.reset]
  refine ⟨hx, fun k => ?_, fun _ _ => rfl, fun r c _ _ => Mat.get_reset r c, rfl, rfl, rfl, rfl, rfl, rfl, rfl, rfl, rfl,
    rfl, rfl, rfl, rfl, rfl, rfl, rfl, rfl, rfl, rfl, hsize, hdlen, hclen, rfl, State.csr_cap _⟩
  rw [hp]
  exact ⟨rfl, fun j => by simp⟩

/-! ## The step and the read port -/

/-- One step takes the host's next action (R20, R70). -/
theorem step_of_host {s : State} {a : HostAct} {rest : List HostAct} (h : s.host = a :: rest) :
    step s = hostAction a { s with host := rest } := by
  rw [step, hostStep, h]

/-- With no action pending the engine holds its state (R306). -/
theorem step_of_no_host {s : State} (h : s.host = []) : step s = .next s := by
  rw [step, hostStep, h]

/-- Indices 0x000 to 0x03F are the control and status registers (R51). -/
theorem readPort_csr (s : State) {i : BitVec 12} (h : i.toNat < 0x040) : s.readPort i = s.csr i.toNat := by
  rw [State.readPort, if_pos h]

/-- Indices 0x040 to 0x04F are the scalar registers (R51). -/
theorem readPort_x (s : State) {i : BitVec 12} {r : XReg} (h : i.toNat = 0x040 + r) :
    s.readPort i = (s.getX r).setWidth 32 := by
  have hreg : Fin.ofNat 16 (i.toNat - 0x040) = r := by simp [h]
  rw [State.readPort, if_neg (by omega), if_pos (by omega), hreg]

/-- Indices 0x050 to 0x057 are the lengths of the polynomial registers (R51). -/
theorem readPort_len (s : State) {i : BitVec 12} {k : PReg} (h : i.toNat = 0x050 + k) :
    (s.readPort i).toNat = (s.p[k]).len := by
  have hreg : Fin.ofNat 8 (i.toNat - 0x050) = k := by simp [h]
  have hlen : ((s.p[k]).len : Nat) < 33 := (s.p[k]).len.isLt
  rw [State.readPort, if_neg (by omega), if_neg (by omega), if_pos (by omega), BitVec.toNat_ofNat]
  simp only [hreg]
  omega

/-- Indices 0x058 to 0x0FF read 0 (R51). -/
theorem readPort_low_gap (s : State) {i : BitVec 12} (h1 : 0x058 ≤ i.toNat) (h2 : i.toNat < 0x100) :
    s.readPort i = 0 := by
  rw [State.readPort, if_neg (by omega), if_neg (by omega), if_neg (by omega), if_pos h2]

/-- Indices 0x100 to 0x1FF are the coefficients of the polynomial registers (R51). -/
theorem readPort_coef (s : State) {i : BitVec 12} {k : PReg} {j : Fin pcap} (h : i.toNat = 0x100 + 32 * k + j) :
    s.readPort i = ((s.p[k]).coef[j]).setWidth 32 := by
  have hj : (j : Nat) < 32 := j.isLt
  have hreg : Fin.ofNat 8 ((i.toNat - 0x100) / 32) = k := by ext; simp only [Fin.val_ofNat]; omega
  have hidx : (i.toNat - 0x100) % 32 = j := by omega
  rw [State.readPort, if_neg (by omega), if_neg (by omega), if_neg (by omega), if_neg (by omega), if_pos (by omega)]
  simp only [hreg, hidx]
  simp [coefAt]

/-- Indices from 0x200 on read 0 (R51). -/
theorem readPort_high_gap (s : State) {i : BitVec 12} (h : 0x200 ≤ i.toNat) : s.readPort i = 0 := by
  rw [State.readPort, if_neg (by omega), if_neg (by omega), if_neg (by omega), if_neg (by omega), if_neg (by omega)]

/-! ## The pairs that exist -/

/-- A full symbol has the levels L, M, Q and H; M1 none; M2 and M3 L and M; M4 L, M and Q (R55). -/
theorem validSpec_standardTables (v : Int) (e : Nat) : validSpec standardTables v e = true ↔
    (1 ≤ v ∧ v ≤ 40 ∧ (e = 1 ∨ e = 2 ∨ e = 3 ∨ e = 4)) ∨ (v = -3 ∧ e = 0) ∨ (v = -2 ∧ (e = 1 ∨ e = 2)) ∨
      (v = -1 ∧ (e = 1 ∨ e = 2)) ∨ (v = 0 ∧ (e = 1 ∨ e = 2 ∨ e = 3)) := by
  constructor
  · intro h
    rcases validSpec_cases h with ⟨i, j, rfl, rfl⟩ | h
    · omega
    · simp only [List.mem_cons, Prod.mk.injEq, List.not_mem_nil, or_false] at h
      omega
  · have full : ∀ (i : Fin 40) (j : Fin 4), validSpec standardTables ((i : Nat) + 1) (j + 1) = true := by decide
    rintro (⟨h1, h2, he⟩ | ⟨rfl, rfl⟩ | ⟨rfl, rfl | rfl⟩ | ⟨rfl, rfl | rfl⟩ | ⟨rfl, rfl | rfl | rfl⟩)
    · obtain ⟨i, rfl⟩ : ∃ i : Fin 40, v = (i : Nat) + 1 := ⟨⟨v.toNat - 1, by omega⟩, by simp only []; omega⟩
      obtain ⟨j, rfl⟩ : ∃ j : Fin 4, e = j + 1 := ⟨⟨e - 1, by omega⟩, by simp only []; omega⟩
      exact full i j
    all_goals decide

/-- No pair exists that the block table lacks (R55). -/
theorem validSpec_of_no_blocks {T : CfgTables} {v : Int} {e : Nat} (h : blockSpec? T v e = none) :
    validSpec T v e = false := by
  simp [validSpec, h]

theorem specFault_of_valid {T : CfgTables} {v : Int} {e : Nat} (h : validSpec T v e = true) :
    specFault T v e = none := by
  rw [specFault, if_pos h]

theorem specFault_of_invalid {T : CfgTables} {v : Int} {e : Nat} (h : validSpec T v e = false) :
    specFault T v e = some (if v < -3 ∨ 40 < v then .versionErr else .eclevelErr) := by
  rw [specFault, if_neg (by simp [h])]
  split <;> rfl

/-! ## What no meaning reads or writes

`FAULT`, `FAULTCMD` and `CMDCNT` belong to the end of a command (`finish`), and the model's own two fields to the host.  No
meaning reads or writes one of the five: its answer carries over to a state with other values there. -/

/-- The five fields that no meaning reads or writes. -/
structure Control where
  fault : Option FaultCode
  faultcmd : Word
  cmdcnt : Word
  host : List HostAct
  hostData : Word

/-- The state with these values in the five fields. -/
def State.withControl (k : Control) (s : State) : State :=
  { s with fault := k.fault, faultcmd := k.faultcmd, cmdcnt := k.cmdcnt, host := k.host, hostData := k.hostData }

/-- The values of the five fields. -/
def State.control (s : State) : Control := ⟨s.fault, s.faultcmd, s.cmdcnt, s.host, s.hostData⟩

/-- `r'` is `r` with the change `g` made to the state that it completes with. -/
def Carries (g : State → State) (r r' : Except FaultCode State) : Prop := r' = r.map g

section
variable {g : State → State} {r r' : Except FaultCode State} {k : Control} {s : State}

theorem Carries.ok (t : State) : Carries g (.ok t) (.ok (g t)) := rfl

theorem Carries.error (c : FaultCode) : Carries g (.error c) (.error c) := rfl

theorem Carries.faultIf {b : Bool} {c : FaultCode} (h : Carries g r r') :
    Carries g (faultIf b c r) (faultIf b c r') := by
  cases b
  · exact h
  · exact .error c

theorem Carries.requirePhase {b : Bool} (h : Carries g r r') : Carries g (requirePhase b r) (requirePhase b r') := by
  cases b
  · exact .error .badPhase
  · exact h

theorem Carries.ite {p : Prop} [Decidable p] {q q' : Except FaultCode State} (h : Carries g r r') (h' : Carries g q q') :
    Carries g (if p then r else q) (if p then r' else q') := by
  split
  · exact h
  · exact h'

/-- A range-checked read of `BUF` and what is done with the bytes. -/
theorem Carries.bind {m : Except FaultCode (List Byte)} {f f' : List Byte → Except FaultCode State}
    (h : ∀ l, Carries g (f l) (f' l)) : Carries g (m.bind f) (m.bind f') := by
  cases m
  · exact .error _
  · exact h _

/-- A further change to the state that commutes with the first. -/
theorem Carries.map {f f' : State → State} (h : Carries g r r') (hf : ∀ t, f' (g t) = g (f t)) :
    Carries g (r.map f) (r'.map f') := by
  unfold Carries at h
  subst h
  cases r
  · exact .error _
  · exact congrArg Except.ok (hf _)

theorem Carries.bindState {f f' : State → Except FaultCode State} (h : Carries g r r')
    (hf : ∀ t, Carries g (f t) (f' (g t))) :
    Carries g (r.bind f) (r'.bind f') := by
  unfold Carries at h
  subst h
  cases r
  · exact .error _
  · exact hf _

theorem Carries.setP (p : PReg) (l : List Byte) :
    Carries (State.withControl k) (s.setP p l) ((s.withControl k).setP p l) := .ite (.ok _) (.error _)

theorem Carries.memWrite (a : Nat) (l : List Byte) :
    Carries (State.withControl k) (s.memWrite a l) ((s.withControl k).memWrite a l) := .ite (.error _) (.ok _)

end

theorem withControl_specFault (k : Control) (s : State) : (s.withControl k).specFault = s.specFault := rfl

/-- The search for the best mask reads none of the five fields (R262). -/
theorem searchFrom_withControl (k : Control) (s : State) (fuel i : Nat) (best : Nat × Scores) :
    searchFrom (s.withControl k) fuel i best = searchFrom s fuel i best := by
  induction fuel generalizing i best with
  | zero => rfl
  | succ fuel ih => exact ih ..

theorem bestMask_withControl (k : Control) (s : State) : bestMask (s.withControl k) = bestMask s :=
  searchFrom_withControl ..

/-- Every command is `finish` of an answer that carries over to other values of the five fields. -/
theorem exec_carries (i : Instr) (s : State) : ∃ r, exec i s = finish i s r ∧
    ∀ k, ∃ r', exec i (s.withControl k) = finish i (s.withControl k) r' ∧ Carries (State.withControl k) r r' := by
  cases i <;> dsimp only [exec] <;> refine ⟨_, rfl, fun k => ⟨_, rfl, ?_⟩⟩
  case nop | gfLi | gfMv | gfExp | gfAdd | gfMul | pEval | pDeg => exact .ok _
  case gfInv | gfLog | gfDiv | ldb | stb | ldbx | stbx | pGetc => exact .faultIf (.ok _)
  case cfgSet c imm =>
    refine .requirePhase ?_
    cases c with
    | version => exact .faultIf (.faultIf (.ok _))
    | ecl | maskreq | dcount => exact .faultIf (.ok _)
  case pClr | pMv | pAdd | pScale | pMul | pDeriv => exact .setP _ _
  case pSetc | pMod | pShl => exact .faultIf (.setP _ _)
  case pLd | rsEnc => exact .faultIf (.bind fun _ => .setP _ _)
  case pSt => exact .memWrite _ _
  case rsGen => exact .ite (.map (.setP _ _) fun _ => rfl) (.error _)
  case ecBuild =>
    rw [withControl_specFault]
    split
    · exact .error _
    · exact .faultIf (.faultIf (.bind fun _ => .bindState (.memWrite _ _) fun _ => .bindState (.setP _ _) fun _ =>
        .map (.setP _ _) fun _ => rfl))
  case rsSyn => exact .faultIf (.faultIf (.bind fun _ => .map (.setP _ _) fun _ => rfl))
  case rsBm | rsChien => exact .faultIf (.faultIf (.map (.setP _ _) fun _ => rfl))
  case rsOmega => exact .faultIf (.faultIf (.setP _ _))
  case rsForney => exact .faultIf (.map (.setP _ _) fun _ => rfl)
  case rsFix => exact .faultIf (.faultIf (.faultIf (.faultIf (.ok _))))
  case matAlloc =>
    rw [withControl_specFault]
    refine .requirePhase ?_
    split
    · exact .error _
    · exact .ok _
  case matStamp | maskScore | fmtWrite => exact .requirePhase (.ok _)
  case matPlace => exact .requirePhase (.bind fun _ => .ok _)
  case matRd | maskApply => exact .requirePhase (.faultIf (.ok _))
  case maskSelect =>
    rw [bestMask_withControl]
    exact .requirePhase (.ite (.faultIf (.ok _)) (.ok _))

/-- What a command does with any values of the five fields: either it completes with a state that keeps them, and is
counted, or it raises one fault, the same one for all of them (R11, R48, R291). -/
theorem exec_withControl (i : Instr) (s : State) :
    (∃ u : State, u.control = s.control ∧
      ∀ k, exec i (s.withControl k) = .next (countCommand (s.withControl k) (u.withControl k))) ∨
    ∃ c, ∀ k, exec i (s.withControl k) = .next (raiseFault c (encode i) (s.withControl k)) := by
  obtain ⟨r, -, hr⟩ := exec_carries i s
  cases r with
  | ok u =>
    refine .inl ⟨u.withControl s.control, rfl, fun k => ?_⟩
    obtain ⟨_, he, rfl⟩ := hr k
    exact he
  | error c =>
    refine .inr ⟨c, fun k => ?_⟩
    obtain ⟨_, he, rfl⟩ := hr k
    exact he

/-- A command completes and is counted, or it raises a fault and is not (R48). -/
theorem exec_cmdcnt {i : Instr} {s t : State} (hs : s.fault = none) (h : exec i s = .next t) :
    t.cmdcnt = if t.fault = none then s.cmdcnt + 1 else s.cmdcnt := by
  rcases exec_withControl i s with ⟨u, hu, he⟩ | ⟨c, he⟩
  · obtain rfl := Host.Outcome.next.inj ((he s.control).symm.trans h)
    exact (if_pos hs).symm
  · obtain rfl := Host.Outcome.next.inj ((he s.control).symm.trans h)
    rfl

/-- A command word given to an engine that is not halted (R48, R291). -/
theorem issueCommand_cmdcnt {w : Word} {s t : State} (hs : s.fault = none) (h : issueCommand w s = .next t) :
    t.cmdcnt = if t.fault = none then s.cmdcnt + 1 else s.cmdcnt := by
  rw [issueCommand, if_neg (by simp [hs])] at h
  split at h
  · exact exec_cmdcnt hs h
  · cases h
    rfl

/-- A halted engine ignores a command word (R291). -/
theorem issueCommand_halted {w : Word} {s : State} (hs : s.fault ≠ none) : issueCommand w s = .next s :=
  if_pos (Option.isSome_iff_ne_none.2 hs)

/-- No action but reset and the command of an engine that is not halted changes `CMDCNT` (R48). -/
theorem hostAction_keeps_cmdcnt {a : HostAct} {s t : State} (hcmd : s.fault ≠ none ∨ ¬ ∃ w, a = .command w)
    (hreset : a ≠ .reset) (h : hostAction a s = .next t) : t.cmdcnt = s.cmdcnt := by
  cases a with
  | command w =>
    have hs : s.fault ≠ none := hcmd.resolve_right fun hn => hn ⟨w, rfl⟩
    cases (issueCommand_halted hs).symm.trans h
    rfl
  | reset => exact absurd rfl hreset
  | writeBuf | readBuf | readMat | readPort =>
    cases h
    rfl

/-- A command run with another `CMDCNT` leaves the same state but for `CMDCNT` (R48). -/
theorem exec_ignores_cmdcnt (i : Instr) (s : State) (n : Word) :
    ∃ t m, exec i s = .next t ∧ exec i { s with cmdcnt := n } = .next { t with cmdcnt := m } := by
  have hn : ({ s with cmdcnt := n } : State) = s.withControl { s.control with cmdcnt := n } := rfl
  rw [hn]
  rcases exec_withControl i s with ⟨u, -, he⟩ | ⟨c, he⟩
  · exact ⟨_, _, he s.control, he _⟩
  · exact ⟨_, _, he s.control, he _⟩

/-! ## Bounds on the penalty terms (R47) -/

/-- The points of a sum over a list are bounded by the bound of one entry, times their number. -/
theorem sum_map_le {α : Type} {l : List α} {f : α → Nat} {b : Nat} (h : ∀ a ∈ l, f a ≤ b) :
    (l.map f).sum ≤ l.length * b := by
  simpa using List.sum_le_card_nsmul (l.map f) b (by simpa using h)

/-- A square grid: `n` rows of `n` values. -/
def SquareGrid (g : List (List Bool)) (n : Nat) : Prop := g.length = n ∧ ∀ row ∈ g, row.length = n

theorem squareGrid_valueGrid (m : Mat) {n : Nat} (h : n ≤ nmax) : SquareGrid (valueGrid m n) n :=
  ⟨length_valueGrid m h, fun _ => length_row_valueGrid m h⟩

theorem length_gridLines {g : List (List Bool)} {n : Nat} (h : SquareGrid g n) : (gridLines g n).length = 2 * n := by
  obtain ⟨hg, -⟩ := h
  simp only [gridLines, gridColumns, List.length_append, List.length_map, List.length_range, hg]
  omega

/-- Every row and every column has `n` values. -/
theorem length_of_mem_gridLines {g : List (List Bool)} {n : Nat} (h : SquareGrid g n) {line : List Bool}
    (hl : line ∈ gridLines g n) : line.length = n := by
  obtain ⟨hg, hrow⟩ := h
  rcases List.mem_append.1 hl with hl | hl
  · exact hrow line hl
  · obtain ⟨c, -, rfl⟩ := List.mem_map.1 hl
    rw [List.length_map, hg]

/-- With weight 3 a line has at most two points less than modules: one run over the rest of the line is the worst. -/
theorem lineRuns_le (prev : Bool) (run : Nat) (l : List Bool) : lineRuns 3 prev run l ≤ run + l.length - 2 := by
  have hrun : ∀ k, runPoints 3 k ≤ k - 2 := fun k => by unfold runPoints; split <;> omega
  induction l generalizing prev run with
  | nil => exact hrun run
  | cons b l ih =>
    have hr := hrun run
    have same := ih prev (run + 1)
    have other := ih b 1
    rw [lineRuns, List.length_cons]
    split <;> omega

theorem lineN1_le (l : List Bool) : lineN1 3 l ≤ l.length - 2 := by
  cases l with
  | nil => exact Nat.zero_le _
  | cons b l => simpa [lineN1, Nat.add_comm] using lineRuns_le b 1 l

/-- Two adjacent rows hold at most one block less than modules (R257). -/
theorem rowPairBlocks_le (row row' : List Bool) : rowPairBlocks row row' ≤ row.length - 1 := by
  fun_induction rowPairBlocks row row' with
  | case1 a a' r b b' t ih =>
    simp only [List.length_cons] at ih ⊢
    split <;> omega
  | case2 => exact Nat.zero_le _

theorem gridBlocks_le {g : List (List Bool)} {n : Nat} (h : ∀ row ∈ g, row.length = n) :
    gridBlocks g ≤ (g.length - 1) * (n - 1) := by
  fun_induction gridBlocks g with
  | case1 row row' g ih =>
    have hpair := rowPairBlocks_le row row'
    rw [h row List.mem_cons_self] at hpair
    have hrest := ih fun r hr => h r (List.mem_cons_of_mem _ hr)
    simp only [List.length_cons, Nat.add_sub_cancel] at hrest ⊢
    rw [Nat.add_mul _ 1, Nat.one_mul]
    omega
  | case2 => exact Nat.zero_le _

/-- A finder-like pattern is seven modules long, so six positions of a line start none (R258). -/
theorem lineFinders_le (s : List Bool) : lineFinders s ≤ s.length - 6 := by
  simpa [lineFinders] using List.countP_le_length (p := finderAt s) (l := List.range (s.length - 6))

/-- With weight 10 the imbalance is at most 100 points, at all dark or all light (R259). -/
theorem balancePoints_le {dark total : Nat} (h : dark ≤ total) : balancePoints 10 dark total ≤ 100 := by
  have hdist : (2 * (dark : Int) - total).natAbs ≤ total := by omega
  have hsteps : 10 * (2 * (dark : Int) - total).natAbs / total ≤ 10 :=
    Nat.div_le_of_le_mul (by rw [Nat.mul_comm total]; exact Nat.mul_le_mul_left 10 hdist)
  exact Nat.mul_le_mul_left 10 hsteps

/-- A grid has at most `n * n` dark modules. -/
theorem dark_le {g : List (List Bool)} {n : Nat} (h : SquareGrid g n) :
    (g.map fun row => row.count true).sum ≤ n * n := by
  obtain ⟨hg, hrow⟩ := h
  calc (g.map fun row => row.count true).sum ≤ g.length * n :=
        sum_map_le fun row hr => hrow row hr ▸ List.count_le_length
    _ = n * n := by rw [hg]

/-- The four terms of a full symbol of side `n` with the default weights (R47). -/
theorem fullTerms_le {g : List (List Bool)} {n : Nat} (h : SquareGrid g n) :
    (fullTerms standardTables g n).1 ≤ 2 * n * (n - 2) ∧
    (fullTerms standardTables g n).2.1 ≤ 3 * ((n - 1) * (n - 1)) ∧
    (fullTerms standardTables g n).2.2.1 ≤ 40 * (2 * n * (n - 6)) ∧
    (fullTerms standardTables g n).2.2.2 ≤ 100 := by
  have hlines := length_gridLines h
  refine ⟨?_, Nat.mul_le_mul_left 3 ?_, Nat.mul_le_mul_left 40 ?_, balancePoints_le (dark_le h)⟩
  · exact hlines ▸ sum_map_le fun l hl => length_of_mem_gridLines h hl ▸ lineN1_le l
  · obtain ⟨hg, hrow⟩ := h
    simpa [hg] using gridBlocks_le hrow
  · exact hlines ▸ sum_map_le fun l hl => length_of_mem_gridLines h hl ▸ lineFinders_le l

/-! ## Bounds on the Micro score (R47) -/

theorem rightDark_le {g : List (List Bool)} {n : Nat} (h : SquareGrid g n) : rightDark g n 0 ≤ n := by
  obtain ⟨hg, -⟩ := h
  exact hg ▸ List.countP_le_length

theorem bottomDark_le {g : List (List Bool)} {n : Nat} (h : SquareGrid g n) : bottomDark g n 0 ≤ n := by
  obtain ⟨hg, hrow⟩ := h
  have hlen : (g.getD (n - 1) []).length ≤ n := by
    by_cases hn : n - 1 < g.length
    · rw [List.getD_eq_getElem _ _ hn, hrow _ (List.getElem_mem hn)]
    · rw [List.getD_eq_default _ _ (Nat.not_lt.1 hn)]
      exact Nat.zero_le n
  exact Nat.le_trans List.count_le_length hlen

/-- The side of a symbol is at most that of version 40 (R27, R56). -/
theorem symbolSize_le {v : Int} (h : v ≤ 40) : symbolSize v ≤ nmax := by
  unfold symbolSize nmax
  split <;> omega

/-- The side of a Micro symbol is at most that of M4 (R56). -/
theorem symbolSize_le_of_micro {v : Int} (h : v < 1) : symbolSize v ≤ 17 := by
  unfold symbolSize
  split <;> omega

/-- The score register of a Micro symbol under `doc` (R261). -/
theorem scoresOf_micro_doc {cfg : Config} {v : Int} (m : Mat) (hv : v < 1) (hdoc : cfg.microScore = .doc) :
    (scoresOf cfg v m).score = BitVec.ofNat 32 (16 * rightDark (valueGrid m (symbolSize v)) (symbolSize v) 0 +
      bottomDark (valueGrid m (symbolSize v)) (symbolSize v) 0) := by
  simp [scoresOf, isMicro, hv, microScores, hdoc]

end Sys2Proof.Machine

namespace Sys2Proof.Proofs

open Sys2Proof.Machine

/-- Settles O8: the reset input gives every reset value, and `State.reset` is what it gives in the default
configuration with no action pending. -/
theorem reset : Obligations.Reset :=
  ⟨resetValues_afterReset State.reset, fun s rest h =>
    ⟨_, step_of_host h, resetValues_afterReset { s with host := rest }, rfl⟩⟩

/-- Settles O9, by the range of the table of R51 that an index falls in. -/
theorem readPort : Obligations.ReadPort :=
  ⟨fun _ _ _ h => step_of_host h, fun s => ⟨fun _ => readPort_csr s, fun _ _ => readPort_x s, fun _ _ => readPort_len s,
    fun _ => readPort_low_gap s, fun _ _ _ => readPort_coef s, fun _ => readPort_high_gap s⟩⟩

/-- Settles O39, from the list of the pairs that exist with the default tables. -/
theorem validPairs : Obligations.ValidPairs :=
  ⟨validSpec_standardTables, fun _ _ _ => ⟨validSpec_of_no_blocks, specFault_of_valid, specFault_of_invalid⟩⟩

/-- Settles O12: a command is counted when it completes, which keeps `FAULT`, and no meaning reads the count. -/
theorem commandCount : Obligations.CommandCount := by
  refine ⟨rfl, fun _ => rfl, ?_, ?_, exec_ignores_cmdcnt⟩
  · rintro s t hs ⟨w, rest, hh⟩ hstep
    exact issueCommand_cmdcnt (s := { s with host := rest }) hs ((step_of_host hh).symm.trans hstep)
  · intro s t hcmd hreset hstep
    match hh : s.host with
    | [] =>
      cases (step_of_no_host hh).symm.trans hstep
      rfl
    | a :: rest =>
      refine hostAction_keeps_cmdcnt (s := { s with host := rest }) (hcmd.imp_right ?_) ?_
        ((step_of_host hh).symm.trans hstep)
      · rintro h ⟨w, rfl⟩
        exact h ⟨w, rest, hh⟩
      · rintro rfl
        exact hreset (by rw [hh]; rfl)

/-- Settles O57, from the bounds for a symbol of side `n` at the largest sides: 177 of a full and 17 of a Micro
symbol. -/
theorem scoreBounds : Obligations.ScoreBounds := by
  intro v m cfg _ hv
  have hside := symbolSize_le hv
  have hsquare := squareGrid_valueGrid m hside
  constructor
  · intro _
    obtain ⟨h1, h2, h3, h4⟩ := fullTerms_le hsquare
    refine ⟨h1.trans ?_, h2.trans ?_, h3.trans ?_, h4⟩
    · exact Nat.mul_le_mul (Nat.mul_le_mul_left 2 hside) (Nat.sub_le_sub_right hside 2)
    · exact Nat.mul_le_mul_left 3 (Nat.mul_le_mul (Nat.sub_le_sub_right hside 1) (Nat.sub_le_sub_right hside 1))
    · exact Nat.mul_le_mul_left 40 (Nat.mul_le_mul (Nat.mul_le_mul_left 2 hside) (Nat.sub_le_sub_right hside 6))
  · intro hmicro hdoc
    have h17 := symbolSize_le_of_micro hmicro
    have hn1 := rightDark_le hsquare
    have hn2 := bottomDark_le hsquare
    rw [scoresOf_micro_doc m hmicro hdoc, BitVec.toNat_ofNat]
    constructor <;> omega

end Sys2Proof.Proofs
end

section
/-! The statement about the host's windows on `BUF` and `MAT` (20_memory.md, R62, R63, R71). -/

namespace Sys2Proof.Machine

/-- The number of a module has three bits (R63). -/
theorem Module.code_lt (v : Module) : v.code < 8 := by
  obtain ⟨cls, val⟩ := v
  cases cls <;> cases val <;> decide

/-- A `MAT` window read answers the number of the cell (R63). -/
theorem State.matWindow_toNat (s : State) (r c : Fin nmax) : (s.matWindow r c).toNat = (s.mat.get r c).code := by
  have hcode := (s.mat.get r c).code_lt
  rw [State.matWindow, BitVec.toNat_ofNat, Nat.mod_eq_of_lt (by omega)]

/-- A write through the `BUF` window changes the one byte it names; with it the host's action is used up (R62). -/
theorem frame_writeBufWindow {s : State} (h : Memory.wf s.buf) (a : BitVec 13) (v : Byte) (rest : List HostAct) :
    Frame (only [.byte a.toNat, .host]) s (State.writeBufWindow { s with host := rest } a v) := by
  intro q hq
  cases q
  case byte b =>
    have hb : b ≠ a.toNat := by
      rintro rfl
      exact hq List.mem_cons_self
    exact Memory.read_write_other h hb v
  case host => exact absurd (List.mem_cons_of_mem _ List.mem_cons_self) hq
  all_goals rfl

/-- A read answers in `hostData` and changes no other piece; with it the host's action is used up (R51, R62, R63). -/
theorem frame_hostRead (s : State) (rest : List HostAct) (answer : Word) :
    Frame (only [.host, .hostData]) s { s with host := rest, hostData := answer } := by
  intro q hq
  cases q
  case host => exact absurd List.mem_cons_self hq
  case hostData => exact absurd (List.mem_cons_of_mem _ List.mem_cons_self) hq
  all_goals rfl

end Sys2Proof.Machine

namespace Sys2Proof.Proofs

open Sys2Proof.Machine

/-- Settles O11: a step takes the host's action, a write sets the one byte of `BUF` that it names, and a read sets only
the answer. -/
theorem hostWindows : Obligations.HostWindows := by
  refine ⟨fun s a v rest hwf hh => ?_, fun s a rest hh => step_of_host hh, fun s r c rest hh => ?_⟩
  · exact ⟨_, step_of_host hh, Memory.read_write_same hwf a.toNat v, rfl, frame_writeBufWindow hwf a v rest⟩
  · refine ⟨_, step_of_host hh, frame_hostRead s rest _, rfl, ?_⟩
    rw [State.matWindow_toNat, Module.code, Bool.toNat, Bool.cond_eq_ite]

end Sys2Proof.Proofs
end

section
/-! The statement about the opcodes of the decode commands without `HAS_RSDEC` (30_encoding.md, R97). -/

namespace Sys2Proof.Machine

/-- Without `HAS_RSDEC` the decoder refuses every word with the opcode of a decode command, before it looks at the
operand bits (R97). -/
theorem decode_extensionAbsent {w : Word} (hlo : 0x38 ≤ opcodeOf w) (hhi : opcodeOf w ≤ 0x3D) :
    decode false w = .error .extensionAbsent := by
  have hop : opcodeOf w = 0x38 ∨ opcodeOf w = 0x39 ∨ opcodeOf w = 0x3A ∨ opcodeOf w = 0x3B ∨ opcodeOf w = 0x3C ∨
      opcodeOf w = 0x3D := by omega
  unfold decode
  rcases hop with h | h | h | h | h | h <;> rw [h] <;> rfl

/-- An illegal word halts an engine that is not halted with `ILLEGAL_CMD` (R291). -/
theorem issueCommand_illegal {w : Word} {s : State} {e : Illegal} (hs : s.fault = none)
    (h : decode s.cfg.hasRsdec w = .error e) :
    issueCommand w s = .next { s with fault := some .illegalCmd, faultcmd := w } := by
  rw [issueCommand, if_neg (by simp [hs]), h]
  rfl

/-- A command of the decode extension raises `ILLEGAL_CMD` without `HAS_RSDEC` (R97, R200). -/
theorem finish_requireRsdec_absent {s : State} (h : s.cfg.hasRsdec = false) (i : Instr) (r : Except FaultCode State) :
    finish i s (requireRsdec s r) = .next (raiseFault .illegalCmd (encode i) s) := by
  rw [requireRsdec, h]
  rfl

end Sys2Proof.Machine

namespace Sys2Proof.Proofs

open Sys2Proof.Machine

/-- Settles O5: the opcode alone makes the decoder refuse the word, and `requireRsdec` is the first check of each of the
six commands. -/
theorem decodeOpcodesNeedRsdec : Obligations.DecodeOpcodesNeedRsdec := by
  refine ⟨fun w hlo hhi => ?_, fun s len addr h => ?_⟩
  · have hdec := decode_extensionAbsent hlo hhi
    exact ⟨⟨_, hdec⟩, fun s hcfg hs => issueCommand_illegal hs (hcfg ▸ hdec)⟩
  · have absent := finish_requireRsdec_absent h
    exact ⟨absent _ _, absent _ _, absent _ _, absent _ _, absent _ _, absent _ _⟩

end Sys2Proof.Proofs
end

section
/-! The statement about the field: its laws for the modulus 0x11D (41_gf_arithmetic.md, R120 to R125, R146).

The loop of `gfMul` runs over the bits of its second factor, and it commutes with the multiplication by alpha of its first.
So the product by `alpha^i` is `i` multiplications by alpha, and as every nonzero byte is a power of alpha, the laws of the
product are laws of exponents. -/

namespace Sys2Proof.Machine

open Function

/-! ## Multiplication by alpha and the product, for any modulus

The literals of the `simp` lemmas stand as `simp` writes them, `0#8` and `1#8`. -/

section
variable (m : BitVec 9) (a b c : Byte)

/-- A sum of two values, to each of which `v` is added or not, has `v` added exactly when one of them has it. -/
theorem ite_xor_ite (p q : Bool) (r r' v : Byte) :
    (if p ^^ q then r ^^^ r' ^^^ v else r ^^^ r') = (if p then r ^^^ v else r) ^^^ if q then r' ^^^ v else r' := by
  cases p <;> cases q
  case false.false => rfl
  case false.true => exact BitVec.xor_assoc r r' v
  case true.false => exact (by ac_rfl : r ^^^ r' ^^^ v = r ^^^ v ^^^ r')
  case true.true =>
    calc r ^^^ r'
      _ = r ^^^ r' ^^^ (v ^^^ v) := by rw [BitVec.xor_self, BitVec.xor_zero]
      _ = r ^^^ v ^^^ (r' ^^^ v) := by ac_rfl

/-- The bit that the shift drops chooses whether the modulus is subtracted (R122). -/
theorem xtime_eq : xtime m a = if a.msb then a <<< 1 ^^^ m.setWidth 8 else a <<< 1 := by
  have htop : 0x100 ≤ (a.setWidth 9 <<< 1).toNat ↔ a.msb = true := by
    have ha := a.isLt
    simp only [BitVec.msb_eq_decide, BitVec.toNat_shiftLeft, BitVec.toNat_setWidth, Nat.shiftLeft_eq, decide_eq_true_eq]
    omega
  have hlow : (a.setWidth 9 <<< 1).setWidth 8 = a <<< 1 := by
    apply BitVec.eq_of_toNat_eq
    simp only [BitVec.toNat_shiftLeft, BitVec.toNat_setWidth, Nat.shiftLeft_eq]
    omega
  simp only [xtime, htop, BitVec.setWidth_xor, hlow]

@[simp] theorem xtime_zero : xtime m 0#8 = 0#8 := by
  simp [xtime_eq]

theorem xtime_xor : xtime m (a ^^^ b) = xtime m a ^^^ xtime m b := by
  simp only [xtime_eq, BitVec.shiftLeft_xor_distrib, BitVec.msb_xor, ite_xor_ite]

theorem gfMulLoop_zero (k : Nat) (r : Byte) : gfMulLoop m k b 0#8 r = r := by
  induction k generalizing b with
  | zero => rfl
  | succ k ih => simp [gfMulLoop, ih]

/-- The loop commutes with the multiplication of the running factor and of the sum by alpha. -/
theorem gfMulLoop_xtime (k : Nat) (t r : Byte) :
    gfMulLoop m k b (xtime m t) (xtime m r) = xtime m (gfMulLoop m k b t r) := by
  induction k generalizing b t r with
  | zero => rfl
  | succ k ih =>
    rw [gfMulLoop, gfMulLoop, ← ih]
    split <;> simp [xtime_xor]

/-- The loop over the bits of a sum gives the sum of the two loops. -/
theorem gfMulLoop_xor (k : Nat) (t r r' : Byte) :
    gfMulLoop m k (b ^^^ c) t (r ^^^ r') = gfMulLoop m k b t r ^^^ gfMulLoop m k c t r' := by
  induction k generalizing b c t r r' with
  | zero => rfl
  | succ k ih =>
    rw [gfMulLoop, gfMulLoop, gfMulLoop, ← ih, BitVec.ushiftRight_xor_distrib, BitVec.getLsbD_xor, ite_xor_ite]

@[simp] theorem zero_gfMul : gfMul m 0#8 b = 0#8 := gfMulLoop_zero m b 8 0

theorem gfMul_xor : gfMul m a (b ^^^ c) = gfMul m a b ^^^ gfMul m a c := gfMulLoop_xor m b c 8 a 0 0

@[simp] theorem gfMul_zero : gfMul m a 0#8 = 0#8 := by
  simpa using gfMul_xor m a 0 0

@[simp] theorem gfMul_one : gfMul m a 1#8 = a := by
  simp [gfMul, gfMulLoop]

theorem xtime_gfMul : gfMul m (xtime m a) b = xtime m (gfMul m a b) := by
  simpa [gfMul] using gfMulLoop_xtime m b 8 a 0#8

theorem iterate_xtime_gfMul (i : Nat) : gfMul m ((xtime m)^[i] a) b = (xtime m)^[i] (gfMul m a b) :=
  Semiconj.iterate_right (f := (gfMul m · b)) (fun a => xtime_gfMul m a b) i a

end

/-- The powers of alpha are the iterates of the multiplication by alpha from 1 on (R123). -/
theorem alphaPow_eq_iterate (m : BitVec 9) (i : Nat) : alphaPow m i = (xtime m)^[i] 1 := by
  induction i with
  | zero => rfl
  | succ i ih => rw [alphaPow, ih, iterate_succ_apply']

/-- The search for the logarithm, started at index `i`, finds a power that lies within its fuel (R124). -/
theorem gfLogFrom_spec {m : BitVec 9} {a : Byte} {fuel i k : Nat} (hk : k < fuel) (h : alphaPow m (i + k) = a) :
    gfLogFrom m fuel i (alphaPow m i) a < i + fuel ∧ alphaPow m (gfLogFrom m fuel i (alphaPow m i) a) = a := by
  induction fuel generalizing i k with
  | zero => omega
  | succ fuel ih =>
    rw [gfLogFrom]
    split
    next hit => exact ⟨by omega, hit⟩
    next miss =>
      cases k with
      | zero => exact absurd h miss
      | succ k =>
        obtain ⟨hlt, heq⟩ := ih (i := i + 1) (k := k) (by omega) (by rw [← h]; congr 1; omega)
        exact ⟨by rw [alphaPow] at hlt; omega, heq⟩

/-! ## The powers of alpha for the modulus 0x11D -/

theorem one_gfMul : ∀ b : Byte, gfMul 0x11D 1 b = b := by decide

/-- The product by `alpha^i` is `i` multiplications by alpha. -/
theorem alphaPow_gfMul (i : Nat) (b : Byte) : gfMul 0x11D (alphaPow 0x11D i) b = (xtime 0x11D)^[i] b := by
  rw [alphaPow_eq_iterate, iterate_xtime_gfMul, one_gfMul]

theorem alphaPow_add (i j : Nat) : alphaPow 0x11D (i + j) = gfMul 0x11D (alphaPow 0x11D i) (alphaPow 0x11D j) := by
  rw [alphaPow_gfMul, alphaPow_eq_iterate, alphaPow_eq_iterate, iterate_add_apply]

/-- Alpha has order 255: its power 255 is 1, and the power of no smaller divisor of 255 is. -/
theorem minimalPeriod_xtime : minimalPeriod (xtime 0x11D) 1 = 255 := by
  have hper : ∀ d, IsPeriodicPt (xtime 0x11D) d 1 ↔ alphaPow 0x11D d = 1 := fun d => by
    rw [alphaPow_eq_iterate]; rfl
  have hdvd : minimalPeriod (xtime 0x11D) 1 ∣ 255 := ((hper 255).2 (by decide +kernel)).minimalPeriod_dvd
  have hpow := (hper _).1 (isPeriodicPt_minimalPeriod (xtime 0x11D) 1)
  have hdiv : ∀ d ∈ Nat.divisors 255, alphaPow 0x11D d = 1 → d = 255 := by decide +kernel
  exact hdiv _ (Nat.mem_divisors.2 ⟨hdvd, by decide⟩) hpow

/-- The reduction of the exponent modulo 255 does not change the power (R123). -/
theorem gfExp_eq_alphaPow (e : Nat) : gfExp 0x11D e = alphaPow 0x11D e := by
  rw [gfExp, alphaPow_eq_iterate, alphaPow_eq_iterate, ← minimalPeriod_xtime, iterate_mod_minimalPeriod_eq]

theorem alphaPow_eq_one_iff (e : Nat) : alphaPow 0x11D e = 1 ↔ 255 ∣ e := by
  rw [alphaPow_eq_iterate, ← minimalPeriod_xtime]
  exact isPeriodicPt_iff_minimalPeriod_dvd

theorem alphaPow_inj {i j : Nat} (hi : i < 255) (hj : j < 255) (h : alphaPow 0x11D i = alphaPow 0x11D j) : i = j := by
  rw [alphaPow_eq_iterate, alphaPow_eq_iterate] at h
  rw [← minimalPeriod_xtime] at hi hj
  exact (iterate_eq_iterate_iff_of_lt_minimalPeriod hi hj).1 h

/-- Multiplied by another power of alpha it gives the power `255 * i`, which is 1. -/
theorem alphaPow_ne_zero (i : Nat) : alphaPow 0x11D i ≠ 0 := by
  intro h
  have hone : alphaPow 0x11D (i + 254 * i) = 1 := (alphaPow_eq_one_iff _).2 ⟨i, by omega⟩
  rw [alphaPow_add, h] at hone
  exact absurd ((zero_gfMul 0x11D _).symm.trans hone) (by decide)

/-- The 255 different powers of alpha are all 255 nonzero bytes. -/
theorem exists_alphaPow {a : Byte} (ha : a ≠ 0) : ∃ i < 255, alphaPow 0x11D i = a := by
  have hpos : ∀ {b : Byte}, b ≠ 0 → 1 ≤ b.toNat := fun hb => by bv_omega
  have hmaps : Set.MapsTo (fun i => (alphaPow 0x11D i).toNat) (Finset.range 255) (Finset.Ico 1 256) := fun i _ =>
    Finset.mem_Ico.2 ⟨hpos (alphaPow_ne_zero i), (alphaPow 0x11D i).isLt⟩
  have hinj : Set.InjOn (fun i => (alphaPow 0x11D i).toNat) (Finset.range 255) := fun i hi j hj h =>
    alphaPow_inj (Finset.mem_range.1 hi) (Finset.mem_range.1 hj) (BitVec.eq_of_toNat_eq h)
  obtain ⟨i, hi, heq⟩ := Finset.surjOn_of_injOn_of_card_le _ hmaps hinj (by simp)
    (Finset.mem_Ico.2 ⟨hpos ha, a.isLt⟩)
  exact ⟨i, Finset.mem_range.1 hi, BitVec.eq_of_toNat_eq heq⟩

/-! ## The laws for the modulus 0x11D -/

theorem gfLog_spec {a : Byte} (ha : a ≠ 0) : gfLog 0x11D a < 255 ∧ alphaPow 0x11D (gfLog 0x11D a) = a := by
  obtain ⟨i, hi, h⟩ := exists_alphaPow ha
  simpa [gfLog, alphaPow] using gfLogFrom_spec (i := 0) hi (by rwa [Nat.zero_add])

theorem gfLog_gfExp (e : Nat) : gfLog 0x11D (gfExp 0x11D e) = e % 255 := by
  obtain ⟨hlt, heq⟩ := gfLog_spec (alphaPow_ne_zero (e % 255))
  exact alphaPow_inj hlt (Nat.mod_lt e (by decide)) heq

theorem gfMul_gfInv {a : Byte} (ha : a ≠ 0) : gfMul 0x11D a (gfInv 0x11D a) = 1 := by
  obtain ⟨hlt, heq⟩ := gfLog_spec ha
  rw [gfInv, gfExp, Nat.mod_mod, ← gfExp, gfExp_eq_alphaPow]
  calc gfMul 0x11D a (alphaPow 0x11D (255 - gfLog 0x11D a))
    _ = alphaPow 0x11D (gfLog 0x11D a + (255 - gfLog 0x11D a)) := by rw [alphaPow_add, heq]
    _ = 1 := (alphaPow_eq_one_iff _).2 (by rw [Nat.add_sub_cancel' hlt.le])

theorem gfInv_ne_zero (a : Byte) : gfInv 0x11D a ≠ 0 := alphaPow_ne_zero _

theorem gfMul_assoc (a b c : Byte) : gfMul 0x11D (gfMul 0x11D a b) c = gfMul 0x11D a (gfMul 0x11D b c) := by
  by_cases ha : a = 0
  · simp [ha]
  · obtain ⟨i, -, rfl⟩ := exists_alphaPow ha
    rw [alphaPow_gfMul, alphaPow_gfMul, iterate_xtime_gfMul]

theorem gfMul_comm (a b : Byte) : gfMul 0x11D a b = gfMul 0x11D b a := by
  by_cases ha : a = 0
  · simp [ha]
  by_cases hb : b = 0
  · simp [hb]
  obtain ⟨i, -, rfl⟩ := exists_alphaPow ha
  obtain ⟨j, -, rfl⟩ := exists_alphaPow hb
  rw [← alphaPow_add, ← alphaPow_add, Nat.add_comm]

theorem gfMul_eq_zero_iff (a b : Byte) : gfMul 0x11D a b = 0 ↔ a = 0 ∨ b = 0 := by
  constructor
  · intro h
    by_contra! hne
    obtain ⟨ha, hb⟩ := hne
    obtain ⟨i, -, rfl⟩ := exists_alphaPow ha
    obtain ⟨j, -, rfl⟩ := exists_alphaPow hb
    exact alphaPow_ne_zero (i + j) ((alphaPow_add i j).trans h)
  · rintro (rfl | rfl)
    · exact zero_gfMul 0x11D b
    · exact gfMul_zero 0x11D a

end Sys2Proof.Machine

namespace Sys2Proof.Proofs

open Sys2Proof.Machine

/-- Settles O25: the product by `alpha^i` is `i` multiplications by alpha, and the powers of alpha are the nonzero
bytes. -/
theorem fieldLaws : Obligations.FieldLaws := by
  refine ⟨fun a b c => ⟨BitVec.xor_assoc a b c, BitVec.xor_comm a b, BitVec.xor_zero, BitVec.xor_self⟩,
    fun a b c => ⟨gfMul_assoc a b c, gfMul_comm a b, gfMul_one 0x11D a⟩,
    fun a ha => ⟨gfInv_ne_zero a, gfMul_gfInv ha⟩,
    ⟨rfl, fun a ha => ?_, fun e => ?_⟩,
    gfMul_xor 0x11D, fun i j => ?_, fun a ha => ?_, gfLog_gfExp, gfMul_eq_zero_iff⟩
  · simpa only [gfExp_eq_alphaPow] using exists_alphaPow ha
  · simpa only [gfExp_eq_alphaPow] using alphaPow_eq_one_iff e
  · simpa only [gfExp_eq_alphaPow] using alphaPow_add i j
  · obtain ⟨-, hlog⟩ := gfLog_spec ha
    rwa [gfExp_eq_alphaPow]

end Sys2Proof.Proofs
end

section
/-! The statement about the polynomial functions (42_polynomial.md, R150 to R153, R155 to R157): coefficient by
coefficient, for any modulus.  The later statements about polynomials use the functions through these lemmas. -/

namespace Sys2Proof.Machine

/-! ## Coefficients -/

@[simp] theorem coefAt_nil (n : Nat) : coefAt [] n = 0#8 := rfl

@[simp] theorem coefAt_cons_zero (x : Byte) (a : List Byte) : coefAt (x :: a) 0 = x := rfl

@[simp] theorem coefAt_cons_succ (x : Byte) (a : List Byte) (n : Nat) : coefAt (x :: a) (n + 1) = coefAt a n := rfl

theorem coefAt_of_length_le {a : List Byte} {n : Nat} (h : a.length ≤ n) : coefAt a n = 0#8 :=
  List.getD_eq_default a 0 h

theorem coefAt_of_lt {a : List Byte} {n : Nat} (h : n < a.length) : coefAt a n = a[n] :=
  List.getD_eq_getElem a 0 h

/-- The coefficient of a function that is 0 from index `k` on, listed up to `k`. -/
theorem coefAt_map_range {f : Nat → Byte} {k : Nat} (h : ∀ n, k ≤ n → f n = 0) (n : Nat) :
    coefAt ((List.range k).map f) n = f n := by
  obtain hn | hn := lt_or_ge n k
  · rw [coefAt_of_lt (by simpa using hn), List.getElem_map, List.getElem_range]
  · exact (coefAt_of_length_le (by simpa using hn)).trans (h n hn).symm

theorem coefAt_take (a : List Byte) (k n : Nat) : coefAt (a.take k) n = if n < k then coefAt a n else 0 := by
  simp only [coefAt, List.getD_eq_getElem?_getD, List.getElem?_take]
  split <;> rfl

theorem length_padTo (k : Nat) (a : List Byte) : (padTo k a).length = k := by
  simp only [padTo, List.length_append, List.length_take, List.length_replicate]
  omega

theorem coefAt_padTo (k : Nat) (a : List Byte) (n : Nat) :
    coefAt (padTo k a) n = if n < k then coefAt a n else 0 := by
  rw [← coefAt_take]
  obtain hn | hn := lt_or_ge n (a.take k).length
  · exact List.getD_append _ _ 0 n hn
  · rw [coefAt_of_length_le hn]
    exact (List.getD_append_right _ _ 0 n hn).trans (List.getElem?_getD_replicate_default_eq ..)

theorem coefAt_replicate_append (k : Nat) (a : List Byte) (n : Nat) :
    coefAt (List.replicate k 0 ++ a) n = if n < k then 0 else coefAt a (n - k) := by
  induction k generalizing n with
  | zero => simp
  | succ k ih =>
    cases n with
    | zero => simp [List.replicate_succ]
    | succ n => simpa [List.replicate_succ] using ih n

/-- Two lists of one length with the same coefficients are equal. -/
theorem eq_of_coefAt {a b : List Byte} (hlen : a.length = b.length) (h : ∀ n, coefAt a n = coefAt b n) : a = b :=
  List.ext_getElem hlen fun n ha hb => by rw [← coefAt_of_lt ha, ← coefAt_of_lt hb, h]

theorem xorAll_eq_zero {l : List Byte} (h : ∀ c ∈ l, c = 0) : xorAll l = 0 := by
  induction l with
  | nil => rfl
  | cons c l ih =>
    obtain ⟨hc, hl⟩ := List.forall_mem_cons.1 h
    rw [hc]
    exact BitVec.zero_xor.trans (ih hl)

/-! ## The functions -/

section
variable (m : BitVec 9)

@[simp] theorem polyAdd_nil (a : List Byte) : polyAdd a [] = a := by
  cases a <;> rfl

theorem length_polyAdd (a b : List Byte) : (polyAdd a b).length = max a.length b.length := by
  induction a generalizing b with
  | nil => simp [polyAdd]
  | cons x a ih =>
    cases b with
    | nil => simp
    | cons y b => simp [polyAdd, ih]

theorem coefAt_polyAdd (a b : List Byte) (n : Nat) : coefAt (polyAdd a b) n = coefAt a n ^^^ coefAt b n := by
  induction a generalizing b n with
  | nil => simp [polyAdd]
  | cons x a ih =>
    cases b with
    | nil => simp
    | cons y b =>
      cases n with
      | zero => rfl
      | succ n => simpa [polyAdd] using ih b n

theorem length_polyScale (a : List Byte) (s : Byte) : (polyScale m a s).length = a.length := List.length_map ..

theorem coefAt_polyScale (a : List Byte) (s : Byte) (n : Nat) :
    coefAt (polyScale m a s) n = gfMul m (coefAt a n) s := by
  have h := List.getD_map a 0 (n := n) fun c => gfMul m c s
  rwa [show gfMul m 0 s = 0 from zero_gfMul m s] at h

theorem polyShl_of_ne_nil {a : List Byte} (h : a ≠ []) (k : Nat) : polyShl a k = List.replicate k 0 ++ a := if_neg h

theorem length_polyShl {a : List Byte} (h : a ≠ []) (k : Nat) : (polyShl a k).length = a.length + k := by
  rw [polyShl_of_ne_nil h, List.length_append, List.length_replicate, Nat.add_comm]

/-- The shift by `k`, coefficient by coefficient; the empty list has no coefficient to move. -/
theorem coefAt_polyShl (a : List Byte) (k n : Nat) :
    coefAt (polyShl a k) n = if n < k then 0 else coefAt a (n - k) := by
  by_cases h : a = []
  · simp [h, polyShl]
  · rw [polyShl_of_ne_nil h, coefAt_replicate_append]

theorem length_polyMul {a b : List Byte} (ha : a ≠ []) (hb : b ≠ []) :
    (polyMul m a b).length = a.length + b.length - 1 := by
  simp [polyMul, ha, hb]

/-- The product's coefficient `n` is the sum over `i + j = n`, past its length too, where every summand has a factor that
is read from beyond the end of its list. -/
theorem coefAt_polyMul (a b : List Byte) (n : Nat) :
    coefAt (polyMul m a b) n =
      xorAll ((List.range (n + 1)).map fun i => gfMul m (coefAt a i) (coefAt b (n - i))) := by
  have hzero : ∀ n, (∀ i ≤ n, a.length ≤ i ∨ b.length ≤ n - i) →
      xorAll ((List.range (n + 1)).map fun i => gfMul m (coefAt a i) (coefAt b (n - i))) = 0 := by
    intro n h
    refine xorAll_eq_zero (List.forall_mem_map.2 fun i hi => ?_)
    obtain hl | hl := h i (Nat.le_of_lt_succ (List.mem_range.1 hi))
    · rw [coefAt_of_length_le hl]
      exact zero_gfMul m _
    · rw [coefAt_of_length_le hl]
      exact gfMul_zero m _
  by_cases ha : a = []
  · rw [hzero n (by simp [ha])]
    simp [polyMul, ha]
  by_cases hb : b = []
  · rw [hzero n (by simp [hb])]
    simp [polyMul, hb]
  rw [polyMul, if_neg (by simp [ha, hb]), coefAt_map_range]
  exact fun n hn => hzero n fun i hi => by omega

@[simp] theorem polyEval_nil (v : Byte) : polyEval m [] v = 0#8 := rfl

theorem polyEval_cons (c : Byte) (a : List Byte) (v : Byte) :
    polyEval m (c :: a) v = gfMul m (polyEval m a v) v ^^^ c := rfl

theorem polyEval_at_zero (a : List Byte) : polyEval m a 0 = coefAt a 0 := by
  cases a with
  | nil => rfl
  | cons c a => simp [polyEval_cons]

theorem length_polyDeriv (a : List Byte) : (polyDeriv a).length = a.length - 1 := by
  rw [polyDeriv, List.length_map, List.length_range]

theorem coefAt_polyDeriv (a : List Byte) (n : Nat) :
    coefAt (polyDeriv a) n = if n % 2 = 0 then coefAt a (n + 1) else 0 := by
  refine coefAt_map_range (fun n hn => ?_) n
  rw [coefAt_of_length_le (by omega)]
  exact ite_self 0

/-! ### The degree -/

theorem polyDeg_cons_eq_none_iff (x : Byte) (a : List Byte) : polyDeg (x :: a) = none ↔ x = 0 ∧ polyDeg a = none := by
  rw [polyDeg]
  cases polyDeg a <;> simp

theorem polyDeg_cons_eq_zero_iff (x : Byte) (a : List Byte) :
    polyDeg (x :: a) = some 0 ↔ x ≠ 0 ∧ polyDeg a = none := by
  rw [polyDeg]
  cases polyDeg a <;> simp

theorem polyDeg_cons_eq_succ_iff (x : Byte) (a : List Byte) (n : Nat) :
    polyDeg (x :: a) = some (n + 1) ↔ polyDeg a = some n := by
  rw [polyDeg]
  cases polyDeg a with
  | some d => simp
  | none => by_cases hx : x = 0 <;> simp [hx]

theorem polyDeg_eq_none_iff (a : List Byte) : polyDeg a = none ↔ ∀ i, coefAt a i = 0 := by
  induction a with
  | nil => simp [polyDeg]
  | cons x a ih =>
    rw [polyDeg_cons_eq_none_iff, ih]
    exact (Nat.and_forall_add_one (p := fun i => coefAt (x :: a) i = 0))

theorem polyDeg_eq_some_iff (a : List Byte) (n : Nat) :
    polyDeg a = some n ↔ coefAt a n ≠ 0 ∧ ∀ i, n < i → coefAt a i = 0 := by
  induction a generalizing n with
  | nil => simp [polyDeg]
  | cons x a ih =>
    cases n with
    | zero =>
      rw [polyDeg_cons_eq_zero_iff, polyDeg_eq_none_iff, ← Nat.and_forall_add_one (p := fun i => 0 < i → _)]
      simp
    | succ n =>
      rw [polyDeg_cons_eq_succ_iff, ih, ← Nat.and_forall_add_one (p := fun i => n + 1 < i → _)]
      simp

end

end Sys2Proof.Machine

namespace Sys2Proof.Proofs

open Sys2Proof.Machine

/-- Settles O28: the coefficient lemma and the length lemma of each function. -/
theorem polynomialFunctions : Obligations.PolynomialFunctions := by
  intro m a b v k n
  exact ⟨⟨length_polyAdd a b, coefAt_polyAdd a b n⟩, ⟨length_polyScale m a v, coefAt_polyScale m a v n⟩,
    ⟨rfl, fun ha => length_polyShl ha k, fun _ => coefAt_polyShl a k n⟩,
    ⟨rfl, if_pos (.inr rfl), fun ha hb => ⟨length_polyMul m ha hb, coefAt_polyMul m a b n⟩⟩,
    ⟨rfl, fun c => polyEval_cons m c a v, polyEval_at_zero m a⟩,
    ⟨length_polyDeriv a, coefAt_polyDeriv a n⟩, polyDeg_eq_none_iff a, polyDeg_eq_some_iff a n⟩

end Sys2Proof.Proofs
end

section
/-! The statement about the remainder of polynomials (42_polynomial.md, R154), for the modulus 0x11D.

The loop of `polyMod` subtracts a multiple of the divisor in every round, so that its result differs from the dividend by
a multiple of the divisor.  The remainder is unique, because a product has the product of its factors' leading coefficients
at the sum of their degrees. -/

namespace Sys2Proof.Machine

/-! ## Products, for any modulus -/

section
variable (m : BitVec 9) (x : Byte) (q b : List Byte)

theorem coefAt_polyMul_nil (n : Nat) : coefAt (polyMul m [] b) n = 0 := by
  simp [polyMul]

theorem coefAt_polyMul_cons_zero : coefAt (polyMul m (x :: q) b) 0 = gfMul m x (coefAt b 0) := by
  simp [coefAt_polyMul, xorAll]

/-- The product by a list is that by its first entry and, one place higher, that by the rest. -/
theorem coefAt_polyMul_cons_succ (n : Nat) :
    coefAt (polyMul m (x :: q) b) (n + 1) = gfMul m x (coefAt b (n + 1)) ^^^ coefAt (polyMul m q b) n := by
  rw [coefAt_polyMul, List.range_succ_eq_map, List.map_cons, List.map_map, xorAll, List.foldr_cons, coefAt_polyMul, xorAll]
  congr 3
  simp [Function.comp_def]

/-- The product by `c * x^k` is the scaled and shifted list. -/
theorem coefAt_polyMul_monomial (c : Byte) (k n : Nat) :
    coefAt (polyMul m (List.replicate k 0 ++ [c]) b) n = if n < k then 0 else gfMul m c (coefAt b (n - k)) := by
  induction k generalizing n with
  | zero => cases n <;> simp [coefAt_polyMul_cons_zero, coefAt_polyMul_cons_succ, coefAt_polyMul_nil]
  | succ k ih =>
    cases n with
    | zero => simp [List.replicate_succ, coefAt_polyMul_cons_zero]
    | succ n => simpa [List.replicate_succ, coefAt_polyMul_cons_succ] using ih n

/-- A product with a factor all of whose coefficients are 0. -/
theorem coefAt_polyMul_eq_zero {q : List Byte} (hq : ∀ i, coefAt q i = 0) (n : Nat) : coefAt (polyMul m q b) n = 0 := by
  rw [coefAt_polyMul]
  refine xorAll_eq_zero (List.forall_mem_map.2 fun i _ => ?_)
  rw [hq]
  exact zero_gfMul m _

/-- The leading coefficient of a product. -/
theorem coefAt_polyMul_degrees {q b : List Byte} {e d : Nat} (hq : polyDeg q = some e) (hb : polyDeg b = some d) :
    coefAt (polyMul m q b) (e + d) = gfMul m (coefAt q e) (coefAt b d) := by
  obtain ⟨-, hbeyond⟩ := (polyDeg_eq_some_iff b d).1 hb
  induction q generalizing e with
  | nil => cases hq
  | cons x q ih =>
    cases e with
    | zero =>
      obtain ⟨-, hq⟩ := (polyDeg_cons_eq_zero_iff x q).1 hq
      have hrest := coefAt_polyMul_eq_zero m b ((polyDeg_eq_none_iff q).1 hq)
      cases d with
      | zero => exact coefAt_polyMul_cons_zero m x q b
      | succ d => rw [Nat.zero_add, coefAt_polyMul_cons_succ, hrest]; exact BitVec.xor_zero
    | succ e =>
      rw [Nat.succ_add, coefAt_polyMul_cons_succ, hbeyond _ (by omega), ih ((polyDeg_cons_eq_succ_iff x q e).1 hq)]
      simp

end

/-! ## The algebra of products for the modulus 0x11D -/

theorem xor_gfMul (a b c : Byte) : gfMul 0x11D (a ^^^ b) c = gfMul 0x11D a c ^^^ gfMul 0x11D b c := by
  rw [gfMul_comm, gfMul_xor, gfMul_comm c a, gfMul_comm c b]

theorem coefAt_polyAdd_polyMul (p q b : List Byte) (n : Nat) :
    coefAt (polyMul 0x11D (polyAdd p q) b) n = coefAt (polyMul 0x11D p b) n ^^^ coefAt (polyMul 0x11D q b) n := by
  induction p generalizing q n with
  | nil => simp [polyAdd, coefAt_polyMul_nil]
  | cons x p ih =>
    cases q with
    | nil => simp [coefAt_polyMul_nil]
    | cons y q =>
      cases n with
      | zero => simp only [polyAdd, coefAt_polyMul_cons_zero, xor_gfMul]
      | succ n =>
        simp only [polyAdd, coefAt_polyMul_cons_succ, xor_gfMul, ih]
        ac_rfl

/-- `a` and `r` differ by a multiple of `b`, as R154 states it of a dividend and a remainder. -/
def Congruent (b a r : List Byte) : Prop := ∃ q, ∀ n, coefAt a n = coefAt (polyMul 0x11D q b) n ^^^ coefAt r n

theorem Congruent.refl (b a : List Byte) : Congruent b a a :=
  ⟨[], fun n => by rw [coefAt_polyMul_nil]; exact BitVec.zero_xor.symm⟩

theorem Congruent.symm {b a r : List Byte} (h : Congruent b a r) : Congruent b r a := by
  obtain ⟨q, hq⟩ := h
  exact ⟨q, fun n => by rw [hq, ← BitVec.xor_assoc, BitVec.xor_self, BitVec.zero_xor]⟩

theorem Congruent.trans {b a r t : List Byte} (h : Congruent b a r) (h' : Congruent b r t) : Congruent b a t := by
  obtain ⟨p, hp⟩ := h
  obtain ⟨q, hq⟩ := h'
  exact ⟨polyAdd p q, fun n => by rw [hp, hq, coefAt_polyAdd_polyMul, BitVec.xor_assoc]⟩

/-- Of two lists that differ by a multiple of `b` and are 0 from its degree on, the coefficients are equal: a quotient
with a degree would give their difference a coefficient that is not 0 at or beyond the degree of `b`. -/
theorem Congruent.coefAt_eq {b a r : List Byte} {d : Nat} (hb : polyDeg b = some d) (h : Congruent b a r)
    (ha : ∀ n, d ≤ n → coefAt a n = 0) (hr : ∀ n, d ≤ n → coefAt r n = 0) (n : Nat) : coefAt a n = coefAt r n := by
  obtain ⟨q, hq⟩ := h
  cases hdeg : polyDeg q with
  | none =>
    rw [hq, coefAt_polyMul_eq_zero 0x11D b ((polyDeg_eq_none_iff q).1 hdeg)]
    exact BitVec.zero_xor
  | some e =>
    obtain ⟨hqe, -⟩ := (polyDeg_eq_some_iff q e).1 hdeg
    obtain ⟨hbd, -⟩ := (polyDeg_eq_some_iff b d).1 hb
    have hlead := hq (e + d)
    rw [ha _ (Nat.le_add_left d e), hr _ (Nat.le_add_left d e), coefAt_polyMul_degrees 0x11D hdeg hb] at hlead
    obtain h | h := (gfMul_eq_zero_iff _ _).1 (hlead.trans BitVec.xor_zero).symm
    · exact absurd h hqe
    · exact absurd h hbd

/-! ## The loop -/

/-- One round of the loop of R154: the coefficient at index `d + k` is cancelled by a multiple of the divisor. -/
def cancelTop (m : BitVec 9) (b : List Byte) (d : Nat) (inv : Byte) (k : Nat) (r : List Byte) : List Byte :=
  if coefAt r (d + k) = 0 then r else xorAt k (polyScale m (b.take (d + 1)) (gfMul m (coefAt r (d + k)) inv)) r

theorem polyModLoop_succ (m : BitVec 9) (b : List Byte) (d : Nat) (inv : Byte) (k : Nat) (r : List Byte) :
    polyModLoop m b d inv (k + 1) r = polyModLoop m b d inv k (cancelTop m b d inv k r) := rfl

/-- Where the list is long enough, `xorAt` adds the shifted list. -/
theorem coefAt_xorAt {off : Nat} {v r : List Byte} (h : off + v.length ≤ r.length) (n : Nat) :
    coefAt (xorAt off v r) n = coefAt r n ^^^ if n < off then 0 else coefAt v (n - off) := by
  induction off, v, r using xorAt.induct generalizing n with
  | case1 off v =>
    obtain ⟨rfl, rfl⟩ : off = 0 ∧ v = [] := by simpa using h
    simp [xorAt]
  | case2 r hr => simp [xorAt]
  | case3 y v x r ih =>
    cases n with
    | zero => rfl
    | succ n => simpa [xorAt] using ih (by simpa using h) n
  | case4 off v x r ih =>
    cases n with
    | zero => simp [xorAt]
    | succ n => simpa [xorAt] using ih (by simp only [List.length_cons] at h; omega) n

section
variable {b : List Byte} {d : Nat} (hb : polyDeg b = some d)
include hb

theorem coefAt_take_degree (n : Nat) : coefAt (b.take (d + 1)) n = coefAt b n := by
  obtain ⟨-, hbeyond⟩ := (polyDeg_eq_some_iff b d).1 hb
  rw [coefAt_take]
  split
  · rfl
  · exact (hbeyond n (by omega)).symm

/-- A round adds the divisor times a monomial; it adds 0 when the coefficient is 0 already. -/
theorem coefAt_cancelTop (inv : Byte) (k : Nat) (r : List Byte) (n : Nat) :
    coefAt (cancelTop 0x11D b d inv k r) n = coefAt r n ^^^
      if n < k then 0 else gfMul 0x11D (gfMul 0x11D (coefAt r (d + k)) inv) (coefAt b (n - k)) := by
  rw [cancelTop]
  split
  next htop => simp [htop]
  next htop =>
    have hlen : d + k < r.length := by
      by_contra! hle
      exact htop (coefAt_of_length_le hle)
    rw [coefAt_xorAt (by rw [length_polyScale, List.length_take]; omega), coefAt_polyScale, coefAt_take_degree hb,
      gfMul_comm (coefAt b _)]

theorem congruent_cancelTop (inv : Byte) (k : Nat) (r : List Byte) :
    Congruent b (cancelTop 0x11D b d inv k r) r := by
  refine ⟨List.replicate k 0 ++ [gfMul 0x11D (coefAt r (d + k)) inv], fun n => ?_⟩
  rw [coefAt_polyMul_monomial, coefAt_cancelTop hb, BitVec.xor_comm]

/-- A round clears its coefficient and leaves those beyond it 0. -/
theorem coefAt_cancelTop_eq_zero {k : Nat} {r : List Byte} (hr : ∀ n, d + (k + 1) ≤ n → coefAt r n = 0) {n : Nat}
    (hn : d + k ≤ n) : coefAt (cancelTop 0x11D b d (gfInv 0x11D (coefAt b d)) k r) n = 0 := by
  obtain ⟨hlead, hbeyond⟩ := (polyDeg_eq_some_iff b d).1 hb
  rw [coefAt_cancelTop hb, if_neg (by omega)]
  obtain rfl | hlt := hn.eq_or_lt
  · rw [Nat.add_sub_cancel, gfMul_assoc, gfMul_comm (gfInv _ _), gfMul_gfInv hlead]
    simp
  · rw [hr n hlt, hbeyond (n - k) (by omega)]
    simp

/-- The loop leaves a list that is 0 from the divisor's degree on and differs from the dividend by a multiple. -/
theorem polyModLoop_spec (k : Nat) {r : List Byte} (hr : ∀ n, d + k ≤ n → coefAt r n = 0) :
    (∀ n, d ≤ n → coefAt (polyModLoop 0x11D b d (gfInv 0x11D (coefAt b d)) k r) n = 0) ∧
    Congruent b r (polyModLoop 0x11D b d (gfInv 0x11D (coefAt b d)) k r) := by
  induction k generalizing r with
  | zero => exact ⟨hr, .refl b r⟩
  | succ k ih =>
    obtain ⟨hlow, hcongr⟩ := ih fun n hn => coefAt_cancelTop_eq_zero hb hr hn
    exact ⟨hlow, (congruent_cancelTop hb _ k r).symm.trans hcongr⟩

/-! ## The remainder -/

theorem polyMod_eq (a : List Byte) :
    polyMod 0x11D a b = padTo d (polyModLoop 0x11D b d (gfInv 0x11D (coefAt b d)) (a.length - d) a) := by
  rw [polyMod, hb]
  rfl

theorem length_polyMod (a : List Byte) : (polyMod 0x11D a b).length = d := by
  rw [polyMod_eq hb, length_padTo]

theorem congruent_polyMod (a : List Byte) : Congruent b a (polyMod 0x11D a b) := by
  obtain ⟨hlow, q, hq⟩ := polyModLoop_spec hb (a.length - d) (r := a) fun n hn => coefAt_of_length_le (by omega)
  refine ⟨q, fun n => ?_⟩
  rw [polyMod_eq hb, coefAt_padTo, hq]
  split
  · rfl
  · rw [hlow n (by omega)]

/-- The remainder is the only list as long as the divisor's degree that differs from the dividend by a multiple of the
divisor. -/
theorem eq_polyMod {a r : List Byte} (hr : r.length = d) (h : Congruent b a r) : r = polyMod 0x11D a b := by
  have hlen := length_polyMod hb a
  refine eq_of_coefAt (hr.trans hlen.symm) ((h.symm.trans (congruent_polyMod hb a)).coefAt_eq hb ?_ ?_)
  · exact fun n hn => coefAt_of_length_le (hr.trans_le hn)
  · exact fun n hn => coefAt_of_length_le (hlen.trans_le hn)

end

end Sys2Proof.Machine

namespace Sys2Proof.Proofs

open Sys2Proof.Machine

/-- Settles O29: the loop's invariant gives the quotient, and the leading coefficient of a product the uniqueness. -/
theorem polyModIsRemainder : Obligations.PolyModIsRemainder :=
  fun a _ _ hb => ⟨length_polyMod hb a, congruent_polyMod hb a, fun _ => eq_polyMod hb⟩

end Sys2Proof.Proofs
end

section
/-! The statement about the values of polynomials (42_polynomial.md, R176), for the modulus 0x11D.  The value depends on the
coefficients alone, so that the laws of the product and of the remainder follow from what their coefficients are. -/

namespace Sys2Proof.Machine

section
variable (v : Byte)

theorem polyEval_polyAdd (a b : List Byte) :
    polyEval 0x11D (polyAdd a b) v = polyEval 0x11D a v ^^^ polyEval 0x11D b v := by
  induction a generalizing b with
  | nil => simp [polyAdd]
  | cons x a ih =>
    cases b with
    | nil => simp
    | cons y b =>
      rw [polyAdd, polyEval_cons, polyEval_cons, polyEval_cons, ih, xor_gfMul]
      ac_rfl

theorem polyEval_polyScale (a : List Byte) (s : Byte) :
    polyEval 0x11D (polyScale 0x11D a s) v = gfMul 0x11D (polyEval 0x11D a v) s := by
  induction a with
  | nil => exact (zero_gfMul 0x11D s).symm
  | cons x a ih =>
    calc polyEval 0x11D (polyScale 0x11D (x :: a) s) v
      _ = gfMul 0x11D (gfMul 0x11D (polyEval 0x11D a v) s) v ^^^ gfMul 0x11D x s := by rw [← ih]; rfl
      _ = gfMul 0x11D (gfMul 0x11D (polyEval 0x11D a v) v) s ^^^ gfMul 0x11D x s := by
        rw [gfMul_assoc, gfMul_comm s, ← gfMul_assoc]
      _ = gfMul 0x11D (polyEval 0x11D (x :: a) v) s := by rw [polyEval_cons, xor_gfMul]

theorem polyEval_eq_zero {a : List Byte} (h : ∀ n, coefAt a n = 0) : polyEval 0x11D a v = 0 := by
  induction a with
  | nil => rfl
  | cons x a ih =>
    rw [polyEval_cons, ih fun n => h (n + 1), show x = 0 from h 0]
    simp

theorem polyEval_congr {a b : List Byte} (h : ∀ n, coefAt a n = coefAt b n) : polyEval 0x11D a v = polyEval 0x11D b v := by
  have hsum : polyEval 0x11D (polyAdd a b) v = 0 :=
    polyEval_eq_zero v fun n => by rw [coefAt_polyAdd, h, BitVec.xor_self]; rfl
  rw [polyEval_polyAdd] at hsum
  exact BitVec.xor_eq_zero_iff.1 hsum

theorem polyEval_polyMul (a b : List Byte) :
    polyEval 0x11D (polyMul 0x11D a b) v = gfMul 0x11D (polyEval 0x11D a v) (polyEval 0x11D b v) := by
  induction a with
  | nil => exact (zero_gfMul 0x11D _).symm
  | cons x a ih =>
    have hcoef : ∀ n, coefAt (polyMul 0x11D (x :: a) b) n =
        coefAt (polyAdd (polyScale 0x11D b x) (0 :: polyMul 0x11D a b)) n := by
      intro n
      rw [coefAt_polyAdd, coefAt_polyScale, gfMul_comm]
      cases n with
      | zero => rw [coefAt_polyMul_cons_zero]; exact BitVec.xor_zero.symm
      | succ n => rw [coefAt_polyMul_cons_succ, coefAt_cons_succ]
    calc polyEval 0x11D (polyMul 0x11D (x :: a) b) v
      _ = gfMul 0x11D (polyEval 0x11D b v) x ^^^
          gfMul 0x11D (gfMul 0x11D (polyEval 0x11D a v) (polyEval 0x11D b v)) v := by
        rw [polyEval_congr v hcoef, polyEval_polyAdd, polyEval_polyScale, polyEval_cons, ih]
        exact congrArg _ BitVec.xor_zero
      _ = gfMul 0x11D (gfMul 0x11D (polyEval 0x11D a v) v ^^^ x) (polyEval 0x11D b v) := by
        rw [xor_gfMul, BitVec.xor_comm, gfMul_comm x, gfMul_assoc, gfMul_comm _ v, ← gfMul_assoc]
      _ = gfMul 0x11D (polyEval 0x11D (x :: a) v) (polyEval 0x11D b v) := by rw [polyEval_cons]

/-- Each of the zeros below the list is one more multiplication by the point, in Horner's rule. -/
theorem polyEval_replicate_append (m : BitVec 9) (k : Nat) (a : List Byte) :
    polyEval m (List.replicate k 0 ++ a) v = (fun y => gfMul m y v)^[k] (polyEval m a v) := by
  induction k with
  | zero => rfl
  | succ k ih =>
    rw [List.replicate_succ, List.cons_append, polyEval_cons, ih, Function.iterate_succ_apply']
    exact BitVec.xor_zero

theorem polyEval_polyShl (m : BitVec 9) (a : List Byte) (k : Nat) :
    polyEval m (polyShl a k) v = (fun y => gfMul m y v)^[k] (polyEval m a v) := by
  by_cases ha : a = []
  · rw [ha]
    exact (Function.iterate_fixed (zero_gfMul m v) k).symm
  · rw [polyShl_of_ne_nil ha, polyEval_replicate_append]

end

/-- Lists that differ by a multiple of `b` have one value at a root of `b`. -/
theorem Congruent.polyEval_eq {a b r : List Byte} {v : Byte} (h : Congruent b a r) (hv : polyEval 0x11D b v = 0) :
    polyEval 0x11D a v = polyEval 0x11D r v := by
  obtain ⟨q, hq⟩ := h
  calc polyEval 0x11D a v
    _ = polyEval 0x11D (polyAdd (polyMul 0x11D q b) r) v := polyEval_congr v fun n => by rw [coefAt_polyAdd, hq]
    _ = gfMul 0x11D (polyEval 0x11D q v) 0 ^^^ polyEval 0x11D r v := by rw [polyEval_polyAdd, polyEval_polyMul, hv]
    _ = polyEval 0x11D r v := by simp

end Sys2Proof.Machine

namespace Sys2Proof.Proofs

open Sys2Proof.Machine

/-- Settles O30: the value is linear and multiplicative in the coefficients, and a multiple of the divisor vanishes at the
divisor's roots. -/
theorem polyEvalLaws : Obligations.PolyEvalLaws :=
  ⟨fun a b v => polyEval_polyAdd v a b, fun a b v => polyEval_polyMul v a b, fun a k v => polyEval_polyShl v 0x11D a k,
    fun a _ _ _ hb hv => (congruent_polyMod hb a).polyEval_eq hv⟩

end Sys2Proof.Proofs
end

section
/-! The statement about the default mask formulas (46_masking.md, R251, R252). -/

namespace Sys2Proof.Machine

/-! ## Which formulas a symbol uses -/

theorem maskFormula_full (T : CfgTables) {v : Int} (hv : 1 ≤ v) (k r c : Nat) :
    maskFormula T v k r c = maskHolds T.maskFull k r c := by
  have hmicro : isMicro v = false := decide_eq_false (Int.not_lt.2 hv)
  rw [maskFormula, hmicro]
  rfl

theorem maskFormula_micro (T : CfgTables) {v : Int} (hv : v < 1) (k r c : Nat) :
    maskFormula T v k r c = maskHolds T.maskMicro k r c := by
  have hmicro : isMicro v = true := decide_eq_true hv
  rw [maskFormula, hmicro]
  rfl

/-! ## The period -/

/-- Positions at which every formula of a list has one value are masked alike. -/
theorem maskHolds_congr {formulas : List MaskExpr} {r c r' c' : Nat}
    (h : ∀ e ∈ formulas, maskValue r c e = maskValue r' c' e) (k : Nat) :
    maskHolds formulas k r c = maskHolds formulas k r' c' := by
  unfold maskHolds
  split
  case h_1 e he => rw [h e (List.mem_of_getElem? he)]
  case h_2 => rfl

/-- Sums and products keep their residues modulo 2 and 3 when the row and the column keep theirs modulo 6; the halves and
thirds of formula 4 do not follow from these. -/
theorem maskValue_full_congr {r c r' c' : Nat} (hr : r' ≡ r [MOD 6]) (hc : c' ≡ c [MOD 6])
    (hdiv : (r' / 2 + c' / 3) % 2 = (r / 2 + c / 3) % 2) :
    ∀ e ∈ maskFormulasFull, maskValue r' c' e = maskValue r c e := by
  have mod2 {a b : Nat} (h : a ≡ b [MOD 6]) : a % 2 = b % 2 := h.of_dvd (by decide)
  have mod3 {a b : Nat} (h : a ≡ b [MOD 6]) : a % 3 = b % 3 := h.of_dvd (by decide)
  have hadd := hr.add hc
  have hmul := hr.mul hc
  simp [maskFormulasFull, maskValue, hdiv, mod2 hr, mod3 hc, mod2 hadd, mod3 hadd, mod2 hmul, mod3 hmul]

theorem maskValue_full_add_row (r c : Nat) : ∀ e ∈ maskFormulasFull, maskValue (r + 12) c e = maskValue r c e :=
  maskValue_full_congr (show (r + 12) % 6 = r % 6 by omega) rfl (by omega)

theorem maskValue_full_add_col (r c : Nat) : ∀ e ∈ maskFormulasFull, maskValue r (c + 6) e = maskValue r c e :=
  maskValue_full_congr rfl (show (c + 6) % 6 = c % 6 by omega) (by omega)

end Sys2Proof.Machine

namespace Sys2Proof.Proofs

open Sys2Proof.Machine

/-- Settles O54: each formula is its entry of the default table, and every entry keeps its value over a period. -/
theorem maskFormulas : Obligations.MaskFormulas := by
  refine ⟨fun v r c hv => ?_, fun u v r c hu hv => ?_, fun v k r c hv => ?_⟩
  · simp only [maskFormula_full _ hv]
    exact ⟨beq_iff_eq, beq_iff_eq, beq_iff_eq, beq_iff_eq, beq_iff_eq, beq_iff_eq, beq_iff_eq, beq_iff_eq⟩
  · simp only [maskFormula_full _ hv, maskFormula_micro _ hu]
    exact ⟨rfl, rfl, rfl, rfl⟩
  · simp only [maskFormula_full _ hv]
    exact ⟨maskHolds_congr (maskValue_full_add_row r c) k, maskHolds_congr (maskValue_full_add_col r c) k⟩

end Sys2Proof.Proofs
end

section
/-! The statement about `NOP` (47_system.md, R280). -/

namespace Sys2Proof.Machine

/-- Opcode 0x00 has only one legal word: format N wants the other 24 bits clear (R91, R93). -/
theorem decode_opcode_zero_of_ne_zero (hasRsdec : Bool) {w : Word} (hop : opcodeOf w = 0x00) (hw : w ≠ 0) :
    decode hasRsdec w = .error .reservedBits := by
  have hlow : bits w 23 0 ≠ 0 := by
    simp only [opcodeOf, bits] at hop ⊢
    bv_omega
  unfold decode
  rw [hop]
  exact if_neg hlow

/-- The word of all ones has an opcode outside the map of R95. -/
theorem decode_all_ones (hasRsdec : Bool) : decode hasRsdec 0xFFFFFFFF = .error .opcode := rfl

/-- Counting a command changes `CMDCNT` alone (R48). -/
theorem frame_countCommand (s : State) : Frame (only [.cmdcnt]) s (countCommand s s) := by
  intro q hq
  cases q
  case cmdcnt => exact absurd List.mem_cons_self hq
  all_goals rfl

end Sys2Proof.Machine

namespace Sys2Proof.Proofs

open Sys2Proof.Machine

/-- Settles O21: `NOP` completes with the state it was given, which is then counted, and the decoder refuses the other
words. -/
theorem nopChangesOnlyTheCount : Obligations.NopChangesOnlyTheCount := by
  refine ⟨fun s => ⟨_, rfl, trivial, rfl, fun q hq => frame_countCommand s q fun h => hq (.inr h)⟩, fun _ => rfl, ?_⟩
  rintro s w hs (⟨hop, hw⟩ | rfl)
  · exact issueCommand_illegal hs (decode_opcode_zero_of_ne_zero _ hop hw)
  · exact issueCommand_illegal hs (decode_all_ones _)

end Sys2Proof.Proofs
end


section
/-! The word of a decoded command (30_encoding.md, R91 to R95): the decoder drops no bit, so encoding what it reads from a
word gives the word back. -/

namespace Sys2Proof

/-! ## A word put together from its fields -/

section
variable {w : Word} {op d a b low : Nat}

theorem wordI_eq (hop : opcodeOf w = op) (hd : d = dField w) (ha : a = aField w) (hlow : low = bits w 15 0) :
    wordI op d a low = w := by
  subst hop hd ha hlow
  have hw := w.isLt
  apply BitVec.eq_of_toNat_eq
  simp only [wordI, BitVec.toNat_ofNat, opcodeOf, dField, aField, bits]
  omega

/-- A word whose low 24 bits are 0 is its opcode alone (format N). -/
theorem wordI_eq_of_low24 (hop : opcodeOf w = op) (h : bits w 23 0 = 0) : wordI op 0 0 0 = w := by
  simp only [bits] at h
  apply wordI_eq hop <;> simp only [dField, aField, bits] <;> omega

theorem wordR_eq (hop : opcodeOf w = op) (hd : d = dField w) (ha : a = aField w) (hb : b = bField w)
    (h : bits w 11 0 = 0) : wordR op d a b = w := by
  refine wordI_eq hop hd ha ?_
  simp only [hb, bField, bits] at h ⊢
  omega

theorem wordB_eq {len : BitVec 8} {addr : BitVec 13} (hop : opcodeOf w = op) (hlen : len.toNat = bits w 23 16)
    (haddr : addr.toNat = bits w 12 0) (h : bits w 15 13 = 0) : wordB op len addr = w := by
  subst hop
  have hw := w.isLt
  apply BitVec.eq_of_toNat_eq
  simp only [wordB, BitVec.toNat_ofNat, hlen, haddr]
  simp only [opcodeOf, bits] at h ⊢
  omega

theorem wordV_eq {len : BitVec 6} {addr : BitVec 13} (hop : opcodeOf w = op) (hd : d = dField w)
    (hlen : len.toNat = bits w 18 13) (haddr : addr.toNat = bits w 12 0) (h : bits w 19 19 = 0) :
    wordV op d len addr = w := by
  subst hop hd
  have hw := w.isLt
  apply BitVec.eq_of_toNat_eq
  simp only [wordV, BitVec.toNat_ofNat, hlen, haddr]
  simp only [opcodeOf, dField, bits] at h ⊢
  omega

end

/-! ## The operands the decoder reads are the fields -/

/-- A field cut out of a word is its own value as an operand of the field's width. -/
theorem toNat_ofNat_bits (w : Word) (hi lo : Nat) : (BitVec.ofNat (hi + 1 - lo) (bits w hi lo)).toNat = bits w hi lo := by
  simp [bits]

theorem xreg_dField (w : Word) : (xreg (dField w) : Nat) = dField w := Nat.mod_mod ..

theorem xreg_aField (w : Word) : (xreg (aField w) : Nat) = aField w := Nat.mod_mod ..

theorem xreg_bField (w : Word) : (xreg (bField w) : Nat) = bField w := Nat.mod_mod ..

theorem imm16_toNat (w : Word) : (imm16 w).toNat = bits w 15 0 := toNat_ofNat_bits w 15 0

theorem addr13_toNat (w : Word) : (addr13 w).toNat = bits w 12 0 := toNat_ofNat_bits w 12 0

/-- An immediate of 8 bits whose upper bits are 0 is the whole immediate field (R94). -/
theorem low8_eq_low16 {w : Word} (h : bits w 15 8 = 0) : bits w 7 0 = bits w 15 0 := by
  simp only [bits] at h ⊢
  omega

/-- Low 16 bits of 0 are an address of 0 under three zeros (format B without an address). -/
theorem bits_eq_zero_of_low16 {w : Word} (h : bits w 15 0 = 0) : bits w 15 13 = 0 ∧ bits w 12 0 = 0 := by
  simp only [bits] at h ⊢
  omega

/-- A polynomial specifier that the decoder accepts is the field (R92). -/
theorem preg_eq_ok {v : Nat} {k : PReg} (h : preg v = .ok k) : (k : Nat) = v := by
  unfold preg at h
  split at h
  next hv =>
    cases h
    exact Nat.mod_eq_of_lt hv
  next => cases h

/-- A CSR index that the decoder accepts is the register's (R96). -/
theorem cfgReg_eq_ok {v : Nat} {c : CfgReg} (h : cfgReg v = .ok c) : c.index = v := by
  unfold cfgReg at h
  split at h <;> cases h <;> rfl

/-! ## What each check of the decoder leaves -/

/-- The command that the answer holds, if any, has the word `w`. -/
def EncodesTo (w : Word) (r : Except Illegal Instr) : Prop := ∀ i, r = .ok i → encode i = w

namespace EncodesTo

variable {w : Word} {op : Nat} {i : Instr} {r : Except Illegal Instr}

theorem ok (h : encode i = w) : EncodesTo w (.ok i) := by
  rintro _ ⟨⟩
  exact h

theorem error (e : Illegal) : EncodesTo w (.error e) := nofun

theorem mustBeZero {v : Nat} {why : Illegal} (h : v = 0 → EncodesTo w r) : EncodesTo w (mustBeZero v why r) := by
  unfold Sys2Proof.mustBeZero
  split
  next hv => exact h hv
  next => exact error why

theorem ifRsdec {b : Bool} (h : EncodesTo w r) : EncodesTo w (ifRsdec b r) := by
  cases b
  · exact error _
  · exact h

/-- An operand that can be refused, and the rest of the decoding. -/
theorem bind {α : Type} {x : Except Illegal α} {f : α → Except Illegal Instr} (h : ∀ k, x = .ok k → EncodesTo w (f k)) :
    EncodesTo w (x.bind f) := by
  cases x with
  | ok k => exact h k rfl
  | error e => exact error e

/-- An operand that can be refused, the last one. -/
theorem map {α : Type} {x : Except Illegal α} {f : α → Instr} (h : ∀ k, x = .ok k → encode (f k) = w) :
    EncodesTo w (x.map f) := by
  cases x with
  | ok k => exact ok (h k rfl)
  | error e => exact error e

theorem formatN (hop : opcodeOf w = op) (h : encode i = wordI op 0 0 0) : EncodesTo w (formatN w i) :=
  mustBeZero fun hlow => ok (h.trans (wordI_eq_of_low24 hop hlow))

theorem formatB {f : BitVec 8 → BitVec 13 → Instr} (hop : opcodeOf w = op)
    (h : ∀ len addr, encode (f len addr) = wordB op len addr) : EncodesTo w (formatB w f) :=
  mustBeZero fun hz => ok ((h ..).trans (wordB_eq hop (toNat_ofNat_bits w 23 16) (addr13_toNat w) hz))

end EncodesTo

/-- What the decoder reads from a word has that word, whichever row of the opcode table it is; the cases are numbered as
the rows of `decode` stand (R95). -/
theorem encodesTo_decode (hasRsdec : Bool) (w : Word) : EncodesTo w (decode hasRsdec w) := by
  have hd := xreg_dField w
  have ha := xreg_aField w
  have hb := xreg_bField w
  have himm := imm16_toNat w
  unfold decode
  split
  -- format N: no operand
  case h_1 hop | h_31 hop | h_38 hop | h_39 hop | h_40 hop | h_43 hop | h_44 hop | h_45 hop =>
    exact .formatN hop rfl
  case h_33 hop | h_34 hop | h_36 hop => exact .ifRsdec (.formatN hop rfl)
  -- format I: `d`, `a` and an immediate
  case h_2 hop => exact .mustBeZero fun ha => .map fun _ hc => wordI_eq hop (cfgReg_eq_ok hc) ha.symm himm
  case h_3 hop =>
    exact .mustBeZero fun ha => .mustBeZero fun hz =>
      .ok (wordI_eq hop hd ha.symm ((toNat_ofNat_bits w 7 0).trans (low8_eq_low16 hz)))
  case h_11 hop | h_12 hop => exact .mustBeZero fun ha => .ok (wordI_eq hop hd ha.symm himm)
  case h_13 hop | h_14 hop => exact .ok (wordI_eq hop hd ha himm)
  case h_19 hop => exact .map fun _ hk => wordI_eq hop hd (preg_eq_ok hk) himm
  case h_20 hop => exact .map fun _ hk => wordI_eq hop (preg_eq_ok hk) ha himm
  case h_23 hop => exact .bind fun _ hk => .map fun _ hj => wordI_eq hop (preg_eq_ok hk) (preg_eq_ok hj) himm
  case h_29 hop | h_42 hop =>
    exact .mustBeZero fun hd => .mustBeZero fun ha => .ok (wordI_eq hop hd.symm ha.symm himm)
  -- format R: `d`, `a` and `b`
  case h_4 hop | h_8 hop | h_9 hop | h_10 hop =>
    exact .mustBeZero fun hz => .mustBeZero fun hb => .ok (wordR_eq hop hd ha hb.symm hz)
  case h_5 hop | h_6 hop | h_7 hop | h_41 hop => exact .mustBeZero fun hz => .ok (wordR_eq hop hd ha hb hz)
  case h_15 hop =>
    exact .mustBeZero fun hz => .mustBeZero fun ha => .mustBeZero fun hb => .map fun _ hk =>
      wordR_eq hop (preg_eq_ok hk) ha.symm hb.symm hz
  case h_16 hop | h_27 hop =>
    exact .mustBeZero fun hz => .mustBeZero fun hb => .bind fun _ hk => .map fun _ hj =>
      wordR_eq hop (preg_eq_ok hk) (preg_eq_ok hj) hb.symm hz
  case h_21 hop | h_24 hop | h_25 hop =>
    exact .mustBeZero fun hz => .bind fun _ hk => .bind fun _ hj => .map fun _ hl =>
      wordR_eq hop (preg_eq_ok hk) (preg_eq_ok hj) (preg_eq_ok hl) hz
  case h_22 hop =>
    exact .mustBeZero fun hz => .bind fun _ hk => .map fun _ hj => wordR_eq hop (preg_eq_ok hk) (preg_eq_ok hj) hb hz
  case h_26 hop => exact .mustBeZero fun hz => .map fun _ hj => wordR_eq hop hd (preg_eq_ok hj) hb hz
  case h_28 hop =>
    exact .mustBeZero fun hz => .mustBeZero fun hb => .map fun _ hj => wordR_eq hop hd (preg_eq_ok hj) hb.symm hz
  -- format V: a polynomial register, a length and an address
  case h_17 hop =>
    exact .mustBeZero fun hz => .bind fun _ hk =>
      .ok (wordV_eq hop (preg_eq_ok hk) (toNat_ofNat_bits w 18 13) (addr13_toNat w) hz)
  case h_18 hop =>
    exact .mustBeZero fun hz => .bind fun _ hk => .mustBeZero fun hlen =>
      .ok (wordV_eq hop (preg_eq_ok hk) (hlen.symm.trans (toNat_ofNat_bits w 18 13)) (addr13_toNat w) hz)
  -- format B: a length and an address
  case h_30 hop => exact .formatB hop fun _ _ => rfl
  case h_32 hop | h_37 hop => exact .ifRsdec (.formatB hop fun _ _ => rfl)
  case h_35 hop =>
    refine .ifRsdec (.mustBeZero fun hlow => ?_)
    obtain ⟨hz, haddr⟩ := bits_eq_zero_of_low16 hlow
    exact .ok (wordB_eq hop (toNat_ofNat_bits w 23 16) haddr.symm hz)
  -- an opcode outside the map
  case h_46 => exact .error _

/-- A legal word is the word of the command that the decoder reads from it (R93). -/
theorem encode_of_decode {hasRsdec : Bool} {w : Word} {i : Instr} (h : decode hasRsdec w = .ok i) : encode i = w :=
  encodesTo_decode hasRsdec w i h

end Sys2Proof
end

section
/-! The statement about the step relation (60_exceptions.md, R291, R303). -/

namespace Sys2Proof.Machine

/-! ## One action on the engine -/

/-- A command word given to an engine that is not halted completes and is counted, or raises one fault with that word
(R291). -/
theorem issueCommand_completes_or_faults {w : Word} {s : State} (hs : s.fault = none) :
    (∃ t, issueCommand w s = .next t ∧ t.fault = none ∧ t.faultcmd = s.faultcmd ∧ t.cmdcnt = s.cmdcnt + 1) ∨
    ∃ c, issueCommand w s = .next (raiseFault c w s) := by
  cases hdec : decode s.cfg.hasRsdec w with
  | error e => exact .inr ⟨_, issueCommand_illegal hs hdec⟩
  | ok i =>
    have hissue : issueCommand w s = exec i s := by rw [issueCommand, if_neg (by simp [hs]), hdec]
    rw [hissue]
    rcases exec_withControl i s with ⟨u, -, he⟩ | ⟨c, he⟩
    · exact .inl ⟨_, he s.control, hs, rfl, rfl⟩
    · exact .inr ⟨c, encode_of_decode hdec ▸ he s.control⟩

/-- The three cases of a command word: ignored, illegal, or legal (R291). -/
theorem issueCommand_spec (w : Word) (s : State) :
    (s.fault ≠ none → issueCommand w s = .next s) ∧
    (s.fault = none → ∀ e, decode s.cfg.hasRsdec w = .error e →
      issueCommand w s = .next (raiseFault .illegalCmd w s)) ∧
    (s.fault = none →
      (∃ t, issueCommand w s = .next t ∧ t.fault = none ∧ t.faultcmd = s.faultcmd ∧ t.cmdcnt = s.cmdcnt + 1) ∨
      ∃ c, issueCommand w s = .next (raiseFault c w s)) :=
  ⟨issueCommand_halted, fun hs _ => issueCommand_illegal hs, issueCommand_completes_or_faults⟩

/-- No action but reset changes `FAULT`, `FAULTCMD`, `CMDCNT`, `PHASE` or `MAT` of a halted engine (R291). -/
theorem hostAction_halted {a : HostAct} {s t : State} (hs : s.fault ≠ none) (ha : a ≠ .reset)
    (h : hostAction a s = .next t) :
    t.fault = s.fault ∧ t.faultcmd = s.faultcmd ∧ t.cmdcnt = s.cmdcnt ∧ t.phase = s.phase ∧ t.mat = s.mat := by
  cases a with
  | command w =>
    cases (issueCommand_halted hs).symm.trans h
    exact ⟨rfl, rfl, rfl, rfl, rfl⟩
  | reset => exact absurd rfl ha
  | writeBuf | readBuf | readMat | readPort =>
    cases h
    exact ⟨rfl, rfl, rfl, rfl, rfl⟩

theorem faultOut_iff (s : State) : s.faultOut = true ↔ s.fault ≠ none := Option.isSome_iff_ne_none

end Sys2Proof.Machine

namespace Sys2Proof.Proofs

open Sys2Proof.Machine

/-- Settles O7: a step takes the host's action; a command either is refused, completes or raises one fault, whose word is
the word handed over as a legal command has only one. -/
theorem stepRelation : Obligations.StepRelation := by
  refine ⟨fun s w rest hh => ?_, fun s t hs hreset hstep => ?_, fun s rest _ => ?_, faultOut_iff⟩
  · rw [step_of_host hh]
    exact issueCommand_spec w { s with host := rest }
  · match hh : s.host with
    | [] =>
      cases (step_of_no_host hh).symm.trans hstep
      exact ⟨rfl, rfl, rfl, rfl, rfl⟩
    | a :: rest =>
      refine hostAction_halted (s := { s with host := rest }) hs ?_ ((step_of_host hh).symm.trans hstep)
      rintro rfl
      exact hreset (by rw [hh]; rfl)
  · exact ⟨fun hh => ⟨_, step_of_host hh, rfl⟩, fun _ _ => step_of_host, fun _ => step_of_host, fun _ _ => step_of_host,
      fun _ => step_of_host⟩

end Sys2Proof.Proofs
end

section
/-! The statement about the phases (60_exceptions.md, R293). -/

namespace Sys2Proof.Machine

/-! ## The commands of the table -/

/-- The answer is no `BAD_PHASE`, and a state it completes with is in the phase `q`. -/
def EndsIn (q : Phase) (r : Except FaultCode State) : Prop := r ≠ .error .badPhase ∧ ∀ t, r = .ok t → t.phase = q

namespace EndsIn

variable {q : Phase} {r : Except FaultCode State}

theorem ok {t : State} (h : t.phase = q) : EndsIn q (.ok t) := by
  refine ⟨nofun, ?_⟩
  rintro _ ⟨⟩
  exact h

theorem error {c : FaultCode} (h : c ≠ .badPhase) : EndsIn q (.error c) := by
  refine ⟨fun he => h (Except.error.inj he), ?_⟩
  rintro _ ⟨⟩

theorem faultIf {b : Bool} {c : FaultCode} (hc : c ≠ .badPhase) (h : EndsIn q r) : EndsIn q (faultIf b c r) := by
  cases b
  · exact h
  · exact error hc

theorem memRead {s : State} {a n : Nat} {f : List Byte → Except FaultCode State} (h : ∀ l, EndsIn q (f l)) :
    EndsIn q ((s.memRead a n).bind f) := by
  unfold State.memRead
  split
  · exact error (by decide)
  · exact h _

theorem setCfgReg (c : CfgReg) (imm : BitVec 16) {s : State} (h : s.phase = q) : EndsIn q (setCfgReg c imm s) := by
  cases c with
  | version => exact faultIf (by decide) (faultIf (by decide) (ok h))
  | ecl | maskreq | dcount => exact faultIf (by decide) (ok h)

end EndsIn

theorem specFault_ne_badPhase (T : CfgTables) (v : Int) (e : Nat) : specFault T v e ≠ some .badPhase := by
  cases h : validSpec T v e with
  | true => simp [specFault_of_valid h]
  | false =>
    rw [specFault_of_invalid h]
    split <;> decide

/-- A command of the table first checks its phases, and then raises no `BAD_PHASE` and leaves the table's phase. -/
theorem exec_of_phaseRule {i : Instr} {legal : List Phase} {after : Option Phase}
    (h : phaseRule i = some (legal, after)) (s : State) :
    ∃ b r, exec i s = finish i s (requirePhase b r) ∧ (b = true ↔ s.phase ∈ legal) ∧
      (s.phase ∈ legal → EndsIn (after.getD s.phase) r) := by
  cases i <;> cases h <;> refine ⟨_, _, rfl, by cases s.phase <;> decide, fun hp => ?_⟩
  case cfgSet c imm => exact .setCfgReg c imm (List.mem_singleton.1 hp)
  case matAlloc =>
    split
    next f hf => exact .error fun hbad => specFault_ne_badPhase _ _ _ (hbad ▸ hf)
    next => exact .ok rfl
  case matStamp | fmtWrite => exact .ok rfl
  case matPlace => exact .memRead fun _ => .ok rfl
  case matRd => exact .faultIf (by decide) (.ok rfl)
  case maskApply => exact .faultIf (by decide) (.ok (List.mem_singleton.1 hp))
  case maskScore => exact .ok rfl
  case maskSelect =>
    split
    · exact .faultIf (by decide) (.ok rfl)
    · exact .ok rfl

/-- How a command ends whose answer is no `BAD_PHASE`: it raises another fault, which is not counted, or it completes in
the phase `q` (R291). -/
theorem finish_of_endsIn {i : Instr} {s : State} {q : Phase} {r : Except FaultCode State} (h : EndsIn q r) :
    finish i s r ≠ .next (raiseFault .badPhase (encode i) s) ∧
    ∀ t, finish i s r = .next t → t.cmdcnt = s.cmdcnt + 1 → t.phase = q := by
  have hcount : s.cmdcnt ≠ s.cmdcnt + 1 := by bv_omega
  obtain ⟨hne, hq⟩ := h
  cases r with
  | ok u =>
    refine ⟨fun he => hcount ?_, ?_⟩
    · exact congrArg State.cmdcnt (Host.Outcome.next.inj he).symm
    · rintro _ ⟨⟩ -
      exact hq u rfl
  | error c =>
    refine ⟨fun he => hne ?_, ?_⟩
    · exact congrArg Except.error (Option.some.inj (congrArg State.fault (Host.Outcome.next.inj he)))
    · rintro _ ⟨⟩ ht
      exact absurd ht hcount

/-! ## The commands that are legal in every phase -/

/-- The state in another phase. -/
def State.withPhase (q : Phase) (s : State) : State := { s with phase := q }

theorem withPhase_specFault (q : Phase) (s : State) : (s.withPhase q).specFault = s.specFault := rfl

section
variable {q : Phase} {s : State}

theorem Carries.setP_withPhase (p : PReg) (l : List Byte) :
    Carries (State.withPhase q) (s.setP p l) ((s.withPhase q).setP p l) := .ite (.ok _) (.error _)

theorem Carries.memWrite_withPhase (a : Nat) (l : List Byte) :
    Carries (State.withPhase q) (s.memWrite a l) ((s.withPhase q).memWrite a l) := .ite (.error _) (.ok _)

end

/-- A command that is not in the table is `finish` of an answer that carries over to another phase. -/
theorem exec_carries_withPhase {i : Instr} (h : phaseRule i = none) (s : State) (q : Phase) :
    ∃ r r', exec i s = finish i s r ∧ exec i (s.withPhase q) = finish i (s.withPhase q) r' ∧
      Carries (State.withPhase q) r r' := by
  cases i <;> dsimp only [exec] <;> refine ⟨_, _, rfl, rfl, ?_⟩
  case cfgSet | matAlloc | matStamp | matPlace | matRd | maskApply | maskScore | maskSelect | fmtWrite => cases h
  case nop | gfLi | gfMv | gfExp | gfAdd | gfMul | pEval | pDeg => exact .ok _
  case gfInv | gfLog | gfDiv | ldb | stb | ldbx | stbx | pGetc => exact .faultIf (.ok _)
  case pClr | pMv | pAdd | pScale | pMul | pDeriv => exact .setP_withPhase _ _
  case pSetc | pMod | pShl => exact .faultIf (.setP_withPhase _ _)
  case pLd | rsEnc => exact .faultIf (.bind fun _ => .setP_withPhase _ _)
  case pSt => exact .memWrite_withPhase _ _
  case rsGen => exact .ite (.map (.setP_withPhase _ _) fun _ => rfl) (.error _)
  case ecBuild =>
    rw [withPhase_specFault]
    split
    · exact .error _
    · exact .faultIf (.faultIf (.bind fun _ => .bindState (.memWrite_withPhase _ _) fun _ =>
        .bindState (.setP_withPhase _ _) fun _ => .map (.setP_withPhase _ _) fun _ => rfl))
  case rsSyn => exact .faultIf (.faultIf (.bind fun _ => .map (.setP_withPhase _ _) fun _ => rfl))
  case rsBm | rsChien => exact .faultIf (.faultIf (.map (.setP_withPhase _ _) fun _ => rfl))
  case rsOmega => exact .faultIf (.faultIf (.setP_withPhase _ _))
  case rsForney => exact .faultIf (.map (.setP_withPhase _ _) fun _ => rfl)
  case rsFix => exact .faultIf (.faultIf (.faultIf (.faultIf (.ok _))))

/-- A command that is not in the table runs the same in every phase. -/
theorem exec_withPhase {i : Instr} {s t : State} (h : phaseRule i = none) (ht : exec i s = .next t) (q : Phase) :
    exec i (s.withPhase q) = .next (t.withPhase q) := by
  obtain ⟨r, _, he, he', rfl⟩ := exec_carries_withPhase h s q
  rw [he']
  rw [he] at ht
  cases r <;> cases ht <;> rfl

/-- A command that is not in the table leaves the phase: it runs the same in the phase the engine is in. -/
theorem exec_keeps_phase {i : Instr} {s t : State} (h : phaseRule i = none) (ht : exec i s = .next t) :
    t.phase = s.phase := by
  have hsame : exec i s = .next (t.withPhase s.phase) := exec_withPhase h ht s.phase
  calc t.phase
    _ = (t.withPhase s.phase).phase := congrArg State.phase (Host.Outcome.next.inj (ht.symm.trans hsame))
    _ = s.phase := rfl

end Sys2Proof.Machine

namespace Sys2Proof.Proofs

open Sys2Proof.Machine

/-- Settles O14: the phase check comes first and is the only source of `BAD_PHASE`, and the meanings of the other commands
carry over to every phase. -/
theorem phaseTable : Obligations.PhaseTable := by
  refine ⟨fun i s legal after hi => ?_, fun i s t q hi ht => ⟨exec_keeps_phase hi ht, exec_withPhase hi ht q⟩⟩
  obtain ⟨b, r, he, hb, hend⟩ := exec_of_phaseRule hi s
  rw [Faults, he]
  refine ⟨fun hp => ?_, fun hp => ?_⟩
  · rw [Bool.eq_false_iff.2 (mt hb.1 hp)]
    rfl
  · rw [hb.2 hp]
    exact finish_of_endsIn (hend hp)

end Sys2Proof.Proofs
end

section
/-! The statement about what no command changes any more (60_exceptions.md, R332). -/

namespace Sys2Proof.Machine

/-! ## Changes of values in one class of modules -/

/-- From `m` to `m'` no class changes, and no value but those of the modules of class `k`. -/
def ValuesOnly (k : ModClass) (m m' : Mat) : Prop :=
  ∀ r c, (m'.get r c).cls = (m.get r c).cls ∧ ((m.get r c).cls ≠ k → m'.get r c = m.get r c)

/-- The cell is of class `k`, if it is a cell of the array at all. -/
def CellOf (k : ModClass) (m : Mat) (rc : Nat × Nat) : Prop :=
  rc.1 < nmax → rc.2 < nmax → (m.get rc.1 rc.2).cls = k

section
variable {k : ModClass} {m m' m'' : Mat}

theorem ValuesOnly.refl (k : ModClass) (m : Mat) : ValuesOnly k m m := fun _ _ => ⟨rfl, fun _ => rfl⟩

theorem ValuesOnly.trans (h : ValuesOnly k m m') (h' : ValuesOnly k m' m'') : ValuesOnly k m m'' := by
  intro r c
  obtain ⟨hcls, hval⟩ := h r c
  obtain ⟨hcls', hval'⟩ := h' r c
  exact ⟨hcls'.trans hcls, fun hk => (hval' (hcls ▸ hk)).trans (hval hk)⟩

theorem ValuesOnly.cellOf {rc : Nat × Nat} (h : ValuesOnly k m m') (hrc : CellOf k m rc) : CellOf k m' rc :=
  fun hr hc => (h rc.1 rc.2).1.trans (hrc hr hc)

theorem valuesOnly_setVal {rc : Nat × Nat} (b : Bool) (h : CellOf k m rc) : ValuesOnly k m (m.setVal rc.1 rc.2 b) := by
  refine fun r c => ⟨Mat.cls_setVal .., fun hk => ?_⟩
  rw [Mat.get_setVal, if_neg]
  rintro ⟨rfl, rfl, hr, hc⟩
  exact hk (h hr hc)

/-- A mask inverts values of data modules only (R250). -/
theorem valuesOnly_applyMask (T : CfgTables) (v : Int) (i : Nat) (m : Mat) : ValuesOnly .data m (applyMask T v i m) := by
  refine fun r c => ⟨cls_applyMask .., fun hk => ?_⟩
  simp [applyMask, Mat.get_mapCorner, hk]

/-- Placing bits changes values of the cells of its order only (R236). -/
theorem valuesOnly_placeBits {order : List (Nat × Nat)} (bits : List Bool) (h : ∀ rc ∈ order, CellOf k m rc) :
    ValuesOnly k m (placeBits order bits m) := by
  induction order generalizing bits m with
  | nil => exact .refl k m
  | cons rc order ih =>
    obtain ⟨hrc, horder⟩ := List.forall_mem_cons.1 h
    have placed : ∀ (b : Bool) (bits : List Bool), ValuesOnly k m (placeBits order bits (m.setVal rc.1 rc.2 b)) := by
      intro b bits
      have hset := valuesOnly_setVal b hrc
      exact hset.trans (ih bits fun rc' hmem => hset.cellOf (horder rc' hmem))
    cases bits with
    | nil => exact placed false []
    | cons b bits => exact placed b bits

/-- Writing a word changes values of the word's cells only (R270). -/
theorem valuesOnly_writeWord {nbits : Nat} {cells : Nat → List (Nat × Nat)} (word : Nat)
    (h : ∀ i < nbits, ∀ rc ∈ cells i, CellOf k m rc) : ValuesOnly k m (writeWord word nbits cells m) := by
  refine List.foldlRecOn _ _ (.refl k m) fun m' hm' i hi => ?_
  refine List.foldlRecOn _ _ hm' fun m'' hm'' rc hrc => ?_
  exact hm''.trans (valuesOnly_setVal _ (hm''.cellOf (h i (List.mem_range.1 hi) rc hrc)))

end

/-! ## The cells of the format and version words are reserved modules -/

/-- The last cells that `MAT.STAMP` writes: the format and version areas (R228 to R230). -/
def reservedWrites (v : Int) : List CellWrite :=
  (if isMicro v then formatAreaMicro else formatAreaFull (symbolSize v)) ++ versionArea v (symbolSize v)

/-- Nothing that `MAT.STAMP` writes comes after the format and version areas (R221). -/
theorem stampWrites_ends_reserved (T : CfgTables) (v : Int) : ∃ ws, stampWrites T v = ws ++ reservedWrites v :=
  ⟨_, List.append_assoc ..⟩

theorem rsvd_of_mem_reservedWrites {v : Int} {w : CellWrite} (h : w ∈ reservedWrites v) : w.2.2.cls = .rsvd := by
  have area : ∃ r c, w = setr r c := by
    unfold reservedWrites formatAreaMicro formatAreaFull versionArea at h
    grind
  obtain ⟨r, c, rfl⟩ := area
  rfl

/-- A cell that the last of the writes name is of their class. -/
theorem cellOf_applyWrites {k : ModClass} {last : List CellWrite} (ws : List CellWrite) (m : Mat)
    (hlast : ∀ w ∈ last, w.2.2.cls = k) {w : CellWrite} (hw : w ∈ last) :
    CellOf k (applyWrites m (ws ++ last)) (w.1, w.2.1) := by
  intro hr hc
  have hsplit : applyWrites m (ws ++ last) = applyWrites (applyWrites m ws) last := List.foldl_append ..
  obtain ⟨w', hw'⟩ : ∃ w', last.reverse.find? (fun x => decide (x.1 = w.1 ∧ x.2.1 = w.2.1)) = some w' := by
    rw [← Option.isSome_iff_exists, List.find?_isSome]
    exact ⟨w, List.mem_reverse.2 hw, by simp⟩
  rw [hsplit, get_applyWrites _ _ hr hc, hw']
  exact hlast w' (List.mem_reverse.1 (List.mem_of_find?_eq_some hw'))

theorem stampedMat_rsvd {T : CfgTables} {v : Int} {rc : Nat × Nat} (h : setr rc.1 rc.2 ∈ reservedWrites v) :
    CellOf .rsvd (stampedMat T v) rc := by
  obtain ⟨ws, hws⟩ := stampWrites_ends_reserved T v
  rw [stampedMat, hws]
  exact cellOf_applyWrites ws _ (fun _ => rsvd_of_mem_reservedWrites) h

/-- The cells of the format area next to the top-left finder pattern (R228). -/
theorem mem_formatAreaFull_corner {n j : Nat} (hj : j < 9) (h6 : j ≠ 6) :
    setr 8 j ∈ formatAreaFull n ∧ setr j 8 ∈ formatAreaFull n := by
  have hmem : j ∈ (List.range 9).filter fun i => i ≠ 6 := by simp [hj, h6]
  constructor
  all_goals
    refine List.mem_append_left _ (List.mem_append_left _ (List.mem_flatMap.2 ⟨j, hmem, ?_⟩))
    simp

/-- The cells of the format area below the top-right finder pattern (R228). -/
theorem mem_formatAreaFull_row {n j : Nat} (hj : j < 8) : setr 8 (n - 1 - j) ∈ formatAreaFull n :=
  List.mem_append_left _ (List.mem_append_right _ (List.mem_map.2 ⟨j, List.mem_range.2 hj, rfl⟩))

/-- The cells of the format area right of the bottom-left finder pattern (R228). -/
theorem mem_formatAreaFull_column {n j : Nat} (hj : j < 7) : setr (n - 1 - j) 8 ∈ formatAreaFull n :=
  List.mem_append_right _ (List.mem_map.2 ⟨j, List.mem_range.2 hj, rfl⟩)

/-- The format bits of a full symbol go to its format area (R228, R264). -/
theorem formatCellsFull_reserved {n i : Nat} (hn : 15 ≤ n) (hi : i < 15) {rc : Nat × Nat} (h : rc ∈ formatCellsFull n i) :
    setr rc.1 rc.2 ∈ formatAreaFull n := by
  obtain rfl | rfl := List.mem_pair.1 h
  · split_ifs
    · exact (mem_formatAreaFull_corner (by omega) (by omega)).2
    · exact (mem_formatAreaFull_corner (by decide) (by decide)).2
    · exact (mem_formatAreaFull_corner (by decide) (by decide)).2
    · exact (mem_formatAreaFull_corner (by decide) (by decide)).1
    · exact (mem_formatAreaFull_corner (by omega) (by omega)).1
  · split_ifs
    · exact mem_formatAreaFull_row (by omega)
    · have hrow : n - 15 + i = n - 1 - (14 - i) := by omega
      rw [hrow]
      exact mem_formatAreaFull_column (by omega)

/-- The format bits of a Micro symbol go to its format area (R229, R264). -/
theorem formatCellsMicro_reserved {i : Nat} (hi : i < 15) {rc : Nat × Nat} (h : rc ∈ formatCellsMicro i) :
    setr rc.1 rc.2 ∈ formatAreaMicro := by
  obtain rfl := List.mem_singleton.1 h
  split_ifs
  · exact List.mem_flatMap.2 ⟨i + 1, List.mem_range'_1.2 (by omega), by simp⟩
  · exact List.mem_flatMap.2 ⟨15 - i, List.mem_range'_1.2 (by omega), by simp⟩

/-- The format bits go to the format area (R228, R229, R264). -/
theorem formatCells_reserved {v : Int} {i : Nat} (hi : i < 15) {rc : Nat × Nat} (h : rc ∈ formatCells v i) :
    setr rc.1 rc.2 ∈ reservedWrites v := by
  refine List.mem_append_left _ ?_
  unfold formatCells at h
  split_ifs at h ⊢ with hmicro
  · exact formatCellsMicro_reserved hi h
  · have hsize : 15 ≤ symbolSize v := by
      have hv : 1 ≤ v := by simpa [isMicro] using hmicro
      rw [symbolSize, if_pos hv]
      omega
    exact formatCellsFull_reserved hsize hi h

/-- The version bits go to the version area (R230, R268). -/
theorem versionCells_reserved {v : Int} (hv : 7 ≤ v) {i : Nat} (hi : i < 18) {rc : Nat × Nat}
    (h : rc ∈ versionCells (symbolSize v) i) : setr rc.1 rc.2 ∈ reservedWrites v := by
  have hrow : i / 3 ∈ List.range 6 := List.mem_range.2 (by omega)
  have hcol : symbolSize v - 11 + i % 3 ∈ List.range' (symbolSize v - 11) 3 := List.mem_range'_1.2 (by omega)
  refine List.mem_append_right _ ?_
  rw [versionArea, if_pos hv]
  refine List.mem_flatMap.2 ⟨_, hrow, List.mem_flatMap.2 ⟨_, hcol, ?_⟩⟩
  obtain rfl | rfl := List.mem_pair.1 h <;> simp

/-- On a matrix whose classes are the stamped ones, writing the format and version words changes values of reserved modules
only (R270). -/
theorem valuesOnly_format {T : CfgTables} {v : Int} {m : Mat} (h : ∀ r c, (m.get r c).cls = ((stampedMat T v).get r c).cls)
    (ecl mask : Nat) : ValuesOnly .rsvd m (writeVersion T v (writeFormat T v ecl mask m)) := by
  have reserved : ∀ rc : Nat × Nat, setr rc.1 rc.2 ∈ reservedWrites v → CellOf .rsvd m rc :=
    fun rc hrc hr hc => (h rc.1 rc.2).trans (stampedMat_rsvd hrc hr hc)
  have hformat : ValuesOnly .rsvd m (writeFormat T v ecl mask m) :=
    valuesOnly_writeWord _ fun i hi rc hrc => reserved rc (formatCells_reserved hi hrc)
  unfold writeVersion
  split
  next hv =>
    exact hformat.trans (valuesOnly_writeWord _ fun i hi rc hrc =>
      hformat.cellOf (reserved rc (versionCells_reserved hv hi hrc)))
  next => exact hformat

/-! ## What a command can do to the matrix -/

/-- From `s` to `t` neither the configuration nor the matrix nor the phase changes. -/
def KeepsMat (s t : State) : Prop := t.cfg = s.cfg ∧ t.mat = s.mat ∧ t.phase = s.phase

/-- What each command that writes the matrix needs of the phase and does to the matrix when it completes (R332). -/
def WritesMat (s t : State) : Instr → Prop
  | .matAlloc => s.phase = .idle
  | .matStamp => s.phase = .allocated
  | .matPlace => s.phase = .stamped ∧ ValuesOnly .data s.mat t.mat
  | .maskApply _ | .maskSelect => s.phase = .placed ∧ ValuesOnly .data s.mat t.mat
  | .fmtWrite => s.phase = .masked ∧ ∃ ecl mask,
      t.mat = writeVersion s.tables s.versionInt (writeFormat s.tables s.versionInt ecl mask s.mat)
  | _ => False

/-- Every state that the answer completes with is such. -/
def Ends (P : State → Prop) (r : Except FaultCode State) : Prop := ∀ t, r = .ok t → P t

namespace Ends

variable {P Q : State → Prop} {r : Except FaultCode State} {s u : State}

theorem ok {t : State} (h : P t) : Ends P (.ok t) := by
  rintro _ ⟨⟩
  exact h

theorem error (c : FaultCode) : Ends P (.error c) := by rintro _ ⟨⟩

theorem faultIf {b : Bool} {c : FaultCode} (h : Ends P r) : Ends P (faultIf b c r) := by
  cases b
  · exact h
  · exact error c

theorem requirePhase {b : Bool} (h : b = true → Ends P r) : Ends P (requirePhase b r) := by
  cases b
  · exact error .badPhase
  · exact h rfl

theorem bindRead {m : Except FaultCode (List Byte)} {f : List Byte → Except FaultCode State} (h : ∀ l, Ends P (f l)) :
    Ends P (m.bind f) := by
  cases m
  · exact error _
  · exact h _

theorem bind {f : State → Except FaultCode State} (h : Ends Q r) (hf : ∀ t, Q t → Ends P (f t)) : Ends P (r.bind f) := by
  cases r
  · exact error _
  · exact hf _ (h _ rfl)

theorem map {f : State → State} (h : Ends Q r) (hf : ∀ t, Q t → P (f t)) : Ends P (r.map f) := by
  cases r
  · exact error _
  · exact ok (hf _ (h _ rfl))

theorem setP {k : PReg} {l : List Byte} (h : KeepsMat s u) : Ends (KeepsMat s) (u.setP k l) := by
  intro t ht
  obtain ⟨-, rfl⟩ := State.setP_eq_ok.1 ht
  exact h

theorem memWrite {a : Nat} {l : List Byte} (h : KeepsMat s u) : Ends (KeepsMat s) (u.memWrite a l) := by
  unfold State.memWrite
  split
  · exact error _
  · exact ok h

theorem setCfgReg (c : CfgReg) (imm : BitVec 16) (s : State) : Ends (KeepsMat s) (setCfgReg c imm s) := by
  cases c with
  | version => exact faultIf (faultIf (ok ⟨rfl, rfl, rfl⟩))
  | ecl | maskreq | dcount => exact faultIf (ok ⟨rfl, rfl, rfl⟩)

end Ends

/-- A meaning keeps the configuration, the matrix and the phase, or it is that of one of the commands that write the matrix. -/
theorem exec_ends (i : Instr) (s : State) : ∃ r, exec i s = finish i s r ∧
    Ends (fun t => KeepsMat s t ∨ t.cfg = s.cfg ∧ WritesMat s t i) r := by
  suffices h : ∃ r, exec i s = finish i s r ∧
      (Ends (KeepsMat s) r ∨ Ends (fun t => t.cfg = s.cfg ∧ WritesMat s t i) r) by
    obtain ⟨r, he, h | h⟩ := h
    · exact ⟨r, he, fun t ht => .inl (h t ht)⟩
    · exact ⟨r, he, fun t ht => .inr (h t ht)⟩
  have same : KeepsMat s s := ⟨rfl, rfl, rfl⟩
  cases i <;> dsimp only [exec] <;> refine ⟨_, rfl, ?_⟩
  case matAlloc =>
    refine .inr (.requirePhase fun hp => ?_)
    split
    · exact .error _
    · exact .ok ⟨rfl, eq_of_beq hp⟩
  case matStamp => exact .inr (.requirePhase fun hp => .ok ⟨rfl, eq_of_beq hp⟩)
  case matPlace =>
    refine .inr (.requirePhase fun hp => .bindRead fun _ => .ok ⟨rfl, eq_of_beq hp, valuesOnly_placeBits _ ?_⟩)
    exact fun rc hrc _ _ => eq_of_beq (List.mem_filter.1 hrc).2
  case maskApply =>
    exact .inr (.requirePhase fun hp => .faultIf (.ok ⟨rfl, eq_of_beq hp, valuesOnly_applyMask _ _ _ _⟩))
  case maskSelect =>
    refine .inr (.requirePhase fun hp => ?_)
    split
    · exact .faultIf (.ok ⟨rfl, eq_of_beq hp, valuesOnly_applyMask _ _ _ _⟩)
    · exact .ok ⟨rfl, eq_of_beq hp, valuesOnly_applyMask _ _ _ _⟩
  case fmtWrite => exact .inr (.requirePhase fun hp => .ok ⟨rfl, eq_of_beq hp, _, _, rfl⟩)
  all_goals left
  case nop | gfLi | gfMv | gfExp | gfAdd | gfMul | pEval | pDeg => exact .ok same
  case gfInv | gfLog | gfDiv | ldb | stb | ldbx | stbx | pGetc => exact .faultIf (.ok same)
  case cfgSet => exact .requirePhase fun _ => .setCfgReg _ _ _
  case matRd => exact .requirePhase fun _ => .faultIf (.ok same)
  case maskScore => exact .requirePhase fun _ => .ok same
  case pClr | pMv | pAdd | pScale | pMul | pDeriv => exact .setP same
  case pSetc | pMod | pShl => exact .faultIf (.setP same)
  case pLd | rsEnc => exact .faultIf (.bindRead fun _ => .setP same)
  case pSt => exact .memWrite same
  case rsGen =>
    split
    · exact .map (.setP same) fun _ ht => ht
    · exact .error _
  case ecBuild =>
    split
    · exact .error _
    · exact .faultIf (.faultIf (.bindRead fun _ => .bind (.memWrite same) fun _ ht => .bind (.setP ht) fun _ hu =>
        .map (.setP hu) fun _ hv => hv))
  case rsSyn => exact .faultIf (.faultIf (.bindRead fun _ => .map (.setP same) fun _ ht => ht))
  case rsBm | rsChien => exact .faultIf (.faultIf (.map (.setP same) fun _ ht => ht))
  case rsOmega => exact .faultIf (.faultIf (.setP same))
  case rsForney => exact .faultIf (.map (.setP same) fun _ ht => ht)
  case rsFix => exact .faultIf (.faultIf (.faultIf (.faultIf (.ok same))))

/-- All that a command can do to the configuration, the matrix and the phase. -/
theorem exec_keeps_or_writes {i : Instr} {s t : State} (h : exec i s = .next t) :
    KeepsMat s t ∨ t.cfg = s.cfg ∧ WritesMat s t i := by
  obtain ⟨r, he, hr⟩ := exec_ends i s
  rcases finish_next (he.symm.trans h) with ⟨u, hu, rfl⟩ | ⟨c, -, rfl⟩
  · exact hr u hu
  · exact .inl ⟨rfl, rfl, rfl⟩

/-- All that a step can do to the configuration, the matrix and the phase: it keeps them, or it is one of the commands
that write the matrix, or it is the reset (R291, R320). -/
theorem step_keeps_or_writes {s t : State} (h : step s = .next t) :
    KeepsMat s t ∨ t.cfg = s.cfg ∧ ((∃ i, WritesMat s t i) ∨ ¬ s.noReset) := by
  match hh : s.host with
  | [] =>
    cases (step_of_no_host hh).symm.trans h
    exact .inl ⟨rfl, rfl, rfl⟩
  | .command w :: rest =>
    have hissue : issueCommand w { s with host := rest } = .next t := (step_of_host hh).symm.trans h
    unfold issueCommand at hissue
    split at hissue
    · cases hissue
      exact .inl ⟨rfl, rfl, rfl⟩
    · split at hissue
      next i _ =>
        rcases exec_keeps_or_writes hissue with hkeep | ⟨hcfg, hwrite⟩
        · exact .inl hkeep
        · exact .inr ⟨hcfg, .inl ⟨i, hwrite⟩⟩
      next =>
        cases hissue
        exact .inl ⟨rfl, rfl, rfl⟩
  | .reset :: rest =>
    cases (step_of_host hh).symm.trans h
    exact .inr ⟨rfl, .inr fun hn => hn (congrArg List.head? hh)⟩
  | .writeBuf .. :: _ | .readBuf _ :: _ | .readMat .. :: _ | .readPort _ :: _ =>
    cases (step_of_host hh).symm.trans h
    exact .inl ⟨rfl, rfl, rfl⟩

/-! ## What is immutable from `MAT.STAMP` on -/

/-- In `FINAL` no command writes the matrix (R293). -/
theorem WritesMat.ne_final {s t : State} {i : Instr} (h : WritesMat s t i) : s.phase ≠ .final := by
  cases i with
  | matAlloc | matStamp => exact ne_of_eq_of_ne h (by decide)
  | matPlace | maskApply | maskSelect | fmtWrite => exact ne_of_eq_of_ne h.1 (by decide)
  | _ => exact h.elim

theorem WritesMat.fmtWrite_valuesOnly {s t : State} (hinv : s.MatInv) (h : WritesMat s t .fmtWrite) :
    ValuesOnly .rsvd s.mat t.mat := by
  obtain ⟨hp, ecl, mask, hmat⟩ := h
  rw [hmat]
  exact valuesOnly_format (hinv.classes (by rw [hp]; decide)) ecl mask

/-- From `MAT.STAMP` on a command that writes the matrix changes values of data or of reserved modules only (R231 (c)). -/
theorem WritesMat.valuesOnly {s t : State} {i : Instr} (hinv : s.MatInv) (hp : 2 ≤ s.phase.code) (h : WritesMat s t i) :
    ∃ k, k ≠ .func ∧ ValuesOnly k s.mat t.mat := by
  cases i with
  | matAlloc | matStamp =>
    have hearly : s.phase = _ := h
    exact absurd hp (by rw [hearly]; decide)
  | matPlace | maskApply | maskSelect => exact ⟨.data, by decide, h.2⟩
  | fmtWrite => exact ⟨.rsvd, by decide, h.fmtWrite_valuesOnly hinv⟩
  | _ => exact h.elim

/-- What is true of the cells of a matrix in which only values of one class changed, if that class is not `FUNC`. -/
theorem ValuesOnly.functions_fixed {k : ModClass} {m m' : Mat} (h : ValuesOnly k m m') (hk : k ≠ .func) (r c : Nat) :
    (m'.get r c).cls = (m.get r c).cls ∧ ((m.get r c).cls = .func → m'.get r c = m.get r c) := by
  obtain ⟨hcls, hval⟩ := h r c
  exact ⟨hcls, fun hf => hval (hf.trans_ne hk.symm)⟩

end Sys2Proof.Machine

namespace Sys2Proof.Proofs

open Sys2Proof.Machine

/-- Settles O20: a step keeps the matrix or is one of the six commands that write it; their phases leave out `FINAL`, and
those that run from `STAMPED` on write data modules, or the stamped format and version areas. -/
theorem immutability : Obligations.Immutability := by
  refine ⟨fun s t _ hinv hreset hstep => ?_, fun i s t _ hinv hexec => ?_, fun s t hstep => ?_⟩
  · have hchange : KeepsMat s t ∨ ∃ i, WritesMat s t i :=
      (step_keeps_or_writes hstep).imp_right fun h => h.2.resolve_right (not_not_intro hreset)
    rcases hchange with ⟨-, hmat, hphase⟩ | ⟨i, hwrite⟩
    · rw [hmat, hphase]
      exact ⟨fun _ _ _ => ⟨rfl, fun _ => rfl⟩, fun hf => ⟨rfl, hf⟩⟩
    · refine ⟨fun hp => ?_, fun hf => absurd hf hwrite.ne_final⟩
      obtain ⟨k, hk, hvalues⟩ := hwrite.valuesOnly hinv hp
      exact hvalues.functions_fixed hk
  · rcases exec_keeps_or_writes hexec with ⟨-, hmat, -⟩ | ⟨-, hwrite⟩
    · rw [hmat]
      exact ⟨fun _ => ValuesOnly.refl .data s.mat, fun _ => ValuesOnly.refl .rsvd s.mat, fun _ => rfl⟩
    · refine ⟨?_, ?_, ?_⟩
      · rintro (rfl | ⟨k, rfl⟩ | rfl) <;> exact hwrite.2
      · rintro rfl
        exact hwrite.fmtWrite_valuesOnly hinv
      · rintro rfl
        exact hwrite.elim
  · rcases step_keeps_or_writes hstep with ⟨hcfg, -⟩ | ⟨hcfg, -⟩ <;> exact hcfg

end Sys2Proof.Proofs
end

section
/-! The statement about encoding and decoding a command (30_encoding.md, R91 to R98). -/

namespace Sys2Proof

/-! ## What the decoder reads from an encoded word -/

@[simp] theorem mustBeZero_zero (why : Illegal) (r : Except Illegal Instr) : mustBeZero 0 why r = r := rfl

@[simp] theorem ifRsdec_true (r : Except Illegal Instr) : ifRsdec true r = r := rfl

/-- Proved by rewriting and not by `rfl`: a step of `simp` that holds by `rfl` makes the kernel compare whole decoders. -/
theorem exceptMap_ok {α β : Type} (f : α → β) (a : α) : (Except.ok a : Except Illegal α).map f = .ok (f a) := by
  rw [Except.map]

/-- Proved by rewriting, for the same reason. -/
theorem exceptBind_ok {α β : Type} (f : α → Except Illegal β) (a : α) :
    (Except.ok a : Except Illegal α).bind f = f a := by
  rw [Except.bind]

/-- A word of format N carries nothing but its opcode. -/
theorem formatN_wordI {op : Nat} (ho : op < 256) (i : Instr) : formatN (wordI op 0 0 0) i = .ok i := by
  have hlow : bits (wordI op 0 0 0) 23 0 = 0 := by
    rw [bits_wordI ho (by decide) (by decide) (by decide)]
    omega
  rw [formatN, hlow, mustBeZero_zero]

/-- The low twelve bits of a word of format R are 0. -/
theorem formatR_wordR {op d a b : Nat} (ho : op < 256) (hd : d < 16) (ha : a < 16) (hb : b < 16)
    (r : Except Illegal Instr) : formatR (wordR op d a b) r = r := by
  rw [formatR, low_wordR ho hd ha hb, mustBeZero_zero]

theorem imm16_wordI {op d a : Nat} (ho : op < 256) (hd : d < 16) (ha : a < 16) (v : BitVec 16) :
    imm16 (wordI op d a v.toNat) = v := by
  rw [imm16, low_wordI ho hd ha v.isLt, BitVec.ofNat_toNat, BitVec.setWidth_eq]

/-- The 8-bit immediate of `GF.LI` stands below eight zeros (R94). -/
theorem imm8_wordI {op d a : Nat} (ho : op < 256) (hd : d < 16) (ha : a < 16) (v : BitVec 8) :
    bits (wordI op d a v.toNat) 15 8 = 0 ∧ BitVec.ofNat 8 (bits (wordI op d a v.toNat) 7 0) = v := by
  have hv := v.isLt
  simp only [bits_wordI ho hd ha (hv.trans (by decide))]
  refine ⟨by omega, BitVec.eq_of_toNat_eq ?_⟩
  rw [BitVec.toNat_ofNat]
  omega

theorem formatB_wordB {op : Nat} (ho : op < 256) (len : BitVec 8) (addr : BitVec 13)
    (f : BitVec 8 → BitVec 13 → Instr) : formatB (wordB op len addr) f = .ok (f len addr) := by
  have hzero : bits (wordB op len addr) 15 13 = 0 := by
    have hlen := len.isLt
    have haddr := addr.isLt
    rw [wordB, bits_ofNat _ _ _ (by omega)]
    omega
  rw [formatB, hzero, mustBeZero_zero, lenField_wordB len addr ho, addr13, addrField_wordB len addr ho]
  simp

/-- Without an address the low 16 bits of a word of format B are 0. -/
theorem low_wordB_zero {op : Nat} (ho : op < 256) (len : BitVec 8) : bits (wordB op len 0) 15 0 = 0 := by
  have hlen := len.isLt
  have haddr : (0 : BitVec 13).toNat = 0 := rfl
  rw [wordB, haddr, bits_ofNat _ _ _ (by omega)]
  omega

theorem formatV_wordV {op : Nat} (ho : op < 256) (k : PReg) (len : BitVec 6) (addr : BitVec 13)
    (f : PReg → BitVec 6 → BitVec 13 → Except Illegal Instr) : formatV (wordV op k len addr) f = f k len addr := by
  have hk := k.isLt
  have hzero : bits (wordV op k len addr) 19 19 = 0 := by
    have hlen := len.isLt
    have haddr := addr.isLt
    rw [wordV, bits_ofNat _ _ _ (by omega)]
    omega
  rw [formatV, hzero, mustBeZero_zero, dField_wordV len addr ho (by omega), preg_val,
    lenField_wordV len addr ho (by omega), addr13, addrField_wordV len addr ho (by omega)]
  simp [Except.bind]

/-- Every command that the configuration has is what its word decodes to, format by format (R91, R95). -/
theorem decode_encode {hasRsdec : Bool} {i : Instr} (h : i.wellFormed hasRsdec = true) :
    decode hasRsdec (encode i) = .ok i := by
  cases i
  -- format N
  case nop | ecBuild | matAlloc | matStamp | matPlace | maskScore | maskSelect | fmtWrite =>
    simp (disch := omega) only [decode, encode, opcodeOf_wordI, formatN_wordI]
  case rsBm | rsOmega | rsForney =>
    obtain rfl : hasRsdec = true := by simpa [Instr.wellFormed, Instr.isDecodeExt] using h
    simp (disch := omega) only [decode, encode, opcodeOf_wordI, formatN_wordI, ifRsdec_true]
  -- format I
  case gfLi rd imm =>
    have hrd := rd.isLt
    obtain ⟨hzero, himm⟩ := imm8_wordI (op := 0x10) (d := rd) (a := 0) (by decide) hrd (by decide) imm
    simp (disch := omega) only [decode, encode, opcodeOf_wordI, aField_wordI, dField_wordI, hzero, himm, mustBeZero_zero,
      xreg_val]
  case cfgSet csr imm =>
    have hcsr := csr.index_lt
    simp (disch := omega) only [decode, encode, opcodeOf_wordI, aField_wordI, dField_wordI, imm16_wordI, mustBeZero_zero,
      cfgReg_index, exceptMap_ok]
  case ldb | stb | ldbx | stbx | pGetc | pSetc | pShl | rsGen | maskApply =>
    simp (disch := omega) only [decode, encode, opcodeOf_wordI, aField_wordI, dField_wordI, imm16_wordI, mustBeZero_zero,
      xreg_val, preg_val, exceptMap_ok, exceptBind_ok]
  -- format R
  case gfMv | gfInv | gfExp | gfLog | gfAdd | gfMul | gfDiv | pClr | pMv | pAdd | pMul | pMod | pScale | pEval | pDeriv |
      pDeg | matRd =>
    simp (disch := omega) only [decode, encode, opcodeOf_wordR, formatR_wordR, dField_wordR, aField_wordR, bField_wordR,
      mustBeZero_zero, xreg_val, preg_val, exceptMap_ok, exceptBind_ok]
  -- format V
  case pLd | pSt =>
    simp (disch := omega) only [decode, encode, opcodeOf_wordV, formatV_wordV, mustBeZero_zero,
      show (0 : BitVec 6).toNat = 0 from rfl]
  -- format B
  case rsEnc => simp (disch := omega) only [decode, encode, opcodeOf_wordB, formatB_wordB]
  case rsSyn | rsFix =>
    obtain rfl : hasRsdec = true := by simpa [Instr.wellFormed, Instr.isDecodeExt] using h
    simp (disch := omega) only [decode, encode, opcodeOf_wordB, formatB_wordB, ifRsdec_true]
  case rsChien len =>
    obtain rfl : hasRsdec = true := by simpa [Instr.wellFormed, Instr.isDecodeExt] using h
    simp (disch := omega) only [decode, encode, opcodeOf_wordB, low_wordB_zero, lenField_wordB, mustBeZero_zero,
      ifRsdec_true, BitVec.ofNat_toNat, BitVec.setWidth_eq]

end Sys2Proof

namespace Sys2Proof.Proofs

/-- Settles O1: the fields that each format of the encoder writes are those that the decoder reads. -/
theorem encodeThenDecode : Obligations.EncodeThenDecode := fun _ _ => decode_encode

end Sys2Proof.Proofs
end

section
/-! The statements about legal words and the opcode table (30_encoding.md, R93, R95, R97; 60_exceptions.md, R291). -/

namespace Sys2Proof.Machine

/-! ## Legal words -/

/-- The opcodes of the decode extension (R95). -/
theorem opcodeOf_encode_decodeExt {i : Instr} (h : i.isDecodeExt = true) :
    0x38 ≤ opcodeOf (encode i) ∧ opcodeOf (encode i) ≤ 0x3D := by
  have opcode {op : Nat} (heq : opcodeOf (encode i) = op) (hop : 0x38 ≤ op ∧ op ≤ 0x3D) :
      0x38 ≤ opcodeOf (encode i) ∧ opcodeOf (encode i) ≤ 0x3D := heq ▸ hop
  cases i
  case rsSyn len addr => exact opcode (op := 0x38) (Laws.EncodedOpcode.rsSyn len addr) (by decide)
  case rsBm => exact opcode Laws.EncodedOpcode.rsBm (by decide)
  case rsOmega => exact opcode Laws.EncodedOpcode.rsOmega (by decide)
  case rsChien len => exact opcode (op := 0x3B) (Laws.EncodedOpcode.rsChien len) (by decide)
  case rsForney => exact opcode Laws.EncodedOpcode.rsForney (by decide)
  case rsFix len addr => exact opcode (op := 0x3D) (Laws.EncodedOpcode.rsFix len addr) (by decide)
  all_goals exact absurd h Bool.false_ne_true

/-- Without `HAS_RSDEC` the opcodes of the decode commands are refused, so what the decoder accepts is none (R97). -/
theorem wellFormed_of_decode {hasRsdec : Bool} {w : Word} {i : Instr} (h : decode hasRsdec w = .ok i) :
    i.wellFormed hasRsdec = true := by
  cases hasRsdec with
  | true => rfl
  | false =>
    by_contra hne
    obtain ⟨hlo, hhi⟩ := opcodeOf_encode_decodeExt (i := i) (by simpa [Instr.wellFormed] using hne)
    rw [encode_of_decode h] at hlo hhi
    cases h.symm.trans (decode_extensionAbsent hlo hhi)

/-! ## Masks -/

/-- The bits `hi` to `lo` of a word. -/
def rangeMask (r : Nat × Nat) : Word := BitVec.ofNat 32 ((2 ^ (r.1 + 1 - r.2) - 1) <<< r.2)

theorem getLsbD_rangeMask (r : Nat × Nat) (k : Nat) :
    (rangeMask r).getLsbD k = decide (k < 32 ∧ r.2 ≤ k ∧ k ≤ r.1) := by
  rw [rangeMask, BitVec.getLsbD_ofNat, Nat.testBit_shiftLeft, Nat.testBit_two_pow_sub_one, ← Bool.decide_and,
    ← Bool.decide_and]
  exact decide_eq_decide.2 (by omega)

/-- What a mask of neighbouring bits leaves of a word is the field there (R7). -/
theorem and_rangeMask (w : Word) {hi lo : Nat} (hhi : hi < 32) :
    (w &&& rangeMask (hi, lo)).toNat = bits w hi lo * 2 ^ lo := by
  refine Nat.eq_of_testBit_eq fun k => ?_
  rw [BitVec.toNat_and, Nat.testBit_and, ← BitVec.getLsbD, ← BitVec.getLsbD, getLsbD_rangeMask, bits,
    Nat.testBit_mul_two_pow, Nat.testBit_mod_two_pow, Nat.testBit_div_two_pow, ← BitVec.getLsbD]
  by_cases hk : lo ≤ k
  · have hmask : (k < 32 ∧ lo ≤ k ∧ k ≤ hi) ↔ k - lo < hi + 1 - lo := by omega
    rw [Nat.sub_add_cancel hk, decide_eq_true hk, Bool.true_and, decide_eq_decide.2 hmask, Bool.and_comm]
  · simp [hk]

/-- The bits of the opcode and of a list of fields. -/
def fieldMask (l : List (Nat × Nat)) : Word := l.foldr (fun r m => m ||| rangeMask r) (rangeMask (31, 24))

/-- A mask of two parts, the second of which lies outside the pattern. -/
theorem and_or_eq_iff {w mask part pattern : Word} (h : pattern &&& part = 0) :
    w &&& (mask ||| part) = pattern ↔ w &&& mask = pattern ∧ w &&& part = 0 := by
  constructor
  · intro heq
    have hpart : w &&& part = 0 := by
      calc w &&& part
        _ = (w &&& (mask ||| part)) &&& part := by
          ext k
          simp only [BitVec.getElem_and, BitVec.getElem_or]
          cases w[k] <;> cases mask[k] <;> cases part[k] <;> rfl
        _ = 0 := by rw [heq, h]
    rw [BitVec.and_or_distrib_left, hpart] at heq
    exact ⟨BitVec.or_zero.symm.trans heq, hpart⟩
  · rintro ⟨hmask, hpart⟩
    rw [BitVec.and_or_distrib_left, hmask, hpart]
    exact BitVec.or_zero

/-- Under the mask of the opcode and of some fields below it a word is the opcode alone exactly when it has that opcode and
the fields are 0. -/
theorem and_fieldMask_eq_iff (w : Word) {op : Nat} (hop : op < 256) {l : List (Nat × Nat)} (hl : ∀ r ∈ l, r.1 < 24) :
    w &&& fieldMask l = BitVec.ofNat 32 (op * 2 ^ 24) ↔ opcodeOf w = op ∧ ∀ r ∈ l, bits w r.1 r.2 = 0 := by
  induction l with
  | nil =>
    have htop : (w &&& fieldMask []).toNat = opcodeOf w * 2 ^ 24 := and_rangeMask w (by decide)
    rw [← BitVec.toNat_inj, htop, BitVec.toNat_ofNat, Nat.mod_eq_of_lt (by omega)]
    simp
  | cons r l ih =>
    obtain ⟨hr, hl⟩ := List.forall_mem_cons.1 hl
    have hlow : BitVec.ofNat 32 (op * 2 ^ 24) &&& rangeMask r = 0 := by
      ext k
      rw [BitVec.getElem_and, ← BitVec.getLsbD_eq_getElem, ← BitVec.getLsbD_eq_getElem, getLsbD_rangeMask,
        BitVec.getLsbD_ofNat, Nat.testBit_mul_two_pow]
      by_cases hk : 24 ≤ k
      · have : ¬ (k < 32 ∧ r.2 ≤ k ∧ k ≤ r.1) := by omega
        simp [this]
      · simp [hk]
    have hfield : w &&& rangeMask r = 0 ↔ bits w r.1 r.2 = 0 := by
      rw [← BitVec.toNat_inj, show (w &&& rangeMask r).toNat = _ from and_rangeMask w (hr.trans (by decide))]
      simp
    have hcons : fieldMask (r :: l) = fieldMask l ||| rangeMask r := rfl
    rw [hcons, and_or_eq_iff hlow, ih hl, hfield, List.forall_mem_cons, and_assoc, and_comm (b := bits w r.1 r.2 = 0)]

/-! ## The fields that the decoder wants to be 0 -/

/-- The decoder's answer to `w` is a command exactly when the listed fields of `w` are 0. -/
def Accepts (w : Word) (l : List (Nat × Nat)) (r : Except Illegal Instr) : Prop :=
  (∃ i, r = .ok i) ↔ ∀ f ∈ l, bits w f.1 f.2 = 0

namespace Accepts

variable {w : Word} {l : List (Nat × Nat)} {r : Except Illegal Instr}

theorem ok (i : Instr) : Accepts w [] (.ok i) := by simp [Accepts]

theorem mustBeZero {hi lo : Nat} {why : Illegal} (h : Accepts w l r) :
    Accepts w ((hi, lo) :: l) (mustBeZero (bits w hi lo) why r) := by
  unfold Accepts at h ⊢
  rw [List.forall_mem_cons, ← h, Sys2Proof.mustBeZero]
  split <;> simp [*]

/-- `P.ST` has no length (R94). -/
theorem noLength {why : Illegal} (h : Accepts w l r) :
    Accepts w ((18, 13) :: l) (Sys2Proof.mustBeZero (BitVec.ofNat 6 (bits w 18 13)).toNat why r) := by
  rw [show (BitVec.ofNat 6 (bits w 18 13)).toNat = bits w 18 13 from toNat_ofNat_bits w 18 13]
  exact h.mustBeZero

/-- An operand that is refused unless the field is 0, and the rest of the decoding. -/
theorem bind {α : Type} {x : Except Illegal α} {f : α → Except Illegal Instr} {hi lo : Nat}
    (hx : (∃ k, x = .ok k) ↔ bits w hi lo = 0) (hf : ∀ k, Accepts w l (f k)) :
    Accepts w ((hi, lo) :: l) (x.bind f) := by
  unfold Accepts at hf ⊢
  rw [List.forall_mem_cons, ← hx]
  cases x with
  | ok k => rw [exceptBind_ok, hf k]; simp
  | error e => simp [Except.bind]

theorem map {α : Type} {x : Except Illegal α} {f : α → Instr} {hi lo : Nat} (hx : (∃ k, x = .ok k) ↔ bits w hi lo = 0) :
    Accepts w [(hi, lo)] (x.map f) := by
  cases x with
  | ok k => simpa [Accepts, exceptMap_ok] using hx
  | error e => simpa [Accepts, Except.map] using hx

end Accepts

/-- The decoder accepts a polynomial specifier below 8 (R92). -/
theorem preg_ok_iff (v : Nat) : (∃ k, preg v = .ok k) ↔ v < 8 := by
  unfold preg
  split <;> simp [*]

theorem preg_dField_ok_iff (w : Word) : (∃ k, preg (dField w) = .ok k) ↔ bits w 23 23 = 0 := by
  rw [preg_ok_iff, dField, bits, bits]
  omega

theorem preg_aField_ok_iff (w : Word) : (∃ k, preg (aField w) = .ok k) ↔ bits w 19 19 = 0 := by
  rw [preg_ok_iff, aField, bits, bits]
  omega

theorem preg_bField_ok_iff (w : Word) : (∃ k, preg (bField w) = .ok k) ↔ bits w 15 15 = 0 := by
  rw [preg_ok_iff, bField, bits, bits]
  omega

/-- `CFG.SET` has a register for the CSR indices 0 to 3 (R96). -/
theorem cfgReg_dField_ok_iff (w : Word) : (∃ c, cfgReg (dField w) = .ok c) ↔ bits w 23 22 = 0 := by
  have hlt (v : Nat) : (∃ c, cfgReg v = .ok c) ↔ v < 4 := by
    match v with
    | 0 | 1 | 2 | 3 => simp [cfgReg]
    | n + 4 => simp [cfgReg]
  rw [hlt, dField, bits, bits]
  omega

/-! ## The rows of the opcode table -/

/-- The opcode of a row. -/
def OpcodeRow.opcode (r : OpcodeRow) : Nat := opcodeOf r.pattern

theorem OpcodeRow.opcodeOf_of_matches {r : OpcodeRow} (hr : r ∈ opcodeRows) {w : Word} (h : r.matches w) :
    opcodeOf w = r.opcode := by
  have hmask : ∀ r ∈ opcodeRows, r.mask &&& rangeMask (31, 24) = rangeMask (31, 24) := by decide
  have htop : w &&& rangeMask (31, 24) = r.pattern &&& rangeMask (31, 24) := by
    rw [← h, BitVec.and_assoc, hmask r hr]
  have hnat := congrArg BitVec.toNat htop
  rw [and_rangeMask w (by decide), and_rangeMask r.pattern (by decide)] at hnat
  exact Nat.eq_of_mul_eq_mul_right (by decide) hnat

/-- The opcodes of the rows (R95). -/
theorem map_opcode_opcodeRows : opcodeRows.map OpcodeRow.opcode =
    [0x00, 0x01, 0x10, 0x11, 0x15, 0x16, 0x17, 0x12, 0x13, 0x14, 0x18, 0x19, 0x1A, 0x1B] ++
    [0x20, 0x21, 0x22, 0x23, 0x24, 0x25, 0x26, 0x29, 0x2A, 0x27, 0x28, 0x2B, 0x2C, 0x2D] ++
    [0x30, 0x31, 0x32, 0x38, 0x39, 0x3A, 0x3B, 0x3C, 0x3D] ++
    [0x40, 0x41, 0x42, 0x43, 0x48, 0x49, 0x4A, 0x4B] := by decide

theorem nodup_opcodes : (opcodeRows.map OpcodeRow.opcode).Nodup := by
  decide

/-- The row of an opcode and of the fields that are 0 in its words. -/
def rowOf (op : Nat) (l : List (Nat × Nat)) (rsdec : Bool) : OpcodeRow :=
  ⟨BitVec.ofNat 32 (op * 2 ^ 24), fieldMask l, rsdec⟩

/-- The words of the table with the opcode of a row are that row's, and the row's mask says which fields are 0. -/
theorem exists_row_iff {w : Word} {op : Nat} {l : List (Nat × Nat)} {rsdec : Bool} (hop : opcodeOf w = op)
    (hrow : rowOf op l rsdec ∈ opcodeRows) (hl : ∀ f ∈ l, f.1 < 24) (hasRsdec : Bool) :
    (∃ r ∈ opcodeRows, r.matches w ∧ (r.rsdec = true → hasRsdec = true)) ↔
      (∀ f ∈ l, bits w f.1 f.2 = 0) ∧ (rsdec = true → hasRsdec = true) := by
  have hlt : op < 256 := hop ▸ Nat.mod_lt _ (by decide)
  have hmatches : (rowOf op l rsdec).matches w ↔ ∀ f ∈ l, bits w f.1 f.2 = 0 :=
    (and_fieldMask_eq_iff w hlt hl).trans (and_iff_right hop)
  rw [← hmatches]
  refine ⟨?_, fun ⟨hw, hb⟩ => ⟨_, hrow, hw, hb⟩⟩
  rintro ⟨r, hr, hw, hb⟩
  have hopcode : (rowOf op l rsdec).opcode = op := by
    rw [OpcodeRow.opcode, rowOf, opcodeOf, bits_ofNat _ _ _ (by omega)]
    omega
  have hsame : r.opcode = (rowOf op l rsdec).opcode :=
    (OpcodeRow.opcodeOf_of_matches hr hw).symm.trans (hop.trans hopcode.symm)
  obtain rfl := List.inj_on_of_nodup_map nodup_opcodes hr hrow hsame
  exact ⟨hw, hb⟩

/-- The decoder's answer to a word is a command exactly when the word is in the table (R95, R97). -/
def Decides (hasRsdec : Bool) (w : Word) (r : Except Illegal Instr) : Prop :=
  (∃ i, r = .ok i) ↔ ∃ r ∈ opcodeRows, r.matches w ∧ (r.rsdec = true → hasRsdec = true)

section
variable {hasRsdec : Bool} {w : Word} {op : Nat} {l : List (Nat × Nat)} {r : Except Illegal Instr}

theorem Decides.row (hop : opcodeOf w = op) (h : Accepts w l r)
    (hrow : rowOf op l false ∈ opcodeRows ∧ ∀ f ∈ l, f.1 < 24) : Decides hasRsdec w r := by
  unfold Accepts at h
  rw [Decides, exists_row_iff hop hrow.1 hrow.2, h]
  simp

theorem Decides.rowRsdec (hop : opcodeOf w = op) (h : Accepts w l r)
    (hrow : rowOf op l true ∈ opcodeRows ∧ ∀ f ∈ l, f.1 < 24) : Decides hasRsdec w (ifRsdec hasRsdec r) := by
  unfold Accepts at h
  rw [Decides, exists_row_iff hop hrow.1 hrow.2]
  cases hasRsdec with
  | true => simpa using h
  | false => simp [ifRsdec]

end

/-- A word is a command exactly when it is one of the table; the cases are numbered as the rows of `decode` stand (R95). -/
theorem decides_decode (hasRsdec : Bool) (w : Word) : Decides hasRsdec w (decode hasRsdec w) := by
  have hc := cfgReg_dField_ok_iff w
  have hd := preg_dField_ok_iff w
  have ha := preg_aField_ok_iff w
  have hb := preg_bField_ok_iff w
  unfold decode
  split
  -- format N: no operand
  case h_1 hop | h_31 hop | h_38 hop | h_39 hop | h_40 hop | h_43 hop | h_44 hop | h_45 hop =>
    exact .row hop (.mustBeZero (.ok _)) (by decide)
  case h_33 hop | h_34 hop | h_36 hop => exact .rowRsdec hop (.mustBeZero (.ok _)) (by decide)
  -- format I: `d`, `a` and an immediate
  case h_2 hop => exact .row hop (.mustBeZero (.map hc)) (by decide)
  case h_3 hop => exact .row hop (.mustBeZero (.mustBeZero (.ok _))) (by decide)
  case h_11 hop | h_12 hop => exact .row hop (.mustBeZero (.ok _)) (by decide)
  case h_13 hop | h_14 hop => exact .row hop (.ok _) (by decide)
  case h_19 hop => exact .row hop (.map ha) (by decide)
  case h_20 hop => exact .row hop (.map hd) (by decide)
  case h_23 hop => exact .row hop (.bind hd fun _ => .map ha) (by decide)
  case h_29 hop | h_42 hop => exact .row hop (.mustBeZero (.mustBeZero (.ok _))) (by decide)
  -- format R: `d`, `a` and `b`
  case h_4 hop | h_8 hop | h_9 hop | h_10 hop => exact .row hop (.mustBeZero (.mustBeZero (.ok _))) (by decide)
  case h_5 hop | h_6 hop | h_7 hop | h_41 hop => exact .row hop (.mustBeZero (.ok _)) (by decide)
  case h_15 hop => exact .row hop (.mustBeZero (.mustBeZero (.mustBeZero (.map hd)))) (by decide)
  case h_16 hop | h_27 hop => exact .row hop (.mustBeZero (.mustBeZero (.bind hd fun _ => .map ha))) (by decide)
  case h_21 hop | h_24 hop | h_25 hop =>
    exact .row hop (.mustBeZero (.bind hd fun _ => .bind ha fun _ => .map hb)) (by decide)
  case h_22 hop => exact .row hop (.mustBeZero (.bind hd fun _ => .map ha)) (by decide)
  case h_26 hop => exact .row hop (.mustBeZero (.map ha)) (by decide)
  case h_28 hop => exact .row hop (.mustBeZero (.mustBeZero (.map ha))) (by decide)
  -- format V: a polynomial register, a length and an address
  case h_17 hop => exact .row hop (.mustBeZero (.bind hd fun _ => .ok _)) (by decide)
  case h_18 hop =>
    exact .row hop (.mustBeZero (.bind hd fun _ => .noLength (.ok _))) (by decide)
  -- format B: a length and an address
  case h_30 hop => exact .row hop (.mustBeZero (.ok _)) (by decide)
  case h_32 hop | h_35 hop | h_37 hop => exact .rowRsdec hop (.mustBeZero (.ok _)) (by decide)
  -- an opcode outside the map
  case h_46 =>
    have hout : opcodeOf w ∉ opcodeRows.map OpcodeRow.opcode := by
      rw [map_opcode_opcodeRows]
      simp_all
    simp only [Decides, reduceCtorEq, exists_false, false_iff]
    rintro ⟨r, hr, hw, -⟩
    exact hout (OpcodeRow.opcodeOf_of_matches hr hw ▸ List.mem_map_of_mem hr)

/-- No word is in two rows: their opcodes differ (R95). -/
theorem opcodeRows_disjoint : opcodeRows.Pairwise fun r r' => ∀ w, r.matches w → ¬ r'.matches w := by
  have hne := List.pairwise_map.1 nodup_opcodes
  refine hne.imp_of_mem fun hr hr' hne w hw hw' => hne ?_
  exact (OpcodeRow.opcodeOf_of_matches hr hw).symm.trans (OpcodeRow.opcodeOf_of_matches hr' hw')

/-! ## The step -/

/-- A command word that decodes to `i` runs `i` on an engine that is not halted (R291). -/
theorem issueCommand_legal {w : Word} {s : State} {i : Instr} (hs : s.fault = none)
    (h : decode s.cfg.hasRsdec w = .ok i) : issueCommand w s = exec i s := by
  rw [issueCommand, if_neg (by simp [hs]), h]

end Sys2Proof.Machine

namespace Sys2Proof.Proofs

open Sys2Proof.Machine

/-- Settles O2: the decoder drops no bit of a word, and refuses the decode commands in a configuration without them. -/
theorem legalWordsAreUnique : Obligations.LegalWordsAreUnique :=
  fun _ _ _ h => ⟨encode_of_decode h, wellFormed_of_decode h⟩

/-- Settles O3: in the row of a word's opcode the mask covers the fields that the decoder wants to be 0. -/
theorem opcodeTableDecides : Obligations.OpcodeTableDecides := ⟨decides_decode, opcodeRows_disjoint⟩

/-- Settles O4: the decoder evaluated on the fifteen words. -/
theorem exampleWords : Obligations.ExampleWords :=
  ⟨rfl, rfl, rfl, rfl, rfl, rfl, rfl, rfl, rfl, rfl, rfl, rfl, rfl, rfl, rfl⟩

/-- Settles O6: the step takes the word from the pending actions, and the decoder's answer chooses the meaning. -/
theorem stepRunsDecodedCommand : Obligations.StepRunsDecodedCommand :=
  ⟨fun _ _ _ _ hh hs hdec => (step_of_host hh).trans (issueCommand_legal hs hdec), fun _ => step_of_no_host⟩

end Sys2Proof.Proofs
end

section
/-! The statement about the invariant of the registers and of `BUF` (10_state.md, R25 to R42). -/

namespace Sys2Proof.Machine

/-! ## What a step can do -/

/-- All that a step can do: no action is pending, a command word is ignored, illegal or run, a byte of `BUF` is written, a
read is answered, or the engine is reset (R51, R62, R63, R291, R306, R320). -/
theorem step_cases {s t : State} (h : step s = .next t) :
    s.host = [] ∧ t = s ∨
    ∃ a rest, s.host = a :: rest ∧
      ((∃ w, a = .command w ∧ (t = { s with host := rest } ∨ t = raiseFault .illegalCmd w { s with host := rest } ∨
          ∃ i, exec i { s with host := rest } = .next t)) ∨
        (∃ b v, a = .writeBuf b v ∧ t = State.writeBufWindow { s with host := rest } b v) ∨
        (∃ answer, a ≠ .reset ∧ t = { s with host := rest, hostData := answer }) ∨
        a = .reset ∧ t = State.afterReset { s with host := rest }) := by
  match hh : s.host with
  | [] =>
    cases (step_of_no_host hh).symm.trans h
    exact .inl ⟨rfl, rfl⟩
  | .command w :: rest =>
    have hissue : issueCommand w { s with host := rest } = .next t := (step_of_host hh).symm.trans h
    refine .inr ⟨_, rest, rfl, .inl ⟨w, rfl, ?_⟩⟩
    unfold issueCommand at hissue
    split at hissue
    · cases hissue
      exact .inl rfl
    · split at hissue
      next i _ => exact .inr (.inr ⟨i, hissue⟩)
      next =>
        cases hissue
        exact .inr (.inl rfl)
  | .writeBuf b v :: rest =>
    cases (step_of_host hh).symm.trans h
    exact .inr ⟨_, rest, rfl, .inr (.inl ⟨b, v, rfl, rfl⟩)⟩
  | .readBuf _ :: rest | .readMat .. :: rest | .readPort _ :: rest =>
    cases (step_of_host hh).symm.trans h
    exact .inr ⟨_, rest, rfl, .inr (.inr (.inl ⟨_, nofun, rfl⟩))⟩
  | .reset :: rest =>
    cases (step_of_host hh).symm.trans h
    exact .inr ⟨_, rest, rfl, .inr (.inr (.inr ⟨rfl, rfl⟩))⟩

/-! ## The search for the best mask -/

/-- Of the first `n` masks `r` holds the best with its scores: none beats it, and it beats all of a lower index (R262). -/
def IsBest (s : State) (n : Nat) (r : Nat × Scores) : Prop :=
  r.1 < n ∧ r.2 = candidateScores s r.1 ∧
    ∀ j < n, betterScore s.versionInt (candidateScores s j) r.2 = false ∧
      (j < r.1 → betterScore s.versionInt r.2 (candidateScores s j) = true)

theorem betterScore_irrefl (v : Int) (a : Scores) : betterScore v a a = false := by
  unfold betterScore
  split <;> simp

/-- What is strictly better than a score is strictly better than all that are not better than it. -/
theorem betterScore_of_not_better {v : Int} {a b c : Scores} (hab : betterScore v a b = true)
    (hcb : betterScore v c b = false) : betterScore v a c = true ∧ betterScore v c a = false := by
  unfold betterScore at *
  split at hab <;> simp_all <;> omega

/-- One more mask is looked at. -/
theorem IsBest.next {s : State} {n : Nat} {r : Nat × Scores} (h : IsBest s n r) :
    IsBest s (n + 1)
      (if betterScore s.versionInt (candidateScores s n) r.2 then (n, candidateScores s n) else r) := by
  obtain ⟨hlt, hsc, hbest⟩ := h
  split
  next hbetter =>
    refine ⟨Nat.lt_succ_self n, rfl, fun j hj => ?_⟩
    obtain rfl | hj := Nat.eq_or_lt_of_le (Nat.le_of_lt_succ hj)
    · exact ⟨betterScore_irrefl _ _, fun h => absurd h (Nat.lt_irrefl _)⟩
    · obtain ⟨h1, h2⟩ := betterScore_of_not_better hbetter (hbest j hj).1
      exact ⟨h2, fun _ => h1⟩
  next hworse =>
    refine ⟨Nat.lt_succ_of_lt hlt, hsc, fun j hj => ?_⟩
    obtain rfl | hj := Nat.eq_or_lt_of_le (Nat.le_of_lt_succ hj)
    · exact ⟨Bool.eq_false_iff.2 hworse, fun h => absurd h (Nat.lt_asymm hlt)⟩
    · exact hbest j hj

theorem isBest_searchFrom {s : State} {fuel n : Nat} {r : Nat × Scores} (h : IsBest s n r) :
    IsBest s (n + fuel) (searchFrom s fuel n r) := by
  induction fuel generalizing n r with
  | zero => exact h
  | succ fuel ih =>
    rw [searchFrom, Nat.add_succ, ← Nat.succ_add]
    exact ih h.next

theorem maskCount_pos (v : Int) : 1 ≤ maskCount v := by
  unfold maskCount
  split <;> decide

/-- The search of `MASK.SELECT` finds the best of all the masks of the symbol's class (R262). -/
theorem isBest_bestMask (s : State) : IsBest s (maskCount s.versionInt) (bestMask s) := by
  have hfirst : IsBest s 1 (0, candidateScores s 0) := by
    refine ⟨Nat.one_pos, rfl, fun j hj => ?_⟩
    obtain rfl := Nat.lt_one_iff.1 hj
    exact ⟨betterScore_irrefl _ _, fun h => absurd h (Nat.lt_irrefl _)⟩
  have hall := isBest_searchFrom (fuel := maskCount s.versionInt - 1) hfirst
  rwa [Nat.add_sub_cancel' (maskCount_pos _)] at hall

/-! ## The number of errors -/

theorem berlekampMassey_succ (m : BitVec 9) (syn : List Byte) (n : Nat) :
    berlekampMassey m syn (n + 1) = bmRound m syn (berlekampMassey m syn n) n := by
  simp [berlekampMassey, List.range_succ]

/-- After `n` rounds of Berlekamp-Massey the length is at most `n` (R202). -/
theorem bm_l_le (m : BitVec 9) (syn : List Byte) (n : Nat) : (berlekampMassey m syn n).l ≤ n := by
  induction n with
  | zero => exact Nat.le_refl 0
  | succ n ih =>
    rw [berlekampMassey_succ, bmRound]
    split_ifs <;> simp only <;> omega

/-! ## Changes that keep the invariant -/

section
variable {s : State} (h : s.Inv)
include h

theorem State.Inv.setX (i : XReg) (v : Byte) : (s.setX i v).Inv := { h with }

theorem State.Inv.withScores (sc : Scores) : ({ s with scores := sc } : State).Inv := { h with }

theorem State.Inv.withMat (m : Mat) : ({ s with mat := m } : State).Inv := { h with }

theorem State.Inv.withHost (rest : List HostAct) (answer : Word) :
    ({ s with host := rest, hostData := answer } : State).Inv := { h with }

theorem State.Inv.countCommand (s' : State) : (countCommand s' s).Inv := { h with }

theorem State.Inv.raiseFault (c : FaultCode) (w : Word) : (raiseFault c w s).Inv :=
  { h with faultcmd := nofun }

theorem State.Inv.withBuf {m : Memory} (hm : Memory.wf m) : ({ s with buf := m } : State).Inv := { h with buf := hm }

theorem State.Inv.withRsn {n : BitVec 5} (hn : n.toNat ≤ 30) : ({ s with rsn := n } : State).Inv := { h with rsn := hn }

/-- The flags and `NERR` change only with the decode extension. -/
theorem State.Inv.withDecodeResults (hb : s.cfg.hasRsdec = true) (f : Flags) {n : BitVec 5} (hn : n.toNat ≤ 30) :
    ({ s with flags := f, nerr := n } : State).Inv :=
  { h with nerr := hn, noRsdec := fun hb' => absurd hb' (by simp [hb]) }

/-- The assignment of a polynomial register fills up with zeros (R11). -/
theorem State.Inv.withP (k : PReg) {l : List Byte} (hl : l.length ≤ pcap) :
    ({ s with p := s.p.set k (.ofList l) } : State).Inv := by
  refine { h with padding := fun j i hi => ?_ }
  by_cases hj : j = k
  · subst hj
    have hreg : (s.p.set j (.ofList l))[j] = PolyReg.ofList l := by simp
    simp only [hreg, PolyReg.len_ofList hl] at hi ⊢
    rw [PolyReg.coef_ofList, coefAt_of_length_le hi]
    rfl
  · simp only [State.p_set_other s _ hj] at hi ⊢
    exact h.padding j i hi

/-- `PHASE` moves on from a phase with a matrix, and not past `MASK.SELECT` or back. -/
theorem State.Inv.withPhase {p q : Phase} (hp : s.phase = p) (hpq : p ≠ .idle ∧ (4 ≤ q.code ↔ 4 ≤ p.code)) (m : Mat)
    (n : BitVec 16) : ({ s with mat := m, nmod := n, phase := q } : State).Inv := by
  obtain ⟨hne, hcode⟩ := hpq
  refine { h with spec := fun _ => h.spec (hp ▸ hne), masksel := ?_ }
  simp only [hcode, ← hp]
  exact h.masksel

/-- `MASK.SELECT` leaves a mask of the symbol's class in `MASKSEL` (R39). -/
theorem State.Inv.applyChosen (hp : s.phase ≠ .idle) {k : Nat} (hk : k < maskCount s.versionInt) :
    (applyChosen k s).Inv := by
  refine { h with spec := fun _ => h.spec hp, masksel := ?_ }
  have hcount : maskCount s.versionInt ≤ 8 := by
    unfold maskCount
    split <;> decide
  have hmod : k % 16 = k := Nat.mod_eq_of_lt (by omega)
  simpa [Phase.code, hmod] using hk

/-- `MAT.ALLOC` begins a matrix for a pair that exists (R220). -/
theorem State.Inv.allocated (hp : s.phase = .idle) (hvalid : s.validSpec = true) (m : Mat) :
    ({ s with mat := m, phase := .allocated } : State).Inv := by
  refine { h with spec := fun _ => hvalid, masksel := ?_ }
  have hsel := h.masksel
  rw [hp] at hsel
  exact hsel

/-- In `IDLE` there is no matrix, and `VERSION` can change. -/
theorem State.Inv.withVersion (hp : s.phase = .idle) {v : BitVec 8} (hv : -3 ≤ v.toInt ∧ v.toInt ≤ 40) :
    ({ s with version := v } : State).Inv := by
  refine { h with version := hv, spec := fun hne => absurd hp hne, masksel := ?_ }
  have hsel := h.masksel
  rw [hp] at hsel
  simp only [hp]
  exact hsel

theorem State.Inv.withEcl (hp : s.phase = .idle) {e : BitVec 3} (he : e.toNat ≤ 4) : ({ s with ecl := e } : State).Inv :=
  { h with ecl := he, spec := fun hne => absurd hp hne }

theorem State.Inv.withMaskreq {k : BitVec 4} (hk : k.toNat ≤ 8) : ({ s with maskreq := k } : State).Inv :=
  { h with maskreq := hk }

theorem State.Inv.withDcount (n : BitVec 12) : ({ s with dcount := n } : State).Inv := { h with }

end

/-- The reset values meet the invariant, with every table that fits. -/
theorem inv_afterReset {s : State} (h : TablesFit s.tables) : s.afterReset.Inv where
  buf := Memory.wf_nil
  padding k j _ := by simp [State.reset]
  version := (by decide : -3 ≤ (0 : BitVec 8).toInt ∧ (0 : BitVec 8).toInt ≤ 40)
  ecl := Nat.zero_le 4
  maskreq := Nat.le_refl 8
  rsn := Nat.zero_le 30
  nerr := Nat.zero_le 30
  noRsdec _ := ⟨rfl, rfl⟩
  spec hne := absurd rfl hne
  masksel := rfl
  faultcmd _ := rfl
  tables := h

/-! ## What a command keeps -/

/-- The invariant is kept, and with it the configuration and, once there is a matrix, `VERSION` (R52, R281). -/
structure Safe (s t : State) : Prop where
  inv : t.Inv
  cfg : t.cfg = s.cfg
  version : s.phase ≠ .idle → t.version = s.version

theorem Safe.refl {s : State} (h : s.Inv) : Safe s s := ⟨h, rfl, fun _ => rfl⟩

section
variable {s u : State} (h : Safe s u)
include h

theorem Safe.setP (k : PReg) (l : List Byte) : Ends (Safe s) (u.setP k l) := by
  intro t ht
  obtain ⟨hl, rfl⟩ := State.setP_eq_ok.1 ht
  exact ⟨h.inv.withP k hl, h.cfg, h.version⟩

theorem Safe.memWrite (a : Nat) (l : List Byte) : Ends (Safe s) (u.memWrite a l) := by
  unfold State.memWrite
  split
  · exact .error _
  · exact .ok ⟨h.inv.withBuf (Memory.wf_writeList l h.inv.buf (by omega)), h.cfg, h.version⟩

theorem Safe.withRsn {n : BitVec 5} (hn : n.toNat ≤ 30) : Safe s { u with rsn := n } :=
  ⟨h.inv.withRsn hn, h.cfg, h.version⟩

theorem Safe.withDecodeResults (hb : s.cfg.hasRsdec = true) (f : Flags) {n : BitVec 5} (hn : n.toNat ≤ 30) :
    Safe s { u with flags := f, nerr := n } :=
  ⟨h.inv.withDecodeResults (h.cfg ▸ hb) f hn, h.cfg, h.version⟩

end

/-- A check of which the rest of the meaning needs that it passed. -/
theorem Ends.faultIf_of {P : State → Prop} {b : Bool} {c : FaultCode} {r : Except FaultCode State}
    (h : b = false → Ends P r) : Ends P (Machine.faultIf b c r) := by
  cases b
  · exact h rfl
  · exact .error c

/-- `CFG.SET` writes values in the ranges of its registers (R281). -/
theorem safe_setCfgReg {s : State} (h : s.Inv) (hp : s.phase = .idle) (c : CfgReg) (imm : BitVec 16) :
    Ends (Safe s) (setCfgReg c imm s) := by
  have keep {u : State} (hu : u.Inv) (hcfg : u.cfg = s.cfg) : Safe s u := ⟨hu, hcfg, fun hne => absurd hp hne⟩
  cases c with
  | version =>
    refine .faultIf_of fun _ => .faultIf_of fun hr => .ok (keep (h.withVersion hp ?_) rfl)
    rw [decide_eq_false_iff_not] at hr
    omega
  | ecl =>
    refine .faultIf_of fun hr => .ok (keep (h.withEcl hp ?_) rfl)
    rw [decide_eq_false_iff_not] at hr
    rw [BitVec.toNat_setWidth]
    omega
  | maskreq =>
    refine .faultIf_of fun hr => .ok (keep (h.withMaskreq ?_) rfl)
    rw [decide_eq_false_iff_not] at hr
    rw [BitVec.toNat_setWidth]
    omega
  | dcount => exact .faultIf_of fun _ => .ok (keep (h.withDcount _) rfl)

theorem validSpec_of_specFault_none {s : State} (h : s.specFault = none) : s.validSpec = true := by
  by_contra hne
  have := specFault_of_invalid (Bool.eq_false_iff.2 hne)
  exact absurd (h.symm.trans this) (by simp)

/-- Every command keeps the invariant. -/
theorem exec_safe (i : Instr) {s : State} (h : s.Inv) : ∃ r, exec i s = finish i s r ∧ Ends (Safe s) r := by
  have same := Safe.refl h
  have set (rd : XReg) (v : Byte) : Safe s (s.setX rd v) := ⟨h.setX rd v, rfl, fun _ => rfl⟩
  have store {ea : Nat} (hea : decide (8191 < ea) = false) (v : Byte) : Safe s { s with buf := Memory.write s.buf ea v } := by
    have hlt : ea < bufSize := Nat.lt_succ_of_le (Nat.not_lt.1 (of_decide_eq_false hea))
    exact ⟨h.withBuf (Memory.wf_write h.buf hlt v), rfl, fun _ => rfl⟩
  have rsdec {r : Except FaultCode State} (hr : s.cfg.hasRsdec = true → Ends (Safe s) r) :
      Ends (Safe s) (requireRsdec s r) := .faultIf_of fun hb => hr (by simpa using hb)
  cases i <;> dsimp only [exec] <;> refine ⟨_, rfl, ?_⟩
  case nop => exact .ok same
  case gfLi | gfMv | gfExp | gfAdd | gfMul | pEval | pDeg => exact .ok (set _ _)
  case gfInv | gfLog | gfDiv | ldb | ldbx | pGetc => exact .faultIf (.ok (set _ _))
  case stb | stbx => exact .faultIf_of fun hea => .ok (store hea _)
  case cfgSet => exact .requirePhase fun hp => safe_setCfgReg h (eq_of_beq hp) _ _
  case pClr | pMv | pAdd | pScale | pMul | pDeriv => exact same.setP _ _
  case pSetc | pMod | pShl => exact .faultIf (same.setP _ _)
  case pLd | rsEnc => exact .faultIf (.bindRead fun _ => same.setP _ _)
  case pSt => exact same.memWrite _ _
  case rsGen n =>
    split
    next hn =>
      refine .map (same.setP _ _) fun t ht => ht.withRsn ?_
      rw [BitVec.toNat_setWidth]
      omega
    next => exact .error _
  case ecBuild =>
    split
    next => exact .error _
    next hspec =>
      obtain ⟨-, -, hec, -⟩ := h.tables.blocks _ _ (validSpec_of_specFault_none hspec)
      refine .faultIf (.faultIf (.bindRead fun _ => .bind (same.memWrite _ _) fun _ ht => .bind (ht.setP _ _) fun _ ht =>
        .map (ht.setP _ _) fun _ ht => ht.withRsn ?_))
      rw [BitVec.toNat_ofNat]
      exact (Nat.mod_le _ _).trans hec
  case rsSyn =>
    exact rsdec fun hb => .faultIf (.bindRead fun _ => .map (same.setP _ _) fun _ ht =>
      ht.withDecodeResults hb _ (Nat.zero_le 30))
  case rsBm =>
    refine rsdec fun hb => .faultIf (.map (same.setP _ _) fun _ ht => ht.withDecodeResults hb _ ?_)
    rw [BitVec.toNat_ofNat]
    exact (Nat.mod_le _ _).trans ((bm_l_le _ _ _).trans h.rsn)
  case rsOmega => exact rsdec fun _ => .faultIf (same.setP _ _)
  case rsChien => exact rsdec fun hb => .faultIf (.map (same.setP _ _) fun _ ht => ht.withDecodeResults hb _ ht.inv.nerr)
  case rsForney => exact rsdec fun hb => .map (same.setP _ _) fun _ ht => ht.withDecodeResults hb _ ht.inv.nerr
  case rsFix len addr =>
    refine rsdec fun _ => .faultIf (.faultIf_of fun hpos => .faultIf_of fun hlen => .ok ⟨h.withBuf ?_, rfl, fun _ => rfl⟩)
    refine Memory.wf_fixBytes _ h.buf (Nat.not_lt.1 (of_decide_eq_false hlen)) fun pm hpm => ?_
    simpa using List.any_eq_false.1 hpos pm.1 (List.of_mem_zip hpm).1
  case matAlloc =>
    refine .requirePhase fun hp => ?_
    split
    next => exact .error _
    next hspec => exact .ok ⟨h.allocated (eq_of_beq hp) (validSpec_of_specFault_none hspec) _, rfl, fun _ => rfl⟩
  case matStamp =>
    exact .requirePhase fun hp => .ok ⟨h.withPhase (eq_of_beq hp) (by decide) _ _, rfl, fun _ => rfl⟩
  case matPlace =>
    exact .requirePhase fun hp => .bindRead fun _ =>
      .ok ⟨h.withPhase (eq_of_beq hp) (by decide) _ s.nmod, rfl, fun _ => rfl⟩
  case matRd => exact .requirePhase fun _ => .faultIf (.ok (set _ _))
  case maskApply => exact .requirePhase fun _ => .faultIf (.ok ⟨h.withMat _, rfl, fun _ => rfl⟩)
  case maskScore => exact .requirePhase fun _ => .ok ⟨h.withScores _, rfl, fun _ => rfl⟩
  case maskSelect =>
    refine .requirePhase fun hp => ?_
    have hne : s.phase ≠ .idle := ne_of_eq_of_ne (eq_of_beq hp) (by decide)
    split
    · exact .faultIf_of fun hk =>
        .ok ⟨h.applyChosen hne (Nat.not_le.1 (of_decide_eq_false hk)), rfl, fun _ => rfl⟩
    · exact .ok ⟨(h.applyChosen hne (isBest_bestMask s).1).withScores _, rfl, fun _ => rfl⟩
  case fmtWrite =>
    exact .requirePhase fun hp => .ok ⟨h.withPhase (eq_of_beq hp) (by decide) _ s.nmod, rfl, fun _ => rfl⟩

/-- A command keeps the invariant, however it ends. -/
theorem safe_of_exec {i : Instr} {s t : State} (h : s.Inv) (ht : exec i s = .next t) : Safe s t := by
  obtain ⟨r, he, hr⟩ := exec_safe i h
  rcases finish_next (he.symm.trans ht) with ⟨u, hu, rfl⟩ | ⟨c, -, rfl⟩
  · obtain ⟨hinv, hcfg, hversion⟩ := hr u hu
    exact ⟨hinv.countCommand s, hcfg, hversion⟩
  · exact ⟨h.raiseFault c _, rfl, fun _ => rfl⟩

theorem inv_of_step {s t : State} (h : s.Inv) (ht : step s = .next t) : t.Inv := by
  rcases step_cases ht with ⟨-, rfl⟩ | ⟨a, rest, -, ha⟩
  · exact h
  · have hrest : ({ s with host := rest } : State).Inv := h.withHost rest s.hostData
    rcases ha with ⟨w, -, rfl | rfl | ⟨i, hi⟩⟩ | ⟨b, v, -, rfl⟩ | ⟨answer, -, rfl⟩ | ⟨-, rfl⟩
    · exact hrest
    · exact hrest.raiseFault _ w
    · exact (safe_of_exec hrest hi).inv
    · exact hrest.withBuf (Memory.wf_write h.buf b.isLt v)
    · exact h.withHost rest answer
    · exact inv_afterReset h.tables

end Sys2Proof.Machine

namespace Sys2Proof.Proofs

open Sys2Proof.Machine

/-- Settles O18: every meaning writes its registers through the updates that keep the invariant, and the host's accesses
and the reset input keep it too. -/
theorem invariantKept : Obligations.InvariantKept := fun _ _ => inv_of_step

end Sys2Proof.Proofs
end

section
/-! The statements about the phase, about the flags, about what the matrix commands do not touch, and about the invariants
after reset (10_state.md, R30, R36; 20_memory.md, R76; 70_reset_and_hazards.md). -/

namespace Sys2Proof.Machine

/-! ## The phase -/

/-- The table of R293 moves the phase on by one step or not at all. -/
theorem phaseRule_forward {i : Instr} {p : Phase} {legal : List Phase} {after : Option Phase}
    (h : phaseRule i = some (legal, after)) (hp : p ∈ legal) :
    (after.getD p).code = p.code ∨ (after.getD p).code = p.code + 1 := by
  cases i <;> cases h <;> revert p <;> decide

/-- A command keeps the phase or moves it on by one step. -/
theorem exec_phase {i : Instr} {s t : State} (h : exec i s = .next t) :
    t.phase.code = s.phase.code ∨ t.phase.code = s.phase.code + 1 := by
  cases hrule : phaseRule i with
  | none => exact .inl (congrArg Phase.code (exec_keeps_phase hrule h))
  | some rule =>
    obtain ⟨legal, after⟩ := rule
    obtain ⟨b, r, he, hb, hend⟩ := exec_of_phaseRule hrule s
    rcases finish_next (he.symm.trans h) with ⟨u, hu, rfl⟩ | ⟨c, -, rfl⟩
    · obtain ⟨hlegal, hr⟩ := requirePhase_ok.1 hu
      have hp := hb.1 hlegal
      obtain ⟨-, hphase⟩ := hend hp
      rw [State.countCommand_phase, hphase u hr]
      exact phaseRule_forward hrule hp
    · exact .inl rfl

theorem step_phase {s t : State} (hreset : s.noReset) (h : step s = .next t) :
    t.phase.code = s.phase.code ∨ t.phase.code = s.phase.code + 1 := by
  rcases step_cases h with ⟨-, rfl⟩ | ⟨a, rest, hh, ⟨w, -, rfl | rfl | ⟨i, hi⟩⟩ | ⟨b, v, -, rfl⟩ | ⟨answer, -, rfl⟩ | ⟨rfl, -⟩⟩
  case inr.inl.inr.inr => exact exec_phase (s := { s with host := rest }) hi
  case inr.inr.inr.inr => exact absurd (congrArg List.head? hh) hreset
  all_goals exact .inl rfl

/-! ## Changes that carry over -/

section
variable {g : State → State} {s : State}

/-- The assignment of a polynomial register carries over every change of other registers. -/
theorem Carries.setP_of (hg : ∀ p, g { s with p := p } = { g s with p := p }) (hp : (g s).p = s.p) (k : PReg)
    (l : List Byte) : Carries g (s.setP k l) ((g s).setP k l) := by
  unfold State.setP
  rw [hp, ← hg]
  exact .ite (.ok _) (.error _)

/-- A command whose answer carries over leaves the changed state, however it ends (R291). -/
theorem exec_of_carries {i : Instr} {t : State} {r r' : Except FaultCode State} (he : exec i s = finish i s r)
    (he' : exec i (g s) = finish i (g s) r') (hr : Carries g r r')
    (hcount : ∀ u, countCommand (g s) (g u) = g (countCommand s u))
    (hraise : ∀ c, raiseFault c (encode i) (g s) = g (raiseFault c (encode i) s)) (h : exec i s = .next t) :
    exec i (g s) = .next (g t) := by
  rw [he] at h
  unfold Carries at hr
  subst hr
  rw [he']
  cases r with
  | ok u =>
    cases h
    exact congrArg _ (hcount u)
  | error c =>
    cases h
    exact congrArg _ (hraise c)

end

/-! ## The flags -/

/-- The state with other flags. -/
def State.withFlags (f : Flags) (s : State) : State := { s with flags := f }

/-- The answers are the same but for the flags of the state that they complete with. -/
def SameButFlags (r r' : Except FaultCode State) : Prop := ∃ g, Carries (State.withFlags g) r r'

namespace SameButFlags

variable {r r' : Except FaultCode State} {s : State} {f : Flags}

theorem of {g : Flags} (h : Carries (State.withFlags g) r r') : SameButFlags r r' := ⟨g, h⟩

theorem faultIf {b : Bool} {c : FaultCode} (h : SameButFlags r r') : SameButFlags (faultIf b c r) (faultIf b c r') := by
  obtain ⟨g, h⟩ := h
  exact ⟨g, h.faultIf⟩

theorem bind {m : Except FaultCode (List Byte)} {k k' : List Byte → Except FaultCode State}
    (h : ∀ l, SameButFlags (k l) (k' l)) : SameButFlags (m.bind k) (m.bind k') := by
  cases m
  · exact ⟨⟨false, false⟩, .error _⟩
  · exact h _

theorem setP (k : PReg) (l : List Byte) : SameButFlags (s.setP k l) ((s.withFlags f).setP k l) :=
  of (Carries.setP_of (g := State.withFlags f) (fun _ => rfl) rfl k l)

/-- The decode commands write flags of their own after the register. -/
theorem setPFlags {k : PReg} {l : List Byte} {F F' : State → State} (g : Flags)
    (h : ∀ t, F' (t.withFlags f) = (F t).withFlags g) :
    SameButFlags ((s.setP k l).map F) (((s.withFlags f).setP k l).map F') := by
  refine ⟨g, ?_⟩
  unfold State.setP
  split
  · exact congrArg Except.ok (h { s with p := s.p.set k (.ofList l) })
  · rfl

end SameButFlags

theorem withFlags_specFault (f : Flags) (s : State) : (s.withFlags f).specFault = s.specFault := rfl

/-- What the search for the best mask reads (R262). -/
theorem searchFrom_congr {s s' : State} (hcfg : s'.cfg = s.cfg) (hv : s'.version = s.version) (hm : s'.mat = s.mat)
    (fuel k : Nat) (best : Nat × Scores) : searchFrom s' fuel k best = searchFrom s fuel k best := by
  have hsc : candidateScores s' = candidateScores s := by
    funext k
    simp only [candidateScores, State.versionInt, State.tables, hcfg, hv, hm]
  induction fuel generalizing k best with
  | zero => rfl
  | succ fuel ih =>
    simp only [searchFrom, hsc, State.versionInt, hv]
    exact ih ..

theorem bestMask_congr {s s' : State} (hcfg : s'.cfg = s.cfg) (hv : s'.version = s.version) (hm : s'.mat = s.mat) :
    bestMask s' = bestMask s := by
  have hsc : candidateScores s' 0 = candidateScores s 0 := by
    simp only [candidateScores, State.versionInt, State.tables, hcfg, hv, hm]
  simp only [bestMask, searchFrom_congr hcfg hv hm, hsc, State.versionInt, hv]

/-- Every command answers the same but for the flags, whatever the flags are before (R30). -/
theorem exec_sameButFlags (i : Instr) (s : State) (f : Flags) : ∃ r r', exec i s = finish i s r ∧
    exec i (s.withFlags f) = finish i (s.withFlags f) r' ∧ SameButFlags r r' := by
  have same {t : State} : SameButFlags (.ok t) (.ok (t.withFlags f)) := .of (.ok t)
  cases i <;> dsimp only [exec] <;> refine ⟨_, _, rfl, rfl, ?_⟩
  case nop | gfLi | gfMv | gfExp | gfAdd | gfMul | pEval | pDeg => exact same
  case gfInv | gfLog | gfDiv | ldb | stb | ldbx | stbx | pGetc => exact same.faultIf
  case cfgSet c imm =>
    refine .of (g := f) (.requirePhase ?_)
    cases c with
    | version => exact .faultIf (.faultIf (.ok _))
    | ecl | maskreq | dcount => exact .faultIf (.ok _)
  case pClr | pMv | pAdd | pScale | pMul | pDeriv => exact .setP _ _
  case pSetc | pMod | pShl => exact .faultIf (.setP _ _)
  case pLd | rsEnc => exact .faultIf (.bind fun _ => .setP _ _)
  case pSt => exact .of (g := f) (.ite (.error _) (.ok _))
  case rsGen =>
    split
    · exact .setPFlags f fun _ => rfl
    · exact .of (g := f) (.error _)
  case ecBuild =>
    rw [withFlags_specFault]
    split
    · exact .of (g := f) (.error _)
    · refine .faultIf (.faultIf (.bind fun _ => .of (g := f) (.bindState (.ite (.error _) (.ok _)) fun _ => ?_)))
      exact .bindState (.setP_of (fun _ => rfl) rfl _ _) fun _ => .map (.setP_of (fun _ => rfl) rfl _ _) fun _ => rfl
  case rsSyn => exact .faultIf (.faultIf (.bind fun _ => .setPFlags _ fun _ => rfl))
  case rsBm | rsChien => exact .faultIf (.faultIf (.setPFlags _ fun _ => rfl))
  case rsOmega => exact .faultIf (.faultIf (.setP _ _))
  case rsForney => exact .faultIf (.setPFlags _ fun _ => rfl)
  case rsFix => exact .faultIf (.faultIf (.faultIf (.faultIf same)))
  case matAlloc =>
    rw [withFlags_specFault]
    refine .of (g := f) (.requirePhase ?_)
    split
    · exact .error _
    · exact .ok _
  case matStamp | maskScore | fmtWrite => exact .of (g := f) (.requirePhase (.ok _))
  case matPlace => exact .of (g := f) (.requirePhase (.bind fun _ => .ok _))
  case matRd | maskApply => exact .of (g := f) (.requirePhase (.faultIf (.ok _)))
  case maskSelect =>
    rw [bestMask_congr (s := s) (s' := s.withFlags f) rfl rfl rfl]
    exact .of (g := f) (.requirePhase (.ite (.faultIf (.ok _)) (.ok _)))

theorem exec_withFlags {i : Instr} {s t : State} (f : Flags) (h : exec i s = .next t) :
    ∃ g, exec i (s.withFlags f) = .next (t.withFlags g) := by
  obtain ⟨r, r', he, he', g, hr⟩ := exec_sameButFlags i s f
  unfold Carries at hr
  subst hr
  rw [he] at h
  rw [he']
  cases r with
  | ok u =>
    cases h
    exact ⟨g, rfl⟩
  | error c =>
    cases h
    exact ⟨f, rfl⟩

/-! ## What the matrix commands do not touch -/

/-- The state with other scalar and polynomial registers, `RSN`, `NERR`, `DCOUNT` and flags. -/
def State.withRegs (x : Vector Byte 16) (p : Vector PolyReg 8) (rsn nerr : BitVec 5) (dc : BitVec 12) (f : Flags)
    (s : State) : State :=
  { s with x := x, p := p, rsn := rsn, nerr := nerr, dcount := dc, flags := f }

/-- The state with another `BUF`. -/
def State.withBuf (m : Memory) (s : State) : State := { s with buf := m }

/-- The state with other score registers. -/
def State.withScores (sc : Scores) (s : State) : State := { s with scores := sc }

/-- Each of the matrix and mask commands but `MAT.RD` (R76, R239, R272). -/
theorem forall_matrixCommand {P : Instr → Prop} (hAlloc : P .matAlloc) (hStamp : P .matStamp) (hPlace : P .matPlace)
    (hScore : P .maskScore) (hSelect : P .maskSelect) (hWrite : P .fmtWrite) (hApply : ∀ k, P (.maskApply k)) {i : Instr}
    (hi : i ∈ [Instr.matAlloc, .matStamp, .matPlace, .maskScore, .maskSelect, .fmtWrite] ∨ ∃ k, i = .maskApply k) :
    P i := by
  rcases hi with hi | ⟨k, rfl⟩
  · simp only [List.mem_cons, List.not_mem_nil, or_false] at hi
    rcases hi with rfl | rfl | rfl | rfl | rfl | rfl <;> assumption
  · exact hApply k

section
variable {s t : State} (x : Vector Byte 16) (p : Vector PolyReg 8) (rsn nerr : BitVec 5) (dc : BitVec 12) (f : Flags)

theorem exec_withRegs {i : Instr}
    (hi : i ∈ [Instr.matAlloc, .matStamp, .matPlace, .maskScore, .maskSelect, .fmtWrite] ∨ ∃ k, i = .maskApply k)
    (h : exec i s = .next t) : exec i (s.withRegs x p rsn nerr dc f) = .next (t.withRegs x p rsn nerr dc f) := by
  revert h
  have run {i r r'} (he : exec i s = finish i s r)
      (he' : exec i (s.withRegs x p rsn nerr dc f) = finish i (s.withRegs x p rsn nerr dc f) r')
      (hr : Carries (State.withRegs x p rsn nerr dc f) r r') :=
    exec_of_carries (t := t) he he' hr (fun _ => rfl) (fun _ => rfl)
  refine forall_matrixCommand (P := fun i => exec i s = .next t → exec i _ = .next _) (run rfl rfl (.requirePhase ?_))
    (run rfl rfl (.requirePhase (.ok _))) (run rfl rfl (.requirePhase (.bind fun _ => .ok _)))
    (run rfl rfl (.requirePhase (.ok _))) (run rfl rfl (.requirePhase (.ite (.faultIf (.ok _)) ?_)))
    (run rfl rfl (.requirePhase (.ok _))) (fun k => run rfl rfl (.requirePhase (.faultIf (.ok _)))) hi
  · rw [show (s.withRegs x p rsn nerr dc f).specFault = s.specFault from rfl]
    split
    · exact .error _
    · exact .ok _
  · rw [bestMask_congr (s' := s.withRegs x p rsn nerr dc f) (s := s) rfl rfl rfl]
    exact .ok _

theorem exec_withBuf {i : Instr} (m : Memory) (hplace : i ≠ .matPlace)
    (hi : i ∈ [Instr.matAlloc, .matStamp, .matPlace, .maskScore, .maskSelect, .fmtWrite] ∨ ∃ k, i = .maskApply k)
    (h : exec i s = .next t) : exec i (s.withBuf m) = .next (t.withBuf m) := by
  revert hplace h
  have run {i r r'} (he : exec i s = finish i s r) (he' : exec i (s.withBuf m) = finish i (s.withBuf m) r')
      (hr : Carries (State.withBuf m) r r') (_ : i ≠ .matPlace) :=
    exec_of_carries (t := t) he he' hr (fun _ => rfl) (fun _ => rfl)
  refine forall_matrixCommand (P := fun i => i ≠ .matPlace → exec i s = .next t → exec i _ = .next _)
    (run rfl rfl (.requirePhase ?_)) (run rfl rfl (.requirePhase (.ok _))) (fun hne => absurd rfl hne)
    (run rfl rfl (.requirePhase (.ok _))) (run rfl rfl (.requirePhase (.ite (.faultIf (.ok _)) ?_)))
    (run rfl rfl (.requirePhase (.ok _))) (fun k => run rfl rfl (.requirePhase (.faultIf (.ok _)))) hi
  · rw [show (s.withBuf m).specFault = s.specFault from rfl]
    split
    · exact .error _
    · exact .ok _
  · rw [bestMask_congr (s' := s.withBuf m) (s := s) rfl rfl rfl]
    exact .ok _

theorem exec_withScores {i : Instr} (sc : Scores) (hscore : i ≠ .maskScore) (hselect : i ≠ .maskSelect)
    (hi : i ∈ [Instr.matAlloc, .matStamp, .matPlace, .maskScore, .maskSelect, .fmtWrite] ∨ ∃ k, i = .maskApply k)
    (h : exec i s = .next t) : exec i (s.withScores sc) = .next (t.withScores sc) := by
  revert hscore hselect h
  have run {i r r'} (he : exec i s = finish i s r) (he' : exec i (s.withScores sc) = finish i (s.withScores sc) r')
      (hr : Carries (State.withScores sc) r r') (_ : i ≠ .maskScore) (_ : i ≠ .maskSelect) :=
    exec_of_carries (t := t) he he' hr (fun _ => rfl) (fun _ => rfl)
  refine forall_matrixCommand
    (P := fun i => i ≠ .maskScore → i ≠ .maskSelect → exec i s = .next t → exec i _ = .next _)
    (run rfl rfl (.requirePhase ?_)) (run rfl rfl (.requirePhase (.ok _)))
    (run rfl rfl (.requirePhase (.bind fun _ => .ok _))) (fun hne => absurd rfl hne) (fun _ hne => absurd rfl hne)
    (run rfl rfl (.requirePhase (.ok _))) (fun k => run rfl rfl (.requirePhase (.faultIf (.ok _)))) hi
  rw [show (s.withScores sc).specFault = s.specFault from rfl]
  split
  · exact .error _
  · exact .ok _

end

end Sys2Proof.Machine

namespace Sys2Proof.Proofs

open Sys2Proof.Machine

/-- Settles O13: the commands of the table of R293 move the phase on by one step, and no other action but reset moves it. -/
theorem phaseMovesForward : Obligations.PhaseMovesForward := fun _ _ => step_phase

/-- Settles O15: the answer of every meaning is the same but for the flags. -/
theorem flagsNeverSteer : Obligations.FlagsNeverSteer := fun _ _ _ f h => exec_withFlags f h

/-- Settles O16: the seven meanings carry over every change of what they do not read. -/
theorem matrixCommandsIgnoreTheRest : Obligations.MatrixCommandsIgnoreTheRest := fun _ hi _ _ x p rsn nerr dc f m sc h =>
  ⟨exec_withRegs x p rsn nerr dc f hi h, fun hplace => exec_withBuf m hplace hi h,
    fun hscore hselect => exec_withScores sc hscore hselect hi h⟩

/-- Settles O17: the reset values meet the first invariant with tables that fit, as the default ones do, and a matrix
without a dark module meets the second. -/
theorem invariantsAtReset : Obligations.InvariantsAtReset := by
  refine ⟨inv_afterReset (s := State.reset) standardTables_fit, ?_⟩
  exact {
    blank := fun _ => Mat.get_reset
    classes := fun hp => absurd hp (by decide)
    functions := fun hp => absurd hp (by decide)
    reserved := fun _ r c _ => by rw [Mat.get_reset]
    outside := fun r c _ => Mat.get_reset r c }

end Sys2Proof.Proofs
end

section
/-! How a command completes and what it leaves unchanged, said once for each kind of register (R11, R48, R291); and the
statements about the scalar commands, the loads and stores and `CFG.SET` (41_gf_arithmetic.md, 47_system.md). -/

namespace Sys2Proof.Machine

/-! ## Frames -/

section
variable {s t u : State} {w w' : Piece → Prop}

theorem Frame.refl (w : Piece → Prop) (s : State) : Frame w s s := by
  intro q _
  cases q <;> rfl

theorem Same.trans {q : Piece} (h : Same s t q) (h' : Same t u q) : Same s u q := by
  cases q <;> exact Eq.trans h' h

theorem Frame.trans (h : Frame w s t) (h' : Frame w t u) : Frame w s u := fun q hq => (h q hq).trans (h' q hq)

theorem Frame.mono (h : Frame w s t) (hsub : ∀ q, w q → w' q) : Frame w' s t := fun q hq => h q fun hw => hq (hsub q hw)

/-- Counting a command changes nothing else (R48). -/
theorem Frame.countCommand (h : Frame w s u) (s' : State) : Frame (either w (only [.cmdcnt])) s (countCommand s' u) := by
  intro q hq
  have hu : Same s u q := h q fun hw => hq (.inl hw)
  cases q
  case cmdcnt => exact absurd (.inr List.mem_cons_self) hq
  all_goals exact hu

theorem frame_setX (s : State) (i : XReg) (v : Byte) : Frame (only [.x i]) s (s.setX i v) := by
  intro q hq
  cases q
  case x j =>
    refine State.getX_setX_other s v ?_
    rintro rfl
    exact hq List.mem_cons_self
  all_goals rfl

theorem frame_setP (s : State) (k : PReg) (q : PolyReg) : Frame (only [.p k]) s { s with p := s.p.set k q } := by
  intro piece hq
  cases piece
  case p j =>
    refine State.p_set_other s q ?_
    rintro rfl
    exact hq List.mem_cons_self
  all_goals rfl

theorem frame_buf (s : State) {m : Memory} (h : ∀ a, ¬ w (.byte a) → Memory.read m a = Memory.read s.buf a) :
    Frame w s { s with buf := m } := by
  intro q hq
  cases q
  case byte a => exact h a hq
  all_goals rfl

theorem frame_mat (s : State) {m : Mat} (h : ∀ r c, ¬ w (.cell r c) → m.get r c = s.mat.get r c) :
    Frame w s { s with mat := m } := by
  intro q hq
  cases q
  case cell r c => exact h r c hq
  all_goals rfl

theorem frame_rsn (s : State) (n : BitVec 5) : Frame (only [.rsn]) s { s with rsn := n } := by
  intro q hq
  cases q
  case rsn => exact absurd List.mem_cons_self hq
  all_goals rfl

end

/-! ## Completing and faulting -/

section
variable {i : Instr} {s u : State} {w : Piece → Prop} {post post' : State → Prop}

theorem completes_of_ok (he : exec i s = finish i s (.ok u)) (hframe : Frame w s u) (hpost : post (countCommand s u)) :
    Completes i s w post := ⟨_, he, hpost, rfl, hframe.countCommand s⟩

theorem Completes.imp (h : Completes i s w post) (hpost : ∀ t, post t → post' t) : Completes i s w post' := by
  obtain ⟨t, he, ht, hcount, hframe⟩ := h
  exact ⟨t, he, hpost t ht, hcount, hframe⟩

theorem faults_of_error {c : FaultCode} (he : exec i s = finish i s (.error c)) : Faults i s c := he

theorem completes_setX {rd : XReg} {v : Byte} (he : exec i s = finish i s (.ok (s.setX rd v))) :
    Completes i s (only [.x rd]) fun t => t.getX rd = v :=
  completes_of_ok he (frame_setX s rd v) (State.getX_setX_same s rd v)

/-- The register just assigned holds the list, with zeros beyond it (R11). -/
theorem holds_setP (s : State) (k : PReg) {l : List Byte} (h : l.length ≤ pcap) :
    Holds { s with p := s.p.set k (.ofList l) } k l := by
  have hreg : (s.p.set k (.ofList l))[k] = PolyReg.ofList l := by simp
  refine ⟨State.getP_set_same s k h, fun j hj => ?_⟩
  simp only [hreg]
  rw [PolyReg.coef_ofList, coefAt_of_length_le hj]
  rfl

theorem completes_setP {k : PReg} {l : List Byte} (he : exec i s = finish i s (s.setP k l)) (h : l.length ≤ pcap) :
    Completes i s (only [.p k]) fun t => Holds t k l := by
  rw [State.setP_ok s k h] at he
  exact completes_of_ok he (frame_setP s k _) (holds_setP s k h)

theorem faults_setP {k : PReg} {l : List Byte} (he : exec i s = finish i s (s.setP k l)) (h : pcap < l.length) :
    Faults i s .polyRange := by
  rw [State.setP_error s k h] at he
  exact faults_of_error he

end

/-! ## Checks that pass and checks that raise their fault -/

theorem faultIf_pass {b : Bool} {c : FaultCode} {r : Except FaultCode State} (h : b = false) : faultIf b c r = r := by
  rw [h, faultIf_false]

theorem faultIf_fault {b : Bool} {c : FaultCode} {r : Except FaultCode State} (h : b = true) :
    faultIf b c r = .error c := by
  rw [h, faultIf_true]

/-! ## `CFG.SET` -/

/-- `CFG.SET` in `IDLE` is the write of its register (R281). -/
theorem exec_cfgSet_idle {s : State} (hp : s.phase = .idle) (c : CfgReg) (v : BitVec 16) :
    exec (.cfgSet c v) s = finish (.cfgSet c v) s (setCfgReg c v s) := by
  rw [exec, execCfgSet, hp]
  rfl

theorem faults_cfgSet_badPhase {s : State} (hp : s.phase ≠ .idle) (c : CfgReg) (v : BitVec 16) :
    Faults (.cfgSet c v) s .badPhase := by
  refine faults_of_error ?_
  rw [exec, execCfgSet, beq_eq_false_iff_ne.2 hp, requirePhase_false]

section
variable {s : State} (hp : s.phase = .idle) {v : BitVec 16}
include hp

theorem completes_setVersion (hhigh : v.toNat ≤ 0x00FF) (hlo : -3 ≤ (v.setWidth 8).toInt)
    (hhi : (v.setWidth 8).toInt ≤ 40) :
    Completes (.cfgSet .version v) s (only [.version]) fun t => t.versionInt = (v.setWidth 8).toInt := by
  have hset : setVersion v s = .ok { s with version := v.setWidth 8 } := by
    rw [setVersion, faultIf_pass (decide_eq_false (by omega)), faultIf_pass (decide_eq_false (by omega))]
  refine completes_of_ok ((exec_cfgSet_idle hp .version v).trans (congrArg _ hset)) ?_ rfl
  intro q hq
  cases q
  case version => exact absurd List.mem_cons_self hq
  all_goals rfl

theorem faults_setVersion (h : 0x00FF < v.toNat ∨ (v.setWidth 8).toInt < -3 ∨ 40 < (v.setWidth 8).toInt) :
    Faults (.cfgSet .version v) s .versionErr := by
  refine faults_of_error ((exec_cfgSet_idle hp .version v).trans (congrArg _ ?_))
  rw [setCfgReg, setVersion]
  by_cases hhigh : 0x00FF < v.toNat
  · exact faultIf_fault (decide_eq_true hhigh)
  · rw [faultIf_pass (decide_eq_false hhigh)]
    exact faultIf_fault (decide_eq_true (h.resolve_left hhigh))

theorem completes_setEcl (h : v.toNat ≤ 4) :
    Completes (.cfgSet .ecl v) s (only [.ecl]) fun t => t.ecl.toNat = v.toNat := by
  have hset : setEcl v s = .ok { s with ecl := v.setWidth 3 } := faultIf_pass (decide_eq_false (by omega))
  refine completes_of_ok ((exec_cfgSet_idle hp .ecl v).trans (congrArg _ hset)) ?_ ?_
  · intro q hq
    cases q
    case ecl => exact absurd List.mem_cons_self hq
    all_goals rfl
  · simp only [State.countCommand_ecl, BitVec.toNat_setWidth]
    omega

theorem completes_setMaskreq (h : v.toNat ≤ 8) :
    Completes (.cfgSet .maskreq v) s (only [.maskreq]) fun t => t.maskreq.toNat = v.toNat := by
  have hset : setMaskreq v s = .ok { s with maskreq := v.setWidth 4 } := faultIf_pass (decide_eq_false (by omega))
  refine completes_of_ok ((exec_cfgSet_idle hp .maskreq v).trans (congrArg _ hset)) ?_ ?_
  · intro q hq
    cases q
    case maskreq => exact absurd List.mem_cons_self hq
    all_goals rfl
  · simp only [State.countCommand_maskreq, BitVec.toNat_setWidth]
    omega

theorem completes_setDcount (h : v.toNat ≤ 4095) :
    Completes (.cfgSet .dcount v) s (only [.dcount]) fun t => t.dcount.toNat = v.toNat := by
  have hset : setDcount v s = .ok { s with dcount := v.setWidth 12 } := faultIf_pass (decide_eq_false (by omega))
  refine completes_of_ok ((exec_cfgSet_idle hp .dcount v).trans (congrArg _ hset)) ?_ ?_
  · intro q hq
    cases q
    case dcount => exact absurd List.mem_cons_self hq
    all_goals rfl
  · simp only [State.countCommand_dcount, BitVec.toNat_setWidth]
    omega

/-- A register's own check raises its fault (R281). -/
theorem faults_cfgSet {c : CfgReg} {f : FaultCode} (h : setCfgReg c v s = .error f) : Faults (.cfgSet c v) s f :=
  faults_of_error ((exec_cfgSet_idle hp c v).trans (congrArg _ h))

end

/-! ## The scalar commands -/

/-- The search for a logarithm ends within its fuel (R124). -/
theorem gfLogFrom_le (m : BitVec 9) (fuel i : Nat) (cur a : Byte) : gfLogFrom m fuel i cur a ≤ i + fuel := by
  induction fuel generalizing i cur with
  | zero => exact Nat.le_refl i
  | succ fuel ih =>
    rw [gfLogFrom]
    split
    · omega
    · have := ih (i + 1) (xtime m cur)
      omega

/-- A logarithm fits a byte, whatever the modulus. -/
theorem toNat_ofNat_gfLog (m : BitVec 9) (a : Byte) : (BitVec.ofNat 8 (gfLog m a)).toNat = gfLog m a := by
  have hle : gfLog m a ≤ 0 + 255 := gfLogFrom_le m 255 0 1 a
  rw [BitVec.toNat_ofNat, Nat.mod_eq_of_lt (by omega)]

/-- The quotient times the divisor is the dividend (R126). -/
theorem gfDiv_gfMul (a : Byte) {b : Byte} (hb : b ≠ 0) : gfMul 0x11D (gfDiv 0x11D a b) b = a := by
  rw [gfDiv, gfMul_assoc, gfMul_comm _ b, gfMul_gfInv hb]
  exact gfMul_one 0x11D a

section
variable {s : State} (rd : XReg) {ra rb : XReg}

theorem completes_gfDiv (h : s.getX rb ≠ 0) : Completes (.gfDiv rd ra rb) s (only [.x rd]) fun t =>
    t.getX rd = gfDiv s.cfg.gfModulus (s.getX ra) (s.getX rb) :=
  completes_setX (congrArg (finish _ s) (faultIf_pass (decide_eq_false h)))

theorem completes_gfInv (h : s.getX ra ≠ 0) : Completes (.gfInv rd ra) s (only [.x rd]) fun t =>
    t.getX rd = gfInv s.cfg.gfModulus (s.getX ra) :=
  completes_setX (congrArg (finish _ s) (faultIf_pass (decide_eq_false h)))

theorem completes_gfLog (h : s.getX ra ≠ 0) : Completes (.gfLog rd ra) s (only [.x rd]) fun t =>
    t.getX rd = BitVec.ofNat 8 (gfLog s.cfg.gfModulus (s.getX ra)) :=
  completes_setX (congrArg (finish _ s) (faultIf_pass (decide_eq_false h)))

end

/-! ## The loads and stores -/

section
variable {i : Instr} {s : State} {r : XReg} {ea : Nat}

theorem completes_loadByte (he : exec i s = finish i s (loadByte r ea s)) (h : ea ≤ 8191) :
    Completes i s (only [.x r]) fun t => t.getX r = Memory.read s.buf ea :=
  completes_setX (he.trans (congrArg _ (loadByte_ok.2 ⟨h, rfl⟩)))

theorem faults_loadByte (he : exec i s = finish i s (loadByte r ea s)) (h : 8191 < ea) : Faults i s .bufRange :=
  faults_of_error (he.trans (congrArg _ (faultIf_fault (decide_eq_true h))))

theorem completes_storeByte (hwf : Memory.wf s.buf) (he : exec i s = finish i s (storeByte r ea s)) (h : ea ≤ 8191) :
    Completes i s (only [.byte ea]) fun t => Memory.read t.buf ea = s.getX r := by
  refine completes_of_ok (he.trans (congrArg _ (storeByte_ok.2 ⟨h, rfl⟩))) (frame_buf s fun a ha => ?_)
    (Memory.read_write_same hwf ea _)
  refine Memory.read_write_other hwf ?_ _
  rintro rfl
  exact ha List.mem_cons_self

theorem faults_storeByte (he : exec i s = finish i s (storeByte r ea s)) (h : 8191 < ea) : Faults i s .bufRange :=
  faults_of_error (he.trans (congrArg _ (faultIf_fault (decide_eq_true h))))

end

end Sys2Proof.Machine

namespace Sys2Proof.Proofs

open Sys2Proof.Machine

/-- Settles O22: in `IDLE` the command is its register's write with the register's own check. -/
theorem cfgSet : Obligations.CfgSet := by
  refine fun s v => ⟨fun hp => ⟨completes_setVersion hp, faults_setVersion hp, completes_setEcl hp, fun h => ?_,
    completes_setMaskreq hp, fun h => ?_, completes_setDcount hp, fun h => ?_⟩, fun hp c => faults_cfgSet_badPhase hp c v⟩
  all_goals exact faults_cfgSet hp (faultIf_fault (decide_eq_true h))

/-- Settles O23: the five meanings are writes of `rd`. -/
theorem scalarResults : Obligations.ScalarResults := fun _ _ _ _ _ =>
  ⟨completes_setX rfl, completes_setX rfl, completes_setX rfl, completes_setX rfl, completes_setX rfl⟩

/-- Settles O24: the three meanings are writes of `rd` behind the check for zero, and the field's laws say what the
inverse and the logarithm are. -/
theorem scalarDomain : Obligations.ScalarDomain := by
  refine fun s rd ra rb => ⟨fun hb => (completes_gfDiv rd hb).imp fun t ht => ⟨ht, fun hm => ?_⟩,
    fun hb => faults_of_error (congrArg (finish _ s) (faultIf_fault (decide_eq_true hb))), fun ha =>
    ⟨(completes_gfInv rd ha).imp fun t ht => ⟨ht, fun hm => ?_⟩, (completes_gfLog rd ha).imp fun t ht => ⟨?_, fun hm => ?_⟩⟩,
    fun ha => ⟨faults_of_error (congrArg (finish _ s) (faultIf_fault (decide_eq_true ha))),
      faults_of_error (congrArg (finish _ s) (faultIf_fault (decide_eq_true ha)))⟩⟩
  · rw [ht, hm, gfDiv_gfMul _ hb]
  · rw [ht, hm, gfMul_gfInv ha]
  · rw [ht, toNat_ofNat_gfLog]
  · rw [ht, toNat_ofNat_gfLog, hm]
    exact gfLog_spec ha

/-- Settles O26: a load is a write of `rd` behind the check of the effective address. -/
theorem byteLoads : Obligations.ByteLoads := fun _ _ _ _ =>
  ⟨completes_loadByte rfl, faults_loadByte rfl, completes_loadByte rfl, faults_loadByte rfl⟩

/-- Settles O27: a store is a write of one byte of `BUF` behind the check of the effective address. -/
theorem byteStores : Obligations.ByteStores := fun _ _ _ _ hwf =>
  ⟨completes_storeByte hwf rfl, faults_storeByte rfl, completes_storeByte hwf rfl, faults_storeByte rfl, rfl, rfl⟩

end Sys2Proof.Proofs
end

section
/-! The statements about the polynomial commands (42_polynomial.md, R160 to R173). -/

namespace Sys2Proof.Machine

/-! ## Results that fit a register -/

section
variable (s : State) (m : BitVec 9) (pa pb : PReg)

theorem length_polyAdd_getP_le : (polyAdd (s.getP pa) (s.getP pb)).length ≤ pcap := by
  rw [length_polyAdd]
  exact max_le (s.length_getP_le pa) (s.length_getP_le pb)

theorem length_polyScale_getP_le (v : Byte) : (polyScale m (s.getP pa) v).length ≤ pcap := by
  rw [length_polyScale]
  exact s.length_getP_le pa

theorem length_polyDeriv_getP_le : (polyDeriv (s.getP pa)).length ≤ pcap := by
  rw [length_polyDeriv]
  exact (Nat.sub_le _ 1).trans (s.length_getP_le pa)

/-- A degree is below the length. -/
theorem lt_length_of_polyDeg {a : List Byte} {d : Nat} (h : polyDeg a = some d) : d < a.length := by
  obtain ⟨hlead, -⟩ := (polyDeg_eq_some_iff a d).1 h
  by_contra! hle
  exact hlead (coefAt_of_length_le hle)

/-- A remainder is as long as the divisor's degree, whatever the modulus (R154). -/
theorem length_polyMod_of_polyDeg {a b : List Byte} {d : Nat} (h : polyDeg b = some d) :
    (polyMod m a b).length = d := by
  rw [polyMod, h]
  exact length_padTo d _

theorem length_polyMod_getP_le {d : Nat} (h : polyDeg (s.getP pb) = some d) :
    (polyMod m (s.getP pa) (s.getP pb)).length ≤ pcap := by
  rw [length_polyMod_of_polyDeg m h]
  exact (lt_length_of_polyDeg h).le.trans (s.length_getP_le pb)

/-- What `P.DEG` writes is the degree, which fits a byte (R173). -/
theorem toNat_degreeByte {d : Nat} (h : polyDeg (s.getP pa) = some d) : (degreeByte (s.getP pa)).toNat = d := by
  have hlt : d < 32 := (lt_length_of_polyDeg h).trans_le (s.length_getP_le pa)
  simp only [degreeByte, h, BitVec.toNat_ofNat]
  omega

theorem degreeByte_zero {a : List Byte} (h : polyDeg a = none) : degreeByte a = 0xFF := by
  rw [degreeByte, h]

end

/-! ## `P.SHL`, `P.MUL` and `P.MOD` -/

section
variable {s : State} (pd : PReg) {pa pb : PReg} {k : BitVec 16}

/-- `P.SHL` by at most 31 is the assignment of its result (R168). -/
theorem exec_pShl_of_le (hk : k.toNat ≤ 31) :
    exec (.pShl pd pa k) s = finish (.pShl pd pa k) s (s.setP pd (polyShl (s.getP pa) k.toNat)) :=
  congrArg (finish _ s) (faultIf_pass (decide_eq_false (Nat.not_lt.2 hk)))

theorem completes_pShl (hk : k.toNat ≤ 31) (h : s.getP pa = [] ∨ (s.getP pa).length + k.toNat ≤ 32) :
    Completes (.pShl pd pa k) s (only [.p pd]) fun t => Holds t pd (polyShl (s.getP pa) k.toNat) := by
  refine completes_setP (exec_pShl_of_le pd hk) ?_
  by_cases ha : s.getP pa = []
  · rw [ha]
    exact Nat.zero_le pcap
  · rw [length_polyShl ha]
    exact h.resolve_left ha

theorem faults_pShl (h : 31 < k.toNat ∨ (s.getP pa ≠ [] ∧ 32 < (s.getP pa).length + k.toNat)) :
    Faults (.pShl pd pa k) s .polyRange := by
  by_cases hk : 31 < k.toNat
  · exact faults_of_error (congrArg (finish _ s) (faultIf_fault (decide_eq_true hk)))
  · obtain ⟨ha, hlen⟩ := h.resolve_left hk
    refine faults_setP (exec_pShl_of_le pd (Nat.not_lt.1 hk)) ?_
    rwa [length_polyShl ha]

theorem completes_pMul (h : s.getP pa = [] ∨ s.getP pb = [] ∨ (s.getP pa).length + (s.getP pb).length - 1 ≤ 32) :
    Completes (.pMul pd pa pb) s (only [.p pd])
      fun t => Holds t pd (polyMul s.cfg.gfModulus (s.getP pa) (s.getP pb)) := by
  refine completes_setP rfl ?_
  by_cases hempty : s.getP pa = [] ∨ s.getP pb = []
  · rw [polyMul, if_pos hempty]
    exact Nat.zero_le pcap
  · obtain ⟨ha, hb⟩ := not_or.1 hempty
    rw [length_polyMul _ ha hb]
    exact (h.resolve_left ha).resolve_left hb

theorem faults_pMul (ha : s.getP pa ≠ []) (hb : s.getP pb ≠ [])
    (h : 32 < (s.getP pa).length + (s.getP pb).length - 1) : Faults (.pMul pd pa pb) s .polyRange :=
  faults_setP rfl (by rwa [length_polyMul _ ha hb])

theorem completes_pMod (h : polyDeg (s.getP pb) ≠ none) :
    Completes (.pMod pd pa pb) s (only [.p pd])
      fun t => Holds t pd (polyMod s.cfg.gfModulus (s.getP pa) (s.getP pb)) := by
  obtain ⟨d, hd⟩ := Option.ne_none_iff_exists'.1 h
  have hcheck : (polyDeg (s.getP pb)).isNone = false := by rw [hd, Option.isNone_some]
  exact completes_setP (congrArg (finish _ s) (faultIf_pass hcheck)) (length_polyMod_getP_le s _ pa pb hd)

theorem faults_pMod (h : polyDeg (s.getP pb) = none) : Faults (.pMod pd pa pb) s .gfDomain :=
  faults_of_error (congrArg (finish _ s) (faultIf_fault (Option.isNone_iff_eq_none.2 h)))

end

/-! ## Transfers -/

/-- The bytes of a range of `BUF` from the last address down. -/
theorem reverse_readList (m : Memory) (a n : Nat) :
    (Memory.readList m a n).reverse = (List.range n).map fun i => Memory.read m (a + n - 1 - i) := by
  refine List.ext_getElem (by simp) fun i h1 h2 => ?_
  have hi : i < n := by simpa using h2
  rw [List.getElem_reverse, Memory.getElem_readList, List.getElem_map, List.getElem_range, Memory.length_readList]
  congr 1
  omega

section
variable {s : State} {pd : PReg} {len : BitVec 6} {addr : BitVec 13}

theorem completes_pLd (hlen : len.toNat ≤ 32) (hrange : addr.toNat + len.toNat ≤ 8192) :
    Completes (.pLd pd len addr) s (only [.p pd])
      fun t => Holds t pd ((List.range len.toNat).map fun i => Memory.read s.buf (addr.toNat + len.toNat - 1 - i)) := by
  rw [← reverse_readList]
  refine completes_setP (congrArg (finish _ s) ?_) (by simpa using hlen)
  rw [faultIf_pass (decide_eq_false (Nat.not_lt.2 hlen)), State.memRead_ok s hrange]
  rfl

theorem faults_pLd_polyRange (hlen : 32 < len.toNat) : Faults (.pLd pd len addr) s .polyRange :=
  faults_of_error (congrArg (finish _ s) (faultIf_fault (decide_eq_true hlen)))

theorem faults_pLd_bufRange (hlen : len.toNat ≤ 32) (hrange : 8192 < addr.toNat + len.toNat) :
    Faults (.pLd pd len addr) s .bufRange := by
  refine faults_of_error (congrArg (finish _ s) ?_)
  rw [faultIf_pass (decide_eq_false (Nat.not_lt.2 hlen)), State.memRead_error s hrange]
  rfl

theorem completes_pSt (hwf : Memory.wf s.buf) (hrange : addr.toNat + (s.getP pd).length ≤ 8192) :
    Completes (.pSt pd addr) s (bytesFrom addr.toNat (s.getP pd).length) fun t => ∀ k < (s.getP pd).length,
      Memory.read t.buf (addr.toNat + k) = coefAt (s.getP pd) ((s.getP pd).length - 1 - k) := by
  have hlen : addr.toNat + (s.getP pd).reverse.length ≤ bufSize := by rwa [List.length_reverse]
  have hread := Memory.read_writeList (s.getP pd).reverse hwf hlen
  refine completes_of_ok (congrArg (finish _ s) (State.memWrite_ok s hlen)) (frame_buf s fun a ha => ?_) fun k hk => ?_
  · rw [hread, dif_neg]
    rintro ⟨hlo, hhi⟩
    exact ha ⟨a, rfl, hlo, by rwa [List.length_reverse] at hhi⟩
  · rw [State.countCommand_buf, hread, dif_pos (by rw [List.length_reverse]; omega), List.getElem_reverse,
      coefAt_of_lt (by omega)]
    congr 1
    omega

theorem faults_pSt (hrange : 8192 < addr.toNat + (s.getP pd).length) : Faults (.pSt pd addr) s .bufRange :=
  faults_of_error (congrArg (finish _ s) (State.memWrite_error s (by rwa [List.length_reverse])))

end

/-! ## Coefficients -/

section
variable {s : State} {pd pa : PReg} {rd rs : XReg} {index : BitVec 16}

theorem coefAt_coef (q : PolyReg) (j : Fin pcap) : coefAt q.coef.toList j = q.coef[j] := by
  rw [coefAt_of_lt (by simp)]
  simp

theorem completes_pGetc {j : Fin pcap} (hj : index.toNat = j) :
    Completes (.pGetc rd pa index) s (only [.x rd]) fun t => t.getX rd = (s.p[pa]).coef[j] := by
  have hlt : (j : Nat) < 32 := j.isLt
  have hset := completes_setX (s := s) (i := .pGetc rd pa index) (rd := rd)
    (congrArg (finish _ s) (faultIf_pass (decide_eq_false (by omega))))
  rwa [hj, coefAt_coef] at hset

theorem faults_pGetc (h : 31 < index.toNat) : Faults (.pGetc rd pa index) s .polyRange :=
  faults_of_error (congrArg (finish _ s) (faultIf_fault (decide_eq_true h)))

theorem faults_pSetc (h : 31 < index.toNat) : Faults (.pSetc pd rs index) s .polyRange :=
  faults_of_error (congrArg (finish _ s) (faultIf_fault (decide_eq_true h)))

/-- The list that `P.SETC` assigns: the register up to the larger of its length and the index, with one entry replaced
(R165). -/
def setcList (q : PolyReg) (j : Nat) (v : Byte) : List Byte := (q.coef.toList.take (max q.len (j + 1))).set j v

theorem length_setcList (q : PolyReg) (j : Fin pcap) (v : Byte) :
    (setcList q j v).length = max (q.len : Nat) (j + 1) := by
  have hlen := q.len.isLt
  have hj := j.isLt
  simp only [setcList, List.length_set, List.length_take, Vector.length_toList]
  omega

/-- Its coefficients, where those of the register are 0 beyond the length. -/
theorem coefAt_setcList {q : PolyReg} (hq : ∀ i : Fin pcap, (q.len : Nat) ≤ i → q.coef[i] = 0) (j : Fin pcap) (v : Byte)
    (i : Fin pcap) : coefAt (setcList q j v) i = if i = j then v else q.coef[i] := by
  have hlen := length_setcList q j v
  split
  next hij =>
    subst hij
    rw [coefAt_of_lt (by omega)]
    simp [setcList]
  next hij =>
    have hne : (j : Nat) ≠ i := fun e => hij (Fin.ext e.symm)
    obtain hi | hi := lt_or_ge (i : Nat) (setcList q j v).length
    · rw [coefAt_of_lt hi]
      simp [setcList, hne]
    · rw [coefAt_of_length_le hi, hq i (by omega)]
      rfl

theorem completes_pSetc {j : Fin pcap} (hj : index.toNat = j)
    (hpad : ∀ i : Fin pcap, ((s.p[pd]).len : Nat) ≤ i → (s.p[pd]).coef[i] = 0) :
    Completes (.pSetc pd rs index) s (only [.p pd]) fun t =>
      ((t.p[pd]).len : Nat) = max ((s.p[pd]).len : Nat) (j + 1) ∧ (t.p[pd]).coef[j] = s.getX rs ∧
        ∀ i : Fin pcap, i ≠ j → (t.p[pd]).coef[i] = (s.p[pd]).coef[i] := by
  have hlt : (j : Nat) < 32 := j.isLt
  have hlen := length_setcList (s.p[pd]) j (s.getX rs)
  have hfit : (setcList (s.p[pd]) j (s.getX rs)).length ≤ pcap := by
    have := (s.p[pd]).len.isLt
    omega
  have he : exec (.pSetc pd rs index) s =
      finish (.pSetc pd rs index) s (s.setP pd (setcList (s.p[pd]) j (s.getX rs))) := by
    rw [← hj]
    exact congrArg (finish _ s) (faultIf_pass (decide_eq_false (by omega)))
  rw [State.setP_ok s pd hfit] at he
  refine completes_of_ok he (frame_setP s pd _) ?_
  have hreg : (s.p.set pd (.ofList (setcList (s.p[pd]) j (s.getX rs))))[pd] = .ofList (setcList (s.p[pd]) j (s.getX rs)) := by
    simp
  simp only [State.countCommand_p, hreg, PolyReg.len_ofList hfit, PolyReg.coef_ofList, coefAt_setcList hpad, if_pos, hlen,
    true_and]
  exact fun i hi => if_neg hi

end

end Sys2Proof.Machine

namespace Sys2Proof.Proofs

open Sys2Proof.Machine

/-- Settles O31: the seven meanings are assignments of a result that fits the register. -/
theorem polynomialResults : Obligations.PolynomialResults := fun s _ pa _ _ _ =>
  ⟨completes_setP rfl (Nat.zero_le pcap), completes_setP rfl (s.length_getP_le pa),
    completes_setP rfl (length_polyAdd_getP_le s pa _), completes_setP rfl (length_polyScale_getP_le s _ pa _),
    completes_setP rfl (length_polyDeriv_getP_le s pa), completes_setX rfl,
    (completes_setX rfl).imp fun _ ht => ⟨fun _ hd => ht ▸ toNat_degreeByte s pa hd, fun hz => ht ▸ degreeByte_zero hz⟩⟩

/-- Settles O32: the length of a shift and of a product decides whether it fits, and a remainder always does. -/
theorem polynomialRange : Obligations.PolynomialRange := fun _ pd _ _ _ =>
  ⟨completes_pShl pd, faults_pShl pd, completes_pMul pd, faults_pMul pd, completes_pMod pd, faults_pMod pd⟩

/-- Settles O33: a list of bytes read or written, reversed, with the check of the length first. -/
theorem polynomialTransfers : Obligations.PolynomialTransfers := fun _ _ _ _ hwf =>
  ⟨completes_pLd, faults_pLd_polyRange, faults_pLd_bufRange, completes_pSt hwf, faults_pSt⟩

/-- Settles O34: `P.SETC` assigns the register's list with one entry replaced. -/
theorem polynomialCoefficients : Obligations.PolynomialCoefficients := fun _ _ _ _ _ _ =>
  ⟨fun _ hj => completes_pGetc hj, fun h => ⟨faults_pGetc h, faults_pSetc h⟩, fun _ hj hpad => completes_pSetc hj hpad⟩

end Sys2Proof.Proofs
end

section
/-! The statements about Reed-Solomon encoding (43_rs_encode.md, R180 to R190). -/

namespace Sys2Proof.Machine

/-! ## The generator -/

section
variable (m : BitVec 9)

theorem rsGenerator_succ (n : Nat) : rsGenerator m (n + 1) = polyMul m (rsGenerator m n) [gfExp m n, 1] := by
  simp [rsGenerator, List.range_succ]

/-- The product by `x + e`, coefficient by coefficient. -/
theorem coefAt_polyMul_linear_succ (g : List Byte) (e : Byte) (n : Nat) :
    coefAt (polyMul m g [e, 1]) (n + 1) = gfMul m (coefAt g (n + 1)) e ^^^ coefAt g n := by
  induction g generalizing n with
  | nil => simp [coefAt_polyMul_nil]
  | cons x g ih =>
    rw [coefAt_polyMul_cons_succ]
    cases n with
    | zero =>
      cases g with
      | nil => simp [coefAt_polyMul_nil]
      | cons y g => simp [coefAt_polyMul_cons_zero, BitVec.xor_comm]
    | succ n => simpa using ih n

theorem length_rsGenerator (n : Nat) : (rsGenerator m n).length = n + 1 := by
  induction n with
  | zero => rfl
  | succ n ih =>
    have hne : rsGenerator m n ≠ [] := List.ne_nil_of_length_eq_add_one ih
    rw [rsGenerator_succ, length_polyMul m hne (by simp), ih]
    rfl

theorem coefAt_rsGenerator (n : Nat) : coefAt (rsGenerator m n) n = 1 := by
  induction n with
  | zero => rfl
  | succ n ih =>
    rw [rsGenerator_succ, coefAt_polyMul_linear_succ, coefAt_of_length_le (length_rsGenerator m n).le, ih, zero_gfMul]
    exact BitVec.zero_xor

/-- A monic list of `n + 1` coefficients has degree `n`. -/
theorem polyDeg_of_monic {g : List Byte} {n : Nat} (hlen : g.length = n + 1) (hlead : coefAt g n = 1) :
    polyDeg g = some n := by
  refine (polyDeg_eq_some_iff g n).2 ⟨?_, fun i hi => coefAt_of_length_le (by omega)⟩
  rw [hlead]
  decide

theorem polyDeg_rsGenerator (n : Nat) : polyDeg (rsGenerator m n) = some n :=
  polyDeg_of_monic (length_rsGenerator m n) (coefAt_rsGenerator m n)

end

/-- `x + e` vanishes at `e`. -/
theorem polyEval_linear (e : Byte) : polyEval 0x11D [e, 1] e = 0 := by
  have hone : polyEval 0x11D [1] e = 1 := by simp [polyEval_cons]
  rw [polyEval_cons, hone, one_gfMul]
  exact BitVec.xor_self

/-- `g_n` vanishes at `alpha^0` to `alpha^(n-1)` (R180). -/
theorem polyEval_rsGenerator {n j : Nat} (hj : j < n) :
    polyEval 0x11D (rsGenerator 0x11D n) (gfExp 0x11D j) = 0 := by
  induction n with
  | zero => exact absurd hj (Nat.not_lt_zero j)
  | succ n ih =>
    rw [rsGenerator_succ, polyEval_polyMul, gfMul_eq_zero_iff]
    obtain rfl | hlt := Nat.eq_or_lt_of_le (Nat.le_of_lt_succ hj)
    · exact .inr (polyEval_linear _)
    · exact .inl (ih hlt)

section
variable {s : State} {n : BitVec 16}

theorem completes_rsGen (hlo : 1 ≤ n.toNat) (hhi : n.toNat ≤ 30) :
    Completes (.rsGen n) s (only [.p 0, .rsn]) fun t =>
      Holds t 0 (rsGenerator s.cfg.gfModulus n.toNat) ∧ t.rsn.toNat = n.toNat := by
  have hfit : (rsGenerator s.cfg.gfModulus n.toNat).length ≤ pcap := by
    rw [length_rsGenerator]
    exact Nat.succ_le_succ (hhi.trans (by decide))
  have he : exec (.rsGen n) s = finish (.rsGen n) s
      (.ok { s with p := s.p.set (0 : PReg) (.ofList (rsGenerator s.cfg.gfModulus n.toNat)), rsn := n.setWidth 5 }) := by
    rw [exec, execRsGen, if_pos ⟨hlo, hhi⟩, State.setP_ok s 0 hfit]
    rfl
  refine completes_of_ok he ?_ ⟨holds_setP s 0 hfit, ?_⟩
  · exact ((frame_setP s 0 _).mono (by simp [only])).trans ((frame_rsn _ _).mono (by simp [only]))
  · simp only [State.countCommand_rsn, BitVec.toNat_setWidth]
    omega

theorem faults_rsGen (h : n.toNat < 1 ∨ 30 < n.toNat) : Faults (.rsGen n) s .polyRange := by
  refine faults_of_error (congrArg (finish _ s) (if_neg ?_))
  omega

end

/-! ## The shift register -/

theorem length_rsEncode (m : BitVec 9) (g : List Byte) (n : Nat) (block : List Byte) :
    (rsEncode m g n block).length = n := by
  induction block using List.reverseRecOn with
  | nil => exact List.length_replicate
  | append_singleton block v _ => simp [rsEncode, rsEncStep]

theorem rsEncode_append (m : BitVec 9) (g : List Byte) (n : Nat) (block : List Byte) (v : Byte) :
    rsEncode m g n (block ++ [v]) = rsEncStep m g n (rsEncode m g n block) v := by
  simp [rsEncode]

/-- A step of the register, coefficient by coefficient: the lowest, and those above it below `n` (R182). -/
theorem coefAt_rsEncStep_zero (m : BitVec 9) (g rem : List Byte) {n : Nat} (hn : 1 ≤ n) (v : Byte) :
    coefAt (rsEncStep m g n rem v) 0 = gfMul m (v ^^^ coefAt rem (n - 1)) (coefAt g 0) := by
  obtain ⟨k, rfl⟩ := Nat.exists_eq_add_of_le' hn
  simp [rsEncStep, List.range_succ_eq_map]

theorem coefAt_rsEncStep_succ (m : BitVec 9) (g rem : List Byte) {n k : Nat} (hk : k + 1 < n) (v : Byte) :
    coefAt (rsEncStep m g n rem v) (k + 1) =
      coefAt rem k ^^^ gfMul m (v ^^^ coefAt rem (n - 1)) (coefAt g (k + 1)) := by
  have hkn : k < n - 1 := by omega
  rw [coefAt_of_lt (by simpa [rsEncStep] using hk)]
  simp [rsEncStep, coefAt_take, hkn]

/-- A byte that enters makes the dividend `x` times the old one plus the byte times `x^n`. -/
theorem coefAt_polyShl_cons {n : Nat} (hn : 1 ≤ n) (v : Byte) (a : List Byte) (k : Nat) :
    coefAt (polyShl (v :: a) n) (k + 1) = if k + 1 = n then v else coefAt (polyShl a n) k := by
  rw [coefAt_polyShl, coefAt_polyShl]
  obtain h | rfl | h := Nat.lt_trichotomy (k + 1) n
  · rw [if_pos h, if_neg h.ne, if_pos (by omega)]
  · simp
  · obtain ⟨j, hj⟩ : ∃ j, k + 1 - n = j + 1 := ⟨k - n, by omega⟩
    have hkn : k - n = j := by omega
    rw [if_neg h.not_gt, if_neg h.ne', if_neg (by omega), hj, coefAt_cons_succ, hkn]

/-- The register differs from the block's polynomial times `x^n` by a multiple of the divisor: the byte `f` that is fed back
is the quotient's next coefficient (R182). -/
theorem congruent_rsEncode {g : List Byte} {n : Nat} (hn : 1 ≤ n) (hlen : g.length = n + 1) (hlead : coefAt g n = 1)
    (block : List Byte) : Congruent g (polyShl block.reverse n) (rsEncode 0x11D g n block) := by
  induction block using List.reverseRecOn with
  | nil =>
    refine ⟨[], fun k => ?_⟩
    have hzero : coefAt (List.replicate n 0) k = 0#8 := by
      simpa using coefAt_replicate_append n [] k
    rw [coefAt_polyMul_nil, show rsEncode 0x11D g n [] = List.replicate n 0 from rfl, hzero]
    rfl
  | append_singleton block v ih =>
    obtain ⟨q, hq⟩ := ih
    have hrem := length_rsEncode 0x11D g n block
    rw [List.reverse_append, List.reverse_singleton, List.singleton_append, rsEncode_append]
    generalize rsEncode 0x11D g n block = rem at hq hrem
    have hstep : (rsEncStep 0x11D g n rem v).length = n := by simp [rsEncStep]
    refine ⟨(v ^^^ coefAt rem (n - 1)) :: q, fun k => ?_⟩
    cases k with
    | zero =>
      rw [coefAt_polyMul_cons_zero, coefAt_rsEncStep_zero _ _ _ hn, BitVec.xor_self, coefAt_polyShl]
      exact if_pos hn
    | succ k =>
      have hqk := hq k
      rw [coefAt_polyShl_cons hn, coefAt_polyMul_cons_succ]
      obtain h | rfl | h := Nat.lt_trichotomy (k + 1) n
      · have hz : coefAt (polyShl block.reverse n) k = 0 := by rw [coefAt_polyShl, if_pos (by omega)]
        have hrk : coefAt (polyMul 0x11D q g) k = coefAt rem k := BitVec.xor_eq_zero_iff.1 (hqk.symm.trans hz)
        rw [if_neg h.ne, hz, coefAt_rsEncStep_succ _ _ _ h, hrk, BitVec.xor_comm (coefAt rem k), BitVec.xor_self]
        rfl
      · have hz : coefAt (polyShl block.reverse (k + 1)) k = 0 := by rw [coefAt_polyShl, if_pos (by omega)]
        have hrk : coefAt (polyMul 0x11D q g) k = coefAt rem k := BitVec.xor_eq_zero_iff.1 (hqk.symm.trans hz)
        have hone : gfMul 0x11D (v ^^^ coefAt rem k) 1 = v ^^^ coefAt rem k := gfMul_one ..
        rw [if_pos rfl, Nat.add_sub_cancel, hlead, hone, hrk, coefAt_of_length_le hstep.le, BitVec.xor_zero,
          BitVec.xor_assoc, BitVec.xor_self, BitVec.xor_zero]
      · have hzero : gfMul 0x11D (v ^^^ coefAt rem (n - 1)) (coefAt g (k + 1)) = 0#8 := by
          rw [coefAt_of_length_le (a := g) (by omega), gfMul_zero]
        rw [if_neg h.ne', hqk, hzero, BitVec.zero_xor, coefAt_of_length_le (hrem.trans_le (by omega)),
          coefAt_of_length_le (hstep.trans_le (by omega))]

/-! ## Code words -/

/-- A remainder below a block's polynomial times `x^n` is their sum (R187). -/
theorem coefAt_append_eq_polyAdd {rem : List Byte} {n : Nat} (hrem : rem.length = n) (a : List Byte) (k : Nat) :
    coefAt (rem ++ a) k = coefAt (polyAdd (polyShl a n) rem) k := by
  rw [coefAt_polyAdd, coefAt_polyShl]
  obtain hk | hk := lt_or_ge k n
  · have hlt : k < rem.length := by omega
    rw [if_pos hk, coefAt_of_lt (by simp only [List.length_append]; omega), List.getElem_append_left hlt, coefAt_of_lt hlt]
    exact BitVec.zero_xor.symm
  · rw [if_neg hk.not_gt, coefAt_of_length_le (hrem.trans_le hk), BitVec.xor_zero]
    simp only [coefAt, List.getD_append_right _ _ _ _ (hrem.trans_le hk), hrem]

/-- The remainder of a block has as many codewords as the generator has roots, whatever the modulus. -/
theorem length_blockRemainder (m : BitVec 9) (n : Nat) (block : List Byte) : (blockRemainder m n block).length = n :=
  length_polyMod_of_polyDeg m (polyDeg_rsGenerator m n)

/-- A block with its remainder has the value 0 at every root of the generator. -/
theorem polyEval_codeword {n j : Nat} (hj : j < n) (block : List Byte) :
    polyEval 0x11D (block ++ (blockRemainder 0x11D n block).reverse).reverse (gfExp 0x11D j) = 0 := by
  have hroot := polyEval_rsGenerator hj
  have hcongr : Congruent (rsGenerator 0x11D n) (polyShl block.reverse n) (blockRemainder 0x11D n block) :=
    congruent_polyMod (polyDeg_rsGenerator _ n) _
  rw [List.reverse_append, List.reverse_reverse,
    polyEval_congr _ (coefAt_append_eq_polyAdd (length_blockRemainder _ n block) block.reverse), polyEval_polyAdd,
    hcongr.polyEval_eq hroot]
  exact BitVec.xor_self

/-! ## Interleaving -/

/-- All the entries of a list, round by round. -/
theorem flatMap_range_getElem? {α : Type} (l : List α) {rounds : Nat} (h : l.length ≤ rounds) :
    ((List.range rounds).flatMap fun i => l[i]?.toList) = l := by
  induction l generalizing rounds with
  | nil => simp
  | cons a l ih =>
    obtain ⟨n, rfl⟩ := Nat.exists_eq_add_of_le' (show 1 ≤ rounds from (Nat.le_add_left 1 l.length).trans h)
    rw [List.range_succ_eq_map, List.flatMap_cons, List.flatMap_map]
    simpa using ih (Nat.le_of_succ_le_succ h)

theorem interleaveRounds_cons_perm (rounds : Nat) {block : List Byte} (h : block.length ≤ rounds)
    (blocks : List (List Byte)) :
    (interleaveRounds rounds (block :: blocks)).Perm (block ++ interleaveRounds rounds blocks) := by
  have hround (i : Nat) : (block :: blocks).filterMap (fun b => b[i]?) =
      block[i]?.toList ++ blocks.filterMap (fun b => b[i]?) := by
    cases hi : block[i]? <;> simp [hi]
  have hperm := List.flatMap_append_perm (List.range rounds) (fun i => block[i]?.toList) fun i =>
    blocks.filterMap (fun b => b[i]?)
  rw [flatMap_range_getElem? block h] at hperm
  simpa only [interleaveRounds, hround] using hperm.symm

/-- Enough rounds take every entry of every block once. -/
theorem interleaveRounds_perm {rounds : Nat} {blocks : List (List Byte)} (h : ∀ b ∈ blocks, b.length ≤ rounds) :
    (interleaveRounds rounds blocks).Perm blocks.flatten := by
  induction blocks with
  | nil => simp [interleaveRounds]
  | cons block blocks ih =>
    obtain ⟨hblock, hblocks⟩ := List.forall_mem_cons.1 h
    exact (interleaveRounds_cons_perm rounds hblock blocks).trans ((ih hblocks).append_left block)

/-- The data rounds go on to the end of the longest block. -/
theorem length_le_foldl_max (blocks : List (List Byte)) (n : Nat) :
    n ≤ blocks.foldl (fun n b => max n b.length) n ∧
      ∀ b ∈ blocks, b.length ≤ blocks.foldl (fun n b => max n b.length) n := by
  induction blocks generalizing n with
  | nil => exact ⟨Nat.le_refl n, nofun⟩
  | cons block blocks ih =>
    obtain ⟨hstart, hall⟩ := ih (max n block.length)
    refine ⟨(Nat.le_max_left ..).trans hstart, List.forall_mem_cons.2 ⟨?_, hall⟩⟩
    exact (Nat.le_max_right ..).trans hstart

theorem interleave_perm {n : Nat} {blocks ecs : List (List Byte)} (h : ∀ ec ∈ ecs, ec.length = n) :
    (interleave n blocks ecs).Perm (blocks.flatten ++ ecs.flatten) :=
  (interleaveRounds_perm (length_le_foldl_max blocks 0).2).append (interleaveRounds_perm fun ec hec => (h ec hec).le)

theorem interleaveRounds_single (block : List Byte) : interleaveRounds block.length [block] = block := by
  have hround (i : Nat) : [block].filterMap (fun b => b[i]?) = block[i]?.toList := by
    cases hi : block[i]? <;> simp [hi]
  simpa only [interleaveRounds, hround] using flatMap_range_getElem? block (Nat.le_refl _)

theorem interleave_single (block ec : List Byte) : interleave ec.length [block] [ec] = block ++ ec := by
  simp only [interleave, List.foldl_cons, List.foldl_nil, Nat.zero_max, interleaveRounds_single]

end Sys2Proof.Machine

namespace Sys2Proof.Proofs

open Sys2Proof.Machine

/-- Settles O35: the product by `x + alpha^n` adds a root and keeps the list monic. -/
theorem generator : Obligations.Generator :=
  ⟨fun _ _ => ⟨completes_rsGen, faults_rsGen⟩, fun _ => rfl, rsGenerator_succ,
    fun m n => ⟨length_rsGenerator m n, coefAt_rsGenerator m n⟩, fun _ _ => polyEval_rsGenerator⟩

/-- Settles O37: the register has the remainder's length and differs from the dividend by a multiple of the divisor. -/
theorem rsEncodeIsRemainder : Obligations.RsEncodeIsRemainder := fun g n block hn hlen hlead =>
  eq_polyMod (polyDeg_of_monic hlen hlead) (length_rsEncode 0x11D g n block) (congruent_rsEncode hn hlen hlead block)

/-- Settles O38: the remainder has the values of the block's polynomial times `x^n` at the generator's roots. -/
theorem encodedBlocksAreCodewords : Obligations.EncodedBlocksAreCodewords := by
  intro n block y hy
  obtain ⟨j, hj, rfl⟩ := List.mem_map.1 hy
  exact polyEval_codeword (List.mem_range.1 hj) block

/-- Settles O41: the rounds take the entries of every list, each once. -/
theorem interleaving : Obligations.Interleaving := ⟨fun _ _ _ => interleave_perm, interleave_single⟩

end Sys2Proof.Proofs
end

section
/-! The statements about the commands that encode blocks, about the default block table, and about the syndromes
(43_rs_encode.md, 44_rs_decode.md, R182 to R190, R201). -/

namespace Sys2Proof.Machine

/-! ## `RS.ENC` -/

section
variable {s : State} {len : BitVec 8} {addr : BitVec 13}

theorem generatorReady_iff (s : State) : generatorReady s = true ↔
    1 ≤ s.rsn.toNat ∧ (s.getP 0).length = s.rsn.toNat + 1 ∧ coefAt (s.getP 0) s.rsn.toNat = 1 := by
  rw [State.getP, PolyReg.length_toList]
  exact decide_eq_true_iff

theorem exec_rsEnc_ready (h : generatorReady s = true) : exec (.rsEnc len addr) s = finish (.rsEnc len addr) s
    ((s.memRead addr.toNat len.toNat).bind fun block =>
      s.setP 1 (rsEncode s.cfg.gfModulus (s.getP 0) s.rsn.toNat block)) := by
  refine congrArg (finish _ s) (faultIf_pass ?_)
  rw [h, Bool.not_true]

theorem completes_rsEnc (h : generatorReady s = true) (hrange : addr.toNat + len.toNat ≤ 8192) :
    Completes (.rsEnc len addr) s (only [.p 1]) fun t => Holds t 1
      (rsEncode s.cfg.gfModulus (s.getP 0) s.rsn.toNat (Memory.readList s.buf addr.toNat len.toNat)) := by
  have he := exec_rsEnc_ready (len := len) (addr := addr) h
  rw [State.memRead_ok s hrange] at he
  refine completes_setP he ?_
  rw [length_rsEncode]
  exact s.rsn.isLt.le

theorem faults_rsEnc_bufRange (h : generatorReady s = true) (hrange : 8192 < addr.toNat + len.toNat) :
    Faults (.rsEnc len addr) s .bufRange := by
  have he := exec_rsEnc_ready (len := len) (addr := addr) h
  rw [State.memRead_error s hrange] at he
  exact faults_of_error he

theorem faults_rsEnc_polyRange (h : generatorReady s = false) : Faults (.rsEnc len addr) s .polyRange := by
  refine faults_of_error (congrArg (finish _ s) (faultIf_fault ?_))
  rw [h, Bool.not_false]

end

/-! ## The default block table -/

/-- What the default table says of one pair (R183 to R185, R190, R267). -/
abbrev BlockRowFits (v : Int) (e : Nat) : Prop :=
  (blockSpec standardTables v e).lens.sum +
      (blockSpec standardTables v e).lens.length * (blockSpec standardTables v e).ecLen =
    (blockSpec standardTables v e).total ∧
  1 ≤ (blockSpec standardTables v e).ecLen ∧ (blockSpec standardTables v e).ecLen ≤ 30 ∧
  1 ≤ (blockSpec standardTables v e).lens.length ∧
  (∀ k ∈ (blockSpec standardTables v e).lens, 1 ≤ k ∧ k + (blockSpec standardTables v e).ecLen ≤ 153) ∧
  (blockSpec standardTables v e).lens.sum ≤ 2956 ∧ (blockSpec standardTables v e).total ≤ 3706 ∧
  ((blockSpec standardTables v e).fourBitLast = true ↔ v = -3 ∨ v = -1) ∧
  (v < 1 → (blockSpec standardTables v e).symbol =
    if v = -3 then 0 else if v = -2 then e else if v = -1 then e + 2 else e + 4)

theorem blockRowFits_full : ∀ (i : Fin 40) (j : Fin 4), BlockRowFits ((i : Nat) + 1) (j + 1) := by decide +kernel

theorem blockRowFits_micro :
    ∀ ve ∈ [((-3 : Int), 0), (-2, 1), (-2, 2), (-1, 1), (-1, 2), (0, 1), (0, 2), (0, 3)], BlockRowFits ve.1 ve.2 := by
  decide +kernel

theorem blockRowFits {v : Int} {e : Nat} (h : validSpec standardTables v e = true) : BlockRowFits v e := by
  obtain ⟨i, j, rfl, rfl⟩ | h := validSpec_cases h
  · exact blockRowFits_full i j
  · exact blockRowFits_micro _ h

/-! ## The final codeword sequence -/

theorem length_maskLastCodeword (short : Bool) (data : List Byte) :
    (maskLastCodeword short data).length = data.length := by
  cases short <;> simp [maskLastCodeword]

/-- Blocks whose lengths add up to the sequence's hold all of it, and there is one for each length. -/
theorem splitByLens_spec (lens : List Nat) {data : List Byte} (h : data.length = lens.sum) :
    (splitByLens lens data).length = lens.length ∧ (splitByLens lens data).flatten = data := by
  induction lens generalizing data with
  | nil => exact ⟨rfl, (List.eq_nil_of_length_eq_zero h).symm⟩
  | cons k lens ih =>
    have hdrop : (data.drop k).length = lens.sum := by
      rw [List.length_drop, h, List.sum_cons, Nat.add_sub_cancel_left]
    obtain ⟨hcount, hflat⟩ := ih hdrop
    simp only [splitByLens, List.length_cons, List.flatten_cons, hcount, hflat, List.take_append_drop, true_and]

/-- The final sequence has as many codewords as the pair (R190 (a), (c)). -/
theorem length_finalSequence (m : BitVec 9) (b : BlockSpec) {data : List Byte} (h : data.length = b.lens.sum) :
    (finalSequence m b data).length = b.lens.sum + b.lens.length * b.ecLen := by
  obtain ⟨hcount, hflat⟩ := splitByLens_spec b.lens ((length_maskLastCodeword b.fourBitLast data).trans h)
  have hecs : ∀ ec ∈ (ecBlocks b data).map (fun blk => (blockRemainder m b.ecLen blk).reverse), ec.length = b.ecLen := by
    simp only [List.forall_mem_map, List.length_reverse]
    exact fun blk _ => length_blockRemainder m b.ecLen blk
  have hecLens : ((ecBlocks b data).map fun blk => (blockRemainder m b.ecLen blk).reverse).flatten.length =
      b.lens.length * b.ecLen := by
    rw [List.length_flatten, List.eq_replicate_of_mem (List.forall_mem_map.2 hecs), List.sum_replicate_nat]
    simp only [List.length_map, ecBlocks, hcount]
  rw [finalSequence, (interleave_perm hecs).length_eq, List.length_append, hecLens, ecBlocks, hflat,
    length_maskLastCodeword, h]

/-! ## `EC.BUILD` -/

section
variable {s : State}

/-- The state after `EC.BUILD`'s writes (R187). -/
def ecBuilt (b : BlockSpec) (s : State) : State :=
  let data := Memory.readList s.buf dbase b.dlen
  { s with
    buf := Memory.writeList s.buf cbase (finalSequence s.cfg.gfModulus b data)
    p := (s.p.set (0 : PReg) (.ofList (rsGenerator s.cfg.gfModulus b.ecLen))).set (1 : PReg)
      (.ofList (lastRemainder s.cfg.gfModulus b data))
    rsn := BitVec.ofNat 5 b.ecLen }

/-- The four accesses are in range for a block structure that fits the regions and registers. -/
theorem ecBuildEffect_ok {b : BlockSpec} (hlen : (finalSequence s.cfg.gfModulus b
    (Memory.readList s.buf dbase b.dlen)).length = b.total) (hsum : b.dlen ≤ 4096) (htotal : b.total ≤ 4096)
    (hec : b.ecLen ≤ 30) : ecBuildEffect b s = .ok (ecBuilt b s) := by
  have hread : dbase + b.dlen ≤ bufSize := by simp only [dbase, bufSize]; omega
  have hwrite : cbase + (finalSequence s.cfg.gfModulus b (Memory.readList s.buf dbase b.dlen)).length ≤ bufSize := by
    simp only [hlen, cbase, bufSize]; omega
  have hgen : (rsGenerator s.cfg.gfModulus b.ecLen).length ≤ pcap := by
    rw [length_rsGenerator]; simp only [pcap]; omega
  have hrem : (lastRemainder s.cfg.gfModulus b (Memory.readList s.buf dbase b.dlen)).length ≤ pcap := by
    rw [lastRemainder, length_blockRemainder]; simp only [pcap]; omega
  rw [ecBuildEffect, State.memRead_ok s hread]
  simp only [Except.bind]
  rw [State.memWrite_ok s hwrite]
  simp only
  rw [State.setP_ok _ 0 hgen]
  simp only
  rw [State.setP_ok _ 1 hrem]
  rfl

theorem exec_ecBuild_valid (hv : s.validSpec = true) : exec .ecBuild s = finish .ecBuild s
    (faultIf (s.blockSpec.dlen < s.dcount.toNat) .dataOverflow <|
      faultIf (s.dcount.toNat < s.blockSpec.dlen) .dataShort <| ecBuildEffect s.blockSpec s) := by
  have hfault : s.specFault = none := specFault_of_valid hv
  rw [exec, execEcBuild, hfault]

theorem exec_ecBuild_invalid (hv : s.validSpec = false) : exec .ecBuild s = finish .ecBuild s
    (.error (if s.versionInt < -3 ∨ 40 < s.versionInt then .versionErr else .eclevelErr)) := by
  have hfault : s.specFault = some (if s.versionInt < -3 ∨ 40 < s.versionInt then .versionErr else .eclevelErr) :=
    specFault_of_invalid hv
  rw [exec, execEcBuild, hfault]

theorem validSpec_of_not_versionLegal (h : ¬ s.versionLegal) : s.validSpec = false := by
  by_contra hv
  obtain ⟨hlevel, -⟩ := validSpec_iff.1 (Bool.of_not_eq_false hv)
  exact h (version_of_levelPossible hlevel)

theorem frame_ecBuilt (hwf : Memory.wf s.buf) {b : BlockSpec} (hlen : (finalSequence s.cfg.gfModulus b
    (Memory.readList s.buf dbase b.dlen)).length = b.total) (htotal : b.total ≤ 4096) :
    Frame (either (bytesFrom 0x1000 b.total) (only [.p 0, .p 1, .rsn])) s (ecBuilt b s) := by
  have hfit : cbase + (finalSequence s.cfg.gfModulus b (Memory.readList s.buf dbase b.dlen)).length ≤ bufSize := by
    simp only [hlen, cbase, bufSize]; omega
  intro q hq
  obtain ⟨hbytes, hregs⟩ := not_or.1 hq
  cases q
  case byte a =>
    refine (Memory.read_writeList _ hwf hfit a).trans (dif_neg ?_)
    rw [hlen]
    exact fun ha => hbytes ⟨a, rfl, ha⟩
  case p k =>
    have h0 : k ≠ 0 := by rintro rfl; exact hregs (by simp [only])
    have h1 : k ≠ 1 := by rintro rfl; exact hregs (by simp [only])
    exact (State.p_set_other { s with p := s.p.set (0 : PReg) _ } _ h1).trans (State.p_set_other s _ h0)
  case rsn => exact absurd (by simp [only]) hregs
  all_goals rfl

/-- The four results of `EC.BUILD` (R187). -/
theorem ecBuilt_spec (hwf : Memory.wf s.buf) {b : BlockSpec} (hlen : (finalSequence s.cfg.gfModulus b
    (Memory.readList s.buf dbase b.dlen)).length = b.total) (htotal : b.total ≤ 4096) (hec : b.ecLen ≤ 30) :
    Memory.readList (ecBuilt b s).buf 0x1000 b.total =
      finalSequence s.cfg.gfModulus b (Memory.readList s.buf dbase b.dlen) ∧
    Holds (ecBuilt b s) 0 (rsGenerator s.cfg.gfModulus b.ecLen) ∧
    Holds (ecBuilt b s) 1 (lastRemainder s.cfg.gfModulus b (Memory.readList s.buf dbase b.dlen)) ∧
    (ecBuilt b s).rsn.toNat = b.ecLen := by
  have hfit : cbase + (finalSequence s.cfg.gfModulus b (Memory.readList s.buf dbase b.dlen)).length ≤ bufSize := by
    simp only [hlen, cbase, bufSize]; omega
  refine ⟨List.ext_getElem (by simp [hlen]) fun i h1 h2 => ?_, ?_, ?_, ?_⟩
  · rw [Memory.getElem_readList]
    refine (Memory.read_writeList _ hwf hfit _).trans ?_
    rw [dif_pos ⟨Nat.le_add_right _ _, Nat.add_lt_add_left h2 _⟩]
    simp only [cbase, Nat.add_sub_cancel_left]
  · have hgen : (rsGenerator s.cfg.gfModulus b.ecLen).length ≤ pcap := by
      rw [length_rsGenerator]; simp only [pcap]; omega
    have hreg : (ecBuilt b s).p[(0 : PReg)] = (s.p.set (0 : PReg) (.ofList (rsGenerator s.cfg.gfModulus b.ecLen)))[(0 : PReg)] :=
      State.p_set_other { s with p := s.p.set (0 : PReg) _ } _ (by decide)
    obtain ⟨hlist, hpad⟩ := holds_setP s 0 hgen
    refine ⟨?_, fun j hj => ?_⟩
    · rw [State.getP, hreg]
      exact hlist
    · simp only [hreg]
      exact hpad j hj
  · have hrem : (lastRemainder s.cfg.gfModulus b (Memory.readList s.buf dbase b.dlen)).length ≤ pcap := by
      rw [lastRemainder, length_blockRemainder]; simp only [pcap]; omega
    exact holds_setP { s with p := s.p.set (0 : PReg) _ } 1 hrem
  · refine (BitVec.toNat_ofNat ..).trans (Nat.mod_eq_of_lt ?_)
    omega

end

/-! ## `RS.SYN` -/

section
variable {s : State} (hdec : s.cfg.hasRsdec = true)
include hdec

theorem requireRsdec_pass (r : Except FaultCode State) : requireRsdec s r = r :=
  faultIf_pass (by rw [hdec, Bool.not_true])

theorem completes_rsSyn {len : BitVec 8} {addr : BitVec 13} (hn : 1 ≤ s.rsn.toNat)
    (hrange : addr.toNat + len.toNat ≤ 8192) :
    Completes (.rsSyn len addr) s (only [.p 2, .synz, .unc, .nerr]) fun t =>
      Holds t 2 (syndromes s.cfg.gfModulus s.rsn.toNat (Memory.readList s.buf addr.toNat len.toNat)) ∧
      (t.flags.synz = true ↔ ∀ y ∈ t.getP 2, y = 0) ∧ t.flags.unc = false ∧ t.nerr = 0 := by
  generalize hsyn : syndromes s.cfg.gfModulus s.rsn.toNat (Memory.readList s.buf addr.toNat len.toNat) = syn
  have hfit : syn.length ≤ pcap := by
    rw [← hsyn, syndromes, List.length_map, List.length_range]
    exact s.rsn.isLt.le
  have he : exec (.rsSyn len addr) s = finish (.rsSyn len addr) s
      (.ok { s with p := s.p.set (2 : PReg) (.ofList syn), flags := flagsAfterSyn syn, nerr := 0 }) := by
    rw [exec, execRsSyn, requireRsdec_pass hdec, faultIf_pass (decide_eq_false (Nat.not_lt.2 hn)),
      State.memRead_ok s hrange]
    simp only [Except.bind, hsyn]
    rw [State.setP_ok s 2 hfit]
    rfl
  obtain ⟨hlist, hpad⟩ := holds_setP s 2 hfit
  refine completes_of_ok he ?_ ⟨⟨hlist, hpad⟩, ?_, rfl, rfl⟩
  · intro q hq
    cases q
    case p k =>
      refine State.p_set_other s _ ?_
      rintro rfl
      exact hq (by simp [only])
    case synz => exact absurd (by simp [only]) hq
    case unc => exact absurd (by simp [only]) hq
    case nerr => exact absurd (by simp [only]) hq
    all_goals rfl
  · have hget : State.getP (countCommand s
        { s with p := s.p.set (2 : PReg) (.ofList syn), flags := flagsAfterSyn syn, nerr := 0 }) 2 = syn := hlist
    rw [hget]
    simp [flagsAfterSyn]

theorem faults_rsSyn_polyRange {len : BitVec 8} {addr : BitVec 13} (hn : s.rsn.toNat < 1) :
    Faults (.rsSyn len addr) s .polyRange := by
  refine faults_of_error (congrArg (finish _ s) ?_)
  rw [requireRsdec_pass hdec, faultIf_fault (decide_eq_true hn)]

theorem faults_rsSyn_bufRange {len : BitVec 8} {addr : BitVec 13} (hn : 1 ≤ s.rsn.toNat)
    (hrange : 8192 < addr.toNat + len.toNat) : Faults (.rsSyn len addr) s .bufRange := by
  refine faults_of_error (congrArg (finish _ s) ?_)
  rw [requireRsdec_pass hdec, faultIf_pass (decide_eq_false (Nat.not_lt.2 hn)), State.memRead_error s hrange]
  rfl

end

end Sys2Proof.Machine

namespace Sys2Proof.Proofs

open Sys2Proof.Machine

/-- Settles O36: the register is the assignment of the remainder behind the checks of the generator and the range. -/
theorem rsEnc : Obligations.RsEnc := by
  intro s len addr
  refine ⟨fun hn hlen hlead => ?_, fun h => faults_rsEnc_polyRange ?_⟩
  · have hready := (generatorReady_iff s).2 ⟨hn, hlen, hlead⟩
    exact ⟨completes_rsEnc hready, faults_rsEnc_bufRange hready⟩
  · refine Bool.eq_false_iff.2 fun hready => ?_
    obtain ⟨hn, hlen, hlead⟩ := (generatorReady_iff s).1 hready
    exact h.elim (fun h => by omega) (·.elim (· hlen) (· hlead))

/-- Settles O40: the kernel reads the 168 rows. -/
theorem blockTable : Obligations.BlockTable := by
  rintro v e b h rfl
  exact blockRowFits h

/-- Settles O42: the tables fit, so the four accesses of the effect are in range. -/
theorem ecBuild : Obligations.EcBuild := by
  intro s hwf htables
  refine ⟨fun hv hcount => ?_, fun hv hcount => ?_, fun hv hcount => ?_, fun hv hlegal => ?_, fun hlegal => ?_⟩
  · obtain ⟨hadds, -, hec, htotal⟩ := htables.blocks _ _ hv
    have hlen : (finalSequence s.cfg.gfModulus s.blockSpec (Memory.readList s.buf dbase s.blockSpec.dlen)).length =
        s.blockSpec.total := (length_finalSequence _ _ (Memory.length_readList ..)).trans hadds
    have hsum : s.blockSpec.dlen ≤ 4096 := (Nat.le_add_right _ _).trans (hadds.le.trans htotal)
    have hpost := ecBuilt_spec hwf hlen htotal hec
    simp only [Memory.readList, dbase, Nat.zero_add, BlockSpec.dlen] at hpost
    refine completes_of_ok ?_ (frame_ecBuilt hwf hlen htotal) hpost
    rw [exec_ecBuild_valid hv, BlockSpec.dlen, hcount, faultIf_pass (decide_eq_false (Nat.lt_irrefl _)),
      faultIf_pass (decide_eq_false (Nat.lt_irrefl _)), ecBuildEffect_ok hlen hsum htotal hec]
  · exact faults_of_error ((exec_ecBuild_valid hv).trans (congrArg _ (faultIf_fault (decide_eq_true hcount))))
  · refine faults_of_error ((exec_ecBuild_valid hv).trans (congrArg _ ?_))
    rw [BlockSpec.dlen, faultIf_pass (decide_eq_false (Nat.lt_asymm hcount))]
    exact faultIf_fault (decide_eq_true hcount)
  · refine faults_of_error ((exec_ecBuild_invalid hv).trans ?_)
    obtain ⟨hlo, hhi⟩ := hlegal
    rw [if_neg (by omega)]
  · refine faults_of_error ((exec_ecBuild_invalid (validSpec_of_not_versionLegal hlegal)).trans ?_)
    rw [if_pos (by rw [State.versionLegal] at hlegal; omega)]

/-- Settles O43: the syndromes go to `p[2]` behind the three checks. -/
theorem rsSyn : Obligations.RsSyn := fun _ _ _ hdec =>
  ⟨completes_rsSyn hdec, faults_rsSyn_polyRange hdec, faults_rsSyn_bufRange hdec⟩

end Sys2Proof.Proofs
end

section
/-! The statements about locating and correcting errors (44_rs_decode.md, R203 to R207). -/

namespace Sys2Proof.Machine

/-- A list cut or padded to `n` entries is the list of its first `n` coefficients (R11). -/
theorem padTo_eq_map (n : Nat) (a : List Byte) : padTo n a = (List.range n).map (coefAt a) := by
  refine List.ext_getElem (by rw [length_padTo, List.length_map, List.length_range]) fun i h1 h2 => ?_
  rw [← coefAt_of_lt h1, coefAt_padTo, if_pos (by rwa [length_padTo] at h1), List.getElem_map, List.getElem_range]

theorem syndromesReady_iff (s : State) :
    syndromesReady s = true ↔ 1 ≤ s.rsn.toNat ∧ (s.getP 2).length = s.rsn.toNat := by
  rw [State.getP, PolyReg.length_toList]
  exact decide_eq_true_iff

theorem syndromesReady_eq_false {s : State} (h : s.rsn.toNat < 1 ∨ (s.getP 2).length ≠ s.rsn.toNat) :
    syndromesReady s = false := by
  refine Bool.eq_false_iff.2 fun hready => ?_
  obtain ⟨hn, hlen⟩ := (syndromesReady_iff s).1 hready
  exact h.elim (fun h => by omega) (· hlen)

/-- A command that assigns a polynomial register and then sets `UNC`, or not, touches the two alone (R204, R205). -/
theorem completes_setP_unc {i : Instr} {s : State} {k : PReg} {l : List Byte} {f : Flags} (hfit : l.length ≤ pcap)
    (hsynz : f.synz = s.flags.synz)
    (he : exec i s = finish i s ((s.setP k l).map fun t => { t with flags := f })) :
    Completes i s (only [.p k, .unc]) fun t => Holds t k l ∧ t.flags = f := by
  rw [State.setP_ok s k hfit] at he
  refine completes_of_ok he ?_ ⟨holds_setP s k hfit, rfl⟩
  intro q hq
  cases q
  case p j =>
    refine State.p_set_other s _ ?_
    rintro rfl
    exact hq (by simp [only])
  case unc => exact absurd (by simp [only]) hq
  case synz => exact hsynz
  all_goals rfl

theorem flagsAfterChien_unc (f : Flags) (found lamLen : Nat) :
    (flagsAfterChien f found lamLen).unc = true ↔ f.unc = true ∨ found + 1 ≠ lamLen := by
  rw [flagsAfterChien]
  split <;> simp [*]

theorem flagsAfterChien_synz (f : Flags) (found lamLen : Nat) : (flagsAfterChien f found lamLen).synz = f.synz := by
  rw [flagsAfterChien]
  split <;> rfl

theorem flagsAfterForney_unc (f : Flags) (b : Bool) :
    (flagsAfterForney f b).unc = true ↔ f.unc = true ∨ b = true := by
  cases b <;> simp [flagsAfterForney]

theorem flagsAfterForney_synz (f : Flags) (b : Bool) : (flagsAfterForney f b).synz = f.synz := by
  cases b <;> rfl

theorem mem_chienSearch (m : BitVec 9) (lam : List Byte) (len i : Nat) :
    i ∈ chienSearch m lam len ↔ i < len ∧ polyEval m lam (gfExp m ((255 - i) % 255)) = 0 := by
  rw [chienSearch, List.mem_filter, List.mem_range, beq_iff_eq]
  rfl

theorem chienSearch_sorted (m : BitVec 9) (lam : List Byte) (len : Nat) : (chienSearch m lam len).Pairwise (· < ·) :=
  List.pairwise_lt_range.filter _

section
variable {s : State} (hdec : s.cfg.hasRsdec = true)
include hdec

theorem completes_rsOmega (hready : syndromesReady s = true) :
    Completes .rsOmega s (only [.p 4]) fun t => Holds t 4 ((List.range s.rsn.toNat).map fun n =>
      coefAt (polyMul s.cfg.gfModulus (s.getP 2) (s.getP 3)) n) := by
  refine completes_setP ?_ ?_
  · refine congrArg (finish _ s) ?_
    rw [requireRsdec_pass hdec, faultIf_pass (by rw [hready, Bool.not_true]), padTo_eq_map]
  · rw [List.length_map, List.length_range]
    exact s.rsn.isLt.le

theorem faults_rsOmega (hready : syndromesReady s = false) : Faults .rsOmega s .polyRange := by
  refine faults_of_error (congrArg (finish _ s) ?_)
  rw [requireRsdec_pass hdec, faultIf_fault (by rw [hready, Bool.not_false])]

theorem exec_rsChien {len : BitVec 8} (hlam : s.getP 3 ≠ []) : exec (.rsChien len) s = finish (.rsChien len) s
    ((s.setP 5 ((chienSearch s.cfg.gfModulus (s.getP 3) len.toNat).map (BitVec.ofNat 8))).map fun t =>
      let found := (chienSearch s.cfg.gfModulus (s.getP 3) len.toNat).length
      { t with flags := flagsAfterChien s.flags found (s.getP 3).length }) := by
  refine congrArg (finish _ s) ?_
  rw [requireRsdec_pass hdec, faultIf_pass (decide_eq_false (by rwa [List.length_eq_zero_iff]))]

theorem completes_rsChien {len : BitVec 8} (hlam : s.getP 3 ≠ [])
    (hcount : (chienSearch s.cfg.gfModulus (s.getP 3) len.toNat).length ≤ 32) :
    Completes (.rsChien len) s (only [.p 5, .unc]) fun t =>
      Holds t 5 ((chienSearch s.cfg.gfModulus (s.getP 3) len.toNat).map (BitVec.ofNat 8)) ∧
      (t.flags.unc = true ↔ s.flags.unc = true ∨
        (chienSearch s.cfg.gfModulus (s.getP 3) len.toNat).length + 1 ≠ (s.getP 3).length) := by
  have hfit : ((chienSearch s.cfg.gfModulus (s.getP 3) len.toNat).map (BitVec.ofNat 8)).length ≤ pcap := by
    rwa [List.length_map]
  refine (completes_setP_unc hfit (flagsAfterChien_synz _ _ _) (exec_rsChien hdec hlam)).imp fun t ht => ⟨ht.1, ?_⟩
  rw [ht.2]
  exact flagsAfterChien_unc _ _ _

theorem faults_rsChien {len : BitVec 8}
    (h : s.getP 3 = [] ∨ 32 < (chienSearch s.cfg.gfModulus (s.getP 3) len.toNat).length) :
    Faults (.rsChien len) s .polyRange := by
  by_cases hlam : s.getP 3 = []
  · refine faults_of_error (congrArg (finish _ s) ?_)
    rw [requireRsdec_pass hdec, faultIf_fault (decide_eq_true (List.length_eq_zero_iff.2 hlam))]
  · refine faults_of_error ((exec_rsChien hdec hlam).trans (congrArg _ ?_))
    rw [State.setP_error s 5 (by rw [List.length_map]; exact h.resolve_left hlam)]
    rfl

theorem completes_rsForney :
    Completes .rsForney s (only [.p 6, .unc]) fun t =>
      Holds t 6 (((s.getP 5).map BitVec.toNat).map (forneyValue s.cfg.gfModulus (s.getP 3) (s.getP 4))) ∧
      t.flags = flagsAfterForney s.flags
        (((s.getP 5).map BitVec.toNat).any fun i => forneyDen s.cfg.gfModulus (s.getP 3) i == 0) := by
  refine completes_setP_unc ?_ (flagsAfterForney_synz _ _) (congrArg (finish _ s) (requireRsdec_pass hdec _))
  rw [List.length_map, List.length_map]
  exact s.length_getP_le 5

/-! ## `RS.FIX` -/

theorem exec_rsFix {len : BitVec 8} {addr : BitVec 13} (hlen : (s.getP 5).length = (s.getP 6).length)
    (hpos : ∀ pos ∈ s.getP 5, pos.toNat < len.toNat) : exec (.rsFix len addr) s = finish (.rsFix len addr) s
      (faultIf (bufSize < addr.toNat + len.toNat) .bufRange
        (.ok { s with buf := fixBytes s.buf addr.toNat len.toNat ((s.getP 5).zip (s.getP 6)) })) := by
  refine congrArg (finish _ s) ?_
  rw [requireRsdec_pass hdec, faultIf_pass (decide_eq_false (not_not.2 hlen)), faultIf_pass]
  rw [List.any_eq_false]
  exact fun pos h => by simpa using hpos pos h

theorem faults_rsFix_polyRange {len : BitVec 8} {addr : BitVec 13}
    (h : (s.getP 5).length ≠ (s.getP 6).length ∨ ∃ pos ∈ s.getP 5, len.toNat ≤ pos.toNat) :
    Faults (.rsFix len addr) s .polyRange := by
  refine faults_of_error (congrArg (finish _ s) ?_)
  rw [requireRsdec_pass hdec]
  by_cases hlen : (s.getP 5).length = (s.getP 6).length
  · rw [faultIf_pass (decide_eq_false (not_not.2 hlen)), faultIf_fault]
    obtain ⟨pos, hmem, hpos⟩ := h.resolve_left (not_not.2 hlen)
    exact List.any_eq_true.2 ⟨pos, hmem, decide_eq_true hpos⟩
  · rw [faultIf_fault (decide_eq_true hlen)]

end

/-- The error values that go to address `a` (R206, R207). -/
def valuesAt (addr len a : Nat) (l : List (Byte × Byte)) : List Byte :=
  l.filterMap fun pm => if addr + len - 1 - pm.1.toNat = a then some pm.2 else none

/-- A byte after the correction is its old value xor all values of its position. -/
theorem read_fixBytes {addr len : Nat} (hfit : addr + len ≤ bufSize) (a : Nat) (l : List (Byte × Byte)) {m : Memory}
    (hwf : Memory.wf m) (hpos : ∀ pm ∈ l, pm.1.toNat < len) :
    Memory.read (fixBytes m addr len l) a = Memory.read m a ^^^ xorAll (valuesAt addr len a l) := by
  induction l generalizing m with
  | nil => exact BitVec.xor_zero.symm
  | cons pm l ih =>
    obtain ⟨hhead, htail⟩ := List.forall_mem_cons.1 hpos
    rw [fixBytes, ih (Memory.wf_write hwf (by omega) _) htail, Memory.read_write hwf, valuesAt, valuesAt, List.filterMap_cons]
    by_cases ha : addr + len - 1 - pm.1.toNat = a
    · rw [if_pos ha.symm, if_pos ha, ha]
      exact BitVec.xor_assoc _ _ _
    · rw [if_neg (Ne.symm ha), if_neg ha]

theorem valuesAt_eq_nil {addr len a : Nat} {l : List (Byte × Byte)}
    (h : ∀ pm ∈ l, addr + len - 1 - pm.1.toNat ≠ a) : valuesAt addr len a l = [] :=
  List.filterMap_eq_nil_iff.2 fun pm hpm => if_neg (h pm hpm)

end Sys2Proof.Machine

namespace Sys2Proof.Proofs

open Sys2Proof.Machine

/-- Settles O45: the three commands assign a register, and the last two set `UNC` under their conditions. -/
theorem rsLocate : Obligations.RsLocate := by
  intro s len hdec
  refine ⟨fun hn hlen => completes_rsOmega hdec ((syndromesReady_iff s).2 ⟨hn, hlen⟩),
    fun h => faults_rsOmega hdec (syndromesReady_eq_false h), completes_rsChien hdec, faults_rsChien hdec,
    chienSearch_sorted .., mem_chienSearch _ _ _, (completes_rsForney hdec).imp fun t ht den hden => ?_⟩
  obtain ⟨hregister, hflags⟩ := ht
  have hdenominator (i : Byte) : forneyDen s.cfg.gfModulus (s.getP 3) i.toNat = den i := (hden i).symm
  constructor
  · rw [List.map_map] at hregister
    convert hregister using 3 with i
    simp only [Function.comp_apply, forneyValue, hdenominator, locatorInv]
  · rw [hflags, flagsAfterForney_unc]
    simp only [List.any_map, List.any_eq_true, Function.comp_apply, beq_iff_eq, hdenominator]

/-- Settles O46: the bytes are read, xored and written one after the other. -/
theorem rsFix : Obligations.RsFix := by
  intro s len addr hdec hwf
  refine ⟨fun hlen hpos => ⟨fun hrange => ?_, fun hrange => ?_⟩, faults_rsFix_polyRange hdec⟩
  · have hzip : ∀ pm ∈ (s.getP 5).zip (s.getP 6), pm.1.toNat < len.toNat := fun pm hpm =>
      hpos _ (List.of_mem_zip hpm).1
    have hread (a : Nat) := read_fixBytes hrange a _ hwf hzip
    refine completes_of_ok ((exec_rsFix hdec hlen hpos).trans ?_) (frame_buf s fun a ha => ?_) hread
    · rw [faultIf_pass (decide_eq_false (Nat.not_lt.2 hrange))]
    · rw [hread, valuesAt_eq_nil fun pm hpm heq => ha ⟨pm.1, (List.of_mem_zip hpm).1, heq ▸ rfl⟩]
      exact BitVec.xor_zero
  · exact faults_of_error ((exec_rsFix hdec hlen hpos).trans (congrArg _ (faultIf_fault (decide_eq_true hrange))))

end Sys2Proof.Proofs
end

section
/-! The statement about Berlekamp-Massey (44_rs_decode.md, R202).  After `n` rounds the sum of the locator `C` with the
syndromes is 0 at every index from the length `L` up to `n`; so is the sum of the older locator `B`, shifted by `x^m`, from
`n + 1 - L` up to `n`, where it is the old discrepancy: that is what lets a round cancel the new one. -/

namespace Sys2Proof.Machine

/-! ## Sums -/

theorem xorAll_append (l l' : List Byte) : xorAll (l ++ l') = xorAll l ^^^ xorAll l' := by
  induction l with
  | nil => exact BitVec.zero_xor.symm
  | cons c l ih => exact (congrArg (c ^^^ ·) ih).trans (BitVec.xor_assoc _ _ _).symm

/-- A sum whose summands are 0 from index `k` on ends there. -/
theorem xorAll_map_range {f : Nat → Byte} {k n : Nat} (hkn : k ≤ n) (h : ∀ i, k ≤ i → f i = 0) :
    xorAll ((List.range n).map f) = xorAll ((List.range k).map f) := by
  obtain ⟨d, rfl⟩ := Nat.exists_eq_add_of_le hkn
  have hrest : xorAll (((List.range d).map (k + ·)).map f) = 0 := by
    refine xorAll_eq_zero ?_
    simp only [List.forall_mem_map]
    exact fun i _ => h _ (Nat.le_add_right k i)
  rw [List.range_add, List.map_append, xorAll_append, hrest]
  exact BitVec.xor_zero

theorem coefAt_polyMul_polyShl (m : BitVec 9) (a s : List Byte) (k n : Nat) :
    coefAt (polyMul m (polyShl a k) s) n = if n < k then 0 else coefAt (polyMul m a s) (n - k) := by
  by_cases ha : a = []
  · simp [ha, polyShl, coefAt_polyMul_nil]
  rw [polyShl_of_ne_nil ha]
  induction k generalizing n with
  | zero => simp
  | succ k ih =>
    cases n with
    | zero => simp [List.replicate_succ, coefAt_polyMul_cons_zero]
    | succ n => simpa [List.replicate_succ, coefAt_polyMul_cons_succ] using ih n

theorem coefAt_polyMul_polyScale (a s : List Byte) (v : Byte) (n : Nat) :
    coefAt (polyMul 0x11D (polyScale 0x11D a v) s) n = gfMul 0x11D (coefAt (polyMul 0x11D a s) n) v := by
  have hswap (x y : Byte) : gfMul 0x11D (gfMul 0x11D x v) y = gfMul 0x11D (gfMul 0x11D x y) v := by
    rw [gfMul_assoc, gfMul_comm v, ← gfMul_assoc]
  induction a generalizing n with
  | nil => simp [polyScale, coefAt_polyMul_nil]
  | cons x a ih =>
    rw [polyScale, List.map_cons, ← polyScale]
    cases n with
    | zero => rw [coefAt_polyMul_cons_zero, coefAt_polyMul_cons_zero, hswap]
    | succ n => rw [coefAt_polyMul_cons_succ, coefAt_polyMul_cons_succ, hswap, ih, xor_gfMul]

/-- The sum of the corrected locator with the syndromes, at index `n` (R202). -/
theorem coefAt_polyMul_bmUpdate (v : BmVars) (d : Byte) (s : List Byte) (n : Nat) :
    coefAt (polyMul 0x11D (bmUpdate 0x11D v d) s) n = coefAt (polyMul 0x11D v.c s) n ^^^
      gfMul 0x11D (if n < v.m then 0 else coefAt (polyMul 0x11D v.b s) (n - v.m)) (gfDiv 0x11D d v.d) := by
  rw [bmUpdate, coefAt_polyAdd_polyMul, coefAt_polyMul_polyScale, coefAt_polyMul_polyShl]

/-! ## The shape of the locator, for any modulus -/

/-- After `n` rounds: the locator has the constant term 1 and no coefficient beyond `L`, and the older one, shifted, has none
beyond `n + 1 - L`. -/
structure BmShape (n : Nat) (v : BmVars) : Prop where
  length_le : v.l ≤ n
  constant : coefAt v.c 0 = 1
  beyond : ∀ i, v.l < i → coefAt v.c i = 0
  shift : 1 ≤ v.m
  older : ∀ i, n + 1 < i + v.m + v.l → coefAt v.b i = 0

section
variable {m : BitVec 9} {n : Nat} {v : BmVars}

theorem coefAt_bmUpdate (m : BitVec 9) (v : BmVars) (d : Byte) (i : Nat) : coefAt (bmUpdate m v d) i =
    coefAt v.c i ^^^ gfMul m (if i < v.m then 0 else coefAt v.b (i - v.m)) (gfDiv m d v.d) := by
  rw [bmUpdate, coefAt_polyAdd, coefAt_polyScale, coefAt_polyShl]

theorem BmShape.constant_bmUpdate (h : BmShape n v) (d : Byte) : coefAt (bmUpdate m v d) 0 = 1 := by
  rw [coefAt_bmUpdate, if_pos (Nat.lt_of_lt_of_le Nat.zero_lt_one h.shift), h.constant]
  exact (congrArg _ (zero_gfMul m _)).trans BitVec.xor_zero

/-- A correction reaches up to the length or to `n + 1 - L`, whichever is larger. -/
theorem BmShape.beyond_bmUpdate (h : BmShape n v) (d : Byte) {i : Nat} (hi : v.l < i) (hi' : n + 1 - v.l < i) :
    coefAt (bmUpdate m v d) i = 0 := by
  have hle := h.length_le
  have holder : (if i < v.m then 0 else coefAt v.b (i - v.m)) = 0 := by
    split
    · rfl
    · exact h.older _ (by omega)
  rw [coefAt_bmUpdate, h.beyond i hi, holder]
  exact BitVec.zero_xor.trans (zero_gfMul m _)

theorem BmShape.bmRound (h : BmShape n v) (syn : List Byte) : BmShape (n + 1) (bmRound m syn v n) := by
  have hle := h.length_le
  rw [Machine.bmRound]
  split
  · exact ⟨by simp only; omega, h.constant, h.beyond, by simp only; omega,
      fun i hi => h.older i (by simp only at hi; omega)⟩
  · split
    · refine ⟨by simp only; omega, h.constant_bmUpdate _, fun i hi => h.beyond_bmUpdate _ ?_ hi, Nat.le_refl 1,
        fun i hi => h.beyond i ?_⟩
      all_goals simp only at hi; omega
    · refine ⟨by simp only; omega, h.constant_bmUpdate _, fun i hi => h.beyond_bmUpdate _ hi ?_, by simp only; omega,
        fun i hi => h.older i ?_⟩
      all_goals simp only at hi; omega

end

theorem bmShape_berlekampMassey (m : BitVec 9) (syn : List Byte) (n : Nat) : BmShape n (berlekampMassey m syn n) := by
  induction n with
  | zero =>
    refine ⟨Nat.le_refl 0, rfl, fun i hi => coefAt_of_length_le hi, Nat.le_refl 1, fun i hi => coefAt_of_length_le ?_⟩
    simp only [berlekampMassey, List.range_zero, List.foldl_nil, List.length_singleton] at hi ⊢
    omega
  | succ n ih =>
    rw [berlekampMassey_succ]
    exact ih.bmRound syn

/-- The discrepancy is the sum of the locator with the syndromes at the round's index (R202). -/
theorem BmShape.bmDiscrepancy_eq {n : Nat} {v : BmVars} (h : BmShape n v) (syn : List Byte) :
    bmDiscrepancy 0x11D syn v n = coefAt (polyMul 0x11D v.c syn) n := by
  have hbeyond : ∀ i, v.l ≤ i → gfMul 0x11D (coefAt v.c (i + 1)) (coefAt syn (n - (i + 1))) = 0 := fun i hi => by
    rw [h.beyond _ (Nat.lt_succ_of_le hi)]
    exact zero_gfMul ..
  rw [bmDiscrepancy, coefAt_polyMul, List.range_succ_eq_map, List.map_cons, List.map_map, xorAll.eq_def (_ :: _),
    List.foldr_cons, h.constant, one_gfMul, Nat.sub_zero]
  exact congrArg _ (xorAll_map_range h.length_le hbeyond).symm

/-! ## The discrepancies, for the modulus 0x11D -/

/-- After `n` rounds: the sums of the locator are 0 from `L` on, those of the older one from `n + 1 - L - m` on up to
`n - m`, where it is the old discrepancy, which is not 0. -/
structure BmSums (syn : List Byte) (n : Nat) (v : BmVars) : Prop where
  sums : ∀ j, v.l ≤ j → j < n → coefAt (polyMul 0x11D v.c syn) j = 0
  old : v.d ≠ 0
  olderSums : 0 < v.l → ∀ j, n + 1 ≤ j + v.m + v.l → j + v.m < n → coefAt (polyMul 0x11D v.b syn) j = 0
  olderDiscrepancy : 0 < v.l → v.m ≤ n ∧ coefAt (polyMul 0x11D v.b syn) (n - v.m) = v.d

section
variable {syn : List Byte} {n : Nat} {v : BmVars}

/-- A correction keeps the sums that are 0 and makes the new one 0, from the new length on. -/
theorem BmSums.sums_bmUpdate (h : BmSums syn n v) {j : Nat} (hl : v.l ≤ j) (hl' : n + 1 ≤ j + v.l) (hj : j ≤ n) :
    coefAt (polyMul 0x11D (bmUpdate 0x11D v (coefAt (polyMul 0x11D v.c syn) n)) syn) j = 0 := by
  obtain ⟨hm, hd⟩ := h.olderDiscrepancy (by omega)
  rw [coefAt_polyMul_bmUpdate]
  obtain rfl | hlt := Nat.eq_or_lt_of_le hj
  · rw [if_neg (Nat.not_lt.2 hm), hd, gfMul_comm, gfDiv_gfMul _ h.old]
    exact BitVec.xor_self
  · have hzero : (if j < v.m then 0 else coefAt (polyMul 0x11D v.b syn) (j - v.m)) = 0 := by
      split
      · rfl
      · exact h.olderSums (by omega) _ (by omega) (by omega)
    rw [h.sums j hl hlt, hzero]
    exact BitVec.zero_xor.trans (zero_gfMul ..)

theorem BmSums.bmRound (h : BmSums syn n v) (hshape : BmShape n v) :
    BmSums syn (n + 1) (bmRound 0x11D syn v n) := by
  have hle := hshape.length_le
  rw [Machine.bmRound, hshape.bmDiscrepancy_eq]
  have hkeep (hl : 0 < v.l) : v.m + 1 ≤ n + 1 ∧ coefAt (polyMul 0x11D v.b syn) (n + 1 - (v.m + 1)) = v.d := by
    obtain ⟨hm, hd⟩ := h.olderDiscrepancy hl
    exact ⟨Nat.succ_le_succ hm, by rwa [Nat.add_sub_add_right]⟩
  split
  · next hzero =>
    refine ⟨fun j hl hj => ?_, h.old, fun hl j hlo hhi => h.olderSums hl j ?_ ?_, hkeep⟩
    · obtain rfl | hlt := Nat.eq_or_lt_of_le (Nat.le_of_lt_succ hj)
      · exact hzero
      · exact h.sums j hl hlt
    all_goals simp only at hlo hhi; omega
  · next hne =>
    split
    · refine ⟨fun j hl hj => h.sums_bmUpdate ?_ ?_ ?_, hne, fun _ j hlo hhi => h.sums j ?_ ?_,
        fun _ => ⟨Nat.le_add_left 1 n, rfl⟩⟩
      · simp only at hl; omega
      · simp only at hl; omega
      · omega
      all_goals simp only at hlo hhi; omega
    · refine ⟨fun j hl hj => h.sums_bmUpdate hl ?_ ?_, h.old, fun hl j hlo hhi => h.olderSums hl j ?_ ?_, hkeep⟩
      · simp only at hl; omega
      · omega
      all_goals simp only at hlo hhi; omega

end

theorem bmSums_berlekampMassey (syn : List Byte) (n : Nat) : BmSums syn n (berlekampMassey 0x11D syn n) := by
  induction n with
  | zero => exact ⟨nofun, (by decide : (1 : Byte) ≠ 0), nofun, nofun⟩
  | succ n ih =>
    rw [berlekampMassey_succ]
    exact ih.bmRound (bmShape_berlekampMassey _ syn n)

/-! ## Syndromes that are all zero -/

theorem berlekampMassey_zero (m : BitVec 9) {syn : List Byte} (h : ∀ y ∈ syn, y = 0) (n : Nat) :
    berlekampMassey m syn n = ⟨[1], [1], 0, n + 1, 1⟩ := by
  have hcoef (i : Nat) : coefAt syn i = 0 := by
    obtain hi | hi := lt_or_ge i syn.length
    · rw [coefAt_of_lt hi]
      exact h _ (List.getElem_mem hi)
    · exact coefAt_of_length_le hi
  induction n with
  | zero => rfl
  | succ n ih =>
    have hzero : bmDiscrepancy m syn ⟨[1], [1], 0, n + 1, 1⟩ n = 0 := (congrArg (· ^^^ _) (hcoef n)).trans BitVec.xor_zero
    rw [berlekampMassey_succ, ih, bmRound, hzero]
    rfl

/-! ## `RS.BM` -/

/-- The sum of the locator with the syndromes over the locator's own coefficients is the sum at that index. -/
theorem xorAll_locator {n : Nat} {v : BmVars} (hshape : BmShape n v) (syn : List Byte) {r : Nat} (hr : v.l ≤ r) :
    (xorAll ((List.range (v.l + 1)).map fun i => gfMul 0x11D (coefAt (padTo (v.l + 1) v.c) i) (coefAt syn (r - i)))) =
      coefAt (polyMul 0x11D v.c syn) r := by
  have hbeyond : ∀ i, v.l + 1 ≤ i → gfMul 0x11D (coefAt v.c i) (coefAt syn (r - i)) = 0 := fun i hi => by
    rw [hshape.beyond i hi]
    exact zero_gfMul ..
  rw [coefAt_polyMul, xorAll_map_range (Nat.succ_le_succ hr) hbeyond]
  refine congrArg xorAll (List.map_congr_left fun i hi => ?_)
  rw [coefAt_padTo, if_pos (List.mem_range.1 hi)]

section
variable {s : State} (hdec : s.cfg.hasRsdec = true)
include hdec

/-- What `RS.BM` writes is what the rounds leave (R202). -/
theorem completes_rsBm (hready : syndromesReady s = true) :
    Completes .rsBm s (only [.p 3, .nerr, .unc]) fun t =>
      Holds t 3 (padTo ((berlekampMassey s.cfg.gfModulus (s.getP 2) s.rsn.toNat).l + 1)
        (berlekampMassey s.cfg.gfModulus (s.getP 2) s.rsn.toNat).c) ∧
      t.nerr.toNat = (berlekampMassey s.cfg.gfModulus (s.getP 2) s.rsn.toNat).l ∧
      (t.flags.unc = true ↔ s.rsn.toNat < 2 * (berlekampMassey s.cfg.gfModulus (s.getP 2) s.rsn.toNat).l) := by
  have hle := (bmShape_berlekampMassey s.cfg.gfModulus (s.getP 2) s.rsn.toNat).length_le
  generalize hv : berlekampMassey s.cfg.gfModulus (s.getP 2) s.rsn.toNat = v at hle
  have hrsn := s.rsn.isLt
  have hfit : (padTo (v.l + 1) v.c).length ≤ pcap := by
    rw [length_padTo]
    exact Nat.lt_of_le_of_lt hle hrsn
  have he : exec .rsBm s = finish .rsBm s (.ok { s with
      p := s.p.set (3 : PReg) (.ofList (padTo (v.l + 1) v.c)), nerr := BitVec.ofNat 5 v.l,
      flags := flagsAfterBm s.flags v.l s.rsn.toNat }) := by
    rw [exec, execRsBm, requireRsdec_pass hdec, faultIf_pass (by rw [hready, Bool.not_true])]
    simp only [hv]
    rw [State.setP_ok s 3 hfit]
    rfl
  refine completes_of_ok he ?_ ⟨holds_setP s 3 hfit, ?_, decide_eq_true_iff⟩
  · intro q hq
    cases q
    case p k =>
      refine State.p_set_other s _ ?_
      rintro rfl
      exact hq (by simp [only])
    case nerr => exact absurd (by simp [only]) hq
    case unc => exact absurd (by simp [only]) hq
    all_goals rfl
  · exact (BitVec.toNat_ofNat ..).trans (Nat.mod_eq_of_lt (Nat.lt_of_le_of_lt hle hrsn))

theorem faults_rsBm (hready : syndromesReady s = false) : Faults .rsBm s .polyRange := by
  refine faults_of_error (congrArg (finish _ s) ?_)
  rw [requireRsdec_pass hdec, faultIf_fault (by rw [hready, Bool.not_false])]

end

end Sys2Proof.Machine

namespace Sys2Proof.Proofs

open Sys2Proof.Machine

/-- Settles O44: the shape and the sums of the locator are invariants of the rounds. -/
theorem rsBm : Obligations.RsBm := by
  intro s hdec
  refine ⟨fun hn hlen => ?_, fun h => faults_rsBm hdec (syndromesReady_eq_false h)⟩
  refine (completes_rsBm hdec ((syndromesReady_iff s).2 ⟨hn, hlen⟩)).imp fun t ht => ?_
  have hshape := bmShape_berlekampMassey s.cfg.gfModulus (s.getP 2) s.rsn.toNat
  obtain ⟨hholds, hnerr, hunc⟩ := ht
  rw [hholds.1, hnerr]
  refine ⟨hholds, rfl, hshape.length_le, length_padTo _ _, ?_, hshape.beyond, fun hm r hl hr => ?_, hunc, fun hzero => ?_⟩
  · rw [coefAt_padTo, if_pos (Nat.succ_pos _), hshape.constant]
  · rw [xorAll_locator hshape (s.getP 2) hl, hm]
    rw [hm] at hl
    exact (bmSums_berlekampMassey (s.getP 2) s.rsn.toNat).sums r hl hr
  · rw [berlekampMassey_zero _ hzero] at hnerr ⊢
    exact ⟨rfl, BitVec.eq_of_toNat_eq hnerr⟩

end Sys2Proof.Proofs
end

section
/-! The statements about the scores (46_masking.md, R255 to R261): the grid of values is the list of the matrix' rows, so
that each term is a sum over rows, columns and cells. -/

namespace Sys2Proof.Machine

/-! ## Rows and columns -/

section
variable (m : Mat) {n : Nat}

theorem length_matRow (r : Nat) : (matRow m n r).length = n := by
  rw [matRow, List.length_map, List.length_range]

theorem length_matColumn (c : Nat) : (matColumn m n c).length = n := by
  rw [matColumn, List.length_map, List.length_range]

theorem getD_matRow (r : Nat) {c : Nat} (hc : c < n) : (matRow m n r).getD c false = (m.get r c).val := by
  rw [List.getD_eq_getElem _ _ (by rwa [length_matRow])]
  simp [matRow]

/-- The grid of values, row by row (R255). -/
theorem valueGrid_eq (hn : n ≤ nmax) : valueGrid m n = (List.range n).map (matRow m n) := by
  have hlen := length_valueGrid m hn
  refine List.ext_getElem (by simp [hlen]) fun r h1 h2 => ?_
  have hr : r < n := by rwa [hlen] at h1
  have hrow : (valueGrid m n)[r].length = n := length_row_valueGrid m hn (List.getElem_mem h1)
  rw [List.getElem_map, List.getElem_range]
  refine List.ext_getElem (by rw [hrow, length_matRow]) fun c h3 h4 => ?_
  have hcell := getElem_valueGrid m hn hr (by rwa [hrow] at h3)
  rw [List.getD_eq_getElem _ _ h1, List.getD_eq_getElem _ _ h3] at hcell
  rw [hcell]
  simp [matRow]

theorem gridColumns_eq (hn : n ≤ nmax) : gridColumns (valueGrid m n) n = (List.range n).map (matColumn m n) := by
  refine List.map_congr_left fun c hc => ?_
  rw [valueGrid_eq m hn, List.map_map]
  exact List.map_congr_left fun r _ => getD_matRow m r (List.mem_range.1 hc)

/-- A sum over the `2N` lines is the sum over the rows and the columns. -/
theorem sum_gridLines (hn : n ≤ nmax) (f : List Bool → Nat) :
    ((gridLines (valueGrid m n) n).map f).sum = ((List.range n).map fun i => f (matRow m n i) + f (matColumn m n i)).sum := by
  rw [gridLines, List.map_append, List.sum_append, gridColumns_eq m hn, valueGrid_eq m hn, List.map_map, List.map_map,
    List.sum_map_add]
  rfl

end

/-! ## Runs -/

theorem lineRuns_replicate (w : Nat) (b : Bool) (run k : Nat) (l : List Bool) :
    lineRuns w b run (List.replicate k b ++ l) = lineRuns w b (run + k) l := by
  induction k generalizing run with
  | zero => rfl
  | succ k ih =>
    rw [List.replicate_succ, List.cons_append, lineRuns, if_pos rfl, ih]
    congr 1
    omega

/-- A run ends where the line ends or the value changes. -/
theorem lineRuns_of_head_ne (w : Nat) {b : Bool} (run : Nat) {l : List Bool} (h : l.head? ≠ some b) :
    lineRuns w b run l = runPoints w run + lineN1 w l := by
  cases l with
  | nil => rfl
  | cons a l =>
    have hne : a ≠ b := fun hab => h (congrArg some hab)
    rw [lineRuns, if_neg hne]
    rfl

/-- The points of a line that begins with a maximal run (R256). -/
theorem lineN1_run (w : Nat) {b : Bool} {k : Nat} {l : List Bool} (hk : 1 ≤ k) (h : l.head? ≠ some b) :
    lineN1 w (List.replicate k b ++ l) = runPoints w k + lineN1 w l := by
  obtain ⟨j, rfl⟩ := Nat.exists_eq_add_of_le hk
  rw [Nat.add_comm 1 j, List.replicate_succ, List.cons_append, lineN1, lineRuns_replicate, lineRuns_of_head_ne w _ h,
    Nat.add_comm 1 j]

/-! ## Blocks -/

/-- The blocks between two rows, column by column (R257). -/
theorem rowPairBlocks_map_range (f g : Nat → Bool) (n : Nat) :
    rowPairBlocks ((List.range n).map f) ((List.range n).map g) =
      (List.range (n - 1)).countP fun c => decide (f c = f (c + 1) ∧ f c = g c ∧ f c = g (c + 1)) := by
  induction n generalizing f g with
  | zero => rfl
  | succ n ih =>
    cases n with
    | zero => rfl
    | succ n =>
      have htail := ih (f ∘ Nat.succ) (g ∘ Nat.succ)
      rw [List.range_succ_eq_map, List.map_cons, List.map_map, List.map_cons, List.map_map]
      rw [List.range_succ_eq_map, List.map_cons, List.map_cons] at htail ⊢
      rw [rowPairBlocks, htail, Nat.add_sub_cancel, Nat.add_sub_cancel, List.range_succ_eq_map, List.countP_cons,
        List.countP_map, Nat.add_comm]
      simp only [Function.comp_def, decide_eq_true_eq, Nat.succ_eq_add_one]

theorem gridBlocks_map_range (rows : Nat → List Bool) (n : Nat) :
    gridBlocks ((List.range n).map rows) =
      ((List.range (n - 1)).map fun r => rowPairBlocks (rows r) (rows (r + 1))).sum := by
  induction n generalizing rows with
  | zero => rfl
  | succ n ih =>
    cases n with
    | zero => rfl
    | succ n =>
      have htail := ih (rows ∘ Nat.succ)
      rw [List.range_succ_eq_map, List.map_cons, List.map_map]
      rw [List.range_succ_eq_map, List.map_cons] at htail ⊢
      rw [gridBlocks, htail, Nat.add_sub_cancel, Nat.add_sub_cancel, List.range_succ_eq_map, List.map_cons, List.sum_cons,
        List.map_map]
      rfl

/-! ## The finder ratio -/

/-- The modules from `a` up to `a + n` are light, those outside the line counting as light (R258). -/
theorem all_light_iff (l : List Bool) (a n : Nat) : (((l.drop a).take n).all fun b => !b) = true ↔
    ∀ j, a ≤ j → j < a + n → l.getD j false = false := by
  rw [List.all_eq_true]
  constructor
  · intro h j hlo hhi
    cases hj : l[j]? with
    | none => simp [hj]
    | some x =>
      have hmem : x ∈ (l.drop a).take n := List.mem_iff_getElem?.2 ⟨j - a, by
        rw [List.getElem?_take, if_pos (by omega), List.getElem?_drop, Nat.add_sub_cancel' hlo, hj]⟩
      have hx := h x hmem
      simpa [hj] using hx
  · intro h x hx
    obtain ⟨i, hi⟩ := List.mem_iff_getElem?.1 hx
    rw [List.getElem?_take, List.getElem?_drop] at hi
    split at hi
    · next hin =>
      have hlight := h (a + i) (Nat.le_add_right a i) (Nat.add_lt_add_left hin a)
      rw [List.getD_eq_getElem?_getD, hi] at hlight
      simpa using hlight
    · cases hi

/-- Seven modules of the line are the finder ratio (R258). -/
theorem take_eq_finderLine_iff {l : List Bool} {i : Nat} (h : i + 7 ≤ l.length) :
    (l.drop i).take 7 = finderLine ↔ ∀ j < 7, l.getD (i + j) false = finderLine.getD j false := by
  have hlen : ((l.drop i).take 7).length = 7 := by
    rw [List.length_take, List.length_drop]
    omega
  have hget {j : Nat} (hj : j < 7) : ((l.drop i).take 7).getD j false = l.getD (i + j) false := by
    simp [List.getD_eq_getElem?_getD, hj]
  constructor
  · intro heq j hj
    rw [← hget hj, heq]
  · intro hall
    refine List.ext_getElem hlen fun j h1 h2 => ?_
    have hj : j < 7 := h2
    rw [← List.getD_eq_getElem _ false h1, ← List.getD_eq_getElem _ false h2, hget hj, hall j hj]

theorem finderAt_iff {l : List Bool} {i : Nat} (h : i + 7 ≤ l.length) : finderAt l i = true ↔
    (∀ j < 7, l.getD (i + j) false = finderLine.getD j false) ∧
      ((∀ j, i ≤ j + 4 → j < i → l.getD j false = false) ∨ (∀ j, i + 7 ≤ j → j < i + 11 → l.getD j false = false)) := by
  have hbefore : (i - 4) + (i - (i - 4)) = i := by omega
  rw [finderAt, Bool.and_eq_true, beq_iff_eq, Bool.or_eq_true, take_eq_finderLine_iff h, List.drop_take, all_light_iff,
    all_light_iff, hbefore]
  simp only [Nat.sub_le_iff_le_add, Nat.add_assoc, Nat.reduceAdd]

/-! ## The four terms -/

theorem gridBlocks_valueGrid (m : Mat) {n : Nat} (hn : n ≤ nmax) : gridBlocks (valueGrid m n) =
    ((List.range (n - 1)).map fun r => (List.range (n - 1)).countP fun c =>
      decide ((m.get r c).val = (m.get r (c + 1)).val ∧ (m.get r c).val = (m.get (r + 1) c).val ∧
        (m.get r c).val = (m.get (r + 1) (c + 1)).val)).sum := by
  rw [valueGrid_eq m hn, gridBlocks_map_range]
  exact congrArg List.sum (List.map_congr_left fun r _ => rowPairBlocks_map_range _ _ n)

theorem dark_valueGrid (m : Mat) {n : Nat} (hn : n ≤ nmax) : ((valueGrid m n).map fun row => row.count true).sum =
    ((List.range n).map fun r => (List.range n).countP fun c => (m.get r c).val).sum := by
  rw [valueGrid_eq m hn, List.map_map]
  refine congrArg List.sum (List.map_congr_left fun r _ => ?_)
  simp only [Function.comp_apply, matRow, List.count, List.countP_map]
  exact List.countP_congr fun c _ => by simp

theorem lineFinders_of_length {l : List Bool} {n : Nat} (h : l.length = n) :
    lineFinders l = (List.range (n - 6)).countP (finderAt l) := by
  rw [lineFinders, h]

/-- With the default weights the terms are those of the default tables. -/
theorem fullTerms_of_weights {T : CfgTables} (h1 : T.w1 = 3) (h2 : T.w2 = 3) (h3 : T.w3 = 40) (h4 : T.w4 = 10)
    (g : List (List Bool)) (n : Nat) : fullTerms T g n = fullTerms standardTables g n := by
  simp only [fullTerms, h1, h2, h3, h4]
  rfl

/-! ## The Micro counts -/

section
variable (m : Mat) {n : Nat} (hpos : 1 ≤ n) (hn : n ≤ nmax)
include hpos hn

theorem rightDark_valueGrid (lo : Nat) : rightDark (valueGrid m n) n lo =
    (List.range' lo (n - lo)).countP fun r => (m.get r (n - 1)).val := by
  rw [rightDark, valueGrid_eq m hn, ← List.map_drop, List.range_eq_range', List.drop_range', List.countP_map]
  simp only [Nat.zero_add, Nat.mul_one, Function.comp_def, getD_matRow m _ (Nat.sub_lt hpos Nat.one_pos)]

theorem bottomDark_valueGrid (lo : Nat) : bottomDark (valueGrid m n) n lo =
    (List.range' lo (n - lo)).countP fun c => (m.get (n - 1) c).val := by
  have hrow : (valueGrid m n).getD (n - 1) [] = matRow m n (n - 1) := by
    rw [valueGrid_eq m hn, List.getD_eq_getElem _ _ (by rw [List.length_map, List.length_range]; omega), List.getElem_map, List.getElem_range]
  rw [bottomDark, hrow, matRow, ← List.map_drop, List.range_eq_range', List.drop_range', List.count, List.countP_map]
  simp only [Nat.zero_add, Nat.mul_one]
  exact List.countP_congr fun c _ => by simp

end

/-! ## `MASK.SCORE` -/

theorem symbolSize_pos {v : Int} (h : -3 ≤ v) : 1 ≤ symbolSize v := by
  unfold symbolSize
  split <;> omega

section
variable {s : State}

theorem completes_maskScore (h : 3 ≤ s.phase.code) :
    Completes .maskScore s (only [.score, .n1, .n2, .n3, .n4]) fun t => t.scores = scoresOf s.cfg s.versionInt s.mat := by
  have he : exec .maskScore s =
      finish .maskScore s (.ok { s with scores := scoresOf s.cfg s.versionInt s.mat }) := by
    rw [exec, execMaskScore, decide_eq_true h, requirePhase_true]
  refine completes_of_ok he ?_ rfl
  intro q hq
  cases q
  case score | n1 | n2 | n3 | n4 => exact absurd (by simp [only]) hq
  all_goals rfl

theorem faults_maskScore (h : ¬ 3 ≤ s.phase.code) : Faults .maskScore s .badPhase := by
  refine faults_of_error ?_
  rw [exec, execMaskScore, decide_eq_false h, requirePhase_false]

theorem scoresOf_full {cfg : Config} {v : Int} (m : Mat) (hv : 1 ≤ v) :
    scoresOf cfg v m = fullScores cfg.toCfgTables (valueGrid m (symbolSize v)) (symbolSize v) :=
  if_neg (by simpa [isMicro] using hv)

theorem scoresOf_micro {cfg : Config} {v : Int} (m : Mat) (hv : v < 1) :
    scoresOf cfg v m = microScores cfg.microScore (valueGrid m (symbolSize v)) (symbolSize v) :=
  if_pos (by simpa [isMicro] using hv)

/-- The registers of a full symbol's scores (R260). -/
theorem fullScores_spec (T : CfgTables) {g : List (List Bool)} {n : Nat} (hg : SquareGrid g n) (hn : n ≤ 177) :
    (fullScores T g n).n1 = BitVec.ofNat 32 (fullTerms T g n).1 ∧
    (fullScores T g n).n2 = BitVec.ofNat 32 (fullTerms T g n).2.1 ∧
    (fullScores T g n).n3 = BitVec.ofNat 32 (fullTerms T g n).2.2.1 ∧
    (fullScores T g n).n4 = BitVec.ofNat 32 (fullTerms T g n).2.2.2 ∧
    (fullScores T g n).score =
      (fullScores T g n).n1 + (fullScores T g n).n2 + (fullScores T g n).n3 + (fullScores T g n).n4 ∧
    (T.w1 = 3 → T.w2 = 3 → T.w3 = 40 → T.w4 = 10 →
      ((fullScores T g n).n1.toNat, (fullScores T g n).n2.toNat, (fullScores T g n).n3.toNat,
        (fullScores T g n).n4.toNat) = fullTerms T g n ∧
      (fullScores T g n).score.toNat = (fullScores T g n).n1.toNat + (fullScores T g n).n2.toNat +
        (fullScores T g n).n3.toNat + (fullScores T g n).n4.toNat) := by
  refine ⟨rfl, rfl, rfl, rfl, ?_, fun h1 h2 h3 h4 => ?_⟩
  · simp only [fullScores, BitVec.ofNat_add]
  · have hle := fullTerms_le hg
    rw [← fullTerms_of_weights h1 h2 h3 h4] at hle
    simp only [fullScores, BitVec.toNat_ofNat]
    generalize fullTerms T g n = terms at hle
    obtain ⟨t1, t2, t3, t4⟩ := terms
    obtain ⟨hn1, hn2, hn3, hn4⟩ := hle
    simp only at hn1 hn2 hn3 hn4 ⊢
    have b1 : t1 ≤ 2 * 177 * 177 := hn1.trans (Nat.mul_le_mul (by omega) (by omega))
    have b2 : t2 ≤ 3 * (177 * 177) := hn2.trans (Nat.mul_le_mul_left 3 (Nat.mul_le_mul (by omega) (by omega)))
    have b3 : t3 ≤ 40 * (2 * 177 * 177) := hn3.trans (Nat.mul_le_mul_left 40 (Nat.mul_le_mul (by omega) (by omega)))
    rw [Nat.mod_eq_of_lt (a := t1) (by omega), Nat.mod_eq_of_lt (a := t2) (by omega),
      Nat.mod_eq_of_lt (a := t3) (by omega), Nat.mod_eq_of_lt (a := t4) (by omega), Nat.mod_eq_of_lt (by omega)]
    exact ⟨rfl, rfl⟩

/-- The registers of a Micro symbol's scores, under either reading (R261). -/
theorem microScores_spec (rule : MicroScore) (m : Mat) {n : Nat} (hpos : 1 ≤ n) (hn : n ≤ 17) :
    (microScores rule (valueGrid m n) n).n1.toNat = (List.range n).countP (fun r => (m.get r (n - 1)).val) ∧
    (microScores rule (valueGrid m n) n).n2.toNat = (List.range n).countP (fun c => (m.get (n - 1) c).val) ∧
    (microScores rule (valueGrid m n) n).n3 = 0 ∧ (microScores rule (valueGrid m n) n).n4 = 0 ∧
    (rule = .doc → (microScores rule (valueGrid m n) n).score.toNat =
      16 * (microScores rule (valueGrid m n) n).n1.toNat + (microScores rule (valueGrid m n) n).n2.toNat) ∧
    (rule = .iso → ∀ s1 s2 : Nat, s1 = (List.range' 1 (n - 1)).countP (fun r => (m.get r (n - 1)).val) →
      s2 = (List.range' 1 (n - 1)).countP (fun c => (m.get (n - 1) c).val) →
      (microScores rule (valueGrid m n) n).score.toNat = 16 * min s1 s2 + max s1 s2) := by
  have hmax : n ≤ nmax := hn.trans (by decide)
  have hcount {lo : Nat} (p : Nat → Bool) : (List.range' lo (n - lo)).countP p ≤ 17 :=
    (List.countP_le_length ..).trans (by rw [List.length_range']; omega)
  have hr0 := hcount (lo := 0) fun r => (m.get r (n - 1)).val
  have hb0 := hcount (lo := 0) fun c => (m.get (n - 1) c).val
  have hr1 := hcount (lo := 1) fun r => (m.get r (n - 1)).val
  have hb1 := hcount (lo := 1) fun c => (m.get (n - 1) c).val
  rw [Nat.sub_zero, ← List.range_eq_range'] at hr0 hb0
  have hn1 : rightDark (valueGrid m n) n 0 = (List.range n).countP fun r => (m.get r (n - 1)).val := by
    rw [rightDark_valueGrid m hpos hmax, Nat.sub_zero, ← List.range_eq_range']
  have hn2 : bottomDark (valueGrid m n) n 0 = (List.range n).countP fun c => (m.get (n - 1) c).val := by
    rw [bottomDark_valueGrid m hpos hmax, Nat.sub_zero, ← List.range_eq_range']
  simp only [microScores]
  rw [hn1, hn2, rightDark_valueGrid m hpos hmax 1, bottomDark_valueGrid m hpos hmax 1]
  simp only [BitVec.toNat_ofNat]
  refine ⟨Nat.mod_eq_of_lt (by omega), Nat.mod_eq_of_lt (by omega), trivial, trivial, ?_, ?_⟩
  · rintro rfl
    simp only
    omega
  · rintro rfl s1 s2 rfl rfl
    simp only
    omega

end

end Sys2Proof.Machine

namespace Sys2Proof.Proofs

open Sys2Proof.Machine

/-- Settles O55: the registers are the scores of the matrix as it stands. -/
theorem maskScore : Obligations.MaskScore := by
  rintro s ⟨hlo, hhi⟩
  refine ⟨fun hphase => ?_, fun hphase => faults_maskScore ?_⟩
  · refine (completes_maskScore ?_).imp fun t ht => ⟨fun hv => ?_, fun hv => ?_⟩
    · rcases hphase with h | h | h <;> rw [h] <;> decide
    · rw [ht, scoresOf_full s.mat hv]
      exact fullScores_spec _ (squareGrid_valueGrid s.mat (symbolSize_le hhi)) (symbolSize_le hhi)
    · rw [ht, scoresOf_micro s.mat hv]
      exact microScores_spec _ s.mat (symbolSize_pos hlo) (symbolSize_le_of_micro hv)
  · rcases hphase with h | h | h <;> rw [h] <;> decide

/-- Settles O56: the grid's lines are the rows and columns of the corner. -/
theorem penaltyTerms : Obligations.PenaltyTerms := by
  refine ⟨fun T m n hn => ⟨sum_gridLines m hn _, congrArg (T.w2 * ·) (gridBlocks_valueGrid m hn), ?_, ?_⟩, fun _ => rfl,
    fun w b k l hk h => lineN1_run w hk h, fun l i h => finderAt_iff h, rfl, rfl, rfl, rfl⟩
  · refine congrArg (T.w3 * ·) ((sum_gridLines m hn lineFinders).trans ?_)
    simp only [lineFinders_of_length (length_matRow m _), lineFinders_of_length (length_matColumn m _)]
  · simp only [fullTerms, balancePoints, dark_valueGrid m hn]

end Sys2Proof.Proofs
end

section
/-! The statements about `MAT.ALLOC`, `MAT.RD`, `MASK.APPLY` and `MASK.SELECT` (45_matrix_build.md, 46_masking.md). -/

namespace Sys2Proof.Machine

section
variable {s : State}

theorem side_le (h : s.versionLegal) : s.side ≤ nmax := symbolSize_le h.2

/-- A pair that exists has a version of the range (R55). -/
theorem versionLegal_of_validSpec (h : s.validSpec = true) : s.versionLegal := by
  obtain ⟨hlevel, -⟩ := validSpec_iff.1 h
  exact version_of_levelPossible hlevel

/-! ## `MAT.ALLOC` -/

theorem exec_matAlloc_valid (hp : s.phase = .idle) (hv : s.validSpec = true) : exec .matAlloc s = finish .matAlloc s
    (.ok { s with mat := s.mat.mapCorner s.side (fun _ _ _ => .blank), phase := .allocated }) := by
  have hfault : s.specFault = none := specFault_of_valid hv
  rw [exec, execMatAlloc, hp, hfault]
  rfl

theorem completes_matAlloc (hp : s.phase = .idle) (hv : s.validSpec = true) :
    Completes .matAlloc s (either (cornerCells s fun _ _ => True) (only [.phase])) fun t =>
      t.phase = .allocated ∧ ∀ r c, r < s.side → c < s.side → t.mat.get r c = ⟨.data, false⟩ := by
  have hle := side_le (versionLegal_of_validSpec hv)
  refine completes_of_ok (exec_matAlloc_valid hp hv) ?_ ⟨rfl, fun r c hr hc => ?_⟩
  · intro q hq
    obtain ⟨hcells, hphase⟩ := not_or.1 hq
    cases q
    case cell r c =>
      refine (Mat.get_mapCorner ..).trans (if_neg ?_)
      rintro ⟨hr, hc, -⟩
      exact hcells ⟨r, c, rfl, hr, hc, trivial⟩
    case phase => exact absurd List.mem_cons_self hphase
    all_goals rfl
  · exact (Mat.get_mapCorner ..).trans (if_pos ⟨hr, hc, hr.trans_le hle, hc.trans_le hle⟩)

theorem faults_matAlloc_invalid (hp : s.phase = .idle) (hv : s.validSpec = false) :
    Faults .matAlloc s (if s.versionInt < -3 ∨ 40 < s.versionInt then .versionErr else .eclevelErr) := by
  have hfault : s.specFault = some (if s.versionInt < -3 ∨ 40 < s.versionInt then .versionErr else .eclevelErr) :=
    specFault_of_invalid hv
  refine faults_of_error ?_
  rw [exec, execMatAlloc, hp, hfault]
  rfl

theorem faults_matAlloc_badPhase (hp : s.phase ≠ .idle) : Faults .matAlloc s .badPhase := by
  refine faults_of_error ?_
  rw [exec, execMatAlloc, beq_eq_false_iff_ne.2 hp, requirePhase_false]

/-! ## `MAT.RD` -/

theorem one_le_code_iff {q : Phase} : 1 ≤ q.code ↔ q ≠ .idle := by cases q <;> decide

theorem exec_matRd (rd ra rb : XReg) (hp : s.phase ≠ .idle) : exec (.matRd rd ra rb) s = finish (.matRd rd ra rb) s
    (faultIf (s.side ≤ (s.getX ra).toNat ∨ s.side ≤ (s.getX rb).toNat) .matRange
      (.ok (s.setX rd (BitVec.ofNat 8 (s.mat.get (s.getX ra).toNat (s.getX rb).toNat).code)))) := by
  rw [exec, execMatRd, decide_eq_true (one_le_code_iff.2 hp)]
  rfl

theorem completes_matRd {rd ra rb : XReg} (hp : s.phase ≠ .idle) (hr : (s.getX ra).toNat < s.side)
    (hc : (s.getX rb).toNat < s.side) : Completes (.matRd rd ra rb) s (only [.x rd]) fun t =>
      t.getX rd = BitVec.ofNat 8 (s.mat.get (s.getX ra).toNat (s.getX rb).toNat).code := by
  have he := exec_matRd rd ra rb hp
  rw [faultIf_pass (decide_eq_false (by omega))] at he
  exact completes_setX he

theorem code_eq (v : Module) : v.code = v.cls.code * 2 + (if v.val then 1 else 0) := by
  rcases v with ⟨_, _ | _⟩ <;> rfl

/-! ## Masks -/

/-- A data module under a mask (R250). -/
theorem get_applyMask_data (T : CfgTables) {v : Int} (hv : v ≤ 40) (k : Nat) (m : Mat) {r c : Nat}
    (hr : r < symbolSize v) (hc : c < symbolSize v) (h : (m.get r c).cls = .data) :
    (applyMask T v k m).get r c = ⟨.data, (m.get r c).val ^^ maskFormula T v k r c⟩ := by
  have hle := symbolSize_le hv
  rw [applyMask, Mat.get_mapCorner, if_pos ⟨hr, hc, hr.trans_le hle, hc.trans_le hle⟩]
  generalize m.get r c = cell at h
  obtain ⟨cls, val⟩ := cell
  subst h
  cases maskFormula T v k r c <;> simp

theorem get_applyMask_other (T : CfgTables) (v : Int) (k : Nat) (m : Mat) {r c : Nat}
    (h : ¬ (r < symbolSize v ∧ c < symbolSize v ∧ (m.get r c).cls = .data)) :
    (applyMask T v k m).get r c = m.get r c := by
  rw [applyMask, Mat.get_mapCorner]
  split
  · next hin => exact if_neg fun hdata => h ⟨hin.1, hin.2.1, hdata.1⟩
  · rfl

/-- A mask applied twice restores the matrix (R250). -/
theorem applyMask_applyMask (T : CfgTables) {v : Int} (hv : v ≤ 40) (k : Nat) (m : Mat) :
    applyMask T v k (applyMask T v k m) = m := by
  refine Mat.ext_of_get fun r c _ _ => ?_
  by_cases h : r < symbolSize v ∧ c < symbolSize v ∧ (m.get r c).cls = .data
  · obtain ⟨hr, hc, hdata⟩ := h
    rw [get_applyMask_data T hv k _ hr hc (by rwa [cls_applyMask]), get_applyMask_data T hv k m hr hc hdata,
      Bool.xor_assoc, Bool.xor_self, Bool.xor_false, ← hdata]
  · rw [get_applyMask_other T v k _ (by rwa [cls_applyMask]), get_applyMask_other T v k m h]

theorem get_applyMask_of_not_dataCell (k : Nat) {r c : Nat} (h : ¬ dataCells s (.cell r c)) :
    (applyMask s.tables s.versionInt k s.mat).get r c = s.mat.get r c :=
  get_applyMask_other _ _ _ _ fun ⟨hr, hc, hdata⟩ => h ⟨r, c, rfl, hr, hc, hdata⟩

/-! ## `MASK.APPLY` -/

theorem exec_maskApply (k : BitVec 16) (hp : s.phase = .placed) : exec (.maskApply k) s = finish (.maskApply k) s
    (faultIf (maskCount s.versionInt ≤ k.toNat) .maskErr
      (.ok { s with mat := applyMask s.tables s.versionInt k.toNat s.mat })) := by
  rw [exec, execMaskApply, hp]
  rfl

theorem exec_maskApply_ok {k : BitVec 16} (hp : s.phase = .placed) (hk : k.toNat < maskCount s.versionInt) :
    exec (.maskApply k) s =
      finish (.maskApply k) s (.ok { s with mat := applyMask s.tables s.versionInt k.toNat s.mat }) := by
  rw [exec_maskApply k hp, faultIf_pass (decide_eq_false (Nat.not_le.2 hk))]

theorem completes_maskApply {k : BitVec 16} (hv : s.versionLegal) (hp : s.phase = .placed)
    (hk : k.toNat < maskCount s.versionInt) :
    Completes (.maskApply k) s (dataCells s) fun t =>
      (∀ r c, r < s.side → c < s.side → (s.mat.get r c).cls = .data →
        t.mat.get r c = ⟨.data, (s.mat.get r c).val ^^ maskFormula s.tables s.versionInt k.toNat r c⟩) ∧
      ∃ u, exec (.maskApply k) t = .next u ∧ u.mat = s.mat := by
  refine completes_of_ok (exec_maskApply_ok hp hk) (frame_mat s fun r c => get_applyMask_of_not_dataCell k.toNat)
    ⟨fun r c hr hc hdata => get_applyMask_data _ hv.2 _ _ hr hc hdata, ?_⟩
  refine ⟨_, exec_maskApply_ok (s := countCommand s { s with mat := applyMask s.tables s.versionInt k.toNat s.mat })
    hp hk, applyMask_applyMask _ hv.2 _ _⟩

theorem faults_maskApply_badPhase {k : BitVec 16} (hp : s.phase ≠ .placed) : Faults (.maskApply k) s .badPhase := by
  refine faults_of_error ?_
  rw [exec, execMaskApply, beq_eq_false_iff_ne.2 hp, requirePhase_false]

/-! ## `MASK.SELECT` -/

theorem exec_maskSelect_forced (hp : s.phase = .placed) (hk : s.maskreq.toNat ≠ 8) :
    exec .maskSelect s = finish .maskSelect s
      (faultIf (maskCount s.versionInt ≤ s.maskreq.toNat) .maskErr (.ok (applyChosen s.maskreq.toNat s))) := by
  rw [exec, execMaskSelect, hp, if_pos hk]
  rfl

theorem exec_maskSelect_auto (hp : s.phase = .placed) (hk : s.maskreq.toNat = 8) :
    exec .maskSelect s =
      finish .maskSelect s (.ok { applyChosen (bestMask s).1 s with scores := (bestMask s).2 }) := by
  rw [exec, execMaskSelect, hp, if_neg (not_not.2 hk)]
  rfl

theorem faults_maskSelect_badPhase (hp : s.phase ≠ .placed) : Faults .maskSelect s .badPhase := by
  refine faults_of_error ?_
  rw [exec, execMaskSelect, beq_eq_false_iff_ne.2 hp, requirePhase_false]

/-- A mask applied for good changes the data cells, `MASKSEL` and `PHASE` (R262). -/
theorem frame_applyChosen (k : Nat) :
    Frame (either (dataCells s) (only [.masksel, .phase])) s (applyChosen k s) := by
  intro q hq
  obtain ⟨hcells, hregs⟩ := not_or.1 hq
  cases q
  case cell r c => exact get_applyMask_of_not_dataCell k hcells
  case masksel | phase => exact absurd (by simp [only]) hregs
  all_goals rfl

theorem completes_maskSelect_forced (hv : s.versionLegal) (hp : s.phase = .placed) (h8 : s.maskreq.toNat ≠ 8)
    (hk : s.maskreq.toNat < maskCount s.versionInt) :
    Completes .maskSelect s (either (dataCells s) (only [.masksel, .phase])) fun t =>
      t.phase = .masked ∧ t.masksel = s.maskreq ∧ ∀ r c, r < s.side → c < s.side → (s.mat.get r c).cls = .data →
        t.mat.get r c = ⟨.data, (s.mat.get r c).val ^^ maskFormula s.tables s.versionInt s.maskreq.toNat r c⟩ := by
  have he := exec_maskSelect_forced hp h8
  rw [faultIf_pass (decide_eq_false (Nat.not_le.2 hk))] at he
  exact completes_of_ok he (frame_applyChosen _) ⟨rfl, (BitVec.ofNat_toNat ..).trans (BitVec.setWidth_eq _), fun r c hr hc hdata =>
    get_applyMask_data _ hv.2 _ _ hr hc hdata⟩

theorem maskCount_le (v : Int) : maskCount v ≤ 8 := by
  unfold maskCount
  split <;> decide

theorem completes_maskSelect_auto (hv : s.versionLegal) (hp : s.phase = .placed) (h8 : s.maskreq.toNat = 8) :
    Completes .maskSelect s (either (dataCells s) (only [.masksel, .phase, .score, .n1, .n2, .n3, .n4])) fun t =>
      t.phase = .masked ∧ t.masksel.toNat = (bestMask s).1 ∧ t.scores = scoresOf s.cfg s.versionInt t.mat ∧
      ∀ r c, r < s.side → c < s.side → (s.mat.get r c).cls = .data →
        t.mat.get r c = ⟨.data, (s.mat.get r c).val ^^ maskFormula s.tables s.versionInt (bestMask s).1 r c⟩ := by
  obtain ⟨hk, hscores, -⟩ := isBest_bestMask s
  have hle := maskCount_le s.versionInt
  refine completes_of_ok (exec_maskSelect_auto hp h8) ?_ ⟨rfl, ?_, hscores, fun r c hr hc hdata =>
    get_applyMask_data _ hv.2 _ _ hr hc hdata⟩
  · intro q hq
    obtain ⟨hcells, hregs⟩ := not_or.1 hq
    cases q
    case cell r c => exact get_applyMask_of_not_dataCell _ hcells
    case masksel | phase | score | n1 | n2 | n3 | n4 => exact absurd (by simp [only]) hregs
    all_goals rfl
  · exact (BitVec.toNat_ofNat ..).trans (Nat.mod_eq_of_lt (by omega))

/-- What better means for the best mask: lower scores for full and higher for Micro symbols (R262). -/
theorem bestMask_spec (s : State) {j : Nat} (hj : j < maskCount s.versionInt) :
    (1 ≤ s.versionInt →
      (candidateScores s (bestMask s).1).score.toNat ≤ (candidateScores s j).score.toNat ∧
      (j < (bestMask s).1 → (candidateScores s (bestMask s).1).score.toNat < (candidateScores s j).score.toNat)) ∧
    (s.versionInt < 1 →
      (candidateScores s j).score.toNat ≤ (candidateScores s (bestMask s).1).score.toNat ∧
      (j < (bestMask s).1 → (candidateScores s j).score.toNat < (candidateScores s (bestMask s).1).score.toNat)) := by
  obtain ⟨-, hscores, hall⟩ := isBest_bestMask s
  obtain ⟨hnot, hbetter⟩ := hall j hj
  rw [hscores] at hnot hbetter
  refine ⟨fun hv => ?_, fun hv => ?_⟩
  · simp only [betterScore, isMicro, decide_eq_false (Int.not_lt.2 hv), Bool.false_eq_true, if_false,
      decide_eq_false_iff_not, decide_eq_true_eq] at hnot hbetter
    exact ⟨Nat.not_lt.1 hnot, hbetter⟩
  · simp only [betterScore, isMicro, decide_eq_true hv, if_true, decide_eq_false_iff_not, decide_eq_true_eq] at hnot hbetter
    exact ⟨Nat.not_lt.1 hnot, hbetter⟩

end

end Sys2Proof.Machine

namespace Sys2Proof.Proofs

open Sys2Proof.Machine

/-- Settles O47: the corner is mapped to blank cells. -/
theorem matAlloc : Obligations.MatAlloc := by
  refine fun s => ⟨completes_matAlloc, fun hp hlegal => ?_, fun hp hlegal hv => ?_, faults_matAlloc_badPhase⟩
  · have h := faults_matAlloc_invalid hp (validSpec_of_not_versionLegal hlegal)
    rwa [if_pos (by rw [State.versionLegal] at hlegal; omega)] at h
  · have h := faults_matAlloc_invalid hp hv
    obtain ⟨hlo, hhi⟩ := hlegal
    rwa [if_neg (by omega)] at h

/-- Settles O52: the number of the cell fits the byte. -/
theorem matRd : Obligations.MatRd := by
  intro s rd ra rb
  refine ⟨fun hp hr hc => (completes_matRd hp hr hc).imp fun t ht => ?_, fun hp h => ?_, fun hp => ?_⟩
  · rw [ht, BitVec.toNat_ofNat, Nat.mod_eq_of_lt ((Module.code_lt _).trans (by decide)), code_eq]
  · exact faults_of_error ((exec_matRd rd ra rb hp).trans (congrArg _ (faultIf_fault (decide_eq_true h))))
  · refine faults_of_error ?_
    rw [exec, execMatRd, hp]
    rfl

/-- Settles O53: a mask is an exclusive or, so it is its own inverse. -/
theorem maskApply : Obligations.MaskApply := fun _ k hv => ⟨completes_maskApply hv, fun hp hk =>
  faults_of_error ((exec_maskApply k hp).trans (congrArg _ (faultIf_fault (decide_eq_true hk)))), faults_maskApply_badPhase⟩

/-- Settles O58: a forced mask is applied as it is, and the search finds the best of the class. -/
theorem maskSelect : Obligations.MaskSelect := fun s hv =>
  ⟨completes_maskSelect_forced hv, fun hp h8 hk =>
    faults_of_error ((exec_maskSelect_forced hp h8).trans (congrArg _ (faultIf_fault (decide_eq_true hk)))), fun hp h8 =>
    ⟨(bestMask s).1, (isBest_bestMask s).1, completes_maskSelect_auto hv hp h8, fun _ => bestMask_spec s⟩,
    faults_maskSelect_badPhase⟩

end Sys2Proof.Proofs
end

section
/-! The statements about the register map (10_state.md, R31) and about the format and version words (46_masking.md, R266,
R269). -/

namespace Sys2Proof.Machine

/-- A register narrower than the word reads zero-extended (R31). -/
theorem toNat_setWidth_word {w : Nat} (hw : w ≤ 32) (x : BitVec w) : (x.setWidth 32).toNat = x.toNat := by
  rw [BitVec.toNat_setWidth, Nat.mod_eq_of_lt (x.isLt.trans_le (Nat.pow_le_pow_right Nat.two_pos hw))]

theorem toNat_ofNat_word {n : Nat} (h : n < 2 ^ 32) : (BitVec.ofNat 32 n).toNat = n := by
  rw [BitVec.toNat_ofNat, Nat.mod_eq_of_lt h]

/-- The codes of the faults are 1 to 11, and 0 stands for none (R37, R290). -/
theorem FaultCode.code_bounds (c : FaultCode) : 1 ≤ c.code ∧ c.code ≤ 11 := by cases c <;> decide

theorem faultCodeOf_le (f : Option FaultCode) : faultCodeOf f ≤ 11 := by
  cases f with
  | none => exact Nat.zero_le 11
  | some c => exact c.code_bounds.2

theorem faultCodeOf_eq_zero_iff (f : Option FaultCode) : faultCodeOf f = 0 ↔ f = none := by
  cases f with
  | none => exact iff_of_true rfl rfl
  | some c => exact iff_of_false (Nat.ne_of_gt c.code_bounds.1) nofun

section
variable (s : State)

theorem csr_fault : (s.csr 0x05).toNat = faultCodeOf s.fault :=
  toNat_ofNat_word ((faultCodeOf_le s.fault).trans_lt (by decide))

theorem csr_fault_eq_zero_iff : s.csr 0x05 = 0 ↔ s.fault = none := by
  rw [← faultCodeOf_eq_zero_iff, ← csr_fault, ← BitVec.toNat_inj]
  rfl

theorem csr_phase : (s.csr 0x04).toNat = s.phase.code := by
  refine toNat_ofNat_word ?_
  cases s.phase <;> decide

theorem csr_flags : (s.csr 0x0E).toNat = (if s.flags.synz then 1 else 0) + (if s.flags.unc then 2 else 0) := by
  have hcsr : s.csr 0x0E = BitVec.ofNat 32 s.flags.code := rfl
  rw [hcsr, Flags.code]
  cases s.flags.synz <;> cases s.flags.unc <;> rfl

theorem csr_cap : s.csr 0x16 = if s.cfg.hasRsdec then 1 else 0 := by
  have hcsr : s.csr 0x16 = BitVec.ofNat 32 s.cfg.hasRsdec.toNat := rfl
  rw [hcsr]
  cases s.cfg.hasRsdec <;> rfl

theorem csr_size : s.csr 0x10 = BitVec.ofNat 32 s.csrSize := rfl

theorem csr_dlen : s.csr 0x11 = BitVec.ofNat 32 s.csrDlen := rfl

theorem csr_clen : s.csr 0x12 = BitVec.ofNat 32 s.csrClen := rfl

end

section
variable {s : State}

theorem csr_size_of_valid (h : s.validSpec = true) (hv : s.versionLegal) : (s.csr 0x10).toNat = symbolSize s.versionInt := by
  have hle := symbolSize_le hv.2
  rw [csr_size, State.csrSize, if_pos h]
  exact toNat_ofNat_word (hle.trans_lt (by decide))

theorem csr_lens_of_valid (h : s.validSpec = true) (hT : TablesFit s.tables) :
    (s.csr 0x11).toNat = s.blockSpec.lens.sum ∧ (s.csr 0x12).toNat = s.blockSpec.total := by
  obtain ⟨hadds, -, -, htotal⟩ := hT.blocks _ _ h
  have hsum : s.blockSpec.lens.sum ≤ 4096 := (Nat.le_add_right _ _).trans (hadds.trans_le htotal)
  rw [csr_dlen, csr_clen, State.csrDlen, State.csrClen, if_pos h, if_pos h]
  exact ⟨toNat_ofNat_word (hsum.trans_lt (by decide)), toNat_ofNat_word (htotal.trans_lt (by decide))⟩

theorem csr_derived_of_invalid (h : s.validSpec = false) : s.csr 0x10 = 0 ∧ s.csr 0x11 = 0 ∧ s.csr 0x12 = 0 := by
  rw [csr_size, csr_dlen, csr_clen, State.csrSize, State.csrDlen, State.csrClen, h]
  exact ⟨rfl, rfl, rfl⟩

/-- The indices past the map read 0 (R31). -/
theorem csr_beyond (s : State) {i : Nat} (h : 0x17 ≤ i) : s.csr i = 0 := by
  obtain ⟨k, rfl⟩ := Nat.exists_eq_add_of_le' h
  rfl

end

/-! ## Code words -/

/-- The format words of the 32 data values: the data above the remainder, and the difference of the two masks (R266). -/
theorem formatWord_data : ∀ d < 32, (formatWord standardTables false d ^^^ 0x5412) / 1024 = d ∧
    bchRem (formatWord standardTables false d ^^^ 0x5412) 0x537 11 = 0 ∧
    formatWord standardTables true d = formatWord standardTables false d ^^^ 0x5412 ^^^ 0x4445 := by
  decide +kernel

theorem versionWord_data : ∀ v < 64, versionWord standardTables v / 4096 = v ∧
    bchRem (versionWord standardTables v) 0x1F25 13 = 0 := by
  decide +kernel

theorem formatWord_distance : ∀ d < 32, ∀ e < 32, d ≠ e → 7 ≤ (List.range 15).countP fun i =>
    (formatWord standardTables false d).testBit i != (formatWord standardTables false e).testBit i := by
  decide +kernel

theorem versionWord_distance : ∀ d < 64, ∀ e < 64, d ≠ e → 8 ≤ (List.range 18).countP fun i =>
    (versionWord standardTables d).testBit i != (versionWord standardTables e).testBit i := by
  decide +kernel

end Sys2Proof.Machine

namespace Sys2Proof.Proofs

open Sys2Proof.Machine

/-- Settles O10: every register's field is narrower than the word that it reads as. -/
theorem registerMap : Obligations.RegisterMap := by
  intro s
  refine ⟨toNat_setWidth_word (by decide) _, toNat_setWidth_word (by decide) _, toNat_setWidth_word (by decide) _,
    toNat_setWidth_word (by decide) _, csr_phase s, csr_fault_eq_zero_iff s, fun c hc => ?_, rfl,
    toNat_setWidth_word (by decide) _, rfl, rfl, rfl, rfl, rfl, toNat_setWidth_word (by decide) _, csr_flags s,
    toNat_setWidth_word (by decide) _, csr_size_of_valid, csr_lens_of_valid, csr_derived_of_invalid,
    toNat_setWidth_word (by decide) _, rfl, rfl, csr_cap s, fun i hi _ => csr_beyond s hi⟩
  rw [csr_fault, hc]
  rfl

/-- Settles O60: the kernel computes the words and their distances. -/
theorem codeWords : Obligations.CodeWords := by
  intro full micro version h
  obtain rfl : full = formatWord standardTables false := funext fun d => (h d).1
  obtain rfl : micro = formatWord standardTables true := funext fun d => (h d).2.1
  obtain rfl : version = versionWord standardTables := funext fun d => (h d).2.2
  exact ⟨formatWord_data, versionWord_data, formatWord_distance, versionWord_distance⟩

end Sys2Proof.Proofs
end

section
/-! The statement about `FMT.WRITE` (46_masking.md, R264 to R270): no cell belongs to two bits, so each keeps what its own
bit gave it. -/

namespace Sys2Proof.Machine

/-! ## A word's bits and their cells -/

section
variable (b : Bool) (word : Nat) {cells : Nat → List (Nat × Nat)} (m : Mat) {r c : Nat}

theorem get_foldl_setVal_other {l : List (Nat × Nat)} (h : (r, c) ∉ l) :
    (l.foldl (fun m rc => m.setVal rc.1 rc.2 b) m).get r c = m.get r c := by
  induction l generalizing m with
  | nil => rfl
  | cons rc l ih =>
    obtain ⟨hne, hrest⟩ := not_or.1 (List.mem_cons.not.1 h)
    rw [List.foldl_cons, ih _ hrest, Mat.get_setVal, if_neg]
    rintro ⟨rfl, rfl, -⟩
    exact hne rfl

theorem val_foldl_setVal {l : List (Nat × Nat)} (hr : r < nmax) (hc : c < nmax) (h : (r, c) ∈ l) :
    ((l.foldl (fun m rc => m.setVal rc.1 rc.2 b) m).get r c).val = b := by
  induction l generalizing m with
  | nil => cases h
  | cons rc l ih =>
    rw [List.foldl_cons]
    by_cases hrest : (r, c) ∈ l
    · exact ih _ hrest
    · obtain rfl : (r, c) = rc := (List.mem_cons.1 h).resolve_right hrest
      rw [get_foldl_setVal_other b _ hrest, Mat.get_setVal, if_pos ⟨rfl, rfl, hr, hc⟩]

theorem writeWord_succ (n : Nat) : writeWord word (n + 1) cells m =
    (cells n).foldl (fun m rc => m.setVal rc.1 rc.2 (word.testBit n)) (writeWord word n cells m) := by
  rw [writeWord, List.range_succ, List.foldl_append]
  rfl

/-- A cell that belongs to no bit keeps its value (R270). -/
theorem get_writeWord_other {n : Nat} (h : ∀ i < n, (r, c) ∉ cells i) :
    (writeWord word n cells m).get r c = m.get r c := by
  induction n with
  | zero => rfl
  | succ n ih =>
    rw [writeWord_succ, get_foldl_setVal_other _ _ (h n (Nat.lt_succ_self n)), ih fun i hi => h i (Nat.lt_succ_of_lt hi)]

/-- A cell that belongs to one bit gets it (R270). -/
theorem val_writeWord {n i : Nat} (hi : i < n) (hr : r < nmax) (hc : c < nmax) (h : (r, c) ∈ cells i)
    (honly : ∀ j < n, (r, c) ∈ cells j → j = i) : ((writeWord word n cells m).get r c).val = word.testBit i := by
  induction n with
  | zero => exact absurd hi (Nat.not_lt_zero i)
  | succ n ih =>
    rw [writeWord_succ]
    by_cases hin : (r, c) ∈ cells n
    · obtain rfl := honly n (Nat.lt_succ_self n) hin
      exact val_foldl_setVal _ _ hr hc hin
    · rw [get_foldl_setVal_other _ _ hin]
      obtain rfl | hlt := Nat.eq_or_lt_of_le (Nat.le_of_lt_succ hi)
      · exact absurd h hin
      · exact ih hlt fun j hj => honly j (Nat.lt_succ_of_lt hj)

end

/-! ## The cells of the format and version bits -/

section
variable {n i j r c : Nat}

theorem mem_formatCellsFull : (r, c) ∈ formatCellsFull n i ↔
    (i ≤ 5 ∧ r = i ∧ c = 8 ∨ i = 6 ∧ r = 7 ∧ c = 8 ∨ i = 7 ∧ r = 8 ∧ c = 8 ∨ i = 8 ∧ r = 8 ∧ c = 7 ∨
      9 ≤ i ∧ r = 8 ∧ c = 14 - i) ∨ (i ≤ 7 ∧ r = 8 ∧ c = n - 1 - i ∨ 8 ≤ i ∧ r = n - 15 + i ∧ c = 8) := by
  rw [formatCellsFull, List.mem_pair]
  refine or_congr ?_ ?_
  · split_ifs <;> rw [Prod.mk.injEq] <;> omega
  · split_ifs <;> rw [Prod.mk.injEq] <;> omega

theorem mem_formatCellsMicro : (r, c) ∈ formatCellsMicro i ↔
    i ≤ 7 ∧ r = i + 1 ∧ c = 8 ∨ 8 ≤ i ∧ r = 8 ∧ c = 15 - i := by
  rw [formatCellsMicro, List.mem_singleton]
  split_ifs <;> rw [Prod.mk.injEq] <;> omega

theorem mem_versionCells : (r, c) ∈ versionCells n i ↔
    r = i / 3 ∧ c = n - 11 + i % 3 ∨ r = n - 11 + i % 3 ∧ c = i / 3 := by
  simp only [versionCells, List.mem_pair, Prod.mk.injEq]

end

section
variable {v : Int} {i j r c : Nat}

theorem symbolSize_full (hv : 1 ≤ v) : (symbolSize v : Int) = 4 * v + 17 := by
  rw [symbolSize, if_pos hv]
  omega

theorem symbolSize_micro (hlo : -3 ≤ v) (hv : v < 1) : (symbolSize v : Int) = 17 + 2 * v := by
  rw [symbolSize, if_neg (by omega)]
  omega

theorem formatCells_full (hv : 1 ≤ v) (i : Nat) : formatCells v i = formatCellsFull (symbolSize v) i :=
  if_neg (by simpa [isMicro] using hv)

theorem formatCells_micro (hv : v < 1) (i : Nat) : formatCells v i = formatCellsMicro i :=
  if_pos (by simpa [isMicro] using hv)

/-- The format cells lie in row or column 8, inside the symbol. -/
theorem formatCells_inside (hlo : -3 ≤ v) (hi : i < 15) (h : (r, c) ∈ formatCells v i) :
    (r = 8 ∨ c = 8) ∧ r < symbolSize v ∧ c < symbolSize v := by
  obtain hv | hv := lt_or_ge v 1
  · have hn := symbolSize_micro hlo hv
    rw [formatCells_micro hv, mem_formatCellsMicro] at h
    omega
  · have hn := symbolSize_full hv
    rw [formatCells_full hv, mem_formatCellsFull] at h
    omega

theorem formatCells_unique (hi : i < 15) (hj : j < 15) (h : (r, c) ∈ formatCells v i)
    (h' : (r, c) ∈ formatCells v j) : j = i := by
  obtain hv | hv := lt_or_ge v 1
  · rw [formatCells_micro hv, mem_formatCellsMicro] at h h'
    omega
  · have hn := symbolSize_full hv
    rw [formatCells_full hv, mem_formatCellsFull] at h h'
    omega

/-- The version cells lie in the first six rows or columns and the three before the last eight. -/
theorem versionCells_inside (hv : 7 ≤ v) (hi : i < 18) (h : (r, c) ∈ versionCells (symbolSize v) i) :
    r ≠ 8 ∧ c ≠ 8 ∧ r < symbolSize v ∧ c < symbolSize v := by
  have hn := symbolSize_full (v := v) (by omega)
  rw [mem_versionCells] at h
  omega

theorem versionCells_unique (hv : 7 ≤ v) (hi : i < 18) (hj : j < 18) (h : (r, c) ∈ versionCells (symbolSize v) i)
    (h' : (r, c) ∈ versionCells (symbolSize v) j) : j = i := by
  have hn := symbolSize_full (v := v) (by omega)
  rw [mem_versionCells] at h h'
  omega

end

/-! ## `FMT.WRITE` -/

section
variable {s : State}

/-- The matrix after `FMT.WRITE` (R270). -/
def formattedMat (s : State) : Mat :=
  writeVersion s.tables s.versionInt (writeFormat s.tables s.versionInt s.ecl.toNat s.masksel.toNat s.mat)

theorem exec_fmtWrite (hp : s.phase = .masked) :
    exec .fmtWrite s = finish .fmtWrite s (.ok { s with mat := formattedMat s, phase := .final }) := by
  rw [exec, execFmtWrite, hp]
  rfl

theorem faults_fmtWrite (hp : s.phase ≠ .masked) : Faults .fmtWrite s .badPhase := by
  refine faults_of_error ?_
  rw [exec, execFmtWrite, beq_eq_false_iff_ne.2 hp, requirePhase_false]

theorem cls_formattedMat (r c : Nat) : ((formattedMat s).get r c).cls = (s.mat.get r c).cls := by
  rw [formattedMat, writeVersion]
  split <;> simp [writeFormat]

/-- The version bits leave a cell that is none of theirs (R268). -/
theorem get_writeVersion_other (T : CfgTables) (v : Int) (m : Mat) {r c : Nat}
    (h : 7 ≤ v → ∀ i < 18, (r, c) ∉ versionCells (symbolSize v) i) : (writeVersion T v m).get r c = m.get r c := by
  rw [writeVersion]
  split
  · next hv => exact get_writeWord_other _ _ (h hv)
  · rfl

theorem get_formattedMat_other {r c : Nat} (hfmt : ∀ i < 15, (r, c) ∉ formatCells s.versionInt i)
    (hver : 7 ≤ s.versionInt → ∀ i < 18, (r, c) ∉ versionCells s.side i) :
    (formattedMat s).get r c = s.mat.get r c :=
  (get_writeVersion_other _ _ _ hver).trans (get_writeWord_other _ _ hfmt)

theorem val_formattedMat_format (hlegal : s.versionLegal) {i r c : Nat} (hi : i < 15)
    (h : (r, c) ∈ formatCells s.versionInt i) : ((formattedMat s).get r c).val =
      (formatWord s.tables (isMicro s.versionInt)
        (formatData s.tables s.versionInt s.ecl.toNat s.masksel.toNat)).testBit i := by
  obtain ⟨hlo, hhi⟩ := hlegal
  have hmax := symbolSize_le hhi
  obtain ⟨hline, hr, hc⟩ := formatCells_inside hlo hi h
  rw [formattedMat, get_writeVersion_other]
  · exact val_writeWord _ _ hi (hr.trans_le hmax) (hc.trans_le hmax) h fun j hj => formatCells_unique hi hj h
  · intro hv j hj hver
    obtain ⟨hr8, hc8, -⟩ := versionCells_inside hv hj hver
    exact hline.elim hr8 hc8

theorem val_formattedMat_version (hlegal : s.versionLegal) (hv : 7 ≤ s.versionInt) {i r c : Nat} (hi : i < 18)
    (h : (r, c) ∈ versionCells s.side i) :
    ((formattedMat s).get r c).val = (versionWord s.tables s.versionInt.toNat).testBit i := by
  have hmax := symbolSize_le hlegal.2
  obtain ⟨-, -, hr, hc⟩ := versionCells_inside hv hi h
  rw [formattedMat, writeVersion, if_pos hv]
  exact val_writeWord _ _ hi (hr.trans_le hmax) (hc.trans_le hmax) h fun j hj => versionCells_unique hv hi hj h

/-- The cells `FMT.WRITE` can write. -/
def formatPieces (s : State) (q : Piece) : Prop :=
  (∃ i < 15, ∃ rc ∈ formatCells s.versionInt i, q = .cell rc.1 rc.2) ∨
    (7 ≤ s.versionInt ∧ ∃ i < 18, ∃ rc ∈ versionCells s.side i, q = .cell rc.1 rc.2)

theorem frame_formatted :
    Frame (either (formatPieces s) (only [.phase])) s { s with mat := formattedMat s, phase := .final } := by
  intro q hq
  obtain ⟨hcells, hphase⟩ := not_or.1 hq
  obtain ⟨hfmt, hver⟩ := not_or.1 hcells
  cases q
  case cell r c =>
    exact get_formattedMat_other (fun i hi h => hfmt ⟨i, hi, _, h, rfl⟩) fun hv i hi h => hver ⟨hv, i, hi, _, h, rfl⟩
  case phase => exact absurd List.mem_cons_self hphase
  all_goals rfl

end

end Sys2Proof.Machine

namespace Sys2Proof.Proofs

open Sys2Proof.Machine

/-- Settles O59: each cell belongs to one bit of one word. -/
theorem fmtWrite : Obligations.FmtWrite := fun _ hlegal => ⟨fun hp =>
  completes_of_ok (exec_fmtWrite hp) frame_formatted ⟨rfl, cls_formattedMat,
    fun _ hi _ h => val_formattedMat_format hlegal hi h, fun hv _ hi _ h => val_formattedMat_version hlegal hv hi h⟩,
  faults_fmtWrite⟩

end Sys2Proof.Proofs
end

section
/-! The statement about the traversal (45_matrix_build.md, R235): the zig-zag lists the cells of strip `k` at row step `i`, the
right one (`d = 0`) before the left one (`d = 1`), and their walk position is `k * 2N + 2 * i + d`. -/

namespace Sys2Proof.Machine

/-! ## The strips in closed form -/

/-- The right column of the strip with `j` strips up to and with it counted from the left: column 6 of a full symbol is left
out (R235). -/
def stripColumn (full : Bool) (j : Nat) : Nat := if full && decide (j ≤ 3) then 2 * j - 1 else 2 * j

/-- The column the walk tries for that strip, before it steps off column 6. -/
def stripStart (full : Bool) (j : Nat) : Nat := if full && decide (j ≤ 2) then 2 * j - 1 else 2 * j

theorem stripColumn_of_start (full : Bool) (j : Nat) :
    (if full && stripStart full (j + 1) == 6 then 5 else stripStart full (j + 1)) = stripColumn full (j + 1) := by
  unfold stripStart stripColumn
  cases full
  · rfl
  · simp only [Bool.true_and, beq_iff_eq, decide_eq_true_eq]
    split_ifs <;> omega

theorem stripStart_of_column (full : Bool) (j : Nat) : stripColumn full (j + 1) - 2 = stripStart full j := by
  unfold stripStart stripColumn
  cases full
  · simp only [Bool.false_and, Bool.false_eq_true, if_false]
    omega
  · simp only [Bool.true_and, decide_eq_true_eq]
    split_ifs <;> omega

theorem stripStart_pos (full : Bool) (j : Nat) : 1 ≤ stripStart full (j + 1) := by
  unfold stripStart
  split_ifs <;> omega

/-- The strips from the right, the walk's direction alternating (R235). -/
theorem zigzagStrips_eq (full : Bool) {fuel j : Nat} (h : j ≤ fuel) (up : Bool) :
    zigzagStrips full fuel (stripStart full j) up =
      (List.range j).map fun k => (stripColumn full (j - k), up ^^ decide (k % 2 = 1)) := by
  induction fuel generalizing j up with
  | zero =>
    obtain rfl := Nat.le_zero.1 h
    rfl
  | succ fuel ih =>
    cases j with
    | zero => cases full <;> rfl
    | succ j =>
      rw [zigzagStrips, if_pos (stripStart_pos full j)]
      simp only [stripColumn_of_start, stripStart_of_column, ih (Nat.le_of_succ_le_succ h)]
      rw [List.range_succ_eq_map, List.map_cons, List.map_map]
      congr 1
      · simp
      · refine List.map_congr_left fun k _ => ?_
        have hparity : decide ((k + 1) % 2 = 1) = !decide (k % 2 = 1) := by
          rw [← decide_not, decide_eq_decide]
          omega
        simp [hparity, Nat.add_sub_add_right]

/-! ## The walk -/

/-- The cell of strip `k`, row step `i` and side `d` of a symbol with `K` strips. -/
def walkCell (full : Bool) (K k i d : Nat) : Nat × Nat :=
  (if k % 2 = 1 then i else 2 * K - i, stripColumn full (K - k) - d)

/-- The cells of the strips in walking order. -/
def walk (full : Bool) (K : Nat) : List (Nat × Nat) :=
  (List.range K).flatMap fun k => (List.range (2 * K + 1)).flatMap fun i => [walkCell full K k i 0, walkCell full K k i 1]

theorem flatMap_stripCells (full : Bool) {K n : Nat} (hn : n = 2 * K + 1) (hK : full = true → 3 ≤ K) :
    (zigzagStrips full n (n - 1) true).flatMap (stripCells n) = walk full K := by
  have hstart : n - 1 = stripStart full K := by
    unfold stripStart
    split_ifs with h
    · simp only [Bool.and_eq_true, decide_eq_true_eq] at h
      have := hK h.1
      omega
    · omega
  rw [hstart, zigzagStrips_eq full (by omega), List.flatMap_map, walk]
  refine congrArg (List.flatMap · _) (funext fun k => ?_)
  rw [stripCells, hn]
  refine congrArg (List.flatMap · _) (funext fun i => ?_)
  by_cases hk : k % 2 = 1 <;> simp [walkCell, hk]

section
variable {v : Int} {K : Nat}

/-- The side of a symbol is odd. -/
theorem symbolSize_eq_strips (hv : -3 ≤ v) : ∃ K, symbolSize v = 2 * K + 1 ∧ 5 ≤ K := by
  refine ⟨(symbolSize v - 1) / 2, ?_⟩
  unfold symbolSize
  split <;> omega

theorem stripColumn_micro (hv : v < 1) (j : Nat) : stripColumn (!isMicro v) j = 2 * j := by
  simp [stripColumn, isMicro, hv]

theorem stripColumn_full (hv : 1 ≤ v) (j : Nat) :
    stripColumn (!isMicro v) j = if j ≤ 3 then 2 * j - 1 else 2 * j := by
  simp [stripColumn, isMicro, Int.not_lt.2 hv]

theorem placementOrder_eq (hn : symbolSize v = 2 * K + 1) (hK : 5 ≤ K) (m : Mat) :
    placementOrder v m = (walk (!isMicro v) K).filter fun rc => (m.get rc.1 rc.2).cls == .data :=
  congrArg (List.filter _) (flatMap_stripCells _ hn fun _ => by omega)

theorem walkPosition_walkCell (hn : symbolSize v = 2 * K + 1) (hK : 5 ≤ K) {k i d : Nat} (hk : k < K)
    (hi : i < 2 * K + 1) (hd : d < 2) :
    walkPosition v (walkCell (!isMicro v) K k i d) = k * (2 * (2 * K + 1)) + (2 * i + d) := by
  have hcol : (if 1 ≤ v ∧ stripColumn (!isMicro v) (K - k) - d < 6 then
      2 * K + 1 - 2 - (stripColumn (!isMicro v) (K - k) - d) else
      2 * K + 1 - 1 - (stripColumn (!isMicro v) (K - k) - d)) = 2 * k + d := by
    obtain hv | hv := lt_or_ge v 1
    · rw [stripColumn_micro hv, if_neg (by omega)]
      omega
    · rw [stripColumn_full hv]
      split_ifs <;> omega
  have hdiv : (2 * k + d) / 2 = k := by omega
  have hmod : (2 * k + d) % 2 = d := by omega
  simp only [walkPosition, walkCell, hn, hcol, hdiv, hmod]
  split_ifs <;> omega

/-- The walk comes to later cells later. -/
theorem pairwise_walk (hn : symbolSize v = 2 * K + 1) (hK : 5 ≤ K) :
    (walk (!isMicro v) K).Pairwise fun a b => walkPosition v a < walkPosition v b := by
  have hpos {k i d : Nat} := walkPosition_walkCell (k := k) (i := i) (d := d) hn hK
  rw [walk, List.pairwise_flatMap]
  refine ⟨fun k hk => List.pairwise_flatMap.2 ⟨fun i hi => ?_, ?_⟩, ?_⟩
  · rw [List.mem_range] at hk hi
    simp only [List.pairwise_pair, hpos hk hi Nat.zero_lt_two, hpos hk hi Nat.one_lt_two]
    omega
  · rw [List.mem_range] at hk
    refine List.pairwise_lt_range.imp_of_mem fun {i j} hi hj hij => ?_
    rw [List.mem_range] at hi hj
    simp only [List.mem_pair, forall_eq_or_imp, forall_eq, hpos hk hi Nat.zero_lt_two, hpos hk hi Nat.one_lt_two,
      hpos hk hj Nat.zero_lt_two, hpos hk hj Nat.one_lt_two]
    omega
  · refine List.pairwise_lt_range.imp_of_mem fun {k l} hk hl hkl => ?_
    rw [List.mem_range] at hk hl
    have hmul : (k + 1) * (2 * (2 * K + 1)) ≤ l * (2 * (2 * K + 1)) := Nat.mul_le_mul_right _ hkl
    rw [Nat.add_mul, Nat.one_mul] at hmul
    simp only [List.mem_flatMap, List.mem_range, List.mem_pair]
    rintro a ⟨i, hi, ha⟩ b ⟨j, hj, hb⟩
    rcases ha with rfl | rfl <;> rcases hb with rfl | rfl <;>
      rw [hpos hk hi (by omega), hpos hl hj (by omega)] <;> omega

/-- The walk visits the columns but the timing column (R231 (d), R235). -/
theorem mem_walk (hn : symbolSize v = 2 * K + 1) (hK : 5 ≤ K) {r c : Nat} : (r, c) ∈ walk (!isMicro v) K ↔
    r < symbolSize v ∧ c < symbolSize v ∧ c ≠ (if 1 ≤ v then 6 else 0) := by
  have hmem : (r, c) ∈ walk (!isMicro v) K ↔ ∃ k < K, ∃ i < 2 * K + 1,
      r = (if k % 2 = 1 then i else 2 * K - i) ∧
        (c = stripColumn (!isMicro v) (K - k) ∨ c = stripColumn (!isMicro v) (K - k) - 1) := by
    simp only [walk, List.mem_flatMap, List.mem_range, List.mem_pair, walkCell, Prod.mk.injEq, Nat.sub_zero, ← and_or_left]
  rw [hmem, hn]
  clear hmem
  constructor
  · rintro ⟨k, hk, i, hi, rfl, hc⟩
    refine ⟨by split_ifs <;> omega, ?_⟩
    obtain hv | hv := lt_or_ge v 1
    · rw [stripColumn_micro hv] at hc
      rw [if_neg (Int.not_le.2 hv)]
      omega
    · rw [stripColumn_full hv] at hc
      rw [if_pos hv]
      split_ifs at hc <;> omega
  · rintro ⟨hr, hc, hne⟩
    have hrow (k : Nat) : ∃ i < 2 * K + 1, r = if k % 2 = 1 then i else 2 * K - i := by
      by_cases hk : k % 2 = 1
      · exact ⟨r, hr, (if_pos hk).symm⟩
      · exact ⟨2 * K - r, by omega, by rw [if_neg hk]; omega⟩
    have hstrip : ∃ k < K, c = stripColumn (!isMicro v) (K - k) ∨ c = stripColumn (!isMicro v) (K - k) - 1 := by
      obtain hv | hv := lt_or_ge v 1
      · rw [if_neg (Int.not_le.2 hv)] at hne
        simp only [stripColumn_micro hv]
        exact ⟨K - (c + 1) / 2, by omega, by omega⟩
      · rw [if_pos hv] at hne
        simp only [stripColumn_full hv]
        obtain hlt | hgt := Nat.lt_or_gt_of_ne hne
        · exact ⟨K - (c / 2 + 1), by omega, by rw [if_pos (by omega)]; omega⟩
        · exact ⟨K - (c + 1) / 2, by omega, by rw [if_neg (by omega)]; omega⟩
    obtain ⟨k, hk, hcol⟩ := hstrip
    obtain ⟨i, hi, hri⟩ := hrow k
    exact ⟨k, hk, i, hi, hri, hcol⟩

end

/-! ## The data cells of the walk -/

section
variable {v : Int} (hv : -3 ≤ v) (m : Mat)
include hv

theorem pairwise_placementOrder : (placementOrder v m).Pairwise fun a b => walkPosition v a < walkPosition v b := by
  obtain ⟨K, hn, hK⟩ := symbolSize_eq_strips hv
  rw [placementOrder_eq hn hK]
  exact (pairwise_walk hn hK).filter _

theorem nodup_placementOrder : (placementOrder v m).Nodup :=
  (pairwise_placementOrder hv m).imp fun h heq => Nat.ne_of_lt h (congrArg _ heq)

theorem mem_placementOrder {r c : Nat} : (r, c) ∈ placementOrder v m ↔
    r < symbolSize v ∧ c < symbolSize v ∧ (m.get r c).cls = .data ∧ c ≠ (if 1 ≤ v then 6 else 0) := by
  obtain ⟨K, hn, hK⟩ := symbolSize_eq_strips hv
  rw [placementOrder_eq hn hK, List.mem_filter, mem_walk hn hK, beq_iff_eq, and_assoc, and_assoc]
  exact and_congr_right fun _ => and_congr_right fun _ => and_comm

end

end Sys2Proof.Machine

namespace Sys2Proof.Proofs

open Sys2Proof.Machine

/-- Settles O51: the walk position grows along the list, so no cell stands twice. -/
theorem placementOrder : Obligations.PlacementOrder := fun _ m hv _ =>
  ⟨nodup_placementOrder hv m, fun _ _ => mem_placementOrder hv m, pairwise_placementOrder hv m⟩

end Sys2Proof.Proofs
end

section
/-! The statement about `MAT.PLACE` (45_matrix_build.md, R234 to R237): the bits of the codewords stand one after the other,
and the traversal gives each of its cells one of them. -/

namespace Sys2Proof.Machine

/-! ## Cells and bits -/

section
variable {order : List (Nat × Nat)} (bits : List Bool) (m : Mat) {r c : Nat}

/-- A cell gets the first bit, or 0 where none is left, and the rest of the cells the rest of the bits (R237). -/
theorem placeBits_cons (rc : Nat × Nat) (order : List (Nat × Nat)) :
    placeBits (rc :: order) bits m = placeBits order bits.tail (m.setVal rc.1 rc.2 (bits.headD false)) := by
  cases bits <;> rfl

theorem get_placeBits_other (h : (r, c) ∉ order) : (placeBits order bits m).get r c = m.get r c := by
  induction order generalizing bits m with
  | nil => cases bits <;> rfl
  | cons rc order ih =>
    obtain ⟨hne, hrest⟩ := not_or.1 (List.mem_cons.not.1 h)
    rw [placeBits_cons, ih _ _ hrest, Mat.get_setVal, if_neg]
    rintro ⟨rfl, rfl, -⟩
    exact hne rfl

/-- The `j`-th cell of a traversal without repeats gets bit `j`, or 0 beyond the end. -/
theorem val_placeBits (hnodup : order.Nodup) (hr : r < nmax) (hc : c < nmax) {j : Nat} (h : order[j]? = some (r, c)) :
    ((placeBits order bits m).get r c).val = bits.getD j false := by
  induction order generalizing bits m j with
  | nil => cases h
  | cons rc order ih =>
    obtain ⟨hhead, htail⟩ := List.nodup_cons.1 hnodup
    rw [placeBits_cons]
    cases j with
    | zero =>
      obtain rfl : rc = (r, c) := Option.some.inj h
      rw [get_placeBits_other _ _ hhead, Mat.get_setVal, if_pos ⟨rfl, rfl, hr, hc⟩]
      cases bits <;> rfl
    | succ j =>
      rw [ih _ _ htail h]
      cases bits <;> rfl

end

/-! ## The bit sequence -/

section
variable (short : Bool) (dlen : Nat)

/-- The number of bits of codeword `k` (R234). -/
def bitCount (k : Nat) : Nat := if short && k + 1 == dlen then 4 else 8

/-- The number of bits before codeword `k`. -/
def bitOffset (k : Nat) : Nat := 8 * k - if short = true ∧ dlen ≤ k then 4 else 0

theorem bitOffset_succ {dlen : Nat} (hdlen : 1 ≤ dlen) (k : Nat) :
    bitOffset short dlen (k + 1) = bitOffset short dlen k + bitCount short dlen k := by
  unfold bitOffset bitCount
  cases short
  · simp only [Bool.false_eq_true, false_and, if_false, Bool.false_and]
    omega
  · simp only [true_and, Bool.true_and, beq_iff_eq]
    split_ifs <;> omega

theorem placementBits_append (cws : List Byte) (cw : Byte) : placementBits short dlen (cws ++ [cw]) =
    placementBits short dlen cws ++ codewordBits cw (bitCount short dlen cws.length) := by
  simp [placementBits, List.zipIdx_append, bitCount]

theorem length_codewordBits (cw : Byte) (w : Nat) : (codewordBits cw w).length = w := by
  rw [codewordBits, List.length_map, List.length_range]

variable {dlen} (hdlen : 1 ≤ dlen)
include hdlen

theorem bitOffset_mono {k l : Nat} (h : k ≤ l) : bitOffset short dlen k ≤ bitOffset short dlen l := by
  induction l, h using Nat.le_induction with
  | base => exact Nat.le_refl _
  | succ l _ ih =>
    rw [bitOffset_succ short hdlen]
    exact ih.trans (Nat.le_add_right _ _)

theorem length_placementBits (cws : List Byte) : (placementBits short dlen cws).length = bitOffset short dlen cws.length := by
  induction cws using List.reverseRecOn with
  | nil => exact (Nat.zero_sub _).symm
  | append_singleton cws cw ih =>
    rw [placementBits_append, List.length_append, ih, length_codewordBits, List.length_append, List.length_singleton,
      bitOffset_succ short hdlen]

/-- Bit `i` of codeword `k` stands behind all the bits of the codewords before it (R234). -/
theorem getD_placementBits (cws : List Byte) {k i : Nat} (hk : k < cws.length) (hi : i < bitCount short dlen k) :
    (placementBits short dlen cws).getD (bitOffset short dlen k + i) false = (cws[k]).getLsbD (7 - i) := by
  induction cws using List.reverseRecOn with
  | nil => exact absurd hk (Nat.not_lt_zero k)
  | append_singleton cws cw ih =>
    have hlen := length_placementBits short hdlen cws
    rw [placementBits_append]
    obtain hlt | rfl : k < cws.length ∨ k = cws.length := by
      rw [List.length_append, List.length_singleton] at hk
      omega
    · have hfit : bitOffset short dlen k + i < (placementBits short dlen cws).length := by
        have hmono := bitOffset_mono short hdlen (Nat.succ_le_of_lt hlt)
        rw [bitOffset_succ short hdlen] at hmono
        omega
      rw [List.getD_append _ _ _ _ hfit, ih hlt, List.getElem_append_left hlt]
    · rw [List.getD_append_right _ _ _ _ (hlen.trans_le (Nat.le_add_right _ _)), hlen, Nat.add_sub_cancel_left,
        List.getD_eq_getElem _ _ (by rwa [length_codewordBits])]
      simp [codewordBits]

end

/-! ## `MAT.PLACE` -/

section
variable {s : State}

/-- The codewords `MAT.PLACE` reads (R237). -/
def placedCodewords (s : State) : List Byte := Memory.readList s.buf cbase s.csrClen

/-- The matrix after `MAT.PLACE` (R236). -/
def placedMat (s : State) : Mat :=
  placeBits (placementOrder s.versionInt s.mat) (placementBits s.blockSpec.fourBitLast s.csrDlen (placedCodewords s)) s.mat

theorem csrClen_le (hT : TablesFit s.tables) : s.csrClen ≤ 4096 := by
  rw [State.csrClen]
  split
  · next h => exact (hT.blocks _ _ h).2.2.2
  · exact Nat.zero_le _

/-- Where there are codewords, there are data codewords among them. -/
theorem csrDlen_bounds (hT : TablesFit s.tables) (h : 0 < s.csrClen) : 1 ≤ s.csrDlen ∧ s.csrDlen ≤ s.csrClen := by
  have hv : s.validSpec = true := by
    by_contra hv
    rw [State.csrClen, if_neg hv] at h
    exact Nat.lt_irrefl 0 h
  obtain ⟨hadds, hpos, -⟩ := hT.blocks _ _ hv
  rw [State.csrDlen, State.csrClen, if_pos hv, if_pos hv]
  exact ⟨hpos, (Nat.le_add_right _ _).trans_eq hadds⟩

theorem exec_matPlace (hT : TablesFit s.tables) (hp : s.phase = .stamped) :
    exec .matPlace s = finish .matPlace s (.ok { s with mat := placedMat s, phase := .placed }) := by
  have hread : cbase + s.csrClen ≤ bufSize := by
    have := csrClen_le hT
    simp only [cbase, bufSize]
    omega
  rw [exec, execMatPlace, hp, State.memRead_ok s hread]
  rfl

theorem faults_matPlace (hp : s.phase ≠ .stamped) : Faults .matPlace s .badPhase := by
  refine faults_of_error ?_
  rw [exec, execMatPlace, beq_eq_false_iff_ne.2 hp, requirePhase_false]

theorem frame_placed : Frame (either (fun q => ∃ rc ∈ placementOrder s.versionInt s.mat, q = .cell rc.1 rc.2)
    (only [.phase])) s { s with mat := placedMat s, phase := .placed } := by
  intro q hq
  obtain ⟨hcells, hphase⟩ := not_or.1 hq
  cases q
  case cell r c => exact get_placeBits_other _ _ fun h => hcells ⟨_, h, rfl⟩
  case phase => exact absurd List.mem_cons_self hphase
  all_goals rfl

theorem val_placedMat (hlegal : s.versionLegal) {j : Nat} {rc : Nat × Nat}
    (h : (placementOrder s.versionInt s.mat)[j]? = some rc) : ((placedMat s).get rc.1 rc.2).val =
      (placementBits s.blockSpec.fourBitLast s.csrDlen (placedCodewords s)).getD j false := by
  have hmax := symbolSize_le hlegal.2
  obtain ⟨hr, hc, -⟩ := (mem_placementOrder hlegal.1 s.mat).1 (List.mem_of_getElem? h)
  exact val_placeBits _ _ (nodup_placementOrder hlegal.1 s.mat) (hr.trans_le hmax) (hc.trans_le hmax) h

theorem val_placedMat_bit (hlegal : s.versionLegal) (hT : TablesFit s.tables) {k i : Nat} {rc : Nat × Nat}
    (hk : k < s.csrClen) (hi : i < if s.blockSpec.fourBitLast = true ∧ k + 1 = s.csrDlen then 4 else 8)
    (h : (placementOrder s.versionInt s.mat)[bitOffset s.blockSpec.fourBitLast s.csrDlen k + i]? = some rc) :
    ((placedMat s).get rc.1 rc.2).val = (Memory.read s.buf (cbase + k)).getLsbD (7 - i) := by
  obtain ⟨hpos, -⟩ := csrDlen_bounds hT (Nat.zero_lt_of_lt hk)
  have hcount : i < bitCount s.blockSpec.fourBitLast s.csrDlen k := by
    simpa only [bitCount, Bool.and_eq_true, beq_iff_eq] using hi
  have hlen : (placedCodewords s).length = s.csrClen := Memory.length_readList ..
  rw [val_placedMat hlegal h, getD_placementBits _ hpos _ (hk.trans_eq hlen.symm) hcount]
  exact congrArg (BitVec.getLsbD · _) (Memory.getElem_readList ..)

/-- Beyond the last bit the cells get 0 (R236). -/
theorem val_placedMat_beyond (hlegal : s.versionLegal) (hT : TablesFit s.tables) {j : Nat} {rc : Nat × Nat}
    (hj : 8 * s.csrClen - (if s.blockSpec.fourBitLast = true then 4 else 0) ≤ j)
    (h : (placementOrder s.versionInt s.mat)[j]? = some rc) : ((placedMat s).get rc.1 rc.2).val = false := by
  have hlen : (placedCodewords s).length = s.csrClen := Memory.length_readList ..
  rw [val_placedMat hlegal h]
  refine List.getD_eq_default _ _ ?_
  obtain hzero | hpos := Nat.eq_zero_or_pos s.csrClen
  · rw [List.eq_nil_of_length_eq_zero (hlen.trans hzero)]
    exact Nat.zero_le j
  · obtain ⟨hdlen, hle⟩ := csrDlen_bounds hT hpos
    rw [length_placementBits _ hdlen, hlen, bitOffset]
    simpa only [hle, and_true] using hj

end

end Sys2Proof.Machine

namespace Sys2Proof.Proofs

open Sys2Proof.Machine

/-- Settles O50: the traversal has no repeats, so each cell keeps the bit it was given. -/
theorem matPlace : Obligations.MatPlace := fun _ hlegal hT => ⟨fun hp =>
  completes_of_ok (exec_matPlace hT hp) frame_placed ⟨rfl, cls_placeBits _ _ _, fun _ _ h => val_placedMat hlegal h,
    fun _ _ _ hk hi h => val_placedMat_bit hlegal hT hk hi h, fun _ _ hj h => val_placedMat_beyond hlegal hT hj h⟩,
  faults_matPlace⟩

end Sys2Proof.Proofs
end

section
/-! The statement about `MAT.STAMP` (45_matrix_build.md, R221 to R232): which cells each part of the stamp writes, that they
lie inside the symbol, and the count of the data cells. -/

namespace Sys2Proof.Machine

/-! ## The parts of the stamp -/

theorem mem_intRange {lo hi x : Int} : x ∈ intRange lo hi ↔ lo ≤ x ∧ x ≤ hi := by
  simp only [intRange, List.mem_map, List.bind_eq_flatMap, List.pure_def, List.mem_flatMap, List.mem_singleton,
    List.mem_range]
  constructor
  · rintro ⟨_, ⟨i, hi, rfl⟩, rfl⟩
    omega
  · rintro ⟨hlo, hhi⟩
    exact ⟨x - lo, ⟨(x - lo).toNat, by omega, by omega⟩, by omega⟩

/-- The value of a finder pattern with its separator, from its top-left module (R222, R223). -/
def finderValue (dr dc : Int) : Bool := decide (0 ≤ dr ∧ dr ≤ 6 ∧ 0 ≤ dc ∧ dc ≤ 6) && finderDark dr dc

theorem mem_finderWrites {n a b : Nat} {w : CellWrite} : w ∈ finderWrites n (a, b) ↔
    ∃ dr dc : Int, (-1 ≤ dr ∧ dr ≤ 7) ∧ (-1 ≤ dc ∧ dc ≤ 7) ∧ (0 ≤ a + dr ∧ a + dr < n ∧ 0 ≤ b + dc ∧ b + dc < n) ∧
      w = setf (a + dr).toNat (b + dc).toNat (finderValue dr dc) := by
  simp only [finderWrites, List.mem_flatMap, List.mem_filterMap, mem_intRange, Option.ite_none_right_eq_some,
    Option.some.injEq, finderValue]
  constructor
  · rintro ⟨dr, hdr, dc, hdc, hin, rfl⟩
    exact ⟨dr, dc, hdr, hdc, hin, rfl⟩
  · rintro ⟨dr, dc, hdr, hdc, hin, rfl⟩
    exact ⟨dr, hdr, dc, hdc, hin, rfl⟩

theorem mem_timingWrites_full {n : Nat} {w : CellWrite} : w ∈ timingWrites false n ↔
    ∃ i, (8 ≤ i ∧ i < 8 + (n - 16)) ∧ (w = setf 6 i (i % 2 == 0) ∨ w = setf i 6 (i % 2 == 0)) := by
  simp only [timingWrites, Bool.false_eq_true, if_false, List.mem_flatMap, List.mem_range'_1, List.mem_pair]

theorem mem_timingWrites_micro {n : Nat} {w : CellWrite} : w ∈ timingWrites true n ↔
    ∃ i, (8 ≤ i ∧ i < 8 + (n - 8)) ∧ (w = setf 0 i (i % 2 == 0) ∨ w = setf i 0 (i % 2 == 0)) := by
  simp only [timingWrites, if_true, List.mem_flatMap, List.mem_range'_1, List.mem_pair]

theorem mem_alignmentWrites {a b : Nat} {w : CellWrite} : w ∈ alignmentWrites a b ↔
    ∃ dr dc : Int, (-2 ≤ dr ∧ dr ≤ 2) ∧ (-2 ≤ dc ∧ dc ≤ 2) ∧
      w = setf (a + dr).toNat (b + dc).toNat (max dr.natAbs dc.natAbs ≠ 1) := by
  simp only [alignmentWrites, List.mem_flatMap, List.mem_map, mem_intRange]
  constructor
  · rintro ⟨dr, hdr, dc, hdc, rfl⟩
    exact ⟨dr, dc, hdr, hdc, rfl⟩
  · rintro ⟨dr, dc, hdr, hdc, rfl⟩
    exact ⟨dr, hdr, dc, hdc, rfl⟩

theorem mem_alignmentCentres {coords : List Nat} {a b : Nat} : (a, b) ∈ alignmentCentres coords ↔
    a ∈ coords ∧ b ∈ coords ∧ ¬ (a = 6 ∧ b = 6) ∧ ¬ (a = 6 ∧ b = coords.getLastD 0) ∧
      ¬ (a = coords.getLastD 0 ∧ b = 6) := by
  simp only [alignmentCentres, List.mem_flatMap, List.mem_filter, List.mem_map, Prod.mk.injEq, decide_eq_true_eq]
  constructor
  · rintro ⟨_, ha, ⟨_, hb, rfl, rfl⟩, h⟩
    exact ⟨ha, hb, by simpa using h⟩
  · rintro ⟨ha, hb, h⟩
    exact ⟨a, ha, ⟨b, hb, rfl, rfl⟩, by simpa using h⟩

theorem mem_allAlignmentWrites {T : CfgTables} {v : Int} {w : CellWrite} : w ∈ allAlignmentWrites T v ↔
    ∃ ab ∈ alignmentCentres (alignCoords T v), w ∈ alignmentWrites ab.1 ab.2 := List.mem_flatMap

theorem mem_formatAreaFull {n : Nat} {w : CellWrite} (h : w ∈ formatAreaFull n) : ∃ r c, w = setr r c ∧
    (r = 8 ∧ c ≤ 8 ∧ c ≠ 6 ∨ c = 8 ∧ r ≤ 8 ∧ r ≠ 6 ∨ (∃ i < 8, r = 8 ∧ c = n - 1 - i) ∨
      ∃ i < 7, c = 8 ∧ r = n - 1 - i) := by
  simp only [formatAreaFull, List.mem_append, List.mem_flatMap, List.mem_filter, List.mem_range, List.mem_pair,
    List.mem_map, decide_eq_true_eq] at h
  obtain (⟨i, ⟨hi, h6⟩, rfl | rfl⟩ | ⟨i, hi, rfl⟩) | ⟨i, hi, rfl⟩ := h
  · exact ⟨8, i, rfl, by omega⟩
  · exact ⟨i, 8, rfl, by omega⟩
  · exact ⟨8, n - 1 - i, rfl, .inr (.inr (.inl ⟨i, hi, rfl, rfl⟩))⟩
  · exact ⟨n - 1 - i, 8, rfl, .inr (.inr (.inr ⟨i, hi, rfl, rfl⟩))⟩

theorem mem_formatAreaMicro {w : CellWrite} (h : w ∈ formatAreaMicro) : ∃ r c, w = setr r c ∧
    (r = 8 ∧ 1 ≤ c ∧ c ≤ 8 ∨ c = 8 ∧ 1 ≤ r ∧ r ≤ 8) := by
  simp only [formatAreaMicro, List.mem_flatMap, List.mem_range'_1, List.mem_pair] at h
  obtain ⟨i, hi, rfl | rfl⟩ := h
  · exact ⟨8, i, rfl, by omega⟩
  · exact ⟨i, 8, rfl, by omega⟩

theorem mem_versionArea {v : Int} {n : Nat} {w : CellWrite} (h : w ∈ versionArea v n) : ∃ r c, w = setr r c ∧ 7 ≤ v ∧
    (r < 6 ∧ n - 11 ≤ c ∧ c < n - 11 + 3 ∨ c < 6 ∧ n - 11 ≤ r ∧ r < n - 11 + 3) := by
  unfold versionArea at h
  split at h
  · next hv =>
    simp only [List.mem_flatMap, List.mem_range, List.mem_range'_1, List.mem_pair] at h
    obtain ⟨a, ha, b, hb, rfl | rfl⟩ := h
    · exact ⟨a, b, rfl, hv, by omega⟩
    · exact ⟨b, a, rfl, hv, by omega⟩
  · cases h

/-! ## The whole stamp -/

section
variable {T : CfgTables} {v : Int} {w : CellWrite}

theorem mem_stampWrites_full (hv : 1 ≤ v) : w ∈ stampWrites T v ↔
    ((w ∈ finderWrites (symbolSize v) (0, 0) ∨ w ∈ finderWrites (symbolSize v) (0, symbolSize v - 7) ∨
        w ∈ finderWrites (symbolSize v) (symbolSize v - 7, 0)) ∨
      w ∈ timingWrites false (symbolSize v)) ∨ w ∈ allAlignmentWrites T v ∨ w = setf (symbolSize v - 8) 8 true ∨
      w ∈ formatAreaFull (symbolSize v) ∨ w ∈ versionArea v (symbolSize v) := by
  have hmicro : isMicro v = false := decide_eq_false (Int.not_lt.2 hv)
  simp only [stampWrites, hmicro, finderOrigins, Bool.false_eq_true, if_false, List.mem_append, List.flatMap_cons,
    List.flatMap_nil, List.append_nil, List.mem_singleton, or_assoc]

theorem allAlignmentWrites_micro (hv : v < 1) : allAlignmentWrites T v = [] := by
  simp [allAlignmentWrites, alignCoords, Int.not_le.2 hv, alignmentCentres]

theorem mem_stampWrites_micro (hv : v < 1) : w ∈ stampWrites T v ↔
    w ∈ finderWrites (symbolSize v) (0, 0) ∨ w ∈ timingWrites true (symbolSize v) ∨ w ∈ formatAreaMicro := by
  have hmicro : isMicro v = true := decide_eq_true hv
  have hversion : versionArea v (symbolSize v) = [] := if_neg (by omega)
  simp only [stampWrites, hmicro, finderOrigins, if_true, List.mem_append, List.flatMap_cons, List.flatMap_nil,
    List.append_nil, allAlignmentWrites_micro hv, hversion, or_assoc]

theorem finderWrites_inside {n a b : Nat} (h : w ∈ finderWrites n (a, b)) : w.1 < n ∧ w.2.1 < n := by
  obtain ⟨dr, dc, -, -, hin, rfl⟩ := mem_finderWrites.1 h
  simp only [setf]
  omega

theorem alignmentWrites_inside {n a b : Nat} (ha : 2 ≤ a ∧ a + 2 < n) (hb : 2 ≤ b ∧ b + 2 < n)
    (h : w ∈ alignmentWrites a b) : w.1 < n ∧ w.2.1 < n := by
  obtain ⟨dr, dc, hdr, hdc, rfl⟩ := mem_alignmentWrites.1 h
  simp only [setf]
  omega

theorem stampWrites_inside_full (hv : 1 ≤ v) (hhi : v ≤ 40) (hT : TablesFit T) (h : w ∈ stampWrites T v) :
    w.1 < symbolSize v ∧ w.2.1 < symbolSize v := by
  have hn := symbolSize_full hv
  obtain ((h | h | h) | h) | h | rfl | h | h := (mem_stampWrites_full hv).1 h
  · exact finderWrites_inside h
  · exact finderWrites_inside h
  · exact finderWrites_inside h
  · obtain ⟨i, hi, rfl | rfl⟩ := mem_timingWrites_full.1 h <;> simp only [setf] <;> omega
  · obtain ⟨⟨a, b⟩, hab, hw⟩ := mem_allAlignmentWrites.1 h
    obtain ⟨ha, hb, -⟩ := mem_alignmentCentres.1 hab
    exact alignmentWrites_inside (hT.align v hv hhi a ha) (hT.align v hv hhi b hb) hw
  · simp only [setf]
    omega
  · obtain ⟨r, c, rfl, hrc⟩ := mem_formatAreaFull h
    simp only [setr]
    obtain h | h | ⟨i, hi, h⟩ | ⟨i, hi, h⟩ := hrc <;> omega
  · obtain ⟨r, c, rfl, h7, hrc⟩ := mem_versionArea h
    simp only [setr]
    omega

theorem stampWrites_inside_micro (hlo : -3 ≤ v) (hv : v < 1) (h : w ∈ stampWrites T v) :
    w.1 < symbolSize v ∧ w.2.1 < symbolSize v := by
  have hn := symbolSize_micro hlo hv
  obtain h | h | h := (mem_stampWrites_micro hv).1 h
  · exact finderWrites_inside h
  · obtain ⟨i, hi, rfl | rfl⟩ := mem_timingWrites_micro.1 h <;> simp only [setf] <;> omega
  · obtain ⟨r, c, rfl, hrc⟩ := mem_formatAreaMicro h
    simp only [setr]
    omega

/-- The stamp writes inside the symbol alone (R231 (a)). -/
theorem stampWrites_inside (hlo : -3 ≤ v) (hhi : v ≤ 40) (hT : TablesFit T) (h : w ∈ stampWrites T v) :
    w.1 < symbolSize v ∧ w.2.1 < symbolSize v := by
  obtain hv | hv := lt_or_ge v 1
  · exact stampWrites_inside_micro hlo hv h
  · exact stampWrites_inside_full hv hhi hT h

/-- Cells outside the symbol keep their value. -/
theorem get_stamped_outside (hlo : -3 ≤ v) (hhi : v ≤ 40) (hT : TablesFit T) (m : Mat) {r c : Nat}
    (h : ¬ (r < symbolSize v ∧ c < symbolSize v)) : (applyWrites m (stampWrites T v)).get r c = m.get r c := by
  refine get_applyWrites_other _ _ fun w hw => ?_
  rintro ⟨rfl, rfl⟩
  exact h (stampWrites_inside hlo hhi hT hw)

end

/-! ## The count of the data cells -/

theorem countData_eq (m : Mat) {n : Nat} (hn : n ≤ nmax) : countData m n = ((List.range n).map fun r =>
    (List.range n).countP fun c => decide ((m.get r c).cls = .data)).sum := by
  have hlen : (m.corner n).length = n := by simp [Mat.corner, hn]
  have hrows : m.corner n = (List.range n).map fun r => (List.range n).map fun c => m.get r c := by
    refine List.ext_getElem (by simp [hlen]) fun r h1 h2 => ?_
    have hr : r < n := by rwa [hlen] at h1
    refine List.ext_getElem (by simp [Mat.corner, hn]) fun c h3 h4 => ?_
    have hc : c < n := by simpa using h4
    simp [Mat.corner, Mat.get, hr.trans_le hn, hc.trans_le hn]
  rw [countData, hrows, List.map_map]
  refine congrArg List.sum (List.map_congr_left fun r _ => ?_)
  simp only [Function.comp_apply, List.countP_map]
  exact List.countP_congr fun c _ => by simp

theorem countData_lt (m : Mat) {n : Nat} (hn : n ≤ nmax) : countData m n < 2 ^ 16 := by
  have hsum : countData m n ≤ n * n := by
    rw [countData_eq m hn]
    refine (sum_map_le (b := n) fun r _ => ?_).trans_eq (by rw [List.length_range])
    exact List.countP_le_length.trans_eq List.length_range
  calc countData m n ≤ n * n := hsum
    _ ≤ nmax * nmax := Nat.mul_le_mul hn hn
    _ < 2 ^ 16 := by decide

/-! ## `MAT.STAMP` -/

section
variable {s : State}

/-- The state after `MAT.STAMP` (R232). -/
def stampedState (s : State) : State :=
  { s with
    mat := applyWrites s.mat (stampWrites s.tables s.versionInt)
    nmod := BitVec.ofNat 16 (countData (applyWrites s.mat (stampWrites s.tables s.versionInt)) s.side)
    phase := .stamped }

theorem exec_matStamp (hp : s.phase = .allocated) :
    exec .matStamp s = finish .matStamp s (.ok (stampedState s)) := by
  rw [exec, execMatStamp, hp]
  rfl

theorem faults_matStamp (hp : s.phase ≠ .allocated) : Faults .matStamp s .badPhase := by
  refine faults_of_error ?_
  rw [exec, execMatStamp, beq_eq_false_iff_ne.2 hp, requirePhase_false]

theorem frame_stampedState (hlegal : s.versionLegal) (hT : TablesFit s.tables) :
    Frame (either (cornerCells s fun _ _ => True) (only [.nmod, .phase])) s (stampedState s) := by
  intro q hq
  obtain ⟨hcells, hregs⟩ := not_or.1 hq
  cases q
  case cell r c =>
    exact get_stamped_outside hlegal.1 hlegal.2 hT s.mat fun h => hcells ⟨r, c, rfl, h.1, h.2, trivial⟩
  case nmod | phase => exact absurd (by simp [only]) hregs
  all_goals rfl

theorem nmod_stampedState (hlegal : s.versionLegal) : (stampedState s).nmod.toNat = ((List.range s.side).map fun r =>
    (List.range s.side).countP fun c => decide (((stampedState s).mat.get r c).cls = .data)).sum := by
  have hle := side_le hlegal
  rw [← countData_eq _ hle]
  exact (BitVec.toNat_ofNat ..).trans (Nat.mod_eq_of_lt (countData_lt _ hle))

theorem completes_matStamp (hlegal : s.versionLegal) (hT : TablesFit s.tables) (hp : s.phase = .allocated) :
    Completes .matStamp s (either (cornerCells s fun _ _ => True) (only [.nmod, .phase])) fun t =>
      t.phase = .stamped ∧ t.mat = applyWrites s.mat (stampWrites s.tables s.versionInt) ∧
      t.nmod.toNat = ((List.range s.side).map fun r =>
        (List.range s.side).countP fun c => decide ((t.mat.get r c).cls = .data)).sum :=
  completes_of_ok (exec_matStamp hp) (frame_stampedState hlegal hT) ⟨rfl, rfl, nmod_stampedState hlegal⟩

end

end Sys2Proof.Machine

namespace Sys2Proof.Proofs

open Sys2Proof.Machine

/-- Settles O48: every part of the stamp lies inside the symbol. -/
theorem matStamp : Obligations.MatStamp := fun _ hlegal hT => ⟨completes_matStamp hlegal hT, faults_matStamp⟩

end Sys2Proof.Proofs
end

section
/-! The statement about the stamped patterns (45_matrix_build.md, R222 to R231), with the default tables.  No two writes of the
stamp to one cell disagree (R231 (b)): what the parts write, but for the alignment patterns, is `patternAt`; an alignment
pattern agrees with it on the timing lines and lies outside it elsewhere; and two alignment patterns do not meet.  So every
write of the stamp is what its cell ends with. -/

namespace Sys2Proof.Machine

/-! ## The coordinates of the alignment patterns -/

/-- Where the centres of a version's alignment patterns can be: in row 6, in the row of the lower finder patterns, or well
between; on even rows; and no two closer than a pattern's width. -/
abbrev AlignmentFits (v : Int) : Prop :=
  ∀ a ∈ alignCoords standardTables v, a % 2 = 0 ∧ (alignCoords standardTables v).getLastD 0 + 7 = symbolSize v ∧
    (a = 6 ∨ 16 ≤ a ∧ (a + 7 = symbolSize v ∨ a + 23 ≤ symbolSize v)) ∧
    ∀ b ∈ alignCoords standardTables v, a = b ∨ a + 5 ≤ b ∨ b + 5 ≤ a

theorem alignmentFits_table : ∀ i : Fin 40, AlignmentFits ((i : Nat) + 1) := by decide +kernel

theorem alignmentFits {v : Int} (hv : 1 ≤ v) (hhi : v ≤ 40) : AlignmentFits v := by
  have h := alignmentFits_table ⟨v.toNat - 1, by omega⟩
  rwa [show (((v.toNat - 1 : Nat) : Int) + 1) = v by omega] at h

/-! ## What the other parts write -/

theorem finderDark_mirror_column (dr dc : Int) : finderDark dr (6 - dc) = finderDark dr dc := by
  simp only [finderDark, decide_eq_decide]
  omega

theorem finderDark_mirror_row (dr dc : Int) : finderDark (6 - dr) dc = finderDark dr dc := by
  simp only [finderDark, decide_eq_decide]
  omega

theorem finderValue_mirror_column (dr dc : Int) : finderValue dr (6 - dc) = finderValue dr dc := by
  rw [finderValue, finderValue, finderDark_mirror_column]
  refine congrArg (· && _) (decide_eq_decide.2 ?_)
  omega

theorem finderValue_mirror_row (dr dc : Int) : finderValue (6 - dr) dc = finderValue dr dc := by
  rw [finderValue, finderValue, finderDark_mirror_row]
  refine congrArg (· && _) (decide_eq_decide.2 ?_)
  omega

theorem finderValue_natCast (r c : Nat) : finderValue r c = (decide (r < 7 ∧ c < 7) && finderDark r c) := by
  rw [finderValue]
  refine congrArg (· && _) (decide_eq_decide.2 ?_)
  omega

/-- What the parts of a full symbol's stamp but the alignment patterns write at a cell: the finder patterns, the timing
patterns, the dark module, and the format and version areas (R223, R224, R227, R228, R230). -/
def patternAtFull (v : Int) (n r c : Nat) : Option Module :=
  if r < 8 ∧ c < 8 then some ⟨.func, finderValue r c⟩
  else if r < 8 ∧ n ≤ c + 8 then some ⟨.func, finderValue r (n - 1 - c : Nat)⟩
  else if n ≤ r + 8 ∧ c < 8 then some ⟨.func, finderValue (n - 1 - r : Nat) c⟩
  else if r = 6 then some ⟨.func, c % 2 == 0⟩
  else if c = 6 then some ⟨.func, r % 2 == 0⟩
  else if r + 8 = n ∧ c = 8 then some ⟨.func, true⟩
  else if r = 8 ∧ (c ≤ 8 ∨ n ≤ c + 8) ∨ c = 8 ∧ (r ≤ 8 ∨ n ≤ r + 7) then some ⟨.rsvd, false⟩
  else if 7 ≤ v ∧ (r < 6 ∧ n ≤ c + 11 ∧ c + 8 < n ∨ c < 6 ∧ n ≤ r + 11 ∧ r + 8 < n) then some ⟨.rsvd, false⟩
  else none

/-- What the stamp of a Micro symbol writes at a cell (R223, R224, R229). -/
def patternAtMicro (r c : Nat) : Option Module :=
  if r < 8 ∧ c < 8 then some ⟨.func, finderValue r c⟩
  else if r = 0 then some ⟨.func, c % 2 == 0⟩
  else if c = 0 then some ⟨.func, r % 2 == 0⟩
  else if r = 8 ∧ c ≤ 8 ∨ c = 8 ∧ r ≤ 8 then some ⟨.rsvd, false⟩
  else none

/-- What the stamp but for the alignment patterns writes at a cell. -/
def patternAt (v : Int) (r c : Nat) : Option Module :=
  if 1 ≤ v then patternAtFull v (symbolSize v) r c else patternAtMicro r c

/-- A write writes what `f` says of its cell. -/
def AgreesWith (f : Nat → Nat → Option Module) (w : CellWrite) : Prop := f w.1 w.2.1 = some w.2.2

theorem agreesWith_setf {f : Nat → Nat → Option Module} {r c : Nat} {b : Bool} :
    AgreesWith f (setf r c b) ↔ f r c = some ⟨.func, b⟩ := Iff.rfl

theorem agreesWith_setr {f : Nat → Nat → Option Module} {r c : Nat} :
    AgreesWith f (setr r c) ↔ f r c = some ⟨.rsvd, false⟩ := Iff.rfl

section
variable {v : Int} {n : Nat} {w : CellWrite}

theorem patternAtFull_finder (h : w ∈ finderWrites n (0, 0)) : AgreesWith (patternAtFull v n) w := by
  obtain ⟨dr, dc, hdr, hdc, hin, rfl⟩ := mem_finderWrites.1 h
  rw [agreesWith_setf, patternAtFull, if_pos (by omega), show (((0 : Nat) + dr).toNat : Int) = dr by omega,
    show (((0 : Nat) + dc).toNat : Int) = dc by omega]

theorem patternAtFull_finder_right (hn : 21 ≤ n) (h : w ∈ finderWrites n (0, n - 7)) :
    AgreesWith (patternAtFull v n) w := by
  obtain ⟨dr, dc, hdr, hdc, hin, rfl⟩ := mem_finderWrites.1 h
  rw [agreesWith_setf, patternAtFull, if_neg (by omega), if_pos (by omega), ← finderValue_mirror_column,
    show (((0 : Nat) + dr).toNat : Int) = dr by omega,
    show 6 - ((n - 1 - ((n - 7 : Nat) + dc).toNat : Nat) : Int) = dc by omega]

theorem patternAtFull_finder_left (hn : 21 ≤ n) (h : w ∈ finderWrites n (n - 7, 0)) :
    AgreesWith (patternAtFull v n) w := by
  obtain ⟨dr, dc, hdr, hdc, hin, rfl⟩ := mem_finderWrites.1 h
  rw [agreesWith_setf, patternAtFull, if_neg (by omega), if_neg (by omega), if_pos (by omega), ← finderValue_mirror_row,
    show (((0 : Nat) + dc).toNat : Int) = dc by omega,
    show 6 - ((n - 1 - ((n - 7 : Nat) + dr).toNat : Nat) : Int) = dr by omega]

theorem patternAtFull_timing (h : w ∈ timingWrites false n) : AgreesWith (patternAtFull v n) w := by
  obtain ⟨i, hi, rfl | rfl⟩ := mem_timingWrites_full.1 h
  · rw [agreesWith_setf, patternAtFull, if_neg (by omega), if_neg (by omega), if_neg (by omega), if_pos rfl]
  · rw [agreesWith_setf, patternAtFull, if_neg (by omega), if_neg (by omega), if_neg (by omega), if_neg (by omega),
      if_pos rfl]

theorem patternAtFull_dark (hn : 21 ≤ n) : AgreesWith (patternAtFull v n) (setf (n - 8) 8 true) := by
  rw [agreesWith_setf, patternAtFull, if_neg (by omega), if_neg (by omega), if_neg (by omega), if_neg (by omega),
    if_neg (by omega), if_pos (by omega)]

theorem patternAtFull_format (hn : 21 ≤ n) (h : w ∈ formatAreaFull n) : AgreesWith (patternAtFull v n) w := by
  obtain ⟨r, c, rfl, hrc⟩ := mem_formatAreaFull h
  have hzone : r = 8 ∧ c ≤ 8 ∧ c ≠ 6 ∨ c = 8 ∧ r ≤ 8 ∧ r ≠ 6 ∨ r = 8 ∧ n ≤ c + 8 ∧ c < n ∨
      c = 8 ∧ n ≤ r + 7 ∧ r < n := by
    obtain h | h | ⟨i, hi, h⟩ | ⟨i, hi, h⟩ := hrc <;> omega
  rw [agreesWith_setr, patternAtFull, if_neg (by omega), if_neg (by omega), if_neg (by omega), if_neg (by omega),
    if_neg (by omega), if_neg (by omega), if_pos (by omega)]

theorem patternAtFull_version (hn : 21 ≤ n) (h : w ∈ versionArea v n) : AgreesWith (patternAtFull v n) w := by
  obtain ⟨r, c, rfl, hv, hrc⟩ := mem_versionArea h
  rw [agreesWith_setr, patternAtFull, if_neg (by omega), if_neg (by omega), if_neg (by omega), if_neg (by omega),
    if_neg (by omega), if_neg (by omega), if_neg (by omega), if_pos ⟨hv, by omega⟩]

theorem patternAtMicro_stamp (hv : v < 1) {T : CfgTables} (h : w ∈ stampWrites T v) : AgreesWith patternAtMicro w := by
  obtain h | h | h := (mem_stampWrites_micro hv).1 h
  · obtain ⟨dr, dc, hdr, hdc, hin, rfl⟩ := mem_finderWrites.1 h
    rw [agreesWith_setf, patternAtMicro, if_pos (by omega), show (((0 : Nat) + dr).toNat : Int) = dr by omega,
      show (((0 : Nat) + dc).toNat : Int) = dc by omega]
  · obtain ⟨i, hi, rfl | rfl⟩ := mem_timingWrites_micro.1 h
    · rw [agreesWith_setf, patternAtMicro, if_neg (by omega), if_pos rfl]
    · rw [agreesWith_setf, patternAtMicro, if_neg (by omega), if_neg (by omega), if_pos rfl]
  · obtain ⟨r, c, rfl, hrc⟩ := mem_formatAreaMicro h
    rw [agreesWith_setr, patternAtMicro, if_neg (by omega), if_neg (by omega), if_neg (by omega), if_pos (by omega)]

/-! ## The alignment patterns -/

/-- The centres: even coordinates, each 6, that of the lower finder patterns, or well between, and not both at finder
patterns. -/
theorem centre_bounds (hv : 1 ≤ v) (hhi : v ≤ 40) {a b : Nat}
    (h : (a, b) ∈ alignmentCentres (alignCoords standardTables v)) : a % 2 = 0 ∧ b % 2 = 0 ∧
      (a = 6 ∧ 16 ≤ b ∧ b + 23 ≤ symbolSize v ∨ b = 6 ∧ 16 ≤ a ∧ a + 23 ≤ symbolSize v ∨ 16 ≤ a ∧ 16 ≤ b) := by
  have hn := symbolSize_full hv
  obtain ⟨ha, hb, h66, h6l, hl6⟩ := mem_alignmentCentres.1 h
  obtain ⟨ha2, hlast, hza, -⟩ := alignmentFits hv hhi a ha
  obtain ⟨hb2, -, hzb, -⟩ := alignmentFits hv hhi b hb
  omega

/-- An alignment pattern agrees with the rest of the stamp where it meets it, on the timing lines (R231 (b)). -/
theorem patternAtFull_alignment (hv : 1 ≤ v) (hhi : v ≤ 40) (h : w ∈ allAlignmentWrites standardTables v) :
    AgreesWith (patternAtFull v (symbolSize v)) w ∨ patternAtFull v (symbolSize v) w.1 w.2.1 = none := by
  have hn := symbolSize_full hv
  obtain ⟨⟨a, b⟩, hab, hw⟩ := mem_allAlignmentWrites.1 h
  obtain ⟨ha2, hb2, hzone⟩ := centre_bounds hv hhi hab
  obtain ⟨dr, dc, hdr, hdc, rfl⟩ := mem_alignmentWrites.1 hw
  have hparity (k : Nat) (hk : k % 2 = 0) (d : Int) (hd : -2 ≤ d ∧ d ≤ 2) (h2 : 2 ≤ k) :
      (((k : Int) + d).toNat % 2 == 0) = decide (d.natAbs ≠ 1) := by
    rw [Bool.eq_iff_iff, beq_iff_eq, decide_eq_true_eq]
    omega
  change patternAtFull v (symbolSize v) (a + dr).toNat (b + dc).toNat = some ⟨.func, decide _⟩ ∨
    patternAtFull v (symbolSize v) (a + dr).toNat (b + dc).toNat = none
  rw [patternAtFull, if_neg (by omega), if_neg (by omega), if_neg (by omega)]
  by_cases hr : (a + dr).toNat = 6
  · obtain rfl : dr = 0 := by omega
    rw [if_pos hr, hparity b hb2 dc hdc (by omega)]
    left
    simp
  by_cases hc : (b + dc).toNat = 6
  · obtain rfl : dc = 0 := by omega
    rw [if_neg hr, if_pos hc, hparity a ha2 dr hdr (by omega)]
    left
    simp
  · right
    rw [if_neg hr, if_neg hc, if_neg (by omega), if_neg (by omega), if_neg (by omega)]

/-- Two alignment patterns do not meet. -/
theorem alignment_agree (hv : 1 ≤ v) (hhi : v ≤ 40) {w' : CellWrite} (h : w ∈ allAlignmentWrites standardTables v)
    (h' : w' ∈ allAlignmentWrites standardTables v) (hr : w'.1 = w.1) (hc : w'.2.1 = w.2.1) : w'.2.2 = w.2.2 := by
  obtain ⟨⟨a, b⟩, hab, hw⟩ := mem_allAlignmentWrites.1 h
  obtain ⟨⟨a', b'⟩, hab', hw'⟩ := mem_allAlignmentWrites.1 h'
  obtain ⟨-, -, hzone⟩ := centre_bounds hv hhi hab
  obtain ⟨-, -, hzone'⟩ := centre_bounds hv hhi hab'
  obtain ⟨ha, hb, -⟩ := mem_alignmentCentres.1 hab
  obtain ⟨ha', hb', -⟩ := mem_alignmentCentres.1 hab'
  obtain ⟨-, -, -, hfar⟩ := alignmentFits hv hhi a ha
  obtain ⟨-, -, -, hfar'⟩ := alignmentFits hv hhi b hb
  have hfarA := hfar a' ha'
  have hfarB := hfar' b' hb'
  obtain ⟨dr, dc, hdr, hdc, rfl⟩ := mem_alignmentWrites.1 hw
  obtain ⟨dr', dc', hdr', hdc', rfl⟩ := mem_alignmentWrites.1 hw'
  simp only [setf] at hr hc ⊢
  obtain ⟨rfl, rfl⟩ : dr' = dr ∧ dc' = dc := by omega
  rfl

/-! ## Every write is what its cell ends with -/

/-- What a write of the stamp writes: the pattern of its cell, or, where there is none, an alignment pattern. -/
theorem patternAt_of_mem (hhi : v ≤ 40) (h : w ∈ stampWrites standardTables v) :
    patternAt v w.1 w.2.1 = some w.2.2 ∨
      patternAt v w.1 w.2.1 = none ∧ 1 ≤ v ∧ w ∈ allAlignmentWrites standardTables v := by
  obtain hv | hv := lt_or_ge v 1
  · rw [patternAt, if_neg (Int.not_le.2 hv)]
    exact .inl (patternAtMicro_stamp hv h)
  · have hsize := symbolSize_full hv
    have hn : 21 ≤ symbolSize v := by omega
    rw [patternAt, if_pos hv]
    obtain ((h | h | h) | h) | h | rfl | h | h := (mem_stampWrites_full hv).1 h
    · exact .inl (patternAtFull_finder h)
    · exact .inl (patternAtFull_finder_right hn h)
    · exact .inl (patternAtFull_finder_left hn h)
    · exact .inl (patternAtFull_timing h)
    · exact (patternAtFull_alignment hv hhi h).imp_right fun hnone => ⟨hnone, hv, h⟩
    · exact .inl (patternAtFull_dark hn)
    · exact .inl (patternAtFull_format hn h)
    · exact .inl (patternAtFull_version hn h)

/-- No two writes of the stamp to one cell disagree (R231 (b)). -/
theorem stampWrites_agree (hhi : v ≤ 40) {w' : CellWrite} (h : w ∈ stampWrites standardTables v)
    (h' : w' ∈ stampWrites standardTables v) (hr : w'.1 = w.1) (hc : w'.2.1 = w.2.1) : w'.2.2 = w.2.2 := by
  have hcell := patternAt_of_mem hhi h'
  rw [hr, hc] at hcell
  obtain hw | ⟨hw, hv, halign⟩ := patternAt_of_mem hhi h
  · obtain hw' | ⟨hw', -⟩ := hcell
    · exact Option.some.inj (hw'.symm.trans hw)
    · exact absurd (hw'.symm.trans hw) nofun
  · obtain hw' | ⟨-, -, halign'⟩ := hcell
    · exact absurd (hw.symm.trans hw') nofun
    · exact alignment_agree hv hhi halign halign' hr hc

/-- A cell that some of the writes name, and all that name it write the same, ends with that. -/
theorem get_applyWrites_of_agree {ws : List CellWrite} (m : Mat) (hw : w ∈ ws) (hr : w.1 < nmax) (hc : w.2.1 < nmax)
    (hagree : ∀ w' ∈ ws, w'.1 = w.1 → w'.2.1 = w.2.1 → w'.2.2 = w.2.2) :
    (applyWrites m ws).get w.1 w.2.1 = w.2.2 := by
  rw [get_applyWrites ws m hr hc]
  cases hfind : ws.reverse.find? fun w' => decide (w'.1 = w.1 ∧ w'.2.1 = w.2.1) with
  | none =>
    have hnone := List.find?_eq_none.1 hfind w (List.mem_reverse.2 hw)
    exact absurd (decide_eq_true ⟨rfl, rfl⟩) hnone
  | some w' =>
    have hfound := List.find?_some hfind
    rw [decide_eq_true_eq] at hfound
    obtain ⟨hr', hc'⟩ := hfound
    exact hagree w' (List.mem_reverse.1 (List.mem_of_find?_eq_some hfind)) hr' hc'

theorem get_stampedMat (hlo : -3 ≤ v) (hhi : v ≤ 40) (h : w ∈ stampWrites standardTables v) :
    (stampedMat standardTables v).get w.1 w.2.1 = w.2.2 := by
  have hmax := symbolSize_le hhi
  obtain ⟨hr, hc⟩ := stampWrites_inside hlo hhi standardTables_fit h
  exact get_applyWrites_of_agree _ h (hr.trans_le hmax) (hc.trans_le hmax) fun w' h' => stampWrites_agree hhi h h'

end

/-! ## The patterns -/

section
variable {v : Int}

theorem mem_stampWrites_finder (T : CfgTables) (hlo : -3 ≤ v) {r c : Nat} (hr : r < 8) (hc : c < 8) :
    setf r c (finderValue r c) ∈ stampWrites T v := by
  have hsize : 8 < symbolSize v := by
    obtain ⟨K, hn, hK⟩ := symbolSize_eq_strips hlo
    omega
  have hmem : setf r c (finderValue r c) ∈ finderWrites (symbolSize v) (0, 0) :=
    mem_finderWrites.2 ⟨r, c, by omega, by omega, by omega, by simp⟩
  obtain hv | hv := lt_or_ge v 1
  · exact (mem_stampWrites_micro hv).2 (.inl hmem)
  · exact (mem_stampWrites_full hv).2 (.inl (.inl (.inl hmem)))

theorem mem_stampWrites_finder_right (T : CfgTables) (hv : 1 ≤ v) {r c : Nat} (hr : r < 8) (hc : c < 8) :
    setf r (symbolSize v - 1 - c) (finderValue r c) ∈ stampWrites T v := by
  have hn := symbolSize_full hv
  refine (mem_stampWrites_full hv).2 (.inl (.inl (.inr (.inl (mem_finderWrites.2
    ⟨r, 6 - c, by omega, by omega, by omega, ?_⟩)))))
  rw [finderValue_mirror_column]
  simp only [setf, Prod.mk.injEq, and_true]
  omega

theorem mem_stampWrites_finder_left (T : CfgTables) (hv : 1 ≤ v) {r c : Nat} (hr : r < 8) (hc : c < 8) :
    setf (symbolSize v - 1 - r) c (finderValue r c) ∈ stampWrites T v := by
  have hn := symbolSize_full hv
  refine (mem_stampWrites_full hv).2 (.inl (.inl (.inr (.inr (mem_finderWrites.2
    ⟨6 - r, c, by omega, by omega, by omega, ?_⟩)))))
  rw [finderValue_mirror_row]
  simp only [setf, Prod.mk.injEq, and_true]
  omega

theorem mem_stampWrites_alignment (hhi : v ≤ 40) {ab : Nat × Nat}
    (hab : ab ∈ alignmentCentres (alignCoords standardTables v)) {dr dc : Nat} (hdr : dr < 5) (hdc : dc < 5) :
    setf (ab.1 + dr - 2) (ab.2 + dc - 2) (decide (max ((dr : Int) - 2).natAbs ((dc : Int) - 2).natAbs ≠ 1)) ∈
      stampWrites standardTables v := by
  obtain hv | hv := lt_or_ge v 1
  · rw [alignCoords, if_neg (Int.not_le.2 hv)] at hab
    cases hab
  obtain ⟨a, b⟩ := ab
  obtain ⟨-, -, hzone⟩ := centre_bounds hv hhi hab
  refine (mem_stampWrites_full hv).2 (.inr (.inl (mem_allAlignmentWrites.2 ⟨_, hab, mem_alignmentWrites.2
    ⟨dr - 2, dc - 2, by omega, by omega, ?_⟩⟩)))
  simp only [setf, Prod.mk.injEq, and_true]
  omega

theorem mem_stampWrites_of_reserved (T : CfgTables) {w : CellWrite} (h : w ∈ reservedWrites v) : w ∈ stampWrites T v := by
  obtain ⟨ws, hws⟩ := stampWrites_ends_reserved T v
  rw [hws]
  exact List.mem_append_right _ h

end

end Sys2Proof.Machine

namespace Sys2Proof.Proofs

open Sys2Proof.Machine

/-- Settles O49: each pattern's cells are written with it, and no other write of the stamp disagrees. -/
theorem stampedPatterns : Obligations.StampedPatterns := by
  rintro v st hlo hhi rfl
  have hget {w : CellWrite} (h : w ∈ stampWrites standardTables v) := get_stampedMat hlo hhi h
  refine ⟨fun r c hr hc => ?_, fun hv => ⟨fun i h8 hi => ?_, ?_⟩, fun hv i h8 hi => ?_, fun ab hab dr dc hdr hdc => ?_,
    fun i hi rc hrc => ?_, fun hv i hi rc hrc => ?_⟩
  · rw [← finderValue_natCast]
    exact ⟨hget (mem_stampWrites_finder _ hlo hr hc), fun hv => ⟨hget (mem_stampWrites_finder_right _ hv hr hc),
      hget (mem_stampWrites_finder_left _ hv hr hc)⟩⟩
  · have hn := symbolSize_full hv
    have htiming {w : CellWrite} (h : w = setf 6 i (i % 2 == 0) ∨ w = setf i 6 (i % 2 == 0)) :
        w ∈ stampWrites standardTables v :=
      (mem_stampWrites_full hv).2 (.inl (.inr (mem_timingWrites_full.2 ⟨i, by omega, h⟩)))
    exact ⟨hget (htiming (.inl rfl)), hget (htiming (.inr rfl))⟩
  · exact hget ((mem_stampWrites_full hv).2 (.inr (.inr (.inl rfl))))
  · have htiming {w : CellWrite} (h : w = setf 0 i (i % 2 == 0) ∨ w = setf i 0 (i % 2 == 0)) :
        w ∈ stampWrites standardTables v :=
      (mem_stampWrites_micro hv).2 (.inr (.inl (mem_timingWrites_micro.2 ⟨i, by omega, h⟩)))
    exact ⟨hget (htiming (.inl rfl)), hget (htiming (.inr rfl))⟩
  · exact hget (mem_stampWrites_alignment hhi hab hdr hdc)
  · exact hget (mem_stampWrites_of_reserved _ (formatCells_reserved hi hrc))
  · exact hget (mem_stampWrites_of_reserved _ (versionCells_reserved hv hi hrc))

end Sys2Proof.Proofs
end

section
/-! The statement about the invariant of the matrix (10_state.md, R27, R63, R220, R221, R231).  A step keeps the matrix with
the version, or blanks the corner, or stamps, or changes values of data modules or, at the end, of reserved modules inside
the symbol. -/

namespace Sys2Proof.Machine

/-! ## What a command leaves outside the symbol -/

section
variable {i : Instr} {s t : State} {w : Piece → Prop} {post : State → Prop}

theorem Completes.of_exec (h : Completes i s w post) (ht : exec i s = .next t) :
    post t ∧ Frame (either w (only [.cmdcnt])) s t := by
  obtain ⟨u, hu, hpost, -, hframe⟩ := h
  cases hu.symm.trans ht
  exact ⟨hpost, hframe⟩

theorem Faults.keepsMat {c : FaultCode} (h : Faults i s c) (ht : exec i s = .next t) : KeepsMat s t := by
  cases (show exec i s = _ from h).symm.trans ht
  exact ⟨rfl, rfl, rfl⟩

/-- Outside the symbol no cell changes from `s` to `t`. -/
def SameOutside (s t : State) : Prop := ∀ r c, s.side ≤ r ∨ s.side ≤ c → t.mat.get r c = s.mat.get r c

/-- A command whose cells lie inside the symbol. -/
theorem Frame.sameOutside (h : Frame (either w (only [.cmdcnt])) s t)
    (hw : ∀ r c, w (.cell r c) → r < s.side ∧ c < s.side) : SameOutside s t := by
  intro r c hout
  refine h (.cell r c) fun hin => ?_
  obtain ⟨hr, hc⟩ := hw r c (hin.resolve_right (by simp [only]))
  omega

theorem cornerCells_inside {chosen : Nat → Nat → Prop} {r c : Nat} (h : cornerCells s chosen (.cell r c)) :
    r < s.side ∧ c < s.side := by
  obtain ⟨r', c', heq, hr, hc, -⟩ := h
  cases heq
  exact ⟨hr, hc⟩

end

/-! ## Changes that keep the invariant -/

section
variable {s t : State}

theorem matInv_of_keepsMat (h : s.MatInv) (hkeep : KeepsMat s t) (hversion : s.phase ≠ .idle → t.version = s.version) :
    t.MatInv := by
  obtain ⟨hcfg, hmat, hphase⟩ := hkeep
  have hsame (hp : 2 ≤ s.phase.code) : t.tables = s.tables ∧ t.versionInt = s.versionInt := by
    have hne : s.phase ≠ .idle := fun he => absurd hp (by rw [he]; decide)
    exact ⟨congrArg Config.toCfgTables hcfg, congrArg BitVec.toInt (hversion hne)⟩
  constructor
  · rw [hmat, hphase]
    exact h.blank
  · intro hp
    rw [hphase] at hp
    obtain ⟨hT, hv⟩ := hsame hp
    rw [hmat, hT, hv]
    exact h.classes hp
  · intro hp
    rw [hphase] at hp
    obtain ⟨hT, hv⟩ := hsame hp
    rw [hmat, hT, hv]
    exact h.functions hp
  · rw [hmat, hphase]
    exact h.reserved
  · intro r c hout
    rw [hmat]
    obtain hp | hp := lt_or_ge s.phase.code 2
    · exact h.blank hp r c
    · refine h.outside r c ?_
      rwa [State.side, ← (hsame hp).2]

/-- Values of data modules, or at the end of reserved modules, that change inside the symbol. -/
theorem matInv_of_valuesOnly (h : s.MatInv) {k : ModClass} (hk : k ≠ .func) (hvalues : ValuesOnly k s.mat t.mat)
    (hout : SameOutside s t) (hcfg : t.cfg = s.cfg) (hversion : t.version = s.version)
    (hp : 2 ≤ s.phase.code ∧ s.phase.code < 5) (ht : 2 ≤ t.phase.code) (hreserved : t.phase.code < 5 → k ≠ .rsvd) :
    t.MatInv := by
  have hT : t.tables = s.tables := congrArg Config.toCfgTables hcfg
  have hv : t.versionInt = s.versionInt := congrArg BitVec.toInt hversion
  have hfixed := hvalues.functions_fixed hk
  constructor
  · exact fun hlt => absurd ht (Nat.not_le.2 hlt)
  · intro _ r c
    rw [(hfixed r c).1, hT, hv]
    exact h.classes hp.1 r c
  · intro _ r c hfunc
    rw [(hfixed r c).1] at hfunc
    rw [(hfixed r c).2 hfunc, hT, hv]
    exact h.functions hp.1 r c hfunc
  · intro hlt r c hrsvd
    rw [(hvalues r c).1] at hrsvd
    rw [(hvalues r c).2 (hrsvd.trans_ne (hreserved hlt).symm)]
    exact h.reserved hp.2 r c hrsvd
  · intro r c hrc
    rw [State.side, hv] at hrc
    exact (hout r c hrc).trans (h.outside r c hrc)

/-- A matrix all of whose cells are blank, before the stamp. -/
theorem matInv_of_blank (hblank : ∀ r c, t.mat.get r c = ⟨.data, false⟩) (hp : t.phase.code < 2) : t.MatInv where
  blank := fun _ => hblank
  classes := fun h => absurd hp (Nat.not_lt.2 h)
  functions := fun h => absurd hp (Nat.not_lt.2 h)
  reserved := fun _ r c _ => by rw [hblank]
  outside := fun r c _ => hblank r c

end

/-! ## The stamp -/

section
variable {T : CfgTables} {v : Int}

/-- The reserved modules are written light (R221). -/
theorem val_of_rsvd_write {w : CellWrite} (h : w ∈ stampWrites T v) (hrsvd : w.2.2.cls = .rsvd) : w.2.2.val = false := by
  have hfunc {r c : Nat} {b : Bool} (h : (setf r c b).2.2.cls = .rsvd) : (setf r c b).2.2.val = false := absurd h nofun
  have hfinder {n a b : Nat} (h : w ∈ finderWrites n (a, b)) : w.2.2.val = false := by
    obtain ⟨_, _, -, -, -, rfl⟩ := mem_finderWrites.1 h
    exact hfunc hrsvd
  obtain hv | hv := lt_or_ge v 1
  · obtain h | h | h := (mem_stampWrites_micro hv).1 h
    · exact hfinder h
    · obtain ⟨_, -, rfl | rfl⟩ := mem_timingWrites_micro.1 h <;> exact hfunc hrsvd
    · obtain ⟨_, _, rfl, -⟩ := mem_formatAreaMicro h
      rfl
  · obtain ((h | h | h) | h) | h | rfl | h | h := (mem_stampWrites_full hv).1 h
    · exact hfinder h
    · exact hfinder h
    · exact hfinder h
    · obtain ⟨_, -, rfl | rfl⟩ := mem_timingWrites_full.1 h <;> exact hfunc hrsvd
    · obtain ⟨_, -, hw⟩ := mem_allAlignmentWrites.1 h
      obtain ⟨_, _, -, -, rfl⟩ := mem_alignmentWrites.1 hw
      exact hfunc hrsvd
    · exact hfunc hrsvd
    · obtain ⟨_, _, rfl, -⟩ := mem_formatAreaFull h
      rfl
    · obtain ⟨_, _, rfl, -⟩ := mem_versionArea h
      rfl

theorem val_stampedMat_of_rsvd {r c : Nat} (h : ((stampedMat T v).get r c).cls = .rsvd) :
    ((stampedMat T v).get r c).val = false := by
  by_cases hin : r < nmax ∧ c < nmax
  · have hget : (stampedMat T v).get r c = _ := get_applyWrites (stampWrites T v) State.reset.mat hin.1 hin.2
    rw [hget] at h ⊢
    cases hfind : (stampWrites T v).reverse.find? fun w => decide (w.1 = r ∧ w.2.1 = c) with
    | none =>
      rw [hfind, Option.map_none, Option.getD_none, Mat.get_reset] at h
      cases h
    | some w =>
      rw [hfind] at h
      exact val_of_rsvd_write (List.mem_reverse.1 (List.mem_of_find?_eq_some hfind)) h
  · rw [Mat.get_outside _ hin]

theorem matInv_of_stamped {t : State} (hmat : t.mat = stampedMat t.tables t.versionInt) (hp : t.phase = .stamped)
    (hlegal : t.versionLegal) (hT : TablesFit t.tables) : t.MatInv := by
  constructor
  · exact fun h => absurd h (by rw [hp]; decide)
  · intro _ r c
    rw [hmat]
  · intro _ r c _
    rw [hmat]
  · intro _ r c hrsvd
    rw [hmat] at hrsvd ⊢
    exact val_stampedMat_of_rsvd hrsvd
  · intro r c hout
    rw [hmat]
    refine (get_stamped_outside hlegal.1 hlegal.2 hT _ ?_).trans (Mat.get_reset r c)
    rintro ⟨hr, hc⟩
    exact hout.elim (Nat.not_le.2 hr) (Nat.not_le.2 hc)

end

/-! ## The commands that write the matrix -/

theorem matInv_of_matAlloc {s t : State} (h : s.MatInv) (hp : s.phase = .idle) (ht : exec .matAlloc s = .next t) : t.MatInv := by
  cases hv : s.validSpec
  · exact matInv_of_keepsMat h ((faults_matAlloc_invalid hp hv).keepsMat ht) fun hne => absurd hp hne
  · obtain ⟨⟨htp, hblank⟩, hframe⟩ := (completes_matAlloc hp hv).of_exec ht
    refine matInv_of_blank (fun r c => ?_) (by rw [htp]; decide)
    by_cases hin : r < s.side ∧ c < s.side
    · exact hblank r c hin.1 hin.2
    · refine Eq.trans (b := s.mat.get r c) (hframe (.cell r c) ?_) (h.blank (by rw [hp]; decide) r c)
      rintro ((hcell | hcell) | hcell)
      · exact hin (cornerCells_inside hcell)
      · simp [only] at hcell
      · simp [only] at hcell

section
variable {s t : State} (hinv : s.Inv) (h : s.MatInv)
include hinv h

theorem matInv_of_matStamp (hp : s.phase = .allocated) (ht : exec .matStamp s = .next t) : t.MatInv := by
  obtain ⟨-, hcfg, hversion⟩ := safe_of_exec hinv ht
  have hT : t.tables = s.tables := congrArg Config.toCfgTables hcfg
  have hv : t.versionInt = s.versionInt := congrArg BitVec.toInt (hversion (by rw [hp]; decide))
  obtain ⟨⟨htp, hmat, -⟩, -⟩ := (completes_matStamp hinv.version hinv.tables hp).of_exec ht
  have hreset : s.mat = State.reset.mat := Mat.ext_of_get fun r c _ _ =>
    (h.blank (by rw [hp]; decide) r c).trans (Mat.get_reset r c).symm
  refine matInv_of_stamped ?_ htp ?_ (hT ▸ hinv.tables)
  · rw [hmat, hT, hv, hreset]
    rfl
  · rw [State.versionLegal, hv]
    exact hinv.version

/-- `MAT.PLACE` and the mask commands change data modules inside the symbol. -/
theorem matInv_of_dataValues {i : Instr} (ht : exec i s = .next t) (hp : 2 ≤ s.phase.code ∧ s.phase.code < 5)
    (htp : 2 ≤ t.phase.code) (hvalues : ValuesOnly .data s.mat t.mat) (hout : SameOutside s t) : t.MatInv := by
  obtain ⟨-, hcfg, hversion⟩ := safe_of_exec hinv ht
  have hne : s.phase ≠ .idle := fun he => absurd hp.1 (by rw [he]; decide)
  exact matInv_of_valuesOnly h (by decide) hvalues hout hcfg (hversion hne) hp htp fun _ => by decide

theorem matInv_of_matPlace (hp : s.phase = .stamped) (hvalues : ValuesOnly .data s.mat t.mat)
    (ht : exec .matPlace s = .next t) : t.MatInv := by
  obtain ⟨htp, hframe⟩ := (completes_of_ok (exec_matPlace hinv.tables hp) frame_placed
    (post := fun u => u.phase = .placed) rfl).of_exec ht
  refine matInv_of_dataValues hinv h ht (by rw [hp]; decide) (by rw [htp]; decide) hvalues (hframe.sameOutside ?_)
  rintro r c (⟨rc, hrc, heq⟩ | hcell)
  · cases heq
    obtain ⟨hr, hc, -⟩ := (mem_placementOrder hinv.version.1 s.mat).1 hrc
    exact ⟨hr, hc⟩
  · simp [only] at hcell

theorem matInv_of_maskApply {k : BitVec 16} (hp : s.phase = .placed) (hvalues : ValuesOnly .data s.mat t.mat)
    (ht : exec (.maskApply k) s = .next t) : t.MatInv := by
  have htp : t.phase.code = s.phase.code ∨ t.phase.code = s.phase.code + 1 := exec_phase ht
  have hphases : 2 ≤ s.phase.code ∧ s.phase.code < 5 := by rw [hp]; decide
  refine matInv_of_dataValues hinv h ht hphases (by omega) hvalues ?_
  by_cases hk : k.toNat < maskCount s.versionInt
  · obtain ⟨-, hframe⟩ := (completes_maskApply hinv.version hp hk).of_exec ht
    exact hframe.sameOutside fun r c => cornerCells_inside
  · have hfault : Faults (.maskApply k) s .maskErr := faults_of_error
      ((exec_maskApply k hp).trans (congrArg _ (faultIf_fault (decide_eq_true (Nat.not_lt.1 hk)))))
    obtain ⟨-, hmat, -⟩ := hfault.keepsMat ht
    exact fun r c _ => by rw [hmat]

theorem matInv_of_maskSelect (hp : s.phase = .placed) (hvalues : ValuesOnly .data s.mat t.mat)
    (ht : exec .maskSelect s = .next t) : t.MatInv := by
  have htp : t.phase.code = s.phase.code ∨ t.phase.code = s.phase.code + 1 := exec_phase ht
  have hphases : 2 ≤ s.phase.code ∧ s.phase.code < 5 := by rw [hp]; decide
  have hinside {l : List Piece} (hl : ∀ r c, Piece.cell r c ∉ l) :
      ∀ r c, either (dataCells s) (only l) (.cell r c) → r < s.side ∧ c < s.side := fun r c hin =>
    hin.elim cornerCells_inside fun hmem => absurd hmem (hl r c)
  refine matInv_of_dataValues hinv h ht hphases (by omega) hvalues ?_
  by_cases h8 : s.maskreq.toNat = 8
  · obtain ⟨-, hframe⟩ := (completes_maskSelect_auto hinv.version hp h8).of_exec ht
    exact hframe.sameOutside (hinside (by simp))
  by_cases hk : s.maskreq.toNat < maskCount s.versionInt
  · obtain ⟨-, hframe⟩ := (completes_maskSelect_forced hinv.version hp h8 hk).of_exec ht
    exact hframe.sameOutside (hinside (by simp))
  · have hfault : Faults .maskSelect s .maskErr := faults_of_error
      ((exec_maskSelect_forced hp h8).trans (congrArg _ (faultIf_fault (decide_eq_true (Nat.not_lt.1 hk)))))
    obtain ⟨-, hmat, -⟩ := hfault.keepsMat ht
    exact fun r c _ => by rw [hmat]

theorem matInv_of_fmtWrite (hp : s.phase = .masked) (hvalues : ValuesOnly .rsvd s.mat t.mat)
    (ht : exec .fmtWrite s = .next t) : t.MatInv := by
  obtain ⟨-, hcfg, hversion⟩ := safe_of_exec hinv ht
  obtain ⟨htp, hframe⟩ := (completes_of_ok (exec_fmtWrite hp) frame_formatted
    (post := fun u => u.phase = .final) rfl).of_exec ht
  refine matInv_of_valuesOnly h (by decide) hvalues (hframe.sameOutside ?_) hcfg (hversion (by rw [hp]; decide))
    (by rw [hp]; decide) (by rw [htp]; decide) fun hlt => absurd hlt (by rw [htp]; decide)
  rintro r c ((⟨i, hi, rc, hrc, heq⟩ | ⟨hv, i, hi, rc, hrc, heq⟩) | hcell)
  · cases heq
    exact (formatCells_inside hinv.version.1 hi hrc).2
  · cases heq
    exact (versionCells_inside hv hi hrc).2.2
  · simp [only] at hcell

/-- Every command keeps the invariant of the matrix. -/
theorem matInv_of_exec {i : Instr} (ht : exec i s = .next t) : t.MatInv := by
  obtain hkeep | ⟨-, hwrite⟩ := exec_keeps_or_writes ht
  · exact matInv_of_keepsMat h hkeep (safe_of_exec hinv ht).version
  · cases i with
    | matAlloc => exact matInv_of_matAlloc h hwrite ht
    | matStamp => exact matInv_of_matStamp hinv h hwrite ht
    | matPlace => exact matInv_of_matPlace hinv h hwrite.1 hwrite.2 ht
    | maskApply k => exact matInv_of_maskApply hinv h hwrite.1 hwrite.2 ht
    | maskSelect => exact matInv_of_maskSelect hinv h hwrite.1 hwrite.2 ht
    | fmtWrite => exact matInv_of_fmtWrite hinv h hwrite.1 (hwrite.fmtWrite_valuesOnly h) ht
    | _ => exact hwrite.elim

theorem matInv_of_step (ht : step s = .next t) : t.MatInv := by
  have keep {u : State} (hkeep : KeepsMat s u) (hversion : u.version = s.version) : u.MatInv :=
    matInv_of_keepsMat h hkeep fun _ => hversion
  obtain ⟨-, rfl⟩ | ⟨a, rest, -, ha⟩ := step_cases ht
  · exact h
  · have hrest : ({ s with host := rest } : State).Inv := hinv.withHost rest s.hostData
    have hrestMat : ({ s with host := rest } : State).MatInv := keep ⟨rfl, rfl, rfl⟩ rfl
    obtain ⟨w, -, rfl | rfl | ⟨i, hi⟩⟩ | ⟨b, v, -, rfl⟩ | ⟨answer, -, rfl⟩ | ⟨-, rfl⟩ := ha
    · exact hrestMat
    · exact keep ⟨rfl, rfl, rfl⟩ rfl
    · exact matInv_of_exec hrest hrestMat hi
    · exact keep ⟨rfl, rfl, rfl⟩ rfl
    · exact keep ⟨rfl, rfl, rfl⟩ rfl
    · exact matInv_of_blank Mat.get_reset Nat.zero_lt_two

end

end Sys2Proof.Machine

namespace Sys2Proof.Proofs

open Sys2Proof.Machine

/-- Settles O19: the version is fixed from `MAT.ALLOC` on, and each of the six commands that write the matrix writes inside
the symbol what the invariant allows in the phase it ends in. -/
theorem matrixInvariantKept : Obligations.MatrixInvariantKept := fun _ _ => matInv_of_step

end Sys2Proof.Proofs
end
